-- ==== Sys2Proof/Word.lean ====
section
/-! DEFINITION. The words and times of the PD8 station (spec 00_scope.md, section 6.2; 11, section 11.2).

Bit vectors are used where the manual speaks of a number modulo a power of two (times, seed numbers) or of
bits (link words, call frames). Amplitudes, charges, energies and counts are plain numbers. -/

namespace Sys2Proof

/-- A sample time: a timebase value, counted modulo 2^28 (section 6.2). -/
abbrev SampleTime := BitVec 28

/-- A fine-tick time, in sixteenths of a sample, counted modulo 2^32 (section 6.2). -/
abbrev FineTime := BitVec 32

/-- A word of the output link or a command word (R177, R183). -/
abbrev Word := BitVec 32

end Sys2Proof
end

