-- ==== Sys2Proof/Config.lean ====
section
/-! DEFINITION. What every PD8 has in common: the depths of its collections, the limits of its counts, and
the names of its configuration items. The spec leaves no value to the implementation and no result
undefined, so this file holds no free value. -/

namespace Sys2Proof

namespace Config

/-- Entries of the Hit Store (R56). -/
abbrev hitStoreDepth : Nat := 256

/-- Calls of the Call Queue (R72). -/
abbrev callQueueDepth : Nat := 4

/-- Entries of the Seed List (R117). -/
abbrev seedListDepth : Nat := 16

/-- Words of the Readout Queue (R139). -/
abbrev readoutDepth : Nat := 4096

/-- Words of the Command Queue (R165). -/
abbrev commandQueueDepth : Nat := 8

/-- Samples a Waveform Pool slot holds (R35). -/
abbrev slotDepth : Nat := 32

/-- The value at which a counter stays (R173). -/
abbrev counterMax : Nat := 4294967295

/-- The value at which lost_after stays (R120). -/
abbrev lostAfterMax : Nat := 255

/-- The value at which a pile-up count stays (R26). -/
abbrev pileupMax : Nat := 3

/-- The recessive run that ends JOIN (R91). -/
abbrev joinRun : Nat := 44

/-- The dominant run that enters STUCK (R94). -/
abbrev stuckRun : Nat := 48

/-- CCLK edges from RESET_STATION to its release (R161). -/
abbrev resetEdges : Nat := 8

/-- Seed List occupancy that sets LIST_HOLD (R143). -/
abbrev listHoldSet : Nat := 12

/-- Seed List occupancy that clears LIST_HOLD (R143). -/
abbrev listHoldClear : Nat := 8

end Config

/-- The channel items (R168, first table), in the order of their codes (R183). -/
inductive ChannelItem where
  | enable | pedMode | pedHi | pedLo | trackShift | switchLevel | gainRatio | threshold
  | hysteresis | persist | gatePre | gateWidth | scaleShift | calib | waveMode
  deriving DecidableEq, Repr

/-- The station items (R168, second table), in the order of their codes (R183). -/
inductive StationItem where
  | seedThreshold | window | callDeadline | horizon | highMark | lowMark | solo
  deriving DecidableEq, Repr

/-- A configuration item, per channel or per station (R168). -/
inductive Item where
  | channel (i : ChannelItem)
  | station (i : StationItem)
  deriving DecidableEq, Repr

/-- PED_MODE by name: TRACK is 0 and FIXED is 1 (R168). -/
inductive PedMode where
  | track | fixed
  deriving DecidableEq, Repr

/-- WAVE_MODE by name: NEVER is 0, ON_FLAG is 1 and ALWAYS is 2 (R168). -/
inductive WaveMode where
  | never | onFlag | always
  deriving DecidableEq, Repr

end Sys2Proof
end

