-- ==== Sys2Proof/Syntax.lean ====
section
/-! DEFINITION. The commands of the block: one constructor per row of spec/opcode_table.json, with what the
rules say comes from outside with that step. Beside them, the command words that the Command Port reads
(R183). -/

namespace Sys2Proof

/-- A step of the station (spec/opcode_table.json). The steps of the Command Port (`set` to `resetStation`
and `unknownCommand`) have no operand of a command word: they carry out the word at the head of the Command
Queue (R166). A level operand is the level at this station's own pin, `true` for dominant or asserted. -/
inductive Instr where
  /-- A converter code pair arrives on a channel (R1). -/
  | codePairArrival (channel : Nat) (hi lo : BitVec 12)
  /-- A CCLK edge changes the timebase (R163); the levels of the backplane SEED and HOLD lines then. -/
  | timebaseAdvance (seedLevel holdLevel : Bool)
  /-- TZ is sampled at a CCLK edge (R164). -/
  | tzSample (tz : Bool)
  /-- Hits older than the horizon leave the Hit Store (R63). -/
  | hitExpiry
  /-- evict_mark is withdrawn (R60). -/
  | evictMarkWithdrawal
  /-- WAITING calls older than the deadline leave the Call Queue (R82). -/
  | callLapse
  /-- Listed seeds take their closed mark (R124). -/
  | seedClosed
  /-- Listed seeds take their late mark (R124). -/
  | seedLateMark
  /-- Listed seeds take their stale mark (R124). -/
  | seedStaleMark
  /-- The head of the Seed List is built (R127). -/
  | fragmentBuild
  /-- A call frame is started at a bit boundary (R98); the level of the backplane HOLD line there. -/
  | frameStart (holdLevel : Bool)
  /-- A start bit is heard in IDLE (R92). -/
  | startBitHeard
  /-- The own start bit is read recessive (R99). -/
  | startBitRecessive
  /-- The station's frame loses arbitration (R100). -/
  | arbitrationLost
  /-- The station objects at position 37 (R103). -/
  | objectionRaised
  /-- The frame is discarded at the end of position 37 (R104). -/
  | framesDiscarded
  /-- The frame is accepted at the end of position 37 (R105). -/
  | seedAccepted
  /-- The last gap bit is read recessive (R93). -/
  | frameGapEnd
  /-- A gap bit is read dominant (R93). -/
  | dominantGapBit
  /-- The recessive run ends JOIN (R91). -/
  | lineIdle
  /-- The dominant run enters STUCK (R94). -/
  | lineStuck
  /-- The first recessive read in STUCK (R94). -/
  | stuckRelease
  /-- The output link sends one word (R149). -/
  | linkWordSent
  /-- The station returns from DRAIN to SETUP (R158). -/
  | drainReturn
  /-- A command word arrives on the link (R165). -/
  | commandWordArrival (word : Word)
  /-- The SET at the head of the Command Queue is carried out (R169). -/
  | set
  /-- The READ_ITEM at the head is carried out (R170). -/
  | readItem
  /-- The START at the head is carried out (R155). -/
  | start
  /-- The STOP at the head is carried out (R157). -/
  | stop
  /-- The READ_STATUS at the head is carried out (R176); the level of the backplane HOLD line then. -/
  | readStatus (holdLevel : Bool)
  /-- The CLEAR_COUNTERS at the head is carried out (R175). -/
  | clearCounters
  /-- The LINK_PAUSE at the head is carried out (R150). -/
  | linkPause
  /-- The LINK_RESUME at the head is carried out (R150). -/
  | linkResume
  /-- The RESET_STATION at the head is carried out (R161). -/
  | resetStation
  /-- RSTN is asserted (R160). -/
  | rstnAssert
  /-- The station is released from reset, with the levels of its slot straps (R160, R162). -/
  | resetRelease (straps : BitVec 4)
  /-- The word of unknown kind at the head of the Command Queue is carried out (R184). -/
  | unknownCommand
  deriving DecidableEq, Repr

/-- The nine command kinds (R183). -/
inductive CommandKind where
  | set | readItem | start | stop | readStatus | clearCounters | linkPause | linkResume | resetStation
  deriving DecidableEq, Repr

/-- A command word of a known kind, by its fields (R183). The item and value fields are kept as they
arrived, since most kinds do not check them (R167). -/
structure CommandWord where
  /-- Bits 31..28. -/
  kind : CommandKind
  /-- Bits 27..24. -/
  channel : BitVec 4
  /-- Bits 23..18. -/
  item : BitVec 6
  /-- Bits 17..0. -/
  value : BitVec 18
  deriving DecidableEq, Repr

/-- Why a command word is refused (R167, R178). -/
inductive RefusalCode where
  | wrongState | unknownCommand | unknownItem | badChannel
  deriving DecidableEq, Repr

end Sys2Proof
end

