-- ==== Sys2Proof/WellFormed.lean ====
section
/-! DEFINITION. Which commands are well formed. Codes, straps and command words are bit vectors of the
width the spec gives and cannot be ill formed; the one number with a range is a channel (R54). -/

namespace Sys2Proof

/-- A command is well formed when its channel, if it has one, is one of the eight (R1, R54). -/
def Instr.wf : Instr → Bool
  | .codePairArrival channel _ _ => decide (channel < 8)
  | .timebaseAdvance _ _ | .tzSample _ => true
  | .hitExpiry | .evictMarkWithdrawal | .callLapse => true
  | .seedClosed | .seedLateMark | .seedStaleMark | .fragmentBuild => true
  | .frameStart _ | .startBitHeard | .startBitRecessive | .arbitrationLost => true
  | .objectionRaised | .framesDiscarded | .seedAccepted | .frameGapEnd => true
  | .dominantGapBit | .lineIdle | .lineStuck | .stuckRelease => true
  | .linkWordSent | .drainReturn | .commandWordArrival _ => true
  | .set | .readItem | .start | .stop | .readStatus _ | .clearCounters => true
  | .linkPause | .linkResume | .resetStation | .unknownCommand => true
  | .rstnAssert | .resetRelease _ => true

end Sys2Proof
end

