-- ==== Sys2Proof/Decode.lean ====
section
/-! DEFINITION. The words the block reads. No row of spec/opcode_table.json gives bits, so
`decodeTableWord` spells no command (log 21). What the block does decode is the command word of its
Command Port (R183, R184): its decoder stands here, total on all words, and its encoder after it. -/

namespace Sys2Proof

/-- The command that the `nbits` bits of `w` spell by the table. The table gives bits for no row. -/
def decodeTableWord (_nbits _w : Nat) : Option Instr := none

/-- The command kind a kind code names; 0 and 10..15 name none (R183, R184). -/
def kindOfCode (k : BitVec 4) : Option CommandKind :=
  match k.toNat with
  | 1 => some .set
  | 2 => some .readItem
  | 3 => some .start
  | 4 => some .stop
  | 5 => some .readStatus
  | 6 => some .clearCounters
  | 7 => some .linkPause
  | 8 => some .linkResume
  | 9 => some .resetStation
  | _ => none

/-- The code of a command kind (R183). -/
def codeOfKind : CommandKind → BitVec 4
  | .set => 1
  | .readItem => 2
  | .start => 3
  | .stop => 4
  | .readStatus => 5
  | .clearCounters => 6
  | .linkPause => 7
  | .linkResume => 8
  | .resetStation => 9

/-- The item an item code names; 15..31 and 39..63 name none (R183, R184). -/
def itemOfCode (c : BitVec 6) : Option Item :=
  match c.toNat with
  | 0 => some (.channel .enable)
  | 1 => some (.channel .pedMode)
  | 2 => some (.channel .pedHi)
  | 3 => some (.channel .pedLo)
  | 4 => some (.channel .trackShift)
  | 5 => some (.channel .switchLevel)
  | 6 => some (.channel .gainRatio)
  | 7 => some (.channel .threshold)
  | 8 => some (.channel .hysteresis)
  | 9 => some (.channel .persist)
  | 10 => some (.channel .gatePre)
  | 11 => some (.channel .gateWidth)
  | 12 => some (.channel .scaleShift)
  | 13 => some (.channel .calib)
  | 14 => some (.channel .waveMode)
  | 32 => some (.station .seedThreshold)
  | 33 => some (.station .window)
  | 34 => some (.station .callDeadline)
  | 35 => some (.station .horizon)
  | 36 => some (.station .highMark)
  | 37 => some (.station .lowMark)
  | 38 => some (.station .solo)
  | _ => none

/-- The code of an item (R183). -/
def codeOfItem : Item → BitVec 6
  | .channel .enable => 0
  | .channel .pedMode => 1
  | .channel .pedHi => 2
  | .channel .pedLo => 3
  | .channel .trackShift => 4
  | .channel .switchLevel => 5
  | .channel .gainRatio => 6
  | .channel .threshold => 7
  | .channel .hysteresis => 8
  | .channel .persist => 9
  | .channel .gatePre => 10
  | .channel .gateWidth => 11
  | .channel .scaleShift => 12
  | .channel .calib => 13
  | .channel .waveMode => 14
  | .station .seedThreshold => 32
  | .station .window => 33
  | .station .callDeadline => 34
  | .station .horizon => 35
  | .station .highMark => 36
  | .station .lowMark => 37
  | .station .solo => 38

/-- The command word that 32 bits spell, or none where the kind is unknown (R183, R184). -/
def decodeCommand (w : Word) : Option CommandWord :=
  (kindOfCode (w.extractLsb' 28 4)).map fun k =>
    { kind := k
      channel := w.extractLsb' 24 4
      item := w.extractLsb' 18 6
      value := w.extractLsb' 0 18 }

/-- The 32 bits of a command word (R183). -/
def encodeCommand (c : CommandWord) : Word :=
  codeOfKind c.kind ++ c.channel ++ c.item ++ c.value

end Sys2Proof
end

