-- ==== Sys2Proof/Machine/Items.lean ====
section
/-! DEFINITION. The ranges and defaults of the configuration items (R168) and the numbers by which the
enumerated items are written. -/

namespace Sys2Proof.Machine

/-- The least value of a channel item's range (R168). -/
def channelItemLeast : ChannelItem → Nat
  | .enable => 0
  | .pedMode => 0
  | .pedHi => 0
  | .pedLo => 0
  | .trackShift => 3
  | .switchLevel => 256
  | .gainRatio => 1024
  | .threshold => 16
  | .hysteresis => 1
  | .persist => 1
  | .gatePre => 0
  | .gateWidth => 4
  | .scaleShift => 0
  | .calib => 0
  | .waveMode => 0

/-- The greatest value of a channel item's range (R168). -/
def channelItemGreatest : ChannelItem → Nat
  | .enable => 1
  | .pedMode => 1
  | .pedHi => 16380
  | .pedLo => 16380
  | .trackShift => 10
  | .switchLevel => 4095
  | .gainRatio => 8191
  | .threshold => 262143
  | .hysteresis => 65535
  | .persist => 4
  | .gatePre => 7
  | .gateWidth => 63
  | .scaleShift => 10
  | .calib => 65535
  | .waveMode => 2

/-- The default of a channel item (R168). -/
def channelItemDefault : ChannelItem → Nat
  | .enable => 1
  | .pedMode => 0
  | .pedHi => 800
  | .pedLo => 800
  | .trackShift => 6
  | .switchLevel => 3900
  | .gainRatio => 4096
  | .threshold => 400
  | .hysteresis => 100
  | .persist => 2
  | .gatePre => 2
  | .gateWidth => 16
  | .scaleShift => 2
  | .calib => 16384
  | .waveMode => 1

/-- The least value of a station item's range (R168). -/
def stationItemLeast : StationItem → Nat
  | .seedThreshold => 1
  | .window => 1
  | .callDeadline => 64
  | .horizon => 512
  | .highMark => 512
  | .lowMark => 0
  | .solo => 0

/-- The greatest value of a station item's range (R168). -/
def stationItemGreatest : StationItem → Nat
  | .seedThreshold => 4095
  | .window => 255
  | .callDeadline => 4095
  | .horizon => 8191
  | .highMark => 4095
  | .lowMark => 3839
  | .solo => 1

/-- The default of a station item (R168). -/
def stationItemDefault : StationItem → Nat
  | .seedThreshold => 64
  | .window => 8
  | .callDeadline => 1024
  | .horizon => 4096
  | .highMark => 3072
  | .lowMark => 1024
  | .solo => 0

/-- The least value of an item's range (R168). -/
def itemLeast : Item → Nat
  | .channel i => channelItemLeast i
  | .station i => stationItemLeast i

/-- The greatest value of an item's range (R168). -/
def itemGreatest : Item → Nat
  | .channel i => channelItemGreatest i
  | .station i => stationItemGreatest i

/-- The effective value a SET of `v` writes: a value outside the range is replaced by the nearest end of
it (R169). -/
def clampItem (i : Item) (v : Nat) : Nat := max (itemLeast i) (min v (itemGreatest i))

/-- PED_MODE from its number (R168). -/
def pedModeOfNat (n : Nat) : PedMode := if n = 0 then .track else .fixed

/-- The number of a PED_MODE (R168). -/
def pedModeNumber : PedMode → Nat
  | .track => 0
  | .fixed => 1

/-- WAVE_MODE from its number (R168). -/
def waveModeOfNat (n : Nat) : WaveMode := if n = 0 then .never else if n = 1 then .onFlag else .always

/-- The number of a WAVE_MODE (R168). -/
def waveModeNumber : WaveMode → Nat
  | .never => 0
  | .onFlag => 1
  | .always => 2

end Sys2Proof.Machine
end

