-- ==== Sys2Proof/Machine/State.lean ====
section
/-! DEFINITION. The state of the station as plain data, the reasons a step can stop, and the state after
reset (R160). -/

namespace Sys2Proof.Machine

/-- The station states (R154). -/
inductive StationState where
  | setup | run | drain
  deriving DecidableEq, Repr

/-- How TZ was sampled at the CCLK edge being handled (R164). The model's own bookkeeping between TZ_SAMPLE
and the TIMEBASE_ADVANCE of the same edge (log 7). -/
inductive EdgeTz where
  /-- No TZ_SAMPLE has come at this edge. -/
  | unsampled
  /-- TZ has been sampled and the timebase has not been zeroed. -/
  | sampled
  /-- TZ has been sampled asserted in SETUP and the timebase has been set to 0. -/
  | zeroed
  deriving DecidableEq, Repr

/-- A unified sample with its two marks (R6, R7). -/
structure Sample where
  u : Int
  lowGain : Bool
  saturated : Bool
  deriving DecidableEq, Repr

/-- The discriminator (R19 to R23). -/
inductive Discriminator where
  | below
  | pending (candidate : SampleTime) (count : Nat) (runningMax : Int)
  | rising (peak : Int)
  | falling (valley : Int)
  deriving DecidableEq, Repr

/-- The kind of a crossing: a fresh one carries u[n-1] and u[n] (R24). -/
inductive CrossingKind where
  | fresh (before after : Int)
  | rerise
  deriving DecidableEq, Repr

/-- A crossing as the discriminator declares it: the crossing sample and the kind (R24). -/
structure Crossing where
  sample : SampleTime
  kind : CrossingKind
  deriving DecidableEq, Repr

/-- An OPEN integration context (R25). -/
structure OpenContext where
  /-- The crossing sample n. -/
  crossing : SampleTime
  kind : CrossingKind
  /-- n - PRE. -/
  gateFirst : SampleTime
  /-- n + WIDTH - 1. -/
  gateLast : SampleTime
  /-- Samples taken so far: the model's own count, 0 before the first one (R29). -/
  taken : Nat
  accumulator : Int
  peak : Int
  peakOffset : Nat
  pileup : Nat
  pileupFlag : Bool
  merged : Bool
  waveLost : Bool
  lowGain : Bool
  saturated : Bool
  /-- The number of the Waveform Pool slot it was lent, if any. -/
  slot : Option (Fin 32)
  deriving DecidableEq, Repr

/-- The two contexts of a channel (R25). -/
inductive ContextName where
  | a | b
  deriving DecidableEq, Repr

/-- The effective values of one channel's items (R168); `pedHi` and `pedLo` are the pedestal settings (R10). -/
structure ChannelItems where
  enable : Bool
  pedMode : PedMode
  pedHi : Nat
  pedLo : Nat
  trackShift : Nat
  switchLevel : Nat
  gainRatio : Nat
  threshold : Nat
  hysteresis : Nat
  persist : Nat
  gatePre : Nat
  gateWidth : Nat
  scaleShift : Nat
  calib : Nat
  waveMode : WaveMode
  deriving DecidableEq, Repr

/-- The effective values of the station items (R168). -/
structure StationItems where
  seedThreshold : Nat
  window : Nat
  callDeadline : Nat
  horizon : Nat
  highMark : Nat
  lowMark : Nat
  solo : Bool
  deriving DecidableEq, Repr

/-- One channel slice: its items, Input Conditioner and Pulse Processor (00, section 3.1). A FREE context is
`none` (R25). -/
structure Channel where
  items : ChannelItems
  trackHi : Int
  trackLo : Int
  /-- The sample ring; the entry of sample time τ is entry τ mod 16 (R7). -/
  ring : Vector Sample 16
  disc : Discriminator
  ctxA : Option OpenContext
  ctxB : Option OpenContext
  deriving DecidableEq, Repr

/-- A Waveform Pool slot: FREE, lent to one OPEN context, or held by one Hit Store entry (R35), with the
samples written. The contents of a FREE slot have no meaning (R41) and are not kept. -/
inductive Slot where
  | free
  | lent (samples : List Int)
  | held (samples : List Int)
  deriving DecidableEq, Repr

/-- The ten hit flags (R54). -/
structure HitFlags where
  lowGain : Bool
  sat : Bool
  pileup : Bool
  merged : Bool
  coarseTime : Bool
  qLow : Bool
  qHigh : Bool
  eHigh : Bool
  waveLost : Bool
  waveOmitted : Bool
  deriving DecidableEq, Repr

/-- A hit record (R54). -/
structure Hit where
  channel : Fin 8
  crossing : SampleTime
  delta : Nat
  time : FineTime
  charge : Nat
  energy : Nat
  peak : Int
  peakOffset : Nat
  pileup : Nat
  flags : HitFlags
  slot : Option (Fin 32)
  waveLength : Nat
  selected : Bool
  deriving DecidableEq, Repr

/-- The state of a call: an ON_LINE call carries its frozen energy, a WAITING call carries none (R72). -/
inductive CallState where
  | waiting
  | onLine (frozen : Nat)
  deriving DecidableEq, Repr

/-- A call of the Call Queue (R72, R76). -/
structure Call where
  time : SampleTime
  energy : Nat
  retry : Nat
  state : CallState
  deriving DecidableEq, Repr

/-- The role in a frame (R92, R101). -/
inductive Role where
  | caller | winner | listener
  deriving DecidableEq, Repr

/-- The frame being heard (06, state table). -/
structure Frame where
  /-- The bit boundary at which the frame began (R92). -/
  base : SampleTime
  /-- The position of the bit time now running, 0..40 (R93). -/
  position : Nat
  role : Role
  /-- The bits read at positions 1..36, position 1 the most significant (R96). -/
  bits : BitVec 36
  /-- The check mismatch found at the read of position 36 (R97). -/
  checkMismatch : Bool
  readbackMismatch : Bool
  /-- The objection bit, once it has been read (R104). -/
  objection : Option Bool
  /-- Set once the end of position 37 has been handled: the model's own mark (log 8). -/
  settled : Bool
  deriving DecidableEq, Repr

/-- The line view (R91 to R94). -/
inductive LineView where
  | join
  | idle
  | frame (f : Frame)
  | stuck
  deriving DecidableEq, Repr

/-- The Seed Line Interface (06, state table). -/
structure Line where
  view : LineView
  /-- The 36 bits this station drives, while it has a frame on the line (R96). -/
  ownFrame : Option (BitVec 36)
  recessiveRun : Nat
  dominantRun : Nat
  /-- What the station drives on SEED in the bit time now running; `true` is dominant (R89). -/
  drive : Bool
  /-- The reading made at the bit centre of this very sample, absent at every other sample (log 8). -/
  bitRead : Option Bool
  /-- The view becomes IDLE at the next bit boundary (R91, R93; log 9). -/
  toIdle : Bool
  deriving DecidableEq, Repr

/-- A Seed List entry with its three marks (R117, R119, R124). -/
structure Seed where
  number : BitVec 16
  time : SampleTime
  energy : BitVec 12
  origin : BitVec 4
  own : Bool
  lostAfter : Nat
  closed : Bool
  late : Bool
  stale : Bool
  deriving DecidableEq, Repr

/-- Hold Control: the three causes and the drive (R142 to R144). -/
structure Hold where
  notRun : Bool
  queueHold : Bool
  listHold : Bool
  drive : Bool
  deriving DecidableEq, Repr

/-- The frame in transmission, with the count of its words sent (08, state table). -/
inductive Sending where
  | nothing
  | startWord
  | response (sent : Nat)
  | fragment (sent : Nat)
  deriving DecidableEq, Repr

/-- A word on the link with its frame mark (R177). -/
structure LinkWord where
  word : Word
  mark : Bool
  deriving DecidableEq, Repr

/-- The Output Link with the response buffer (R148 to R151); `response` is empty when the buffer is. -/
structure Link where
  startOwed : Bool
  /-- Fragment sending is PAUSED (R150). -/
  paused : Bool
  sending : Sending
  response : List Word
  /-- The word last sent: what the LINK_TX pins showed (log 13). -/
  lastSent : Option LinkWord
  deriving DecidableEq, Repr

/-- The eighteen station counters, in the order of R172. -/
inductive Counter where
  | callsMade | callsWon | callsMerged | callsLapsed | callsAbandoned | callsDisplaced | callsDropped
  | objectionsRaised | framesDiscarded | seedsHeard | seedsLost | fragmentsBuilt | hitsEvicted
  | hitsExpiredUnselected | holdSamples | cmdOverruns | tzIgnored | lineStuckEvents
  deriving DecidableEq, Repr

/-- The state of the block: everything the spec gives a station, and the waiting commands. -/
structure State where
  /-- The commands that wait, first in, first out. -/
  pending : List Instr
  mode : StationState
  now : SampleTime
  slot : BitVec 4
  edgeTz : EdgeTz
  tzSeen : Bool
  /-- The station is in reset (R160). -/
  inReset : Bool
  /-- RSTN is asserted (R160). -/
  rstn : Bool
  /-- CCLK edges that RESET_STATION still waits for (R161). -/
  resetEdges : Nat
  /-- No CCLK edge has come since the release from reset, so no code pair is handled yet (R160, R163). -/
  awaitsEdge : Bool
  channels : Vector Channel 8
  station : StationItems
  hEff : Nat
  gMax : Nat
  pool : Vector Slot 32
  hits : List Hit
  evictMark : Option SampleTime
  calls : List Call
  line : Line
  seeds : List Seed
  seedCounter : BitVec 16
  /-- The fragments of the Readout Queue, first written first, each as its unsent words (R139). -/
  readout : List (List Word)
  hold : Hold
  link : Link
  commands : List Word
  /-- The station counters in the order of R172. -/
  counters : Vector Nat 18
  /-- HITS of channels 0..7. -/
  hitCounts : Vector Nat 8
  rangeFlags : Vector Bool 8
  satFlags : Vector Bool 8
  configAdjusted : Bool
  deriving DecidableEq, Repr

/-- Why a step stops with a fault. -/
inductive Fault where
  /-- Raised by CODE_PAIR_ARRIVAL on a channel number of 8 or more, which no station has (R54). Safe: no
  such pair can arrive (log 16). -/
  | noSuchChannel
  deriving DecidableEq, Repr

/-- Why a step has no meaning. -/
inductive Refusal where
  /-- The command has no meaning in the model yet. No arm of this model answers it. Safe. -/
  | notModelled (mnemonic : String)
  deriving DecidableEq, Repr

/-- The items of a channel at their defaults (R168). -/
def ChannelItems.reset : ChannelItems where
  enable := channelItemDefault .enable != 0
  pedMode := pedModeOfNat (channelItemDefault .pedMode)
  pedHi := channelItemDefault .pedHi
  pedLo := channelItemDefault .pedLo
  trackShift := channelItemDefault .trackShift
  switchLevel := channelItemDefault .switchLevel
  gainRatio := channelItemDefault .gainRatio
  threshold := channelItemDefault .threshold
  hysteresis := channelItemDefault .hysteresis
  persist := channelItemDefault .persist
  gatePre := channelItemDefault .gatePre
  gateWidth := channelItemDefault .gateWidth
  scaleShift := channelItemDefault .scaleShift
  calib := channelItemDefault .calib
  waveMode := waveModeOfNat (channelItemDefault .waveMode)

/-- The station items at their defaults (R168). -/
def StationItems.reset : StationItems where
  seedThreshold := stationItemDefault .seedThreshold
  window := stationItemDefault .window
  callDeadline := stationItemDefault .callDeadline
  horizon := stationItemDefault .horizon
  highMark := stationItemDefault .highMark
  lowMark := stationItemDefault .lowMark
  solo := stationItemDefault .solo != 0

/-- A channel at reset release: defaults, trackers at 800 qc, ring of zeros, BELOW, both contexts FREE
(R9, R15, R19, R160). -/
def Channel.reset : Channel where
  items := ChannelItems.reset
  trackHi := 800
  trackLo := 800
  ring := Vector.replicate 16 { u := 0, lowGain := false, saturated := false }
  disc := .below
  ctxA := none
  ctxB := none

/-- The Seed Line Interface at reset release: JOIN, both runs 0, nothing driven (R95). -/
def Line.reset : Line where
  view := .join
  ownFrame := none
  recessiveRun := 0
  dominantRun := 0
  drive := false
  bitRead := none
  toIdle := false

/-- Hold Control at reset release (R147). -/
def Hold.reset : Hold where
  notRun := true
  queueHold := false
  listHold := false
  drive := true

/-- The link at reset release: it owes the start word and, having no frame in transmission, chooses it
(R148, R149, R160). -/
def Link.reset : Link where
  startOwed := true
  paused := false
  sending := .startWord
  response := []
  lastSent := none

/-- The station right after a reset release (R160). The slot straps read 0 here (DESIGN CHOICE, unsafe:
log 4), and H_eff and G_max, which the spec derives at START, stand at what START would derive from the
defaults (DESIGN CHOICE, unsafe: log 5). -/
def State.reset : State where
  pending := []
  mode := .setup
  now := 0
  slot := 0
  edgeTz := .unsampled
  tzSeen := false
  inReset := false
  rstn := false
  resetEdges := 0
  awaitsEdge := true
  channels := Vector.replicate 8 Channel.reset
  station := StationItems.reset
  hEff := 4096
  gMax := 16
  pool := Vector.replicate 32 .free
  hits := []
  evictMark := none
  calls := []
  line := Line.reset
  seeds := []
  seedCounter := 0
  readout := []
  hold := Hold.reset
  link := Link.reset
  commands := []
  counters := Vector.replicate 18 0
  hitCounts := Vector.replicate 8 0
  rangeFlags := Vector.replicate 8 false
  satFlags := Vector.replicate 8 false
  configAdjusted := false

end Sys2Proof.Machine
end

