-- ==== Sys2Proof/Machine/Times.lean ====
section
/-! DEFINITION. Differences of times and the tests made on them (spec 00, section 6.2). -/

namespace Sys2Proof.Machine

/-- The difference of two sample times, read as a signed value in -2^27..2^27-1 (section 6.2). -/
def timeDiff (a b : SampleTime) : Int := (a - b).toInt

/-- The difference of two fine-tick times, read as a signed value in -2^31..2^31-1 (section 6.2). -/
def fineDiff (a b : FineTime) : Int := (a - b).toInt

/-- `a` lies within ±w samples of `b`: the signed difference is in -w..w (R65, R74). -/
def within (w : Nat) (a b : SampleTime) : Bool :=
  decide (-(w : Int) ≤ timeDiff a b) && decide (timeDiff a b ≤ (w : Int))

/-- The age of `t` exceeds `limit` samples at `now` (section 6.2). -/
def olderThan (limit : Nat) (now t : SampleTime) : Bool := decide ((limit : Int) < timeDiff now t)

/-- The later of two sample times (R60). -/
def laterOf (a b : SampleTime) : SampleTime := if 0 < timeDiff b a then b else a

/-- A bit boundary: a timebase value that is a multiple of 8 (R89). -/
def isBoundary (t : SampleTime) : Bool := t.toNat % 8 == 0

/-- A bit centre: the timebase value 4 above a boundary (R89). -/
def isCentre (t : SampleTime) : Bool := t.toNat % 8 == 4

end Sys2Proof.Machine
end

