-- ==== Sys2Proof/Machine/Flags.lean ====
section
/-! DEFINITION. The counters and the sticky flags (R172 to R175), and the hit flags computed from the
charge and the energy (R49, R50). -/

namespace Sys2Proof.Machine

/-- A counter's place in the order of R172. -/
def counterIndex : Counter → Fin 18
  | .callsMade => 0
  | .callsWon => 1
  | .callsMerged => 2
  | .callsLapsed => 3
  | .callsAbandoned => 4
  | .callsDisplaced => 5
  | .callsDropped => 6
  | .objectionsRaised => 7
  | .framesDiscarded => 8
  | .seedsHeard => 9
  | .seedsLost => 10
  | .fragmentsBuilt => 11
  | .hitsEvicted => 12
  | .hitsExpiredUnselected => 13
  | .holdSamples => 14
  | .cmdOverruns => 15
  | .tzIgnored => 16
  | .lineStuckEvents => 17

/-- The value of a station counter. -/
def State.counter (s : State) (k : Counter) : Nat := s.counters[counterIndex k]

/-- A counter after `n` more of its events: it saturates at 4,294,967,295 (R173). -/
def satAdd (x n : Nat) : Nat := min (x + n) Config.counterMax

/-- `n` events of a station counter (R173). -/
def State.count (s : State) (k : Counter) (n : Nat) : State :=
  { s with counters := s.counters.set (counterIndex k) (satAdd (s.counter k) n) }

/-- A completed hit on channel `c` counts HITS (R43). -/
def State.countHit (s : State) (c : Fin 8) : State :=
  { s with hitCounts := s.hitCounts.set c (satAdd s.hitCounts[c] 1) }

/-- The hit sets its channel's sticky RANGE and SAT; a flag already set stays set (R53). -/
def State.stickHit (s : State) (c : Fin 8) (f : HitFlags) : State :=
  { s with
    rangeFlags := s.rangeFlags.set c (s.rangeFlags[c] || f.qLow || f.qHigh || f.eHigh)
    satFlags := s.satFlags.set c (s.satFlags[c] || f.sat) }

/-- CONFIG_ADJUSTED is set where `adjusted` holds, and stays as it stands otherwise (R169, R156). -/
def State.stickAdjusted (s : State) (adjusted : Bool) : State :=
  { s with configAdjusted := s.configAdjusted || adjusted }

/-- CLEAR_COUNTERS: every counter 0 and every sticky flag clear (R175). -/
def State.clearCounts (s : State) : State :=
  { s with
    counters := Vector.replicate 18 0
    hitCounts := Vector.replicate 8 0
    rangeFlags := Vector.replicate 8 false
    satFlags := Vector.replicate 8 false
    configAdjusted := false }

/-- The rounded charge of an accumulator: to the nearest, a half toward plus infinity (R48). -/
def roundedCharge (shift : Nat) (a : Int) : Int :=
  if shift = 0 then a else (a + 2 ^ (shift - 1)) / 2 ^ shift

/-- The charge Q: the rounded charge limited to 0..65535 (R49). -/
def limitedCharge (r : Int) : Nat := if r < 0 then 0 else if 65535 < r then 65535 else r.toNat

/-- The rounded energy of a limited charge (R50). -/
def roundedEnergy (calib q : Nat) : Nat := (q * calib + 8192) / 16384

/-- The energy E: the rounded energy limited to 65535 (R50). -/
def limitedEnergy (r : Nat) : Nat := if 65535 < r then 65535 else r

end Sys2Proof.Machine
end

