-- ==== Sys2Proof/Machine/Ops.lean ====
section
/-! DEFINITION. The named operations that several steps share: the Waveform Pool, the channels, Hold
Control, the choice of the output link, the outcomes of the ON_LINE call, and entry to reset. -/

namespace Sys2Proof.Machine

/-! ### Station state -/

/-- The station is in RUN or DRAIN. -/
def State.active (s : State) : Bool := s.mode != .setup

/-! ### Channels and contexts -/

/-- Change channel `c`. -/
def State.modifyChannel (s : State) (c : Fin 8) (f : Channel → Channel) : State :=
  { s with channels := s.channels.set c (f s.channels[c]) }

/-- Change every channel. -/
def State.mapChannels (s : State) (f : Channel → Channel) : State :=
  { s with channels := Vector.ofFn fun c => f s.channels[c] }

/-- A context of a channel; FREE is `none`. -/
def Channel.ctx (k : Channel) : ContextName → Option OpenContext
  | .a => k.ctxA
  | .b => k.ctxB

/-- A channel with a context replaced. -/
def Channel.setCtx (k : Channel) (name : ContextName) (x : Option OpenContext) : Channel :=
  match name with
  | .a => { k with ctxA := x }
  | .b => { k with ctxB := x }

/-- Neither context of the channel is OPEN. -/
def Channel.allFree (k : Channel) : Bool := k.ctxA.isNone && k.ctxB.isNone

/-- The sample ring's entry for sample time `t` (R8). -/
def Channel.ringAt (k : Channel) (t : SampleTime) : Sample :=
  k.ring[(⟨t.toNat % 16, Nat.mod_lt _ (by decide)⟩ : Fin 16)]

/-- The ring with `x` written for sample time `t` (R7). -/
def Channel.writeRing (k : Channel) (t : SampleTime) (x : Sample) : Channel :=
  { k with ring := k.ring.set (⟨t.toNat % 16, Nat.mod_lt _ (by decide)⟩ : Fin 16) x }

/-! ### Waveform Pool -/

/-- The lowest-numbered FREE slot (R36). -/
def lowestFree (pool : Vector Slot 32) : Option (Fin 32) :=
  (List.finRange 32).find? fun i => pool[i] == .free

/-- Lend slot `i` with its count at 0 (R36). -/
def lendSlot (pool : Vector Slot 32) (i : Fin 32) : Vector Slot 32 := pool.set i (.lent [])

/-- Write a sample into a lent slot while fewer than 32 are written (R29, R38). -/
def writeSlot (pool : Vector Slot 32) (i : Fin 32) (u : Int) : Vector Slot 32 :=
  match pool[i] with
  | .lent xs => if xs.length < Config.slotDepth then pool.set i (.lent (xs ++ [u])) else pool
  | _ => pool

/-- The samples written in a slot. -/
def slotSamples (pool : Vector Slot 32) (i : Fin 32) : List Int :=
  match pool[i] with
  | .free => []
  | .lent xs => xs
  | .held xs => xs

/-- The slot passes from its context to the hit (R35, R39). -/
def holdSlot (pool : Vector Slot 32) (i : Fin 32) : Vector Slot 32 :=
  pool.set i (.held (slotSamples pool i))

/-- A slot, if there is one, returns to FREE (R40, R68). -/
def returnSlot (pool : Vector Slot 32) : Option (Fin 32) → Vector Slot 32
  | none => pool
  | some i => pool.set i .free

/-- The slots of hits that leave the Hit Store return to FREE (R68). -/
def returnSlots (pool : Vector Slot 32) (leaving : List Hit) : Vector Slot 32 :=
  leaving.foldl (fun p h => returnSlot p h.slot) pool

/-- How many of the hits leave without the selected mark (R63, R70). -/
def unselectedCount (leaving : List Hit) : Nat := leaving.countP fun h => !h.selected

/-! ### Hold Control -/

/-- Recompute the HOLD drive from the three causes; in reset it is asserted (R144). -/
def State.recomputeHold (s : State) : State :=
  { s with hold.drive := s.inReset || s.hold.notRun || s.hold.queueHold || s.hold.listHold }

/-- The Readout Queue's occupancy in words, the unsent words of a fragment being sent included (R139). -/
def State.occupancy (s : State) : Nat := (s.readout.map List.length).sum

/-- Judge QUEUE_HOLD after a change of the occupancy, and recompute the drive (R142, R144). -/
def State.judgeQueueHold (s : State) : State :=
  let held :=
    if s.hold.queueHold then !decide (s.occupancy ≤ s.station.lowMark)
    else decide (s.station.highMark ≤ s.occupancy)
  State.recomputeHold { s with hold.queueHold := held }

/-- Judge LIST_HOLD after a change of the Seed List's occupancy, and recompute the drive (R143, R144). -/
def State.judgeListHold (s : State) : State :=
  let held :=
    if s.hold.listHold then !decide (s.seeds.length ≤ Config.listHoldClear)
    else decide (Config.listHoldSet ≤ s.seeds.length)
  State.recomputeHold { s with hold.listHold := held }

/-- Enter a station state; NOT_RUN is set outside RUN (R144). -/
def State.enterMode (s : State) (m : StationState) : State :=
  State.recomputeHold { s with mode := m, hold.notRun := m != .run }

/-- HOLD as observed: the backplane line, or in solo mode the station's own drive (R111, R145). -/
def State.holdObserved (s : State) (holdLevel : Bool) : Bool :=
  if s.station.solo then s.hold.drive else holdLevel

/-- SEED as read: the backplane line, or in solo mode the station's own drive (R111). -/
def State.seedObserved (s : State) (seedLevel : Bool) : Bool :=
  if s.station.solo then s.line.drive else seedLevel

/-! ### Output Link -/

/-- With no frame in transmission, the link chooses the next one: the start word, then a response, then,
while RUNNING, the fragment at the front (R149). -/
def State.chooseFrame (s : State) : State :=
  if s.link.sending ≠ .nothing then s
  else if s.link.startOwed then { s with link.sending := .startWord }
  else if s.link.response ≠ [] then { s with link.sending := .response 0 }
  else if s.link.paused = false ∧ s.readout ≠ [] then { s with link.sending := .fragment 0 }
  else s

/-- A response frame is placed in the response buffer (R151), and an idle link chooses (R149). -/
def State.respond (s : State) (frame : List Word) : State :=
  State.chooseFrame { s with link.response := frame }

/-! ### The ON_LINE call -/

/-- The call is ON_LINE (R79). -/
def Call.isOnLine (c : Call) : Bool :=
  match c.state with
  | .waiting => false
  | .onLine _ => true

/-- A call of this station is ON_LINE. -/
def State.callOnLine (s : State) : Bool := s.calls.any Call.isOnLine

/-- The call returned to WAITING, its frozen energy gone (R80). -/
def Call.returned (c : Call) : Call := { c with state := .waiting }

/-- In DRAIN an ON_LINE call that settles other than by acceptance is removed and counted lapsed (R83). -/
def State.lapseOnLine (s : State) : State :=
  State.count { s with calls := s.calls.filter fun c => !c.isOnLine } .callsLapsed
    (s.calls.countP Call.isOnLine)

/-- The ON_LINE call's frame ends before its objection bit: the call returns to WAITING with its retry
count unchanged, or in DRAIN is removed (R80, R83, R107). -/
def State.returnCall (s : State) : State :=
  if s.mode = .drain then s.lapseOnLine
  else { s with calls := s.calls.map fun c => if c.isOnLine then c.returned else c }

/-- What a discard by objection leaves of a call: the ON_LINE call returns with its retry count raised, or
leaves at its fourth discard; other calls stay (R80). -/
def Call.afterDiscard (c : Call) : Option Call :=
  if c.isOnLine then
    if c.retry < 3 then some { c.returned with retry := c.retry + 1 } else none
  else some c

/-- The ON_LINE call's frame is discarded by objection (R80, R83). -/
def State.discardCall (s : State) : State :=
  if s.mode = .drain then s.lapseOnLine
  else
    State.count { s with calls := s.calls.filterMap Call.afterDiscard } .callsAbandoned
      (s.calls.countP fun c => c.isOnLine && !decide (c.retry < 3))

/-! ### Reset -/

/-- The station enters reset: all work in flight is discarded, SEED is released, HOLD is asserted, nothing
is sent (R160, R161, R34, R69, R84, R113, R138, R141, R152). The slot number stays until the release. The
other values a release gives are taken at once (log 10). -/
def State.enterReset (s : State) (rstn : Bool) (edges : Nat) : State :=
  { State.reset with
    pending := s.pending
    slot := s.slot
    inReset := true
    rstn := rstn
    resetEdges := edges
    link := { Link.reset with startOwed := false, sending := .nothing } }

/-- The station is released from reset with its straps as they stand (R160, R162). -/
def State.release (s : State) (straps : BitVec 4) : State :=
  { State.reset with pending := s.pending, slot := straps }

end Sys2Proof.Machine
end

