-- ==== Sys2Proof/Machine/Ageing.lean ====
section
/-! DEFINITION. What grows too old at an advance of the timebase: HIT_EXPIRY (R63), EVICT_MARK_WITHDRAWAL
(R60) and CALL_LAPSE (R82). Each is the block's own handling of the advance (R163). -/

namespace Sys2Proof.Machine

/-- The entry's crossing age exceeds H_eff (R63). -/
def State.expired (s : State) (h : Hit) : Bool := olderThan s.hEff s.now h.crossing

/-- The unbroken run of expired entries at the front of the Hit Store leaves: unselected ones are counted
and slots return (R63, R68). -/
def State.expireHits (s : State) : State :=
  let leaving := s.hits.takeWhile s.expired
  State.count { s with hits := s.hits.dropWhile s.expired, pool := returnSlots s.pool leaving }
    .hitsExpiredUnselected (unselectedCount leaving)

/-- HIT_EXPIRY, in RUN and DRAIN (R63). -/
def execHitExpiry (s : State) : Host.Outcome State Fault Refusal :=
  .next (if s.active then s.expireHits else s)

/-- evict_mark is present and its age exceeds H_eff (R60). -/
def State.markExpired (s : State) : Bool := s.evictMark.any fun m => olderThan s.hEff s.now m

/-- EVICT_MARK_WITHDRAWAL, in RUN and DRAIN (R60). -/
def execEvictMarkWithdrawal (s : State) : Host.Outcome State Fault Refusal :=
  .next (if s.active && s.markExpired then { s with evictMark := none } else s)

/-- The call is WAITING and its age exceeds CALL_DEADLINE (R82). -/
def State.lapses (s : State) (c : Call) : Bool :=
  !c.isOnLine && olderThan s.station.callDeadline s.now c.time

/-- The lapsing calls leave the Call Queue, each counted (R82). -/
def State.lapseCalls (s : State) : State :=
  State.count { s with calls := s.calls.filter fun c => !s.lapses c } .callsLapsed
    (s.calls.countP s.lapses)

/-- CALL_LAPSE, in RUN (R82). -/
def execCallLapse (s : State) : Host.Outcome State Fault Refusal :=
  .next (if s.mode = .run then s.lapseCalls else s)

end Sys2Proof.Machine
end

