-- ==== Sys2Proof/Machine/Bits.lean ====
section
/-! DEFINITION. The bits of the call frame on the SEED line (R96, R97, R106; spec 11, section 11.1). -/

namespace Sys2Proof.Machine

/-- The bit of position p, 1..36, position 1 the most significant (R96). -/
def frameBit (bits : BitVec 36) (p : Nat) : Bool := bits.getLsbD (36 - p)

/-- The bits read, with the reading of position p recorded; the bits are cleared at the start bit (R92). -/
def recordBit (bits : BitVec 36) (p : Nat) (b : Bool) : BitVec 36 :=
  if b then bits ||| (1#36 <<< (36 - p)) else bits

/-- The number of 1 bits among positions 1 to 32, modulo 16 (R97). -/
def checkOf (body : BitVec 32) : BitVec 4 :=
  BitVec.ofNat 4 ((List.range 32).countP fun i => body.getLsbD i)

/-- Energy, rank and time: positions 1 to 32. -/
def frameBody (bits : BitVec 36) : BitVec 32 := bits.extractLsb' 4 32

/-- The energy field, positions 1 to 12. -/
def frameEnergy (bits : BitVec 36) : BitVec 12 := bits.extractLsb' 24 12

/-- The rank field, positions 13 to 16. -/
def frameRank (bits : BitVec 36) : BitVec 4 := bits.extractLsb' 20 4

/-- The time field, positions 17 to 32. -/
def frameTime (bits : BitVec 36) : BitVec 16 := bits.extractLsb' 4 16

/-- The check field, positions 33 to 36. -/
def frameCheck (bits : BitVec 36) : BitVec 4 := bits.extractLsb' 0 4

/-- The bits read disagree with the check read (R97). -/
def checkDiffers (bits : BitVec 36) : Bool := checkOf (frameBody bits) != frameCheck bits

/-- The rank of a slot, and the slot of a rank: 15 less it (R96, R105). -/
def rankOfSlot (slot : BitVec 4) : BitVec 4 := 15#4 - slot

/-- Energy, rank and time of the frame a station drives for a call (R96). -/
def ownBody (slot : BitVec 4) (energy : Nat) (time : SampleTime) : BitVec 32 :=
  BitVec.ofNat 12 energy ++ rankOfSlot slot ++ time.setWidth 16

/-- The 36 bits a station drives at positions 1 to 36 for a call (R96, R97). -/
def ownFrameBits (slot : BitVec 4) (energy : Nat) (time : SampleTime) : BitVec 36 :=
  ownBody slot energy time ++ checkOf (ownBody slot energy time)

/-- The full seed time: the latest sample time at or before now whose low 16 bits are the time field
(R106). -/
def rebuildTime (now : SampleTime) (t16 : BitVec 16) : SampleTime :=
  now - (now - t16.setWidth 28) % 65536#28

end Sys2Proof.Machine
end

