-- ==== Sys2Proof/Machine/Formats.lean ====
section
/-! DEFINITION. The layouts of the words the link carries (spec 11, section 11.2: R177 to R182). -/

namespace Sys2Proof.Machine

/-- One bit. -/
def bit (b : Bool) : BitVec 1 := BitVec.ofBool b

/-- The start word (R178). -/
def startWord (slot : BitVec 4) : Word := 0#4 ++ slot ++ 0#24

/-- The item-value word (R178, R184). -/
def itemValueWord (channel : BitVec 4) (item : BitVec 6) (value : Nat) : Word :=
  3#4 ++ channel ++ item ++ BitVec.ofNat 18 value

/-- The number of a refusal code (R178). -/
def refusalNumber : RefusalCode → BitVec 4
  | .wrongState => 1
  | .unknownCommand => 2
  | .unknownItem => 3
  | .badChannel => 4

/-- The refusal frame: the code, then the command word as it arrived (R167, R178). -/
def refusalFrame (code : RefusalCode) (w : Word) : List Word :=
  [4#4 ++ refusalNumber code ++ 0#24, w]

/-- The first header word of a fragment (R179). -/
def headerWord0 (slot : BitVec 4) (late evicted own omitted : Bool) (hitCount lostAfter : Nat) : Word :=
  1#4 ++ slot ++ bit late ++ bit evicted ++ bit own ++ bit omitted ++
    BitVec.ofNat 9 hitCount ++ BitVec.ofNat 8 lostAfter ++ 0#3

/-- The second header word of a fragment (R179). -/
def headerWord1 (number : BitVec 16) (energy : BitVec 12) (origin : BitVec 4) : Word :=
  number ++ energy ++ origin

/-- The third header word of a fragment (R179). -/
def headerWord2 (time : SampleTime) : Word := time ++ 0#4

/-- The ten hit flags in bits 26..17, LOWGAIN first (R180). -/
def hitFlagBits (f : HitFlags) : BitVec 10 :=
  bit f.lowGain ++ bit f.sat ++ bit f.pileup ++ bit f.merged ++ bit f.coarseTime ++ bit f.qLow ++
    bit f.qHigh ++ bit f.eHigh ++ bit f.waveLost ++ bit f.waveOmitted

/-- The four words of a hit copy with the given flags and waveform length (R180, R182). -/
def hitWords (h : Hit) (flags : HitFlags) (waveLength : Nat) : List Word :=
  [ h.time,
    BitVec.ofNat 16 h.charge ++ BitVec.ofNat 16 h.energy,
    BitVec.ofNat 3 h.channel.val ++ BitVec.ofNat 2 h.pileup ++ hitFlagBits flags ++
      BitVec.ofNat 6 waveLength ++ 0#11,
    BitVec.ofInt 20 h.peak ++ BitVec.ofNat 7 h.peakOffset ++ 0#5 ]

/-- A waveform word: the 20-bit sample with its sign copied upward (R182). -/
def waveWord (u : Int) : Word := (BitVec.ofInt 20 u).signExtend 32

/-- The code of a station state (R181). -/
def stateCode : StationState → BitVec 2
  | .setup => 0
  | .run => 1
  | .drain => 2

/-- The code of a line view (R181). -/
def viewCode : LineView → BitVec 2
  | .join => 0
  | .idle => 1
  | .frame _ => 2
  | .stuck => 3

/-- Eight channel flags, channel c at bit c (R181). -/
def channelBits (v : Vector Bool 8) : BitVec 8 :=
  bit v[7] ++ bit v[6] ++ bit v[5] ++ bit v[4] ++ bit v[3] ++ bit v[2] ++ bit v[1] ++ bit v[0]

/-- The status header word (R181). -/
def statusWord0 (s : State) (holdLevel : Bool) : Word :=
  2#4 ++ s.slot ++ stateCode s.mode ++ viewCode s.line.view ++ bit (s.holdObserved holdLevel) ++
    bit s.hold.drive ++ bit s.hold.notRun ++ bit s.hold.queueHold ++ bit s.hold.listHold ++
    bit s.link.paused ++ 0#1 ++ BitVec.ofNat 13 s.occupancy

/-- The status flags word (R181). -/
def statusWord1 (s : State) : Word :=
  channelBits s.rangeFlags ++ channelBits s.satFlags ++ bit s.configAdjusted ++ s.now.setWidth 15

/-- The 28 words of the status frame (R176, R181). -/
def statusFrame (s : State) (holdLevel : Bool) : List Word :=
  statusWord0 s holdLevel :: statusWord1 s ::
    ((s.counters.toList.map (BitVec.ofNat 32)) ++ (s.hitCounts.toList.map (BitVec.ofNat 32)))

end Sys2Proof.Machine
end

