-- ==== Sys2Proof/Machine/OutputLink.lean ====
section
/-! DEFINITION. LINK_WORD_SENT: the output link sends one word (R148 to R151, R177). -/

namespace Sys2Proof.Machine

/-- The link shows a word with its frame mark, set on the first word of a frame (R177). -/
def State.show (s : State) (w : Word) (first : Bool) : State :=
  { s with link.lastSent := some { word := w, mark := first } }

/-- A frame has ended: the link chooses the next (R149). -/
def State.endFrame (s : State) : State := State.chooseFrame { s with link.sending := .nothing }

/-- The start word is sent, and is owed no more (R148). -/
def State.sendStartWord (s : State) (w : Word) : State :=
  State.endFrame { s.show w true with link.startOwed := false }

/-- Word `k` of the response is sent; with the last one the response buffer is empty (R151).

DEDUCED, unsafe (log 27): with the last word the buffer empties and the link chooses (R149) in this one step,
so a fragment goes ahead of the response of a command word that waited for the buffer (R166). R151 would also
let that response enter before the choice. -/
def State.sendResponseWord (s : State) (k : Nat) : State :=
  match s.link.response[k]? with
  | none => State.endFrame { s with link.response := [] }
  | some w =>
    if k + 1 < s.link.response.length then { s.show w (k == 0) with link.sending := .response (k + 1) }
    else State.endFrame { s.show w (k == 0) with link.response := [] }

/-- The front word of the Readout Queue is sent and leaves the queue, and QUEUE_HOLD is judged; with a
fragment's last word the fragment has gone (R140, R142, R149). `k` words of the fragment went before. -/
def State.sendFragmentWord (s : State) (k : Nat) : State :=
  match s.readout with
  | [] => s.endFrame
  | [] :: rest => State.endFrame { s with readout := rest }
  | [w] :: rest =>
    State.endFrame (State.judgeQueueHold { s.show w (k == 0) with readout := rest })
  | (w :: v :: ws) :: rest =>
    State.judgeQueueHold
      { s.show w (k == 0) with readout := (v :: ws) :: rest, link.sending := .fragment (k + 1) }

/-- One word of the frame in transmission is sent; with none, nothing is. -/
def State.sendWord (s : State) (startWordBits : Word) : State :=
  match s.link.sending with
  | .nothing => s
  | .startWord => s.sendStartWord startWordBits
  | .response k => s.sendResponseWord k
  | .fragment k => s.sendFragmentWord k

end Sys2Proof.Machine
end

