-- ==== Sys2Proof/Machine/Timebase.lean ====
section
/-! DEFINITION. TIMEBASE_ADVANCE and TZ_SAMPLE: what happens at a CCLK edge (R163, R164, R146), with the
bit boundaries and bit centres that the Seed Line Interface finds there (R89, R90). -/

namespace Sys2Proof.Machine

/-! ### A bit boundary -/

/-- What a frame drives at its position: a CALLER its own bits at 1..16, a WINNER at 17..36; nobody drives
later positions of its own accord, and a LISTENER drives nothing (R96, R99, R102). -/
def Frame.driveBit (f : Frame) (ownFrame : Option (BitVec 36)) : Bool :=
  match f.role, ownFrame with
  | .caller, some bits => decide (1 ≤ f.position) && decide (f.position ≤ 16) && frameBit bits f.position
  | .winner, some bits => decide (17 ≤ f.position) && decide (f.position ≤ 36) && frameBit bits f.position
  | _, _ => false

/-- The role at a position: a CALLER still CALLER at the boundary of position 17 is WINNER (R101). -/
def Role.atPosition (r : Role) (p : Nat) : Role := if r = .caller ∧ p = 17 then .winner else r

/-- The frame at the next position (R93). -/
def Frame.nextPosition (f : Frame) : Frame :=
  { f with position := min (f.position + 1) 40, role := f.role.atPosition (min (f.position + 1) 40) }

/-- The line at a bit boundary: a view due to become IDLE does (R91, R93), a frame moves to its next
position, and the drive of the bit time that begins is set (R89). -/
def Line.atBoundary (l : Line) : Line :=
  if l.toIdle then
    { l with view := .idle, ownFrame := none, drive := false, bitRead := none, toIdle := false }
  else
    match l.view with
    | .frame f =>
      { l with
        view := .frame f.nextPosition
        drive := f.nextPosition.driveBit l.ownFrame
        bitRead := none }
    | _ => { l with drive := false, bitRead := none }

/-! ### A bit centre -/

/-- The winner's reading differs from what it drove (R102). -/
def Frame.readbackDiffers (f : Frame) (ownFrame : Option (BitVec 36)) (b : Bool) : Bool :=
  match f.role, ownFrame with
  | .winner, some bits =>
    decide (17 ≤ f.position) && decide (f.position ≤ 36) && (frameBit bits f.position != b)
  | _, _ => false

/-- A frame takes the reading of its position: the bit is recorded at 1..36, the winner's readback is
compared at 17..36, the check is compared at 36, and the objection bit is noted at 37 (R97, R100, R102,
R104). -/
def Frame.read (f : Frame) (ownFrame : Option (BitVec 36)) (b : Bool) : Frame :=
  let bits := if 1 ≤ f.position ∧ f.position ≤ 36 then recordBit f.bits f.position b else f.bits
  { f with
    bits := bits
    readbackMismatch := f.readbackMismatch || f.readbackDiffers ownFrame b
    checkMismatch := if f.position = 36 then checkDiffers bits else f.checkMismatch
    objection := if f.position = 37 then some b else f.objection }

/-- The view takes a reading; only a frame records it (R108). -/
def LineView.read (v : LineView) (ownFrame : Option (BitVec 36)) (b : Bool) : LineView :=
  match v with
  | .frame f => .frame (f.read ownFrame b)
  | w => w

/-- The line at a bit centre reads `b`: the two runs move (R90) and the frame being heard takes the bit.
What else the reading brings about is a step of its own (log 8). -/
def Line.atCentre (l : Line) (b : Bool) : Line :=
  { l with
    view := l.view.read l.ownFrame b
    recessiveRun := if b then 0 else min (l.recessiveRun + 1) Config.joinRun
    dominantRun := if b then min (l.dominantRun + 1) Config.stuckRun else 0
    bitRead := some b }

/-- The Seed Line Interface at the new timebase value (R89). -/
def Line.atSample (l : Line) (now : SampleTime) (b : Bool) : Line :=
  if isBoundary now then l.atBoundary
  else if isCentre now then l.atCentre b
  else { l with bitRead := none }

/-! ### The edge -/

/-- The timebase after the edge: advanced by 1, or 0 where TZ has zeroed it at this edge (R163, R164). -/
def State.nextNow (s : State) : SampleTime := if s.edgeTz = .zeroed then 0 else s.now + 1

/-- The edge counts HOLD_SAMPLES: an advance in RUN at which HOLD is observed asserted (R146). -/
def State.holdSampleDue (s : State) (holdLevel : Bool) : Bool :=
  s.mode == .run && s.edgeTz != .zeroed && s.holdObserved holdLevel

/-- A CCLK edge outside reset (R163). From the first one after a release on, code pairs are handled (R160).
An edge that no TZ_SAMPLE has preceded found TZ deasserted (log 7). -/
def State.advance (s : State) (seedLevel holdLevel : Bool) : State :=
  State.count
    { s with
      now := s.nextNow
      tzSeen := s.tzSeen && s.edgeTz != .unsampled
      edgeTz := .unsampled
      awaitsEdge := false
      line := s.line.atSample s.nextNow (s.seedObserved seedLevel) }
    .holdSamples (if s.holdSampleDue holdLevel then 1 else 0)

/-- TIMEBASE_ADVANCE. In reset the timebase stands at 0, nothing is read, and the edge counts toward the
eighth after RESET_STATION (R160, R161). -/
def execTimebaseAdvance (seedLevel holdLevel : Bool) (s : State) : Host.Outcome State Fault Refusal :=
  .next (if s.inReset then { s with resetEdges := s.resetEdges - 1 } else s.advance seedLevel holdLevel)

/-! ### TZ -/

/-- The line view goes to JOIN with both runs 0: TZ honoured in SETUP, or SOLO changed (R95). -/
def Line.rejoin (_l : Line) : Line := Line.reset

/-- TZ sampled asserted or deasserted in SETUP (R164). -/
def State.honourTz (s : State) (tz : Bool) : State :=
  if tz then { s with tzSeen := true, edgeTz := .zeroed, now := 0, line := s.line.rejoin }
  else { s with tzSeen := false, edgeTz := .sampled }

/-- TZ sampled in RUN or DRAIN: newly asserted, it counts TZ_IGNORED (R164). -/
def State.ignoreTz (s : State) (tz : Bool) : State :=
  State.count { s with tzSeen := tz, edgeTz := if s.edgeTz = .zeroed then .zeroed else .sampled } .tzIgnored
    (if tz && !s.tzSeen then 1 else 0)

/-- TZ_SAMPLE. In reset TZ is not sampled (R160). -/
def execTzSample (tz : Bool) (s : State) : Host.Outcome State Fault Refusal :=
  .next (if s.inReset then s else if s.active then s.ignoreTz tz else s.honourTz tz)

end Sys2Proof.Machine
end

