-- ==== Sys2Proof/Machine/Operands.lean ====
section
/-! DEFINITION. What a command word addresses: the channels and items it names, their values written and
read, and the checks that refuse it (R167 to R170, R184). -/

namespace Sys2Proof.Machine

/-! ### Values of items -/

/-- A channel item's value written, as the store holds it (R169). -/
def ChannelItems.write (x : ChannelItems) (i : ChannelItem) (v : Nat) : ChannelItems :=
  match i with
  | .enable => { x with enable := v != 0 }
  | .pedMode => { x with pedMode := pedModeOfNat v }
  | .pedHi => { x with pedHi := v }
  | .pedLo => { x with pedLo := v }
  | .trackShift => { x with trackShift := v }
  | .switchLevel => { x with switchLevel := v }
  | .gainRatio => { x with gainRatio := v }
  | .threshold => { x with threshold := v }
  | .hysteresis => { x with hysteresis := v }
  | .persist => { x with persist := v }
  | .gatePre => { x with gatePre := v }
  | .gateWidth => { x with gateWidth := v }
  | .scaleShift => { x with scaleShift := v }
  | .calib => { x with calib := v }
  | .waveMode => { x with waveMode := waveModeOfNat v }

/-- What the write of a channel item does to the trackers at once: PED_HI and PED_LO load theirs, and
PED_MODE = FIXED loads both from the settings (R13, R14). -/
def Channel.loadTrackers (k : Channel) (i : ChannelItem) : Channel :=
  match i with
  | .pedHi => { k with trackHi := k.items.pedHi }
  | .pedLo => { k with trackLo := k.items.pedLo }
  | .pedMode =>
    if k.items.pedMode = .fixed then { k with trackHi := k.items.pedHi, trackLo := k.items.pedLo } else k
  | _ => k

/-- A channel item written in one channel (R169, R13, R14). -/
def Channel.writeItem (k : Channel) (i : ChannelItem) (v : Nat) : Channel :=
  Channel.loadTrackers { k with items := k.items.write i v } i

/-- A channel item's effective value: for PED_HI and PED_LO the current tracker (R170, R15). -/
def Channel.readItem (k : Channel) (i : ChannelItem) : Nat :=
  match i with
  | .enable => k.items.enable.toNat
  | .pedMode => pedModeNumber k.items.pedMode
  | .pedHi => k.trackHi.toNat
  | .pedLo => k.trackLo.toNat
  | .trackShift => k.items.trackShift
  | .switchLevel => k.items.switchLevel
  | .gainRatio => k.items.gainRatio
  | .threshold => k.items.threshold
  | .hysteresis => k.items.hysteresis
  | .persist => k.items.persist
  | .gatePre => k.items.gatePre
  | .gateWidth => k.items.gateWidth
  | .scaleShift => k.items.scaleShift
  | .calib => k.items.calib
  | .waveMode => waveModeNumber k.items.waveMode

/-- A station item's value written (R169). -/
def StationItems.write (x : StationItems) (i : StationItem) (v : Nat) : StationItems :=
  match i with
  | .seedThreshold => { x with seedThreshold := v }
  | .window => { x with window := v }
  | .callDeadline => { x with callDeadline := v }
  | .horizon => { x with horizon := v }
  | .highMark => { x with highMark := v }
  | .lowMark => { x with lowMark := v }
  | .solo => { x with solo := v != 0 }

/-- A station item's effective value (R170). -/
def StationItems.read (x : StationItems) (i : StationItem) : Nat :=
  match i with
  | .seedThreshold => x.seedThreshold
  | .window => x.window
  | .callDeadline => x.callDeadline
  | .horizon => x.horizon
  | .highMark => x.highMark
  | .lowMark => x.lowMark
  | .solo => x.solo.toNat

/-! ### Addressing -/

/-- Channel `c` is addressed by a channel field: by its number, or by 15 (R169). -/
def addresses (field : BitVec 4) (c : Fin 8) : Bool := field == 15 || field.toNat == c.val

/-- The channel a READ_ITEM names; it addresses 0..7 (R167). -/
def namedChannel (field : BitVec 4) : Fin 8 := ⟨field.toNat % 8, Nat.mod_lt _ (by decide)⟩

/-! ### SET and READ_ITEM -/

/-- A channel item written in every addressed channel (R169). -/
def State.writeChannelItem (s : State) (field : BitVec 4) (i : ChannelItem) (v : Nat) : State :=
  { s with channels := Vector.ofFn fun c =>
      if addresses field c then s.channels[c].writeItem i v else s.channels[c] }

/-- A station item written; a change of SOLO sends the line view to JOIN (R169, R112, R95). -/
def State.writeStationItem (s : State) (i : StationItem) (v : Nat) : State :=
  let written := s.station.write i v
  { s with
    station := written
    line := if written.solo = s.station.solo then s.line else s.line.rejoin }

/-- An item written with its clamped value (R169). -/
def State.writeItem (s : State) (field : BitVec 4) (i : Item) (v : Nat) : State :=
  match i with
  | .channel j => s.writeChannelItem field j v
  | .station j => s.writeStationItem j v

/-- The effect of a SET that passes its checks (R169). -/
def State.setItem (s : State) (field : BitVec 4) (i : Item) (value : BitVec 18) : State :=
  State.stickAdjusted (s.writeItem field i (clampItem i value.toNat))
    (clampItem i value.toNat != value.toNat)

/-- The effective value a READ_ITEM reports (R170). -/
def State.itemValue (s : State) (field : BitVec 4) (i : Item) : Nat :=
  match i with
  | .channel j => s.channels[namedChannel field].readItem j
  | .station j => s.station.read j

/-! ### Checks -/

/-- The channel check of a SET: 8..14 fail for a channel item (R167). -/
def setChannelBad (field : BitVec 4) : Item → Bool
  | .channel _ => decide (8 ≤ field.toNat) && decide (field.toNat ≤ 14)
  | .station _ => false

/-- The channel check of a READ_ITEM: 8..15 fail for a channel item (R167). -/
def readChannelBad (field : BitVec 4) : Item → Bool
  | .channel _ => decide (8 ≤ field.toNat)
  | .station _ => false

/-- The checks of a SET after its kind, in their order (R167). -/
def refuseSet (mode : StationState) (c : CommandWord) : Option RefusalCode :=
  match itemOfCode c.item with
  | none => some .unknownItem
  | some i =>
    if setChannelBad c.channel i then some .badChannel
    else if mode ≠ .setup then some .wrongState
    else none

/-- The checks of a READ_ITEM after its kind, in their order (R167). -/
def refuseRead (c : CommandWord) : Option RefusalCode :=
  match itemOfCode c.item with
  | none => some .unknownItem
  | some i => if readChannelBad c.channel i then some .badChannel else none

/-- The check of a command that is accepted in one station state only (R167). -/
def refuseState (mode accepted : StationState) : Option RefusalCode :=
  if mode = accepted then none else some .wrongState

/-! ### The head of the Command Queue -/

/-- The word at the head of the Command Queue; in reset no command is carried out (R160). -/
def State.headWord (s : State) : Option Word := if s.inReset then none else s.commands.head?

/-- The head of the Command Queue with its fields, if its kind is known. -/
def State.headCommand (s : State) : Option (Word × CommandWord) :=
  match s.headWord with
  | none => none
  | some w => (decodeCommand w).map fun c => (w, c)

/-- The fields of the head, if it is a command of kind `k`. -/
def State.headOfKind (s : State) (k : CommandKind) : Option (Word × CommandWord) :=
  s.headCommand.filter fun p => p.2.kind == k

/-- The head leaves the Command Queue as it is carried out (R166). -/
def State.popCommand (s : State) : State := { s with commands := s.commands.tail }

/-- The response buffer is empty (R151). -/
def State.bufferEmpty (s : State) : Bool := s.link.response == []

/-- The head is refused: where the response buffer is empty, it leaves with its refusal frame, and
otherwise it waits (R166, R167). -/
def State.refuseHead (s : State) (w : Word) (code : RefusalCode) : State :=
  if s.bufferEmpty then s.popCommand.respond (refusalFrame code w) else s

end Sys2Proof.Machine
end

