-- ==== Sys2Proof/Machine/Control.lean ====
section
/-! DEFINITION. The Station Controller: the sending of a link word, the return from DRAIN (R158, R159),
reset (R160 to R162) and the commands of the Command Port (R155 to R157, R165 to R170, R175, R176, R184). -/

namespace Sys2Proof.Machine

/-! ### The link and the return from DRAIN -/

/-- LINK_WORD_SENT. In reset nothing is sent (R160). -/
def execLinkWordSent (s : State) : Host.Outcome State Fault Refusal :=
  .next (if s.inReset then s else s.chooseFrame.sendWord (startWord s.slot))

/-- The view is FRAME. -/
def Line.inFrame (l : Line) : Bool :=
  match l.view with
  | .frame _ => true
  | _ => false

/-- The conditions of the return from DRAIN (R158). -/
def State.drainDone (s : State) : Bool :=
  s.mode == .drain && s.channels.toList.all Channel.allFree && !s.callOnLine && s.seeds == [] &&
    s.readout == [] && !s.line.inFrame

/-- The return from DRAIN to SETUP: the Hit Store is emptied, unselected entries counted, slots returned,
evict_mark absent, every discriminator BELOW (R159, R70, R19). -/
def State.returnToSetup (s : State) : State :=
  State.enterMode
    (State.count
      { s.mapChannels (fun k => { k with disc := .below }) with
        hits := []
        evictMark := none
        pool := returnSlots s.pool s.hits }
      .hitsExpiredUnselected (unselectedCount s.hits))
    .setup

/-- The test of the conditions and the return that may follow (R158). -/
def State.testDrain (s : State) : State := if s.drainDone then s.returnToSetup else s

/-- DRAIN_RETURN (R158). -/
def execDrainReturn (s : State) : Host.Outcome State Fault Refusal := .next s.testDrain

/-! ### Reset -/

/-- RSTN_ASSERT: the station is in reset; a RESET_STATION in progress keeps counting (R160, R161). -/
def execRstnAssert (s : State) : Host.Outcome State Fault Refusal :=
  .next (s.enterReset true s.resetEdges)

/-- RESET_RELEASE: RSTN is deasserted, and the station is released unless RESET_STATION still waits for
its eighth edge (R160, R161, R162; log 11). Outside reset nothing changes. -/
def execResetRelease (straps : BitVec 4) (s : State) : Host.Outcome State Fault Refusal :=
  .next
    (if s.inReset then
      if s.resetEdges = 0 then s.release straps else { s with rstn := false }
    else s)

/-! ### The Command Queue -/

/-- COMMAND_WORD_ARRIVAL: the word joins the queue, or is discarded and counted at a full one; in reset it
is discarded and nothing is counted (R160, R165). -/
def execCommandWordArrival (word : Word) (s : State) : Host.Outcome State Fault Refusal :=
  .next
    (if s.inReset then s
    else if s.commands.length < Config.commandQueueDepth then { s with commands := s.commands ++ [word] }
    else s.count .cmdOverruns 1)

/-! ### The commands -/

/-- SET (R167, R169). -/
def execSet (s : State) : Host.Outcome State Fault Refusal :=
  .next
    (match s.headOfKind .set with
    | none => s
    | some (w, c) =>
      match refuseSet s.mode c, itemOfCode c.item with
      | some code, _ => s.refuseHead w code
      | none, some i => s.popCommand.setItem c.channel i c.value
      | none, none => s)

/-- READ_ITEM: it waits for the response buffer, refused or not (R166, R170). -/
def execReadItem (s : State) : Host.Outcome State Fault Refusal :=
  .next
    (match s.headOfKind .readItem with
    | none => s
    | some (w, c) =>
      match refuseRead c, itemOfCode c.item with
      | some code, _ => s.refuseHead w code
      | none, some i =>
        if s.bufferEmpty then
          s.popCommand.respond [itemValueWord c.channel c.item (s.itemValue c.channel i)]
        else s
      | none, none => s)

/-- HORIZON as START leaves it (R156). -/
def startHorizon (x : StationItems) : Nat := max x.horizon (x.callDeadline + 2 * x.window + 400)

/-- LOW_MARK as START leaves it (R156). -/
def startLowMark (x : StationItems) : Nat := min x.lowMark (x.highMark - 256)

/-- START adjusts an item (R156). -/
def startAdjusts (x : StationItems) : Bool :=
  startHorizon x != x.horizon || startLowMark x != x.lowMark

/-- The largest GATE_WIDTH among enabled channels, or 4 if none is enabled (R155). -/
def largestGate (channels : Vector Channel 8) : Nat :=
  let enabled := channels.toList.filter fun k => k.items.enable
  if enabled = [] then 4 else (enabled.map fun k => k.items.gateWidth).foldl max 0

/-- The effect of START in SETUP as one operation (R155, R156, R71, R141, R147). -/
def State.startRun (s : State) : State :=
  State.enterMode
    (State.stickAdjusted
      { s with
        station := { s.station with horizon := startHorizon s.station, lowMark := startLowMark s.station }
        hEff := startHorizon s.station
        gMax := largestGate s.channels
        hits := []
        evictMark := none
        calls := []
        seeds := []
        readout := []
        seedCounter := 0
        hold.queueHold := false
        hold.listHold := false }
      (startAdjusts s.station))
    .run

/-- START (R155). -/
def execStart (s : State) : Host.Outcome State Fault Refusal :=
  .next
    (match s.headOfKind .start with
    | none => s
    | some (w, _) =>
      match refuseState s.mode .setup with
      | some code => s.refuseHead w code
      | none => s.popCommand.startRun)

/-- STOP's withdrawal of every WAITING call (R83). -/
def State.withdrawCalls (s : State) : State :=
  State.count { s with calls := s.calls.filter Call.isOnLine } .callsLapsed
    (s.calls.countP fun c => !c.isOnLine)

/-- The effect of STOP in RUN: DRAIN, the withdrawal, and the test of R158 at once (R157; log 17). -/
def State.stopRun (s : State) : State := ((s.enterMode .drain).withdrawCalls).testDrain

/-- STOP (R157). -/
def execStop (s : State) : Host.Outcome State Fault Refusal :=
  .next
    (match s.headOfKind .stop with
    | none => s
    | some (w, _) =>
      match refuseState s.mode .run with
      | some code => s.refuseHead w code
      | none => s.popCommand.stopRun)

/-- READ_STATUS: where the response buffer is empty, the status frame of the station as it stands
(R176). -/
def execReadStatus (holdLevel : Bool) (s : State) : Host.Outcome State Fault Refusal :=
  .next
    (match s.headOfKind .readStatus with
    | none => s
    | some _ => if s.bufferEmpty then s.popCommand.respond (statusFrame s holdLevel) else s)

/-- CLEAR_COUNTERS, accepted in every state and needing no response (R175). -/
def execClearCounters (s : State) : Host.Outcome State Fault Refusal :=
  .next
    (match s.headOfKind .clearCounters with
    | none => s
    | some _ => s.popCommand.clearCounts)

/-- LINK_PAUSE (R150). -/
def execLinkPause (s : State) : Host.Outcome State Fault Refusal :=
  .next
    (match s.headOfKind .linkPause with
    | none => s
    | some _ => { s.popCommand with link.paused := true })

/-- LINK_RESUME: an idle link with a fragment waiting begins it at once (R150). -/
def execLinkResume (s : State) : Host.Outcome State Fault Refusal :=
  .next
    (match s.headOfKind .linkResume with
    | none => s
    | some _ => State.chooseFrame { s.popCommand with link.paused := false })

/-- RESET_STATION: the station is in reset until the eighth CCLK edge (R161). -/
def execResetStation (s : State) : Host.Outcome State Fault Refusal :=
  .next
    (match s.headOfKind .resetStation with
    | none => s
    | some _ => s.enterReset false Config.resetEdges)

/-- UNKNOWN_COMMAND: a head of unknown kind is refused when the response buffer is empty (R167, R184). -/
def execUnknownCommand (s : State) : Host.Outcome State Fault Refusal :=
  .next
    (match s.headWord with
    | none => s
    | some w => if (decodeCommand w).isNone then s.refuseHead w .unknownCommand else s)

end Sys2Proof.Machine
end

