-- ==== Sys2Proof/Machine/Conditioner.lean ====
section
/-! DEFINITION. The Input Conditioner: the unified sample, the quiet decision and the pedestal trackers
(spec 01). -/

namespace Sys2Proof.Machine

/-- The unified sample on the high-gain path (R4). -/
def highGainSample (k : Channel) (hi : BitVec 12) : Int := 4 * (hi.toNat : Int) - k.trackHi

/-- The unified sample on the low-gain path, rounded with a half toward plus infinity (R5). -/
def lowGainSample (k : Channel) (lo : BitVec 12) : Int :=
  ((4 * (lo.toNat : Int) - k.trackLo) * (k.items.gainRatio : Int) + 128) / 256

/-- The unified sample with its marks: the gain path is chosen by the high-gain code alone, and the
saturated mark by the low-gain code alone (R3, R6). -/
def unifiedSample (k : Channel) (hi lo : BitVec 12) : Sample :=
  if hi.toNat < k.items.switchLevel then
    { u := highGainSample k hi, lowGain := false, saturated := lo.toNat == 4095 }
  else
    { u := lowGainSample k lo, lowGain := true, saturated := lo.toNat == 4095 }

/-- The sample is quiet, judged after the Pulse Processor has taken it (R11). -/
def Channel.isQuiet (k : Channel) (u : Int) : Bool :=
  k.items.pedMode == .track && decide (u < (k.items.threshold : Int)) &&
    (!k.items.enable || (k.disc == .below && k.allFree))

/-- A tracker after a quiet reading `x`, with the error divided by 2^shift and rounded with a half toward
plus infinity (R12). -/
def trackToward (shift : Nat) (p x : Int) : Int := p + (x - p + 2 ^ (shift - 1)) / 2 ^ shift

/-- Both trackers move toward the sample's codes (R12). -/
def Channel.track (k : Channel) (hi lo : BitVec 12) : Channel :=
  { k with
    trackHi := trackToward k.items.trackShift k.trackHi (4 * (hi.toNat : Int))
    trackLo := trackToward k.items.trackShift k.trackLo (4 * (lo.toNat : Int)) }

/-- The quiet decision and the update it may bring (R1, R11, R12). -/
def Channel.settleTrackers (k : Channel) (u : Int) (hi lo : BitVec 12) : Channel :=
  if k.isQuiet u then k.track hi lo else k

end Sys2Proof.Machine
end

