-- ==== Sys2Proof/Machine/Pulse.lean ====
section
/-! DEFINITION. The discriminator and the opening, feeding and merging of integration contexts
(spec 02). -/

namespace Sys2Proof.Machine

/-! ### Discriminator -/

/-- The interpolation pair of a fresh crossing at `n`, read from the ring (R24). -/
def Channel.freshKind (k : Channel) (n : SampleTime) : CrossingKind :=
  .fresh (k.ringAt (n - 1)).u (k.ringAt n).u

/-- BELOW takes a sample (R20). The ring already holds the present sample. -/
def Channel.discBelow (k : Channel) (now : SampleTime) (u : Int) : Discriminator × Option Crossing :=
  if u < k.items.threshold then (.below, none)
  else if (k.ringAt (now - 1)).u < k.items.threshold then
    if k.items.persist = 1 then (.rising u, some { sample := now, kind := k.freshKind now })
    else (.pending now 1 u, none)
  else (.below, none)

/-- PENDING takes a sample (R21). -/
def Channel.discPending (k : Channel) (candidate : SampleTime) (count : Nat) (runningMax u : Int) :
    Discriminator × Option Crossing :=
  if u < k.items.threshold then (.below, none)
  else if count + 1 = k.items.persist then
    (.rising (max runningMax u), some { sample := candidate, kind := k.freshKind candidate })
  else (.pending candidate (count + 1) (max runningMax u), none)

/-- RISING takes a sample (R22). -/
def Channel.discRising (k : Channel) (peak u : Int) : Discriminator × Option Crossing :=
  if u < (k.items.threshold : Int) - k.items.hysteresis then (.below, none)
  else if u ≤ max peak u - k.items.hysteresis then (.falling u, none)
  else (.rising (max peak u), none)

/-- FALLING takes a sample (R23). -/
def Channel.discFalling (k : Channel) (now : SampleTime) (valley u : Int) :
    Discriminator × Option Crossing :=
  if u < (k.items.threshold : Int) - k.items.hysteresis then (.below, none)
  else if min valley u + k.items.hysteresis ≤ u ∧ (k.items.threshold : Int) ≤ u then
    (.rising u, some { sample := now, kind := .rerise })
  else (.falling (min valley u), none)

/-- The discriminator takes the present sample and may declare a crossing (R18, first stage). -/
def Channel.discriminate (k : Channel) (now : SampleTime) (u : Int) : Discriminator × Option Crossing :=
  match k.disc with
  | .below => k.discBelow now u
  | .pending candidate count runningMax => k.discPending candidate count runningMax u
  | .rising peak => k.discRising peak u
  | .falling valley => k.discFalling now valley u

/-- The discriminator runs: the channel is enabled and the station is in RUN or DRAIN (R19). -/
def State.discRuns (s : State) (c : Fin 8) : Bool := s.channels[c].items.enable && s.active

/-! ### Contexts -/

/-- A pile-up count raised by 1, saturating at 3 (R26, R27). -/
def raisePileup (n : Nat) : Nat := min (n + 1) Config.pileupMax

/-- A context meets another opening or a merge: its count rises and it carries PILEUP (R26, R27). -/
def OpenContext.pileUp (x : OpenContext) : OpenContext :=
  { x with pileup := raisePileup x.pileup, pileupFlag := true }

/-- The context takes the sample of time `t`: accumulator, peak and marks (R29). -/
def OpenContext.take (x : OpenContext) (t : SampleTime) (y : Sample) : OpenContext :=
  let first := x.taken = 0
  { x with
    taken := x.taken + 1
    accumulator := x.accumulator + y.u
    peak := if first then y.u else max x.peak y.u
    peakOffset := if first then 0 else if x.peak < y.u then (t - x.gateFirst).toNat else x.peakOffset
    lowGain := x.lowGain || y.lowGain
    saturated := x.saturated || y.saturated }

/-- The sample is written into the context's slot, if it holds one (R29, R38). -/
def feedSlot (pool : Vector Slot 32) (slot : Option (Fin 32)) (u : Int) : Vector Slot 32 :=
  match slot with
  | none => pool
  | some i => writeSlot pool i u

/-- An OPEN context of the channel takes a sample, into its sums and into its slot (R29); a FREE one takes
nothing. -/
def State.takeSample (s : State) (c : Fin 8) (name : ContextName) (t : SampleTime) (y : Sample) : State :=
  match s.channels[c].ctx name with
  | none => s
  | some x =>
    { s.modifyChannel c (fun k => k.setCtx name (some (x.take t y))) with
      pool := feedSlot s.pool x.slot y.u }

/-- The opening context takes its gate samples earlier than the present one from the ring, oldest first
(R28). -/
def State.takeFromRing (s : State) (c : Fin 8) (name : ContextName) (first : SampleTime) : State :=
  (List.range (s.now - first).toNat).foldl
    (fun s' i => s'.takeSample c name (first + BitVec.ofNat 28 i)
      (s'.channels[c].ringAt (first + BitVec.ofNat 28 i))) s

/-- The slot an opening context is lent, if its channel's WAVE_MODE asks for one (R36). -/
def State.slotForOpening (s : State) (c : Fin 8) : Option (Fin 32) :=
  if s.channels[c].items.waveMode = .never then none else lowestFree s.pool

/-- The context as it opens, before its first sample; `piled` when the other context is OPEN (R25, R26,
R28, R36, R37). -/
def State.openedContext (s : State) (c : Fin 8) (x : Crossing) (piled : Bool) : OpenContext :=
  let items := s.channels[c].items
  { crossing := x.sample
    kind := x.kind
    gateFirst := x.sample - BitVec.ofNat 28 items.gatePre
    gateLast := x.sample + BitVec.ofNat 28 items.gateWidth - 1
    taken := 0
    accumulator := 0
    peak := 0
    peakOffset := 0
    pileup := if piled then 1 else 0
    pileupFlag := piled
    merged := false
    waveLost := items.waveMode != .never && (lowestFree s.pool).isNone
    lowGain := false
    saturated := false
    slot := s.slotForOpening c }

/-- The pool after the opening's request (R36). -/
def State.poolAfterRequest (s : State) (c : Fin 8) : Vector Slot 32 :=
  match s.slotForOpening c with
  | none => s.pool
  | some i => lendSlot s.pool i

/-- The other context of a channel. -/
def otherContext : ContextName → ContextName
  | .a => .b
  | .b => .a

/-- A crossing opens the named FREE context; the other, if OPEN, is piled up (R26), a slot is requested
(R36), and the earlier gate samples come from the ring (R28). -/
def State.openContext (s : State) (c : Fin 8) (name : ContextName) (x : Crossing) : State :=
  let other := s.channels[c].ctx (otherContext name)
  let opened := s.openedContext c x other.isSome
  let s' := { s.modifyChannel c (fun k =>
      (k.setCtx (otherContext name) (other.map OpenContext.pileUp)).setCtx name (some opened)) with
    pool := s.poolAfterRequest c }
  s'.takeFromRing c name opened.gateFirst

/-- A crossing merges into two OPEN contexts: both pile up and the newer, the one with the later crossing
sample, takes MERGED (R27). -/
def State.mergeCrossing (s : State) (c : Fin 8) (a b : OpenContext) : State :=
  let aNewer := decide (0 < timeDiff a.crossing b.crossing)
  s.modifyChannel c fun k =>
    { k with
      ctxA := some { a.pileUp with merged := a.merged || aNewer }
      ctxB := some { b.pileUp with merged := b.merged || !aNewer } }

/-- The crossing is acted upon: context A if FREE, else B if FREE, else a merge (R26, R27). -/
def State.actOnCrossing (s : State) (c : Fin 8) (x : Crossing) : State :=
  match s.channels[c].ctxA, s.channels[c].ctxB with
  | none, _ => s.openContext c .a x
  | some _, none => s.openContext c .b x
  | some a, some b => s.mergeCrossing c a b

end Sys2Proof.Machine
end

