-- ==== Sys2Proof/Machine/Hits.lean ====
section
/-! DEFINITION. From a completing context to a stored hit and, perhaps, a call: the hit arithmetic
(spec 03), the Hit Store's insertion (spec 04) and the Seed Former's evaluation (spec 05). -/

namespace Sys2Proof.Machine

/-! ### Hit arithmetic -/

/-- The sub-sample correction: interpolated for a fresh crossing, 0 for a re-rise (R45, R46). -/
def subSample (threshold : Nat) : CrossingKind → Nat
  | .rerise => 0
  | .fresh before after => (16 * (after - threshold) / (after - before)).toNat

/-- The hit time 16n - δ, modulo 2^32 (R45, R46). -/
def hitTime (n : SampleTime) (delta : Nat) : FineTime :=
  BitVec.ofNat 32 (16 * n.toNat) - BitVec.ofNat 32 delta

/-- The hit keeps the context's slot under its channel's WAVE_MODE (R39). -/
def keepsSlot (m : WaveMode) (x : OpenContext) : Bool :=
  match m with
  | .never => false
  | .onFlag => x.pileupFlag || x.saturated || x.merged
  | .always => true

/-- The slot the hit holds (R39, R52). -/
def hitSlot (m : WaveMode) (x : OpenContext) : Option (Fin 32) :=
  if keepsSlot m x then x.slot else none

/-- The hit record of a completing context (R43, R45 to R52). -/
def formHit (c : Fin 8) (items : ChannelItems) (pool : Vector Slot 32) (x : OpenContext) : Hit :=
  let delta := subSample items.threshold x.kind
  let charge := roundedCharge items.scaleShift x.accumulator
  let q := limitedCharge charge
  let energy := roundedEnergy items.calib q
  { channel := c
    crossing := x.crossing
    delta := delta
    time := hitTime x.crossing delta
    charge := q
    energy := limitedEnergy energy
    peak := x.peak
    peakOffset := x.peakOffset
    pileup := x.pileup
    flags :=
      { lowGain := x.lowGain
        sat := x.saturated
        pileup := x.pileupFlag
        merged := x.merged
        coarseTime := x.kind == .rerise
        qLow := decide (charge < 0)
        qHigh := decide (65535 < charge)
        eHigh := decide (65535 < energy)
        waveLost := x.waveLost
        waveOmitted := false }
    slot := hitSlot items.waveMode x
    waveLength :=
      match hitSlot items.waveMode x with
      | none => 0
      | some i => (slotSamples pool i).length
    selected := false }

/-! ### Hit Store -/

/-- The entry's hit time is later than `t` (R58). -/
def Hit.laterThan (h : Hit) (t : FineTime) : Bool := decide (0 < fineDiff h.time t)

/-- How many entries stand before a new record: those up to the last one whose hit time is not later
(R58). -/
def placeIndex (h : Hit) (hits : List Hit) : Nat :=
  hits.length - (hits.reverse.takeWhile fun e => e.laterThan h.time).length

/-- The store with the new record placed (R58). -/
def placeHit (h : Hit) (hits : List Hit) : List Hit :=
  hits.take (placeIndex h hits) ++ h :: hits.drop (placeIndex h hits)

/-- evict_mark after an eviction (R60). -/
def raiseEvictMark (mark : Option SampleTime) (n : SampleTime) : Option SampleTime :=
  match mark with
  | none => some n
  | some m => some (laterOf m n)

/-- The first entry is evicted (R59). -/
def State.evict (s : State) (e : Hit) (rest : List Hit) : State :=
  State.count { s with
    hits := rest
    evictMark := raiseEvictMark s.evictMark e.crossing
    pool := returnSlot s.pool e.slot } .hitsEvicted 1

/-! ### Seed Former -/

/-- The sum of the energies of the entries within ±W of `n` (R65). -/
def windowSum (w : Nat) (n : SampleTime) (hits : List Hit) : Nat :=
  ((hits.filter fun h => within w h.crossing n).map Hit.energy).sum

/-- The seed energy of a window sum (R73). -/
def seedEnergy (sum : Nat) : Nat := min 4095 (sum / 16)

/-- The better of two covering calls for `n`: the nearer, and of two equally near the earlier (R75). -/
def nearerCall (n : SampleTime) (a b : Call) : Bool :=
  decide ((timeDiff a.time n).natAbs < (timeDiff b.time n).natAbs) ||
    (decide ((timeDiff a.time n).natAbs = (timeDiff b.time n).natAbs) &&
      decide (timeDiff a.time b.time < 0))

/-- The better WAITING call to displace: the lower energy, and of equal energies the earlier (R77). -/
def weakerCall (a b : Call) : Bool :=
  decide (a.energy < b.energy) ||
    (decide (a.energy = b.energy) && decide (timeDiff a.time b.time < 0))

/-- The better WAITING call to offer: the greater energy, and of equal energies the earlier (R78). -/
def strongerCall (a b : Call) : Bool :=
  decide (b.energy < a.energy) ||
    (decide (a.energy = b.energy) && decide (timeDiff a.time b.time < 0))

/-- The best element of a list by a strict preference; the first of equals. -/
def best {α : Type} (better : α → α → Bool) : List α → Option α
  | [] => none
  | a :: as => some (as.foldl (fun m b => if better b m then b else m) a)

/-- The raise of a call: its energy becomes the greater of its own and the candidate's (R75). -/
def Call.raise (c : Call) (e : Nat) : Call := { c with energy := max c.energy e }

/-- A new call (R76). -/
def newCall (n : SampleTime) (e : Nat) : Call := { time := n, energy := e, retry := 0, state := .waiting }

/-- The candidate creates a call (R76). -/
def State.createCall (s : State) (n : SampleTime) (e : Nat) : State :=
  State.count { s with calls := s.calls ++ [newCall n e] } .callsMade 1

/-- The candidate at a full Call Queue displaces the weakest WAITING call or is dropped (R77). -/
def State.displaceOrDrop (s : State) (n : SampleTime) (e : Nat) : State :=
  match best weakerCall (s.calls.filter fun c => !c.isOnLine) with
  | none => s.count .callsDropped 1
  | some w =>
    if w.energy < e then
      State.createCall (State.count { s with calls := s.calls.erase w } .callsDisplaced 1) n e
    else s.count .callsDropped 1

/-- The fate of a candidate at `n` with energy `e`: the first test that applies decides (R74). -/
def State.placeCandidate (s : State) (n : SampleTime) (e : Nat) : State :=
  if s.seeds.any fun d => within s.station.window d.time n then s
  else
    match best (nearerCall n) (s.calls.filter fun c => within s.station.window c.time n) with
    | some c => { s with calls := s.calls.map fun x => if x = c then x.raise e else x }
    | none =>
      if s.calls.length < Config.callQueueDepth then s.createCall n e else s.displaceOrDrop n e

/-- The Seed Former evaluates a surviving new hit with crossing sample `n`; only in RUN can a candidate
arise (R73). -/
def State.evaluate (s : State) (n : SampleTime) : State :=
  let e := seedEnergy (windowSum s.station.window n s.hits)
  if s.mode = .run ∧ s.station.seedThreshold ≤ e then s.placeCandidate n e else s

/-! ### Insertion and completion -/

/-- A new record enters the Hit Store: placement, eviction of the first entry on overflow, and the
evaluation of the new hit if it survives (R58, R59, R61). -/
def State.insertHit (s : State) (h : Hit) : State :=
  match placeHit h s.hits with
  | [] => s
  | e :: rest =>
    if Config.hitStoreDepth < (e :: rest).length then
      if placeIndex h s.hits = 0 then s.evict e rest
      else (s.evict e rest).evaluate h.crossing
    else State.evaluate { s with hits := e :: rest } h.crossing

/-- The pool after a completion: the hit's slot is held, a slot the hit does not keep is FREE (R39). -/
def poolAfterCompletion (m : WaveMode) (pool : Vector Slot 32) (x : OpenContext) : Vector Slot 32 :=
  match x.slot with
  | none => pool
  | some i => if keepsSlot m x then holdSlot pool i else pool.set i .free

/-- The named context completes if the present sample is its last gate sample: its hit is formed, counted,
noted in the sticky flags and inserted, and the context becomes FREE (R30, R43, R53). -/
def State.completeContext (s : State) (c : Fin 8) (name : ContextName) : State :=
  match s.channels[c].ctx name with
  | none => s
  | some x =>
    if x.gateLast = s.now then
      let items := s.channels[c].items
      let h := formHit c items s.pool x
      let s1 := { s.modifyChannel c (fun k => k.setCtx name none) with
        pool := poolAfterCompletion items.waveMode s.pool x }
      ((s1.countHit c).stickHit c h.flags).insertHit h
    else s

end Sys2Proof.Machine
end

