-- ==== Sys2Proof/Machine/Sampling.lean ====
section
/-! DEFINITION. CODE_PAIR_ARRIVAL: one channel's handling of one crate sample (R1, R18). -/

namespace Sys2Proof.Machine

/-- The Pulse Processor's four stages for an enabled channel in RUN or DRAIN (R18): the discriminator, the
crossing if it is acted upon (R24), the sample into every OPEN context, and completion. The slot request of
stage two and the return of stage four reach the pool with nothing of another channel between them: the model's
reading of an indivisible arrival, where R18 and R40 alone would let another channel's request come between
(log 25). -/
def State.processSample (s : State) (c : Fin 8) (y : Sample) : State :=
  let taken := s.channels[c].discriminate s.now y.u
  let s1 : State := s.modifyChannel c fun k => { k with disc := taken.1 }
  let s2 : State :=
    match taken.2 with
    | none => s1
    | some x => if s.mode = .run then s1.actOnCrossing c x else s1
  let s3 : State := (s2.takeSample c .a s.now y).takeSample c .b s.now y
  (s3.completeContext c .a).completeContext c .b

/-- The Pulse Processor takes the sample; on a disabled channel, and in SETUP, the discriminator is held in
BELOW and nothing more is done (R19). -/
def State.takePulse (s : State) (c : Fin 8) (y : Sample) : State :=
  if s.discRuns c then s.processSample c y
  else s.modifyChannel c fun k => { k with disc := .below }

/-- The handling of one code pair on channel `c`: form u, write the ring, hand over to the Pulse Processor,
make the quiet decision (R1). -/
def State.handlePair (s : State) (c : Fin 8) (hi lo : BitVec 12) : State :=
  let y := unifiedSample s.channels[c] hi lo
  let s1 : State := s.modifyChannel c fun k => k.writeRing s.now y
  let s2 : State := s1.takePulse c y
  s2.modifyChannel c fun k => k.settleTrackers y.u hi lo

/-- CODE_PAIR_ARRIVAL. In reset no code pair is handled, and the first one handled after the release is one
that arrives in the CCLK period that the first edge opens (R160, R163). -/
def execCodePairArrival (channel : Nat) (hi lo : BitVec 12) (s : State) :
    Host.Outcome State Fault Refusal :=
  if h : channel < 8 then
    .next (if s.inReset || s.awaitsEdge then s else s.handlePair ⟨channel, h⟩ hi lo)
  else .fault .noSuchChannel

end Sys2Proof.Machine
end

