-- ==== Sys2Proof/Machine/Fragments.lean ====
section
/-! DEFINITION. The Seed List's marks and the Fragment Builder: SEED_CLOSED, SEED_LATE_MARK,
SEED_STALE_MARK (R124) and FRAGMENT_BUILD (R125 to R134). -/

namespace Sys2Proof.Machine

/-! ### The three marks -/

/-- The closure condition of a seed time (R124). -/
def State.closureReached (s : State) (t : SampleTime) : Bool :=
  decide (0 ≤ timeDiff s.now (t + BitVec.ofNat 28 (s.station.window + s.gMax + 8)))

/-- The window's start is older than H_eff (R124, R131). -/
def State.windowStartOld (s : State) (t : SampleTime) : Bool :=
  olderThan s.hEff s.now (t - BitVec.ofNat 28 s.station.window)

/-- The window's end is older than H_eff (R124). -/
def State.windowEndOld (s : State) (t : SampleTime) : Bool :=
  olderThan s.hEff s.now (t + BitVec.ofNat 28 s.station.window)

/-- SEED_CLOSED: every listed entry whose condition holds takes its closed mark and keeps it (R124). -/
def execSeedClosed (s : State) : Host.Outcome State Fault Refusal :=
  .next { s with seeds := s.seeds.map fun d => { d with closed := d.closed || s.closureReached d.time } }

/-- SEED_LATE_MARK (R124). -/
def execSeedLateMark (s : State) : Host.Outcome State Fault Refusal :=
  .next { s with seeds := s.seeds.map fun d => { d with late := d.late || s.windowStartOld d.time } }

/-- SEED_STALE_MARK (R124). -/
def execSeedStaleMark (s : State) : Host.Outcome State Fault Refusal :=
  .next { s with seeds := s.seeds.map fun d => { d with stale := d.stale || s.windowEndOld d.time } }

/-! ### Selection -/

/-- The entry is selected for the seed: within ±W of its time, and never for a stale seed (R66). -/
def State.selects (s : State) (d : Seed) (h : Hit) : Bool :=
  !d.stale && within s.station.window h.crossing d.time

/-- The selection for a seed, in store order (R66). -/
def State.selection (s : State) (d : Seed) : List Hit := s.hits.filter (s.selects d)

/-- The store with the selected mark set on the selection (R66). -/
def State.markSelected (s : State) (d : Seed) : List Hit :=
  s.hits.map fun h => if s.selects d h then { h with selected := true } else h

/-! ### Room -/

/-- The free room of the Readout Queue (R126). -/
def State.freeRoom (s : State) : Nat := Config.readoutDepth - s.occupancy

/-- The words of a fragment without waveforms (R126). -/
def baseWords (h : Nat) : Nat := 3 + 4 * h

/-- A hit copy: the hit, and the waveform samples it carries, or none with WAVE_OMITTED set (R128, R130). -/
structure HitCopy where
  hit : Hit
  omitted : Bool
  samples : List Int
  deriving DecidableEq, Repr

/-- Fit the waveforms into the room left, in store order: the first that does not fit is left out, and so
is every later one (R128). `stopped` says that one has been left out. -/
def fitWaveforms (pool : Vector Slot 32) (room : Nat) (stopped : Bool) : List Hit → List HitCopy
  | [] => []
  | h :: hs =>
    match h.slot with
    | none => { hit := h, omitted := false, samples := [] } :: fitWaveforms pool room stopped hs
    | some i =>
      if stopped || decide (room < h.waveLength) then
        { hit := h, omitted := true, samples := [] } :: fitWaveforms pool room true hs
      else
        { hit := h, omitted := false, samples := (slotSamples pool i).take h.waveLength } ::
          fitWaveforms pool (room - h.waveLength) false hs

/-- The words of a hit copy with its waveform words (R130). -/
def HitCopy.words (c : HitCopy) : List Word :=
  hitWords c.hit { c.hit.flags with waveOmitted := c.hit.flags.waveOmitted || c.omitted }
    c.samples.length ++ c.samples.map waveWord

/-! ### The fragment -/

/-- The fragment carries LATE (R131). -/
def State.fragmentLate (s : State) (d : Seed) : Bool := d.late || s.windowStartOld d.time

/-- The fragment carries EVICTED (R132). -/
def State.fragmentEvicted (s : State) (d : Seed) : Bool :=
  s.evictMark.any fun m =>
    d.stale || decide (0 ≤ timeDiff m (d.time - BitVec.ofNat 28 s.station.window))

/-- The hit copies of the head's fragment (R127, R128). -/
def State.copies (s : State) (d : Seed) : List HitCopy :=
  fitWaveforms s.pool (s.freeRoom - baseWords (s.selection d).length) false (s.selection d)

/-- The words of the head's fragment: the header, then the copies (R129, R130). -/
def State.fragmentWords (s : State) (d : Seed) : List Word :=
  [ headerWord0 s.slot (s.fragmentLate d) (s.fragmentEvicted d) d.own
      ((s.copies d).any HitCopy.omitted) (s.selection d).length d.lostAfter,
    headerWord1 d.number d.energy d.origin,
    headerWord2 d.time ] ++ (s.copies d).flatMap HitCopy.words

/-- The head can be built: the station is in RUN or DRAIN, the head is closed, and the Readout Queue has
room for its fragment without waveforms (R125, R126, R137). -/
def State.headBuildable (s : State) (d : Seed) : Bool :=
  s.active && d.closed && decide (baseWords (s.selection d).length ≤ s.freeRoom)

/-- The build of the head as one operation (R127): selection and marks, the fragment written at the tail,
the head removed and counted (R134), the hold causes judged (R142, R143), and an idle link's choice
(R149). -/
def State.build (s : State) (d : Seed) (rest : List Seed) : State :=
  State.chooseFrame
    (State.count
      (State.judgeListHold
        (State.judgeQueueHold
          { s with
            hits := s.markSelected d
            readout := s.readout ++ [s.fragmentWords d]
            seeds := rest }))
      .fragmentsBuilt 1)

/-- FRAGMENT_BUILD (R125, R127). Where the conditions do not hold nothing changes. -/
def execFragmentBuild (s : State) : Host.Outcome State Fault Refusal :=
  .next
    (match s.seeds with
    | [] => s
    | d :: rest => if s.headBuildable d then s.build d rest else s)

end Sys2Proof.Machine
end

