-- ==== Sys2Proof/Machine/SeedLine.lean ====
section
/-! DEFINITION. The steps of the Seed Line Interface: starting a frame, what a reading brings about, and
the settling of a frame (spec 06), with the delivery of an accepted seed (R81, R119, R120). Each step has a
condition of its own, named ...Due; where it does not hold, nothing changes (log 2). -/

namespace Sys2Proof.Machine

/-- The frame being heard, if the view is FRAME. -/
def Line.frame? (l : Line) : Option Frame :=
  match l.view with
  | .frame f => some f
  | _ => none

/-- The view becomes another than FRAME at once: nothing of the frame is kept. -/
def Line.leaveFrame (l : Line) (v : LineView) : Line :=
  { l with view := v, ownFrame := none, toIdle := false }

/-! ### Starting a frame -/

/-- The call the Seed Former answers with: the WAITING call of greatest energy, the earliest of equals
(R78). -/
def State.offeredCall (s : State) : Option Call := best strongerCall (s.calls.filter fun c => !c.isOnLine)

/-- The station may begin a frame here: RUN, a bit boundary, view IDLE, HOLD observed deasserted, and no
frame of its own on the line (R98, R78). -/
def State.mayStart (s : State) (holdLevel : Bool) : Bool :=
  s.mode == .run && isBoundary s.now && s.line.view == .idle && !s.holdObserved holdLevel && !s.callOnLine

/-- The call goes ON_LINE with its energy frozen, the own frame is formed and the start bit is driven
(R79, R96, R98). -/
def State.startFrame (s : State) (c : Call) : State :=
  { s with
    calls := s.calls.map fun x => if x = c then { x with state := .onLine x.energy } else x
    line.ownFrame := some (ownFrameBits s.slot c.energy c.time)
    line.drive := true }

/-- FRAME_START (R98). -/
def execFrameStart (holdLevel : Bool) (s : State) : Host.Outcome State Fault Refusal :=
  .next
    (if s.mayStart holdLevel then
      match s.offeredCall with
      | none => s
      | some c => s.startFrame c
    else s)

/-! ### Readings -/

/-- A dominant read in IDLE: a start bit (R92). -/
def State.startBitDue (s : State) : Bool := s.line.view == .idle && s.line.bitRead == some true

/-- The frame as a start bit begins it: its base is the boundary 4 samples before the read (R92). -/
def State.newFrame (s : State) : Frame where
  base := s.now - 4
  position := 0
  role := if s.line.drive then .caller else .listener
  bits := 0
  checkMismatch := false
  readbackMismatch := false
  objection := none
  settled := false

/-- START_BIT_HEARD (R92, R99). -/
def execStartBitHeard (s : State) : Host.Outcome State Fault Refusal :=
  .next (if s.startBitDue then { s with line.view := .frame s.newFrame } else s)

/-- The station drove its start bit and reads it recessive (R99). -/
def State.startLostDue (s : State) : Bool :=
  s.line.view == .idle && s.line.bitRead == some false && s.line.drive && s.line.ownFrame.isSome

/-- START_BIT_RECESSIVE: the call returns and the own frame is gone; the line is released from the next
boundary, at which an IDLE view drives nothing (R99, R107). -/
def execStartBitRecessive (s : State) : Host.Outcome State Fault Refusal :=
  .next (if s.startLostDue then { s.returnCall with line.ownFrame := none } else s)

/-- The frame lost: a CALLER drove recessive and reads dominant at a position 1..16 (R100). -/
def Frame.losesHere (f : Frame) (l : Line) : Bool :=
  f.role == .caller && decide (1 ≤ f.position) && decide (f.position ≤ 16) && l.bitRead == some true &&
    (match l.ownFrame with
    | some bits => !frameBit bits f.position
    | none => false)

/-- ARBITRATION_LOST: the caller becomes a LISTENER and its call returns (R100, R107). -/
def execArbitrationLost (s : State) : Host.Outcome State Fault Refusal :=
  .next
    (match s.line.frame? with
    | some f =>
      if f.losesHere s.line then
        { s.returnCall with
          line := { s.line with view := .frame { f with role := .listener }, ownFrame := none } }
      else s
    | none => s)

/-- The frame ends its position 40 recessive (R93). -/
def Frame.gapEnds (f : Frame) (l : Line) : Bool :=
  decide (f.position = 40) && l.bitRead == some false && !l.toIdle

/-- FRAME_GAP_END: the view becomes IDLE from the next boundary (R93). -/
def execFrameGapEnd (s : State) : Host.Outcome State Fault Refusal :=
  .next
    (match s.line.frame? with
    | some f => if f.gapEnds s.line then { s with line.toIdle := true } else s
    | none => s)

/-- A gap bit is read dominant (R93). -/
def Frame.gapDominant (f : Frame) (l : Line) : Bool :=
  decide (38 ≤ f.position) && l.bitRead == some true

/-- DOMINANT_GAP_BIT: the view is JOIN at once, with the recessive run at 0 (R93). -/
def execDominantGapBit (s : State) : Host.Outcome State Fault Refusal :=
  .next
    (match s.line.frame? with
    | some f =>
      if f.gapDominant s.line then
        { s with line := { s.line.leaveFrame .join with recessiveRun := 0 } }
      else s
    | none => s)

/-- A recessive read in JOIN brings the recessive run to 44 (R91). -/
def State.lineIdleDue (s : State) : Bool :=
  s.line.view == .join && s.line.bitRead == some false && decide (s.line.recessiveRun = Config.joinRun)
    && !s.line.toIdle

/-- LINE_IDLE: the view becomes IDLE from the next boundary (R91). -/
def execLineIdle (s : State) : Host.Outcome State Fault Refusal :=
  .next (if s.lineIdleDue then { s with line.toIdle := true } else s)

/-- A dominant read brings the dominant run to 48 (R94). -/
def State.lineStuckDue (s : State) : Bool :=
  s.line.view != .stuck && s.line.bitRead == some true && decide (s.line.dominantRun = Config.stuckRun)

/-- LINE_STUCK: the view is STUCK, counted once; SEED is released at once, a frame being heard ends without
an outcome, and an ON_LINE call returns (R94, R107). -/
def execLineStuck (s : State) : Host.Outcome State Fault Refusal :=
  .next
    (if s.lineStuckDue then
      State.count { s.returnCall with line := { s.line.leaveFrame .stuck with drive := false } }
        .lineStuckEvents 1
    else s)

/-- A recessive read in STUCK (R94). -/
def State.stuckReleaseDue (s : State) : Bool := s.line.view == .stuck && s.line.bitRead == some false

/-- STUCK_RELEASE: the view is JOIN, and this read is the first of its 44 (R94). -/
def execStuckRelease (s : State) : Host.Outcome State Fault Refusal :=
  .next (if s.stuckReleaseDue then { s with line.view := .join } else s)

/-! ### Objection and settling -/

/-- The station objects at the boundary of position 37 (R103). -/
def State.objects (s : State) (f : Frame) : Bool :=
  s.active && s.now == f.base + 296 && !s.line.drive &&
    (f.checkMismatch || (f.role == .winner && f.readbackMismatch))

/-- OBJECTION_RAISED: position 37 is driven dominant, counted once (R103). -/
def execObjectionRaised (s : State) : Host.Outcome State Fault Refusal :=
  .next
    (match s.line.frame? with
    | some f =>
      if s.objects f then State.count { s with line.drive := true } .objectionsRaised 1 else s
    | none => s)

/-- The end of position 37 with the given objection bit read, not yet handled (R104, R105). -/
def State.settles (s : State) (f : Frame) (objection : Bool) : Bool :=
  s.now == f.base + 304 && f.objection == some objection && !f.settled

/-- The frame's end of position 37 has been handled (log 8). -/
def State.markSettled (s : State) (f : Frame) : State :=
  { s with line.view := .frame { f with settled := true } }

/-- FRAMES_DISCARDED: the frame is discarded and counted in any station state; a winner's call returns with
its retry count raised, or is abandoned (R104, R80, R83). -/
def execFramesDiscarded (s : State) : Host.Outcome State Fault Refusal :=
  .next
    (match s.line.frame? with
    | some f =>
      if s.settles f true then
        State.count
          (if f.role = .winner then (s.markSettled f).discardCall else s.markSettled f)
          .framesDiscarded 1
      else s
    | none => s)

/-! ### Delivery of an accepted seed -/

/-- The delivery to the Call Queue: the ON_LINE call is won, covered calls are merged (R81). -/
def State.deliverToCalls (s : State) (t : SampleTime) : State :=
  State.count
    (State.count
      { s with calls := s.calls.filter fun c => !c.isOnLine && !within s.station.window c.time t }
      .callsWon (s.calls.countP Call.isOnLine))
    .callsMerged (s.calls.countP fun c => !c.isOnLine && within s.station.window c.time t)

/-- The entry a seed takes in the list, its marks as the test at its append finds them (R119, R124). -/
def State.seedEntry (s : State) (bits : BitVec 36) (own : Bool) : Seed :=
  let t := rebuildTime s.now (frameTime bits)
  { number := s.seedCounter
    time := t
    energy := frameEnergy bits
    origin := rankOfSlot (frameRank bits)
    own := own
    lostAfter := 0
    closed := s.closureReached t
    late := s.windowStartOld t
    stale := s.windowEndOld t }

/-- lost_after of the last entry rises by 1, saturating at 255 (R120). -/
def raiseLost : List Seed → List Seed
  | [] => []
  | [d] => [{ d with lostAfter := min (d.lostAfter + 1) Config.lostAfterMax }]
  | d :: e :: ds => d :: raiseLost (e :: ds)

/-- The delivery to the Seed List: the seed is numbered and counted heard, then appended, or counted lost
at a full list (R118, R119, R120, R143). -/
def State.deliverToList (s : State) (d : Seed) : State :=
  let s1 : State := State.count { s with seedCounter := s.seedCounter + 1 } .seedsHeard 1
  if s.seeds.length < Config.seedListDepth then
    State.judgeListHold { s1 with seeds := s.seeds ++ [d] }
  else State.count { s1 with seeds := raiseLost s.seeds } .seedsLost 1

/-- The delivery of the accepted seed; in SETUP both blocks ignore it (R81, R105, R121). -/
def State.deliver (s : State) (bits : BitVec 36) : State :=
  if s.active then
    State.deliverToList (s.deliverToCalls (rebuildTime s.now (frameTime bits)))
      (s.seedEntry bits s.callOnLine)
  else s

/-- SEED_ACCEPTED (R105). -/
def execSeedAccepted (s : State) : Host.Outcome State Fault Refusal :=
  .next
    (match s.line.frame? with
    | some f => if s.settles f false then (s.markSettled f).deliver f.bits else s
    | none => s)

end Sys2Proof.Machine
end

