-- ==== Sys2Proof/Machine/Dispatch.lean ====
section
/-! DEFINITION. One arm per command. -/

namespace Sys2Proof.Machine

def exec (i : Instr) (s : State) : Host.Outcome State Fault Refusal :=
  match i with
  | .codePairArrival channel hi lo => Sys2Proof.Machine.execCodePairArrival channel hi lo s
  | .timebaseAdvance seedLevel holdLevel => Sys2Proof.Machine.execTimebaseAdvance seedLevel holdLevel s
  | .tzSample tz => Sys2Proof.Machine.execTzSample tz s
  | .hitExpiry => Sys2Proof.Machine.execHitExpiry s
  | .evictMarkWithdrawal => Sys2Proof.Machine.execEvictMarkWithdrawal s
  | .callLapse => Sys2Proof.Machine.execCallLapse s
  | .seedClosed => Sys2Proof.Machine.execSeedClosed s
  | .seedLateMark => Sys2Proof.Machine.execSeedLateMark s
  | .seedStaleMark => Sys2Proof.Machine.execSeedStaleMark s
  | .fragmentBuild => Sys2Proof.Machine.execFragmentBuild s
  | .frameStart holdLevel => Sys2Proof.Machine.execFrameStart holdLevel s
  | .startBitHeard => Sys2Proof.Machine.execStartBitHeard s
  | .startBitRecessive => Sys2Proof.Machine.execStartBitRecessive s
  | .arbitrationLost => Sys2Proof.Machine.execArbitrationLost s
  | .objectionRaised => Sys2Proof.Machine.execObjectionRaised s
  | .framesDiscarded => Sys2Proof.Machine.execFramesDiscarded s
  | .seedAccepted => Sys2Proof.Machine.execSeedAccepted s
  | .frameGapEnd => Sys2Proof.Machine.execFrameGapEnd s
  | .dominantGapBit => Sys2Proof.Machine.execDominantGapBit s
  | .lineIdle => Sys2Proof.Machine.execLineIdle s
  | .lineStuck => Sys2Proof.Machine.execLineStuck s
  | .stuckRelease => Sys2Proof.Machine.execStuckRelease s
  | .linkWordSent => Sys2Proof.Machine.execLinkWordSent s
  | .drainReturn => Sys2Proof.Machine.execDrainReturn s
  | .commandWordArrival word => Sys2Proof.Machine.execCommandWordArrival word s
  | .set => Sys2Proof.Machine.execSet s
  | .readItem => Sys2Proof.Machine.execReadItem s
  | .start => Sys2Proof.Machine.execStart s
  | .stop => Sys2Proof.Machine.execStop s
  | .readStatus holdLevel => Sys2Proof.Machine.execReadStatus holdLevel s
  | .clearCounters => Sys2Proof.Machine.execClearCounters s
  | .linkPause => Sys2Proof.Machine.execLinkPause s
  | .linkResume => Sys2Proof.Machine.execLinkResume s
  | .resetStation => Sys2Proof.Machine.execResetStation s
  | .rstnAssert => Sys2Proof.Machine.execRstnAssert s
  | .resetRelease straps => Sys2Proof.Machine.execResetRelease straps s
  | .unknownCommand => Sys2Proof.Machine.execUnknownCommand s

end Sys2Proof.Machine
end

