-- ==== Sys2Proof/Machine/Step.lean ====
section
/-! DEFINITION. One step of the block: the command at the front of the queue is taken whole. -/

namespace Sys2Proof.Machine

/-- The front command is carried out with the queue's rest; with no command waiting the block idles
(DESIGN CHOICE, safe: log 3). -/
def step (s : State) : Host.Outcome State Fault Refusal :=
  match s.pending with
  | [] => .next s
  | c :: rest => exec c { s with pending := rest }

/-- The state with the command that the table's bits spell put at the front of its queue; unchanged where
they spell none. The table gives bits for no row (log 21). -/
def State.withFetchWord (s : State) (nbits w : Nat) : State :=
  match decodeTableWord nbits w with
  | none => s
  | some c => { s with pending := c :: s.pending }

end Sys2Proof.Machine
end

