-- ==== Sys2Proof/Safety.lean ====
section
/-! DEFINITION. What a safe run is, in the terms the claims use: the laws of the device as predicates on a
state, and which of the block's own steps are due in a state. -/

namespace Sys2Proof.Machine

/-! ### The block's own steps -/

/-- The step is the block's own: whether it happens is decided by the state (and, for two of them, by the
level of HOLD), not by the world outside. -/
def isOwnStep : Instr → Bool
  | .codePairArrival _ _ _ | .timebaseAdvance _ _ | .tzSample _ => false
  | .linkWordSent | .commandWordArrival _ => false
  | .rstnAssert | .resetRelease _ => false
  | .hitExpiry | .evictMarkWithdrawal | .callLapse => true
  | .seedClosed | .seedLateMark | .seedStaleMark | .fragmentBuild => true
  | .frameStart _ | .startBitHeard | .startBitRecessive | .arbitrationLost => true
  | .objectionRaised | .framesDiscarded | .seedAccepted | .frameGapEnd => true
  | .dominantGapBit | .lineIdle | .lineStuck | .stuckRelease | .drainReturn => true
  | .set | .readItem | .start | .stop | .readStatus _ | .clearCounters => true
  | .linkPause | .linkResume | .resetStation | .unknownCommand => true

/-- The own step is due: the condition of its rule holds in this state. A command step is due when the
Command Port can carry out the head (R166). -/
def State.due (s : State) : Instr → Bool
  | .hitExpiry => s.active && s.hits.head?.any s.expired
  | .evictMarkWithdrawal => s.active && s.markExpired
  | .callLapse => s.mode == .run && s.calls.any s.lapses
  | .seedClosed => s.seeds.any fun d => !d.closed && s.closureReached d.time
  | .seedLateMark => s.seeds.any fun d => !d.late && s.windowStartOld d.time
  | .seedStaleMark => s.seeds.any fun d => !d.stale && s.windowEndOld d.time
  | .fragmentBuild => s.seeds.head?.any s.headBuildable
  | .frameStart holdLevel => s.mayStart holdLevel && s.offeredCall.isSome
  | .startBitHeard => s.startBitDue
  | .startBitRecessive => s.startLostDue
  | .arbitrationLost => s.line.frame?.any fun f => f.losesHere s.line
  | .objectionRaised => s.line.frame?.any s.objects
  | .framesDiscarded => s.line.frame?.any fun f => s.settles f true
  | .seedAccepted => s.line.frame?.any fun f => s.settles f false
  | .frameGapEnd => s.line.frame?.any fun f => f.gapEnds s.line
  | .dominantGapBit => s.line.frame?.any fun f => f.gapDominant s.line
  | .lineIdle => s.lineIdleDue
  | .lineStuck => s.lineStuckDue
  | .stuckRelease => s.stuckReleaseDue
  | .drainReturn => s.drainDone
  | .set => (s.headOfKind .set).any fun p => (refuseSet s.mode p.2).isNone || s.bufferEmpty
  | .readItem => (s.headOfKind .readItem).isSome && s.bufferEmpty
  | .start => (s.headOfKind .start).isSome && (s.mode == .setup || s.bufferEmpty)
  | .stop => (s.headOfKind .stop).isSome && (s.mode == .run || s.bufferEmpty)
  | .readStatus _ => (s.headOfKind .readStatus).isSome && s.bufferEmpty
  | .clearCounters => (s.headOfKind .clearCounters).isSome
  | .linkPause => (s.headOfKind .linkPause).isSome
  | .linkResume => (s.headOfKind .linkResume).isSome
  | .resetStation => (s.headOfKind .resetStation).isSome
  | .unknownCommand => s.headWord.any fun w => (decodeCommand w).isNone && s.bufferEmpty
  | _ => false

/-- A prompt schedule sends TIMEBASE_ADVANCE only in a settled state: one in which no own step but those
that read HOLD is due; the model allows other schedules too (log 1).

DESIGN CHOICE, unsafe (log 26): R86 takes a call's return to WAITING and the lapse at one advance in either
order. Lapse first, a returned call older than CALL_DEADLINE is due to lapse at the next advance (R82), so the
state before that advance is not settled. `settled` keeps the return-first order only; `exec` has both. -/
def State.settled (s : State) : Prop :=
  ∀ c, isOwnStep c = true → (∀ level, c ≠ .frameStart level) → s.due c = false

/-! ### Laws of the device -/

/-- Every counter is a number in 0..4,294,967,295 (R173). -/
def State.countersInRange (s : State) : Prop :=
  (∀ k, s.counter k ≤ Config.counterMax) ∧ ∀ c : Fin 8, s.hitCounts[c] ≤ Config.counterMax

/-- NOT_RUN is set exactly outside RUN, and the HOLD drive is asserted exactly in reset or while a cause is
set (R144). -/
def State.holdLaw (s : State) : Prop :=
  s.hold.notRun = (s.mode != .run) ∧
    s.hold.drive = (s.inReset || s.hold.notRun || s.hold.queueHold || s.hold.listHold)

/-- What the two causes of the queues say of them: QUEUE_HOLD is set only above LOW_MARK, LIST_HOLD only with
more than 8 seeds listed, and each is set where its queue has reached its upper mark; outside SETUP the marks
of the Readout Queue are 256 apart, and in SETUP both causes are clear and both queues empty (R137, R141 to
R143, R147, R156). -/
def State.causesLawful (s : State) : Prop :=
  (s.hold.queueHold = true → s.station.lowMark < s.occupancy) ∧
    (s.hold.listHold = true → 8 < s.seeds.length) ∧
    (s.hold.listHold = false → s.seeds.length < 12) ∧
    (s.mode ≠ .setup → s.station.lowMark + 256 ≤ s.station.highMark ∧
      (s.hold.queueHold = false → s.occupancy < s.station.highMark)) ∧
    (s.mode = .setup → s.hold.queueHold = false ∧ s.hold.listHold = false ∧ s.seeds = [] ∧
      s.readout = [])

/-- The collections keep within their depths (R56, R72, R117, R139, R165). -/
def State.depthsKept (s : State) : Prop :=
  s.hits.length ≤ Config.hitStoreDepth ∧ s.calls.length ≤ Config.callQueueDepth ∧
    s.seeds.length ≤ Config.seedListDepth ∧ s.occupancy ≤ Config.readoutDepth ∧
    s.commands.length ≤ Config.commandQueueDepth

/-- A channel's numeric items lie in their ranges (R168). -/
def ChannelItems.inRange (x : ChannelItems) : Prop :=
  x.pedHi ≤ 16380 ∧ x.pedLo ≤ 16380 ∧ 3 ≤ x.trackShift ∧ x.trackShift ≤ 10 ∧
    256 ≤ x.switchLevel ∧ x.switchLevel ≤ 4095 ∧ 1024 ≤ x.gainRatio ∧ x.gainRatio ≤ 8191 ∧
    16 ≤ x.threshold ∧ x.threshold ≤ 262143 ∧ 1 ≤ x.hysteresis ∧ x.hysteresis ≤ 65535 ∧
    1 ≤ x.persist ∧ x.persist ≤ 4 ∧ x.gatePre ≤ 7 ∧ 4 ≤ x.gateWidth ∧ x.gateWidth ≤ 63 ∧
    x.scaleShift ≤ 10 ∧ x.calib ≤ 65535

/-- The station items lie in their ranges (R168). -/
def StationItems.inRange (x : StationItems) : Prop :=
  1 ≤ x.seedThreshold ∧ x.seedThreshold ≤ 4095 ∧ 1 ≤ x.window ∧ x.window ≤ 255 ∧
    64 ≤ x.callDeadline ∧ x.callDeadline ≤ 4095 ∧ 512 ≤ x.horizon ∧ x.horizon ≤ 8191 ∧
    512 ≤ x.highMark ∧ x.highMark ≤ 4095 ∧ x.lowMark ≤ 3839

/-- Every item of the configuration store lies in its range (R168, R169). -/
def State.itemsInRange (s : State) : Prop :=
  (∀ c : Fin 8, s.channels[c].items.inRange) ∧ s.station.inRange

/-- Both pedestal trackers of every channel lie in 0..16380 qc (R12). -/
def State.trackersInRange (s : State) : Prop :=
  ∀ c : Fin 8, 0 ≤ s.channels[c].trackHi ∧ s.channels[c].trackHi ≤ 16380 ∧
    0 ≤ s.channels[c].trackLo ∧ s.channels[c].trackLo ≤ 16380

/-- A context's pile-up count and flags agree: the count is at most 3, MERGED comes with PILEUP, and
without PILEUP the count is 0 (R31, R55). -/
def OpenContext.pileupLaw (x : OpenContext) : Prop :=
  x.pileup ≤ Config.pileupMax ∧ (x.merged = true → x.pileupFlag = true) ∧
    (x.pileupFlag = true ↔ 1 ≤ x.pileup)

/-- A stored hit's fields agree with one another (R49, R50, R55). -/
def Hit.lawful (h : Hit) : Prop :=
  h.charge ≤ 65535 ∧ h.energy ≤ 65535 ∧ h.pileup ≤ Config.pileupMax ∧
    (h.flags.merged = true → h.flags.pileup = true) ∧
    (h.flags.pileup = true ↔ 1 ≤ h.pileup) ∧
    ¬(h.flags.qLow = true ∧ h.flags.qHigh = true) ∧
    (h.flags.qLow = true → h.charge = 0 ∧ h.energy = 0 ∧ h.flags.eHigh = false) ∧
    (h.flags.qHigh = true → h.charge = 65535) ∧ (h.flags.eHigh = true → h.energy = 65535) ∧
    (h.flags.coarseTime = true → h.delta = 0) ∧ h.flags.waveOmitted = false

/-- Every OPEN context and every stored hit is lawful (R31, R55). -/
def State.pileupsLawful (s : State) : Prop :=
  (∀ c : Fin 8, ∀ name x, s.channels[c].ctx name = some x → x.pileupLaw) ∧ ∀ h ∈ s.hits, h.lawful

/-- The Call Queue's law (R72), with R81: at most 4 calls, no two within W of each other, at most one
ON_LINE, none within W of a listed seed, only an ON_LINE one in DRAIN (R83), and none at all in SETUP
(R84). -/
def State.callsLawful (s : State) : Prop :=
  s.calls.length ≤ Config.callQueueDepth ∧
    s.calls.Pairwise (fun a b => within s.station.window a.time b.time = false) ∧
    s.calls.countP Call.isOnLine ≤ 1 ∧
    (∀ c ∈ s.calls, ∀ d ∈ s.seeds, within s.station.window d.time c.time = false) ∧
    (s.mode = .drain → ∀ c ∈ s.calls, c.isOnLine = true) ∧
    (s.mode = .setup → s.calls = [] ∧ s.seeds = [])

/-- In SETUP nothing is under way: every discriminator is BELOW, every context FREE, and the collections
are empty (R19, R33, R69, R70, R84, R137, R141). -/
def State.setupIdle (s : State) : Prop :=
  s.mode = .setup →
    (∀ c : Fin 8, s.channels[c].disc = .below ∧ s.channels[c].ctxA = none ∧ s.channels[c].ctxB = none) ∧
      s.hits = [] ∧ s.evictMark = none ∧ s.calls = [] ∧ s.seeds = [] ∧ s.readout = []

/-- How many OPEN contexts hold slot `i`. -/
def State.lentCount (s : State) (i : Fin 32) : Nat :=
  (List.finRange 8).countP (fun c => s.channels[c].ctxA.any fun x => x.slot == some i) +
    (List.finRange 8).countP (fun c => s.channels[c].ctxB.any fun x => x.slot == some i)

/-- How many stored hits hold slot `i`. -/
def State.heldCount (s : State) (i : Fin 32) : Nat := s.hits.countP fun h => h.slot == some i

/-- Every slot is exactly one of three things: FREE, lent to one OPEN context, or held by one Hit Store
entry (R35). -/
def State.slotsLawful (s : State) : Prop :=
  ∀ i : Fin 32,
    match s.pool[i] with
    | .free => s.lentCount i = 0 ∧ s.heldCount i = 0
    | .lent xs => s.lentCount i = 1 ∧ s.heldCount i = 0 ∧ xs.length ≤ Config.slotDepth
    | .held xs => s.lentCount i = 0 ∧ s.heldCount i = 1 ∧ xs.length ≤ Config.slotDepth

/-- The number that follows an entry's own and those its lost_after counts (R117). -/
def Seed.nextNumber (d : Seed) : BitVec 16 := d.number + 1 + BitVec.ofNat 16 d.lostAfter

/-- Consecutive entries are consecutive in number, and the seed counter follows the last, while no
lost_after has saturated (R117, R118). -/
def numbersRun (counter : BitVec 16) : List Seed → Prop
  | [] => True
  | [d] => d.lostAfter < Config.lostAfterMax → d.nextNumber = counter
  | d :: e :: ds =>
    (d.lostAfter < Config.lostAfterMax → d.nextNumber = e.number) ∧ numbersRun counter (e :: ds)

/-- The Seed List's law (R117): at most 16 entries, consecutive in number, every lost_after in 0..255. -/
def State.seedsLawful (s : State) : Prop :=
  s.seeds.length ≤ Config.seedListDepth ∧ numbersRun s.seedCounter s.seeds ∧
    ∀ d ∈ s.seeds, d.lostAfter ≤ Config.lostAfterMax

/-- What the link transmits is there, and the link does not idle while it has something to send (R148,
R149). -/
def State.linkLawful (s : State) : Prop :=
  (∀ f ∈ s.readout, f ≠ []) ∧ (s.mode = .setup → s.readout = []) ∧
    (s.link.startOwed = true ↔ s.link.sending = .startWord) ∧
    (∀ k, s.link.sending = .response k → k < s.link.response.length) ∧
    (∀ k, s.link.sending = .fragment k → s.readout ≠ []) ∧
    (s.link.sending = .nothing → s.link.response = [] ∧ (s.link.paused = true ∨ s.readout = []))

/-- In reset the station holds nothing but its pins, its slot and the edge count (R160). -/
def State.blankInReset (s : State) : Prop :=
  s.inReset = true → s = s.enterReset s.rstn s.resetEdges

/-- The edge count of RESET_STATION runs only in reset, and is at most 8 (R161). -/
def State.edgesLawful (s : State) : Prop :=
  s.resetEdges ≤ Config.resetEdges ∧ (s.inReset = false → s.resetEdges = 0 ∧ s.rstn = false)

/-- The call counters balance: every call made is in the queue or has left it in one of five ways (R88). -/
def State.callsBalance (s : State) : Prop :=
  s.counter .callsMade =
    s.counter .callsWon + s.counter .callsMerged + s.counter .callsLapsed +
      s.counter .callsAbandoned + s.counter .callsDisplaced + s.calls.length

/-- The seed counters balance: every seed heard is built, lost or listed (R123). -/
def State.seedsBalance (s : State) : Prop :=
  s.counter .seedsHeard = s.counter .fragmentsBuilt + s.counter .seedsLost + s.seeds.length

/-- No counter of the two balances has saturated. -/
def State.balancesUnsaturated (s : State) : Prop :=
  ∀ k, s.counter k < Config.counterMax

/-- Two neighbours of the Hit Store stand in the order of their hit times: the first is not the later
(R56, R58). -/
def Hit.notLater (a b : Hit) : Prop := a.laterThan b.time = false

/-- The Hit Store stands in non-decreasing order of hit time, neighbour by neighbour, as the signed
differences of the conventions read it (R56). -/
def State.storeOrdered (s : State) : Prop := s.hits.IsChain Hit.notLater

/-! ### What a step has done: terms of the statements -/

/-- The crossing that the present sample, which the ring holds, declares on a channel whose discriminator
runs: a fresh one from BELOW with PERSIST 1, or from PENDING at the PERSIST-th sample, named after its
candidate; or a re-rise from FALLING (R20 to R24). -/
def Channel.declares (k : Channel) (now : SampleTime) : Option Crossing :=
  let u := (k.ringAt now).u
  let thr : Int := k.items.threshold
  let hys : Int := k.items.hysteresis
  match k.disc with
  | .below =>
    if thr ≤ u ∧ (k.ringAt (now - 1)).u < thr ∧ k.items.persist = 1 then
      some { sample := now, kind := .fresh (k.ringAt (now - 1)).u u }
    else none
  | .pending candidate count _ =>
    if thr ≤ u ∧ count + 1 = k.items.persist then
      some { sample := candidate, kind := .fresh (k.ringAt (candidate - 1)).u (k.ringAt candidate).u }
    else none
  | .rising _ => none
  | .falling valley =>
    if thr - hys ≤ u ∧ min valley u + hys ≤ u ∧ thr ≤ u then some { sample := now, kind := .rerise }
    else none

/-- The station with the code pair's unified sample written into the channel's ring, and no more (R1, R7). -/
def State.ringWritten (s : State) (c : Fin 8) (hi lo : BitVec 12) : State :=
  s.modifyChannel c fun k => k.writeRing s.now (unifiedSample k hi lo)

/-- The station after a code pair's ring write and the crossing it brings: in RUN a declared crossing has
been acted upon, and in DRAIN none is (R18, R24). Its contexts have not taken the sample yet. -/
def State.crossed (s : State) (c : Fin 8) (hi lo : BitVec 12) : State :=
  let v := s.ringWritten c hi lo
  match v.channels[c].declares s.now with
  | some x => if s.mode = .run then v.actOnCrossing c x else v
  | none => v

/-- The ring's `n` samples from the sample time `first` on, oldest first (R8). -/
def Channel.ringSpan (k : Channel) (first : SampleTime) (n : Nat) : List Sample :=
  (List.range n).map fun i => k.ringAt (first + BitVec.ofNat 28 i)

/-- The context has taken exactly the samples `g` of its gate, oldest first: it holds their number and sum,
the earliest of the greatest with its offset, and their marks (R29). -/
def OpenContext.hasTaken (z : OpenContext) (g : List Sample) : Prop :=
  z.taken = g.length ∧ z.accumulator = (g.map Sample.u).sum ∧
    (g ≠ [] → (g.map Sample.u)[z.peakOffset]? = some z.peak) ∧ (∀ y ∈ g, y.u ≤ z.peak) ∧
    (∀ i y, i < z.peakOffset → g[i]? = some y → y.u < z.peak) ∧
    z.lowGain = g.any Sample.lowGain ∧ z.saturated = g.any Sample.saturated

/-- What a slot request of an opening context comes to (R36, R37): on a channel without waveforms there is
none, and the pool stays; else the context `z` is lent the lowest FREE slot, which then holds the first 32 of
the samples `us`, or carries WAVE_LOST. `pool` is the pool before, `pool'` the pool after. -/
def slotLent (mode : WaveMode) (pool pool' : Vector Slot 32) (z : OpenContext) (us : List Int) : Prop :=
  (mode = .never → z.slot = none ∧ z.waveLost = false ∧ pool' = pool) ∧
    (mode ≠ .never → (∀ i : Fin 32, pool[i] ≠ .free) →
      z.slot = none ∧ z.waveLost = true ∧ pool' = pool) ∧
    ∀ i : Fin 32, mode ≠ .never → pool[i] = .free → (∀ j : Fin 32, j < i → pool[j] ≠ .free) →
      z.slot = some i ∧ z.waveLost = false ∧ pool'[i] = .lent (us.take 32) ∧
        ∀ j : Fin 32, j ≠ i → pool'[j] = pool[j]

/-- Between `s` and `t` the context `z` of channel `c` has completed: its slot is held by the hit formed from
it, or FREE; HITS and the sticky flags of the channel follow the hit; and the hit is inserted (R30, R39, R43,
R53, R58). The context itself is left out. -/
def State.completed (s t : State) (c : Fin 8) (z : OpenContext) : Prop :=
  ∃ (h : Hit) (q : Vector Slot 32) (r : State), h = formHit c s.channels[c].items s.pool z ∧
    (∀ i : Fin 32, z.slot ≠ some i → q[i] = s.pool[i]) ∧
    (∀ i : Fin 32, z.slot = some i →
      q[i] = if h.slot = some i then .held (slotSamples s.pool i) else .free) ∧
    r = State.insertHit { s with pool := q } h ∧
    t.hitCounts[c] = min (s.hitCounts[c] + 1) 4294967295 ∧
    t.rangeFlags[c] = (s.rangeFlags[c] || h.flags.qLow || h.flags.qHigh || h.flags.eHigh) ∧
    t.satFlags[c] = (s.satFlags[c] || h.flags.sat) ∧
    (∀ d : Fin 8, d ≠ c → t.hitCounts[d] = s.hitCounts[d] ∧ t.rangeFlags[d] = s.rangeFlags[d] ∧
      t.satFlags[d] = s.satFlags[d]) ∧
    t = { r with hitCounts := t.hitCounts, rangeFlags := t.rangeFlags, satFlags := t.satFlags }

/-- Between `s` and `t` the counter `k` has counted `n` events, saturating (R173), and no other station
counter has moved. -/
def State.counted (s t : State) (k : Counter) (n : Nat) : Prop :=
  t.counter k = min (s.counter k + n) 4294967295 ∧ ∀ j, j ≠ k → t.counter j = s.counter j

/-- Between `s` and `t` the ON_LINE call's frame has ended without reaching its objection bit: the call is
WAITING again with its retry count as it was, or, in DRAIN, it has left and is counted lapsed (R80, R83). -/
def State.callBack (s t : State) : Prop :=
  (s.mode ≠ .drain →
    t.calls = (s.calls.map fun c => if c.isOnLine then { c with state := .waiting } else c) ∧
      t.counters = s.counters) ∧
  (s.mode = .drain →
    t.calls = s.calls.filter (fun c => !c.isOnLine) ∧
      s.counted t .callsLapsed (s.calls.countP Call.isOnLine))

/-- What a link with no frame in transmission begins once the start word is sent: a response, then, while
RUNNING, the fragment at the front (R149). -/
def nextSending (paused : Bool) (response : List Word) (readout : List (List Word)) : Sending :=
  if response ≠ [] then .response 0
  else if paused = false ∧ readout ≠ [] then .fragment 0
  else .nothing

/-- QUEUE_HOLD of `t` is that of `s`, judged against the occupancy of `t` (R142). -/
def State.queueHoldJudged (s t : State) : Prop :=
  t.hold.queueHold =
    if s.hold.queueHold then decide (s.station.lowMark < t.occupancy)
    else decide (s.station.highMark ≤ t.occupancy)

/-- LIST_HOLD of `t` is that of `s`, judged against the Seed List of `t` (R143). -/
def State.listHoldJudged (s t : State) : Prop :=
  t.hold.listHold =
    if s.hold.listHold then decide (8 < t.seeds.length) else decide (12 ≤ t.seeds.length)

/-- The HOLD drive of `t` is recomputed from its causes, and NOT_RUN is that of `s` (R144). -/
def State.holdRecomputed (s t : State) : Prop :=
  t.hold.notRun = s.hold.notRun ∧
    t.hold.drive = (s.inReset || t.hold.notRun || t.hold.queueHold || t.hold.listHold)

/-- The command word at the head of the Command Queue, which `i` carries out, is refused with `code`: with
the response buffer empty it leaves and its refusal frame is placed; otherwise it waits (R166, R167). -/
def State.refuses (s : State) (i : Instr) (w : Word) (ws : List Word) (code : RefusalCode) : Prop :=
  (s.link.response = [] →
    exec i s = .next { s with
      commands := ws
      link := { s.link with
        response := refusalFrame code w
        sending := if s.link.sending = .nothing then .response 0 else s.link.sending } }) ∧
  (s.link.response ≠ [] → exec i s = .next s)

end Sys2Proof.Machine
end

