-- ==== Sys2Proof/Certificates/Slice0/Obligations.lean ====
section
/-! DEFINITION. The statements about the station for the provers, in the order of OBLIGATIONS.json. In an
equation such as `t = { s with now := t.now }` the state t equals s in every field but those named: that is
the statement's frame. -/

open Sys2Proof Sys2Proof.Machine

/-! ### The queue of commands, completion, and steps that are not due -/

/-- A step carries out the front command with the queue's rest; with no command waiting nothing happens
(the queue and its idling are the model's choice, logs 3 and 22). -/
def Obligations.StepCarriesOutFrontCommand : Prop :=
  (∀ (c : Instr) (rest : List Instr) (s : State), s.pending = c :: rest →
    step s = exec c { s with pending := rest }) ∧
  ∀ s : State, s.pending = [] → step s = .next s

/-- A command neither reads nor writes the queue of waiting commands: the queue, which no rule names, is the
model's own, and no step adds to it (logs 3 and 22). -/
def Obligations.CommandsIgnoreQueue : Prop :=
  ∀ (c : Instr) (s t : State), exec c s = .next t →
    t.pending = s.pending ∧
      ∀ q : List Instr, exec c { s with pending := q } = .next { t with pending := q }

/-- A well-formed command always completes, and a code pair on a channel the station does not have always
faults (the fault is the model's choice, log 16). -/
def Obligations.WellFormedCommandsComplete : Prop :=
  (∀ (c : Instr) (s : State), c.wf = true → ∃ t, exec c s = .next t) ∧
  ∀ (channel : Nat) (hi lo : BitVec 12) (s : State), 8 ≤ channel →
    exec (.codePairArrival channel hi lo) s = .fault .noSuchChannel

/-- A step of the block's own whose condition does not hold changes nothing (log 2). -/
def Obligations.StepsNotDueChangeNothing : Prop :=
  ∀ (c : Instr) (s : State), s.countersInRange → isOwnStep c = true → s.due c = false →
    exec c s = .next s

/-- In reset no command does anything, but that a CCLK edge counts toward the eighth of RESET_STATION, and
that RSTN_ASSERT and RESET_RELEASE act (R160, R161). -/
def Obligations.InResetNothingHappens : Prop :=
  ∀ s : State, s.blankInReset → s.inReset = true →
    (∀ seed hold, exec (.timebaseAdvance seed hold) s = .next { s with resetEdges := s.resetEdges - 1 }) ∧
    ∀ c : Instr, c.wf = true → c ≠ .rstnAssert → (∀ straps, c ≠ .resetRelease straps) →
      (∀ seed hold, c ≠ .timebaseAdvance seed hold) → exec c s = .next s

/-! ### Words and frames -/

/-- Command words and their fields determine each other, and so do item codes and items (R183). -/
def Obligations.CommandWordRoundTrip : Prop :=
  (∀ c : CommandWord, decodeCommand (encodeCommand c) = some c) ∧
  (∀ (w : Word) (c : CommandWord), decodeCommand w = some c → encodeCommand c = w) ∧
  (∀ i : Item, itemOfCode (codeOfItem i) = some i) ∧
  ∀ (k : BitVec 6) (i : Item), itemOfCode k = some i → codeOfItem i = k

/-- The layout of a command word, the nine kinds, the item codes, and channel 15 (R183). -/
def Obligations.CommandWordLayout : Prop :=
  (∀ w : Word, ∀ p ∈ [(1, CommandKind.set), (2, .readItem), (3, .start), (4, .stop), (5, .readStatus),
      (6, .clearCounters), (7, .linkPause), (8, .linkResume), (9, .resetStation)],
    w.toNat / 2 ^ 28 = p.1 →
      decodeCommand w = some
        { kind := p.2
          channel := BitVec.ofNat 4 (w.toNat / 2 ^ 24 % 16)
          item := BitVec.ofNat 6 (w.toNat / 2 ^ 18 % 64)
          value := BitVec.ofNat 18 (w.toNat % 2 ^ 18) }) ∧
  (∀ p ∈ [(0, ChannelItem.enable), (1, .pedMode), (2, .pedHi), (3, .pedLo), (4, .trackShift),
      (5, .switchLevel), (6, .gainRatio), (7, .threshold), (8, .hysteresis), (9, .persist),
      (10, .gatePre), (11, .gateWidth), (12, .scaleShift), (13, .calib), (14, .waveMode)],
    itemOfCode (BitVec.ofNat 6 p.1) = some (.channel p.2)) ∧
  (∀ p ∈ [(32, StationItem.seedThreshold), (33, .window), (34, .callDeadline), (35, .horizon),
      (36, .highMark), (37, .lowMark), (38, .solo)],
    itemOfCode (BitVec.ofNat 6 p.1) = some (.station p.2)) ∧
  ∀ (field : BitVec 4) (c : Fin 8), addresses field c = true ↔ field.toNat = c.val ∨ field.toNat = 15

/-- The layouts of the start word, the item-value word and the refusal words (R178), and of the three
header words of a fragment (R179), as numbers. -/
def Obligations.LinkWordLayouts : Prop :=
  (∀ slot : BitVec 4, (startWord slot).toNat = slot.toNat * 2 ^ 24) ∧
  (∀ (channel : BitVec 4) (item : BitVec 6) (value : Nat), value < 2 ^ 18 →
    (itemValueWord channel item value).toNat =
      3 * 2 ^ 28 + channel.toNat * 2 ^ 24 + item.toNat * 2 ^ 18 + value) ∧
  (∀ w : Word, ∀ p ∈ [(RefusalCode.wrongState, 1), (.unknownCommand, 2), (.unknownItem, 3),
      (.badChannel, 4)],
    refusalFrame p.1 w = [BitVec.ofNat 32 (4 * 2 ^ 28 + p.2 * 2 ^ 24), w]) ∧
  (∀ (slot : BitVec 4) (late evicted own omitted : Bool) (hitCount lostAfter : Nat),
    hitCount ≤ 256 → lostAfter ≤ 255 →
      (headerWord0 slot late evicted own omitted hitCount lostAfter).toNat =
        1 * 2 ^ 28 + slot.toNat * 2 ^ 24 + late.toNat * 2 ^ 23 + evicted.toNat * 2 ^ 22 +
          own.toNat * 2 ^ 21 + omitted.toNat * 2 ^ 20 + hitCount * 2 ^ 11 + lostAfter * 2 ^ 3) ∧
  (∀ (number : BitVec 16) (energy : BitVec 12) (origin : BitVec 4),
    (headerWord1 number energy origin).toNat =
      number.toNat * 2 ^ 16 + energy.toNat * 2 ^ 4 + origin.toNat) ∧
  ∀ time : SampleTime, (headerWord2 time).toNat = time.toNat * 2 ^ 4

/-- The layout of a hit copy's four words and of the waveform words that follow it (R180), as numbers; the
signed fields are read as signed numbers. -/
def Obligations.HitCopyLayout : Prop :=
  (∀ (h : Hit) (f : HitFlags) (len : Nat), h.charge ≤ 65535 → h.energy ≤ 65535 → h.pileup ≤ 3 →
    -524288 ≤ h.peak → h.peak ≤ 524287 → h.peakOffset ≤ 69 → len ≤ 32 →
      ∃ w0 w1 w2 w3 : Word, hitWords h f len = [w0, w1, w2, w3] ∧
        w0.toNat = h.time.toNat ∧
        w1.toNat = h.charge * 2 ^ 16 + h.energy ∧
        w2.toNat =
          h.channel.val * 2 ^ 29 + h.pileup * 2 ^ 27 + f.lowGain.toNat * 2 ^ 26 + f.sat.toNat * 2 ^ 25 +
            f.pileup.toNat * 2 ^ 24 + f.merged.toNat * 2 ^ 23 + f.coarseTime.toNat * 2 ^ 22 +
            f.qLow.toNat * 2 ^ 21 + f.qHigh.toNat * 2 ^ 20 + f.eHigh.toNat * 2 ^ 19 +
            f.waveLost.toNat * 2 ^ 18 + f.waveOmitted.toNat * 2 ^ 17 + len * 2 ^ 11 ∧
        w3.toInt = h.peak * 2 ^ 12 + (h.peakOffset : Int) * 2 ^ 5) ∧
  (∀ c : HitCopy,
    c.words =
      hitWords c.hit { c.hit.flags with waveOmitted := c.hit.flags.waveOmitted || c.omitted }
        c.samples.length ++ c.samples.map waveWord) ∧
  ∀ u : Int, -524288 ≤ u → u ≤ 524287 → (waveWord u).toInt = u

/-- The layout of the status frame's 28 words (R181). -/
def Obligations.StatusFrameLayout : Prop :=
  ∀ (s : State) (level : Bool), s.occupancy ≤ 4096 → s.countersInRange →
    ∃ w0 w1 : Word, ∃ ws hs : List Word,
      statusFrame s level = w0 :: w1 :: (ws ++ hs) ∧
      w0.toNat =
        2 * 2 ^ 28 + s.slot.toNat * 2 ^ 24 +
          (match s.mode with | .setup => 0 | .run => 1 | .drain => 2) * 2 ^ 22 +
          (match s.line.view with | .join => 0 | .idle => 1 | .frame _ => 2 | .stuck => 3) * 2 ^ 20 +
          (if s.station.solo then s.hold.drive else level).toNat * 2 ^ 19 +
          s.hold.drive.toNat * 2 ^ 18 + s.hold.notRun.toNat * 2 ^ 17 + s.hold.queueHold.toNat * 2 ^ 16 +
          s.hold.listHold.toNat * 2 ^ 15 + s.link.paused.toNat * 2 ^ 14 + s.occupancy ∧
      (∀ c : Fin 8, w1.getLsbD (24 + c) = s.rangeFlags[c] ∧ w1.getLsbD (16 + c) = s.satFlags[c]) ∧
      w1.getLsbD 15 = s.configAdjusted ∧
      w1.toNat % 2 ^ 15 = s.now.toNat % 2 ^ 15 ∧
      ws.map BitVec.toNat =
        [s.counter .callsMade, s.counter .callsWon, s.counter .callsMerged, s.counter .callsLapsed,
          s.counter .callsAbandoned, s.counter .callsDisplaced, s.counter .callsDropped,
          s.counter .objectionsRaised, s.counter .framesDiscarded, s.counter .seedsHeard,
          s.counter .seedsLost, s.counter .fragmentsBuilt, s.counter .hitsEvicted,
          s.counter .hitsExpiredUnselected, s.counter .holdSamples, s.counter .cmdOverruns,
          s.counter .tzIgnored, s.counter .lineStuckEvents] ∧
      hs.map BitVec.toNat = s.hitCounts.toList

/-- The frame driven for a call carries its energy, the rank of the slot, its time and the check; a station
that reads its bits one by one holds them, and finds no check mismatch; and the seed time rebuilt from the
time field is the latest with that field, the call's own where it is recent (R96, R97, R106). -/
def Obligations.CallFrameCarriesCall : Prop :=
  (∀ (slot : BitVec 4) (energy : Nat) (time : SampleTime), energy ≤ 4095 →
    (frameEnergy (ownFrameBits slot energy time)).toNat = energy ∧
    (frameRank (ownFrameBits slot energy time)).toNat = 15 - slot.toNat ∧
    (frameTime (ownFrameBits slot energy time)).toNat = time.toNat % 65536 ∧
    (frameCheck (ownFrameBits slot energy time)).toNat =
      ((List.range 32).countP fun i => frameBit (ownFrameBits slot energy time) (i + 1)) % 16 ∧
    checkDiffers (ownFrameBits slot energy time) = false) ∧
  (∀ bits : BitVec 36,
    (List.range 36).foldl (fun b i => recordBit b (i + 1) (frameBit bits (i + 1))) 0 = bits) ∧
  ∀ (now : SampleTime) (field : BitVec 16),
    (rebuildTime now field).setWidth 16 = field ∧
    (now - rebuildTime now field).toNat < 65536 ∧
    ∀ τ : SampleTime, τ.setWidth 16 = field → (now - τ).toNat < 65536 → rebuildTime now field = τ

/-! ### Reset -/

/-- RSTN_ASSERT and RESET_STATION put the station in reset: work in flight is gone, the lines are as reset
has them, nothing is on its way on the link, and the slot number stays; a RESET_STATION in progress keeps
its count of edges under RSTN (R160, R161). What the fields in reset read is the model's choice (log 10). -/
def Obligations.ResetsDiscardWorkInFlight : Prop :=
  ∀ s : State,
    (∃ t, exec .rstnAssert s = .next t ∧ t.rstn = true ∧ t.resetEdges = s.resetEdges ∧
      t = s.enterReset true s.resetEdges) ∧
    (∀ (w : Word) (ws : List Word) (c : CommandWord), s.inReset = false → s.commands = w :: ws →
      decodeCommand w = some c → c.kind = .resetStation →
      ∃ t, exec .resetStation s = .next t ∧ t.rstn = false ∧ t.resetEdges = 8 ∧
        t = s.enterReset false 8) ∧
    ∀ (rstn : Bool) (edges : Nat) (t : State), t = s.enterReset rstn edges →
      t.inReset = true ∧ t.line.drive = false ∧ t.hold.drive = true ∧ t.link.sending = .nothing ∧
        t.link.response = [] ∧ t.commands = [] ∧ t.hits = [] ∧ t.calls = [] ∧ t.seeds = [] ∧
        t.readout = [] ∧ (∀ c : Fin 8, t.channels[c].ctxA = none ∧ t.channels[c].ctxB = none) ∧
        (∀ k, t.counter k = 0) ∧ t.slot = s.slot ∧ t.pending = s.pending

/-- RESET_RELEASE ends a reset that waits for no further edge, with the state of R160, in which no code pair
is handled before the first CCLK edge (R160, R163); with edges still to come it only notes that RSTN is deasserted, and outside reset it does nothing (the last two: log 11). -/
def Obligations.ReleaseGivesResetState : Prop :=
  ∀ (s : State) (straps : BitVec 4),
    (s.inReset = false → exec (.resetRelease straps) s = .next s) ∧
    (s.inReset = true → s.resetEdges ≠ 0 →
      exec (.resetRelease straps) s = .next { s with rstn := false }) ∧
    (s.inReset = true → s.resetEdges = 0 →
      ∃ t, exec (.resetRelease straps) s = .next t ∧
        t.mode = .setup ∧ t.inReset = false ∧ t.slot = straps ∧ t.now = 0 ∧ t.tzSeen = false ∧
        t.hold = { notRun := true, queueHold := false, listHold := false, drive := true } ∧
        (∀ c : Fin 8, t.channels[c] =
          { items :=
              { enable := true
                pedMode := .track
                pedHi := 800
                pedLo := 800
                trackShift := 6
                switchLevel := 3900
                gainRatio := 4096
                threshold := 400
                hysteresis := 100
                persist := 2
                gatePre := 2
                gateWidth := 16
                scaleShift := 2
                calib := 16384
                waveMode := .onFlag }
            trackHi := 800
            trackLo := 800
            ring := Vector.replicate 16 { u := 0, lowGain := false, saturated := false }
            disc := .below
            ctxA := none
            ctxB := none }) ∧
        t.station =
          { seedThreshold := 64
            window := 8
            callDeadline := 1024
            horizon := 4096
            highMark := 3072
            lowMark := 1024
            solo := false } ∧
        t.pool = Vector.replicate 32 .free ∧ t.hits = [] ∧ t.evictMark = none ∧ t.calls = [] ∧
        t.seeds = [] ∧ t.seedCounter = 0 ∧ t.readout = [] ∧
        t.line.view = .join ∧ t.line.recessiveRun = 0 ∧ t.line.dominantRun = 0 ∧ t.line.drive = false ∧
        t.link.startOwed = true ∧ t.link.paused = false ∧ t.link.response = [] ∧ t.commands = [] ∧
        (∀ k, t.counter k = 0) ∧
        (∀ c : Fin 8, t.hitCounts[c] = 0 ∧ t.rangeFlags[c] = false ∧ t.satFlags[c] = false) ∧
        t.configAdjusted = false ∧ t.pending = s.pending ∧ t.awaitsEdge = true ∧
        ∀ (channel : Nat) (hi lo : BitVec 12), channel < 8 →
          exec (.codePairArrival channel hi lo) t = .next t)

/-! ### Laws of the device: invariants that every step keeps -/

/-- Every law below holds in the state after reset. -/
def Obligations.LawsHoldAfterReset : Prop :=
  State.reset.holdLaw ∧ State.reset.depthsKept ∧ State.reset.countersInRange ∧
    State.reset.itemsInRange ∧ State.reset.trackersInRange ∧ State.reset.pileupsLawful ∧
    State.reset.callsLawful ∧ State.reset.setupIdle ∧ State.reset.slotsLawful ∧
    State.reset.seedsLawful ∧ State.reset.linkLawful ∧ State.reset.blankInReset ∧
    State.reset.edgesLawful ∧ State.reset.callsBalance ∧ State.reset.seedsBalance ∧
    State.reset.storeOrdered ∧ State.reset.causesLawful

/-- NOT_RUN and the HOLD drive follow the station state and the causes, in every state (R144). QUEUE_HOLD is
set only while the occupancy is above LOW_MARK, and LIST_HOLD only while more than 8 seeds are listed; each
is set where its queue has reached its upper mark, and both are clear in SETUP (R142, R143, R147). -/
def Obligations.HoldFollowsCauses : Prop :=
  ∀ s t : State, step s = .next t →
    (s.holdLaw → t.holdLaw) ∧ (s.itemsInRange → s.causesLawful → t.causesLawful)

/-- No collection grows beyond its depth (R56, R72, R117, R139, R165). -/
def Obligations.CollectionsKeepDepths : Prop :=
  ∀ s t : State, s.depthsKept → step s = .next t → t.depthsKept

/-- Counters, configuration items and pedestal trackers stay in their ranges (R12, R168, R173). -/
def Obligations.ValuesStayInRange : Prop :=
  ∀ s t : State, s.countersInRange → s.itemsInRange → s.trackersInRange → step s = .next t →
    t.countersInRange ∧ t.itemsInRange ∧ t.trackersInRange

/-- Pile-up counts and flags of contexts, and the fields of stored hits, stay consistent (R31, R49, R50,
R55). -/
def Obligations.PileupAndHitsConsistent : Prop :=
  ∀ s t : State, s.pileupsLawful → step s = .next t → t.pileupsLawful

/-- The Hit Store stays in the order of hit times, neighbour by neighbour (R56, R58). -/
def Obligations.HitStoreStaysOrdered : Prop :=
  ∀ s t : State, s.storeOrdered → step s = .next t → t.storeOrdered

/-- At most 4 calls, no two within W, at most one ON_LINE, none covered by a listed seed, only an ON_LINE
one in DRAIN, none in SETUP (R72, R81, R83, R84). -/
def Obligations.CallQueueLawKept : Prop :=
  ∀ s t : State, s.callsLawful → step s = .next t → t.callsLawful

/-- In SETUP every discriminator is BELOW, every context FREE and the collections empty (R19, R33, R69, R70,
R84, R137, R141). -/
def Obligations.SetupStaysIdle : Prop :=
  ∀ s t : State, s.callsLawful → s.setupIdle → step s = .next t → t.setupIdle

/-- Every Waveform Pool slot is FREE, lent to one OPEN context or held by one stored hit (R35). -/
def Obligations.SlotsHaveOneHolder : Prop :=
  ∀ s t : State, s.setupIdle → s.slotsLawful → step s = .next t → t.slotsLawful

/-- The Seed List's numbers run without a gap, as its lost_after fields count (R117, R118, R120). -/
def Obligations.SeedNumbersRun : Prop :=
  ∀ s t : State, s.callsLawful → s.seedsLawful → step s = .next t → t.seedsLawful

/-- What the link transmits is there to be sent, and the link does not idle while it may send (R148,
R149). -/
def Obligations.LinkNeverIdlesWithWork : Prop :=
  ∀ s t : State, s.linkLawful → step s = .next t → t.linkLawful

/-- A station in reset holds nothing but its pins, its slot and its count of edges (R160, R161). -/
def Obligations.ResetStaysBlank : Prop :=
  ∀ s t : State, s.blankInReset → s.edgesLawful → step s = .next t → t.blankInReset ∧ t.edgesLawful

/-- While no counter has saturated, and but for CLEAR_COUNTERS, calls made are won, merged, lapsed,
abandoned, displaced or in the queue, and seeds heard are built, lost or listed (R88, R123). -/
def Obligations.CountersBalance : Prop :=
  ∀ s t : State, s.callsLawful → s.callsBalance → s.seedsBalance →
    s.pending.head? ≠ some .clearCounters → step s = .next t → t.balancesUnsaturated →
      t.callsBalance ∧ t.seedsBalance

/-! ### The Input Conditioner and the Pulse Processor -/

/-- A code pair, in every station state and on enabled and disabled channels alike, writes its unified
sample and marks into the ring entry of its sample time, and into no other; other channels, the channel's
items, and everything outside the Pulse Processor's reach stay (R3 to R7). In reset, and before the first
CCLK edge after it, no code pair is handled (R160, R163). -/
def Obligations.CodePairWritesRing : Prop :=
  (∀ (s : State) (c : Fin 8) (hi lo : BitVec 12), s.inReset = true ∨ s.awaitsEdge = true →
    exec (.codePairArrival c hi lo) s = .next s) ∧
  ∀ (s : State) (c : Fin 8) (hi lo : BitVec 12), s.inReset = false → s.awaitsEdge = false →
    ∃ t, exec (.codePairArrival c hi lo) s = .next t ∧
      t.channels[c].ringAt s.now =
        { u :=
            if hi.toNat < s.channels[c].items.switchLevel then
              4 * (hi.toNat : Int) - s.channels[c].trackHi
            else
              ((4 * (lo.toNat : Int) - s.channels[c].trackLo) * (s.channels[c].items.gainRatio : Int)
                + 128) / 256
          lowGain := decide (s.channels[c].items.switchLevel ≤ hi.toNat)
          saturated := decide (lo.toNat = 4095) } ∧
      (∀ τ : SampleTime, τ.toNat % 16 = s.now.toNat % 16 →
        t.channels[c].ringAt τ = t.channels[c].ringAt s.now) ∧
      (∀ τ : SampleTime, τ.toNat % 16 ≠ s.now.toNat % 16 →
        t.channels[c].ringAt τ = s.channels[c].ringAt τ) ∧
      t.channels[c].items = s.channels[c].items ∧
      (∀ d : Fin 8, d ≠ c → t.channels[d] = s.channels[d]) ∧
      t = { s with
        channels := t.channels
        pool := t.pool
        hits := t.hits
        evictMark := t.evictMark
        calls := t.calls
        counters := t.counters
        hitCounts := t.hitCounts
        rangeFlags := t.rangeFlags
        satFlags := t.satFlags }

/-- Both trackers move toward the sample's codes exactly at a quiet sample, by the rounded quotient, never
past the reading; in SETUP, and on a disabled channel, the code pair does nothing more than write the ring,
move the trackers and hold the discriminator in BELOW (R11, R12, R19). -/
def Obligations.QuietSamplesMoveTrackers : Prop :=
  (∀ (s : State) (c : Fin 8) (hi lo : BitVec 12), s.inReset = false → s.awaitsEdge = false →
    ∃ t, exec (.codePairArrival c hi lo) s = .next t ∧
      (s.channels[c].items.pedMode = .track ∧
          (t.channels[c].ringAt s.now).u < s.channels[c].items.threshold ∧
          (s.channels[c].items.enable = true →
            t.channels[c].disc = .below ∧ t.channels[c].ctxA = none ∧ t.channels[c].ctxB = none) →
        t.channels[c].trackHi = s.channels[c].trackHi +
            (4 * (hi.toNat : Int) - s.channels[c].trackHi +
              2 ^ (s.channels[c].items.trackShift - 1)) / 2 ^ s.channels[c].items.trackShift ∧
          t.channels[c].trackLo = s.channels[c].trackLo +
            (4 * (lo.toNat : Int) - s.channels[c].trackLo +
              2 ^ (s.channels[c].items.trackShift - 1)) / 2 ^ s.channels[c].items.trackShift) ∧
      (¬(s.channels[c].items.pedMode = .track ∧
          (t.channels[c].ringAt s.now).u < s.channels[c].items.threshold ∧
          (s.channels[c].items.enable = true →
            t.channels[c].disc = .below ∧ t.channels[c].ctxA = none ∧ t.channels[c].ctxB = none)) →
        t.channels[c].trackHi = s.channels[c].trackHi ∧
          t.channels[c].trackLo = s.channels[c].trackLo) ∧
      (s.mode = .setup ∨ s.channels[c].items.enable = false →
        t = { s with channels := t.channels } ∧
          t.channels[c] = { s.channels[c] with
            ring := t.channels[c].ring
            disc := .below
            trackHi := t.channels[c].trackHi
            trackLo := t.channels[c].trackLo })) ∧
  ∀ (shift : Nat) (p x : Int), 1 ≤ shift →
    min p x ≤ trackToward shift p x ∧ trackToward shift p x ≤ max p x

/-- The discriminator of an enabled channel in RUN or DRAIN moves as its four states' rules give (R20 to
R23), whatever becomes of a crossing it declares. -/
def Obligations.DiscriminatorMoves : Prop :=
  ∀ (s : State) (c : Fin 8) (hi lo : BitVec 12), s.inReset = false → s.awaitsEdge = false →
    s.mode ≠ .setup → s.channels[c].items.enable = true →
    ∃ t, exec (.codePairArrival c hi lo) s = .next t ∧
      ∀ u thr hys : Int, u = (t.channels[c].ringAt s.now).u → thr = s.channels[c].items.threshold →
        hys = s.channels[c].items.hysteresis →
        t.channels[c].disc =
          match s.channels[c].disc with
          | .below =>
            if thr ≤ u ∧ (s.channels[c].ringAt (s.now - 1)).u < thr then
              if s.channels[c].items.persist = 1 then .rising u else .pending s.now 1 u
            else .below
          | .pending candidate count m =>
            if u < thr then .below
            else if count + 1 = s.channels[c].items.persist then .rising (max m u)
            else .pending candidate (count + 1) (max m u)
          | .rising peak =>
            if u < thr - hys then .below
            else if u ≤ max peak u - hys then .falling u
            else .rising (max peak u)
          | .falling valley =>
            if u < thr - hys then .below
            else if min valley u + hys ≤ u ∧ thr ≤ u then .rising u
            else .falling (min valley u)

/-- In RUN a declared crossing, fresh or re-rise, at any PERSIST and WAVE_MODE, on a channel with both
contexts FREE opens context A over its gate: with the number, the sum, the earliest greatest sample and the
marks of its gate samples so far, those of the ring and the present one alike, and a slot that holds them, as
WAVE_MODE and the pool give (R20 to R29, R36 to R38). Nothing else changes, but where the present sample is
the gate's last one: there the context completes at once (CompletionStoresHit says how). -/
def Obligations.LoneCrossingOpensContext : Prop :=
  ∀ (s v : State) (c : Fin 8) (hi lo : BitVec 12) (x : Crossing), s.inReset = false →
    s.awaitsEdge = false → s.mode = .run → s.channels[c].items.enable = true →
    s.channels[c].ctxA = none → s.channels[c].ctxB = none →
    v = s.ringWritten c hi lo → v.channels[c].declares s.now = some x →
    ∃ t z, exec (.codePairArrival c hi lo) s = .next t ∧
      t.channels[c].ctxA = (if z.gateLast = s.now then none else some z) ∧ t.channels[c].ctxB = none ∧
      t.channels[c].disc =
        (match s.channels[c].disc with
        | .pending _ _ m => .rising (max m (v.channels[c].ringAt s.now).u)
        | _ => .rising (v.channels[c].ringAt s.now).u) ∧
      z.crossing = x.sample ∧ z.kind = x.kind ∧
      z.gateFirst = x.sample - BitVec.ofNat 28 s.channels[c].items.gatePre ∧
      z.gateLast = x.sample + BitVec.ofNat 28 s.channels[c].items.gateWidth - 1 ∧
      z.pileup = 0 ∧ z.pileupFlag = false ∧ z.merged = false ∧
      z.hasTaken (v.channels[c].ringSpan z.gateFirst ((s.now - z.gateFirst).toNat + 1)) ∧
      (z.gateLast ≠ s.now →
        slotLent s.channels[c].items.waveMode s.pool t.pool z
          ((v.channels[c].ringSpan z.gateFirst ((s.now - z.gateFirst).toNat + 1)).map Sample.u) ∧
        (∀ d : Fin 8, d ≠ c → t.channels[d] = s.channels[d]) ∧
        t = { s with channels := t.channels, pool := t.pool })

/-- What acting on a crossing does to the two contexts: it opens A if A is FREE, else B if B is FREE, each
OPEN context rising in pile-up with the other; else it merges, and the newer takes MERGED (R26, R27). An
opened context takes its earlier gate samples from the ring (R28, R29); on a channel with waveforms it is
lent the lowest FREE slot, which those samples enter, or carries WAVE_LOST; without them, and in a merge, the
pool stays (R36 to R38). A code pair in RUN acts on the crossing it declares, in DRAIN on none, and each
context then OPEN takes the sample and, at its last gate sample, is FREE again (R18, R24, R30). -/
def Obligations.CrossingsOpenOrMerge : Prop :=
  (∀ (s t : State) (c : Fin 8) (x : Crossing), t = s.actOnCrossing c x →
    (∀ (name other : ContextName), other ≠ name → (name = .b → s.channels[c].ctxA.isSome = true) →
      s.channels[c].ctx name = none →
      (∀ y, s.channels[c].ctx other = some y →
        t.channels[c].ctx other = some { y with pileup := min (y.pileup + 1) 3, pileupFlag := true }) ∧
      (s.channels[c].ctx other = none → t.channels[c].ctx other = none) ∧
      ∃ z, t.channels[c].ctx name = some z ∧ z.crossing = x.sample ∧ z.kind = x.kind ∧
        z.gateFirst = x.sample - BitVec.ofNat 28 s.channels[c].items.gatePre ∧
        z.gateLast = x.sample + BitVec.ofNat 28 s.channels[c].items.gateWidth - 1 ∧
        z.pileup = (if (s.channels[c].ctx other).isSome then 1 else 0) ∧
        z.pileupFlag = (s.channels[c].ctx other).isSome ∧ z.merged = false ∧
        z.hasTaken (s.channels[c].ringSpan z.gateFirst (s.now - z.gateFirst).toNat) ∧
        slotLent s.channels[c].items.waveMode s.pool t.pool z
          ((s.channels[c].ringSpan z.gateFirst (s.now - z.gateFirst).toNat).map Sample.u)) ∧
    (∀ a b : OpenContext, s.channels[c].ctxA = some a → s.channels[c].ctxB = some b →
      t.channels[c].ctxA = some { a with
        pileup := min (a.pileup + 1) 3
        pileupFlag := true
        merged := a.merged || decide (0 < timeDiff a.crossing b.crossing) } ∧
      t.channels[c].ctxB = some { b with
        pileup := min (b.pileup + 1) 3
        pileupFlag := true
        merged := b.merged || !decide (0 < timeDiff a.crossing b.crossing) } ∧
      t.pool = s.pool) ∧
    (∀ d : Fin 8, d ≠ c → t.channels[d] = s.channels[d]) ∧
    t = { s with channels := t.channels, pool := t.pool }) ∧
  ∀ (s v w : State) (c : Fin 8) (hi lo : BitVec 12), s.inReset = false → s.awaitsEdge = false →
    s.mode ≠ .setup → s.channels[c].items.enable = true → v = s.ringWritten c hi lo →
    ((s.mode = .drain ∨ v.channels[c].declares s.now = none) → w = v) →
    (∀ x, s.mode = .run → v.channels[c].declares s.now = some x → w = v.actOnCrossing c x) →
    ∃ t, exec (.codePairArrival c hi lo) s = .next t ∧
      ∀ name : ContextName,
        (w.channels[c].ctx name = none → t.channels[c].ctx name = none) ∧
        ∀ z, w.channels[c].ctx name = some z →
          t.channels[c].ctx name =
            if z.gateLast = s.now then none else some (z.take s.now (v.channels[c].ringAt s.now))

/-- An OPEN context whose gate goes on takes the sample, in RUN after the crossing the sample may bring and in
DRAIN alike: into its sum, its peak and its marks, and into its slot while that holds fewer than 32 samples;
nothing else of it moves (R29, R38). Where no context is at its last gate sample, the channel's contexts,
discriminator, ring and trackers and the slots fed are all that changes. In DRAIN no crossing is acted upon:
a FREE context stays FREE, and the Call Queue stays (R24, R32, R73). -/
def Obligations.DrainOnlyFeedsOpenContexts : Prop :=
  (∀ (s v : State) (c : Fin 8) (hi lo : BitVec 12), s.inReset = false → s.awaitsEdge = false →
    s.mode ≠ .setup → s.channels[c].items.enable = true → v = s.crossed c hi lo →
    ∃ t, exec (.codePairArrival c hi lo) s = .next t ∧
      (s.mode = .drain →
        t.calls = s.calls ∧ t.counter .callsMade = s.counter .callsMade ∧ v.pool = s.pool ∧
        ∀ name : ContextName, v.channels[c].ctx name = s.channels[c].ctx name) ∧
      (∀ name : ContextName,
        (v.channels[c].ctx name = none → t.channels[c].ctx name = none) ∧
        ∀ x y, v.channels[c].ctx name = some x → x.gateLast ≠ s.now →
          y = t.channels[c].ringAt s.now →
          t.channels[c].ctx name = some { x with
            taken := x.taken + 1
            accumulator := x.accumulator + y.u
            peak := if x.taken = 0 then y.u else max x.peak y.u
            peakOffset :=
              if x.taken = 0 then 0
              else if x.peak < y.u then (s.now - x.gateFirst).toNat
              else x.peakOffset
            lowGain := x.lowGain || y.lowGain
            saturated := x.saturated || y.saturated }) ∧
      ((∀ name x, v.channels[c].ctx name = some x → x.gateLast ≠ s.now) →
        t.pool =
          feedSlot (feedSlot v.pool (v.channels[c].ctxA.bind OpenContext.slot)
              (t.channels[c].ringAt s.now).u)
            (v.channels[c].ctxB.bind OpenContext.slot) (t.channels[c].ringAt s.now).u ∧
        (∀ d : Fin 8, d ≠ c → t.channels[d] = s.channels[d]) ∧
        t = { s with channels := t.channels, pool := t.pool })) ∧
  ∀ (pool : Vector Slot 32) (slot : Option (Fin 32)) (u : Int) (i : Fin 32),
    (slot ≠ some i → (feedSlot pool slot u)[i] = pool[i]) ∧
    ∀ us : List Int, slot = some i → pool[i] = .lent us →
      (us.length < 32 → (feedSlot pool slot u)[i] = .lent (us ++ [u])) ∧
      (32 ≤ us.length → (feedSlot pool slot u)[i] = .lent us)

/-! ### Hits, the Hit Store and the Seed Former -/

/-- In RUN and in DRAIN each context whose last gate sample is the present one completes after taking it, A
and B alike: its hit is formed from what it then holds, counted, noted in the sticky flags and inserted, with
what InsertionPlacesAndEvicts and EvaluationRaisesOrCreates say of an insertion; its slot is held by the hit
or FREE; and the context is FREE (R30, R39, R43, R53, R58). In DRAIN no call comes of it (R73). -/
def Obligations.CompletionStoresHit : Prop :=
  ∀ (s v p : State) (c : Fin 8) (hi lo : BitVec 12) (y : Sample), s.inReset = false →
    s.awaitsEdge = false → s.mode ≠ .setup → s.channels[c].items.enable = true →
    v = s.crossed c hi lo → y = v.channels[c].ringAt s.now →
    p = { s with
      pool :=
        feedSlot (feedSlot v.pool (v.channels[c].ctxA.bind OpenContext.slot) y.u)
          (v.channels[c].ctxB.bind OpenContext.slot) y.u } →
    ∃ t a b, exec (.codePairArrival c hi lo) s = .next t ∧
      (∀ x, v.channels[c].ctxA = some x → x.gateLast = s.now →
        p.completed a c (x.take s.now y) ∧ t.channels[c].ctxA = none) ∧
      ((∀ x, v.channels[c].ctxA = some x → x.gateLast ≠ s.now) → a = p) ∧
      (∀ x, v.channels[c].ctxB = some x → x.gateLast = s.now →
        a.completed b c (x.take s.now y) ∧ t.channels[c].ctxB = none) ∧
      ((∀ x, v.channels[c].ctxB = some x → x.gateLast ≠ s.now) → b = a) ∧
      (s.mode = .drain → t.calls = s.calls ∧ t.counter .callsMade = s.counter .callsMade) ∧
      (∀ d : Fin 8, d ≠ c → t.channels[d] = s.channels[d]) ∧
      t = { b with channels := t.channels }

/-- A hit record: the hit time from the interpolated or the coarse crossing, the rounded and limited charge
with its two flags, the rounded and limited energy with its flag (R45 to R50), the peak, pile-up count and
flags as the context holds them (R51, R52), and the slot it keeps under its channel's WAVE_MODE, with the
number of samples in it (R39, R52). -/
def Obligations.HitRecordArithmetic : Prop :=
  ∀ (c : Fin 8) (items : ChannelItems) (pool : Vector Slot 32) (x : OpenContext) (h : Hit),
    h = formHit c items pool x →
    (∀ before after : Int, x.kind = .fresh before after → before < items.threshold →
      (items.threshold : Int) ≤ after →
        h.delta ≤ 15 ∧ (h.delta : Int) * (after - before) ≤ 16 * (after - items.threshold) ∧
          16 * (after - items.threshold) < ((h.delta : Int) + 1) * (after - before) ∧
          h.flags.coarseTime = false) ∧
    (x.kind = .rerise → h.delta = 0 ∧ h.flags.coarseTime = true) ∧
    h.time + BitVec.ofNat 32 h.delta = BitVec.ofNat 32 (16 * x.crossing.toNat) ∧
    (∃ r : Int,
      (items.scaleShift = 0 → r = x.accumulator) ∧
      (items.scaleShift ≠ 0 →
        r * 2 ^ items.scaleShift ≤ x.accumulator + 2 ^ (items.scaleShift - 1) ∧
          x.accumulator + 2 ^ (items.scaleShift - 1) < (r + 1) * 2 ^ items.scaleShift) ∧
      (h.flags.qLow = true ↔ r < 0) ∧ (h.flags.qHigh = true ↔ 65535 < r) ∧
      (r < 0 → h.charge = 0) ∧ (65535 < r → h.charge = 65535) ∧
      (0 ≤ r → r ≤ 65535 → (h.charge : Int) = r)) ∧
    (∃ e : Nat,
      e * 16384 ≤ h.charge * items.calib + 8192 ∧ h.charge * items.calib + 8192 < (e + 1) * 16384 ∧
      (h.flags.eHigh = true ↔ 65535 < e) ∧ h.energy = min e 65535) ∧
    (h.channel = c ∧ h.crossing = x.crossing ∧ h.peak = x.peak ∧ h.peakOffset = x.peakOffset ∧
      h.pileup = x.pileup ∧ h.flags.lowGain = x.lowGain ∧ h.flags.sat = x.saturated ∧
      h.flags.pileup = x.pileupFlag ∧ h.flags.merged = x.merged ∧ h.flags.waveLost = x.waveLost ∧
      h.flags.waveOmitted = false ∧ h.selected = false) ∧
    (items.waveMode = .never → h.slot = none) ∧
    (items.waveMode = .onFlag →
      (x.pileupFlag = true ∨ x.saturated = true ∨ x.merged = true → h.slot = x.slot) ∧
      (x.pileupFlag = false → x.saturated = false → x.merged = false → h.slot = none)) ∧
    (items.waveMode = .always → h.slot = x.slot) ∧
    (h.slot = none → h.waveLength = 0) ∧
    ∀ (i : Fin 32) (us : List Int), h.slot = some i → pool[i] = .lent us → h.waveLength = us.length

/-- A new record stands after every entry up to the last whose hit time is not later, and where there is room
it is then evaluated; a store of 256 evicts its first entry, counted, with evict_mark moved and the slot
returned, and the new record, unless it is the one evicted at its own insertion, is evaluated (R58 to
R61). -/
def Obligations.InsertionPlacesAndEvicts : Prop :=
  (∀ (h : Hit) (hits : List Hit), ∃ before after, hits = before ++ after ∧
    placeHit h hits = before ++ h :: after ∧ (∀ e ∈ after, 0 < fineDiff e.time h.time) ∧
    ∀ e, before.getLast? = some e → ¬0 < fineDiff e.time h.time) ∧
  (∀ (s t : State) (h : Hit), s.hits.length < 256 → t = s.insertHit h →
    t = State.evaluate { s with hits := placeHit h s.hits } h.crossing) ∧
  ∀ (s t : State) (h : Hit), s.hits.length = 256 → t = s.insertHit h →
    ∃ e rest u, placeHit h s.hits = e :: rest ∧ u.hits = rest ∧ rest.length = 256 ∧
      s.counted u .hitsEvicted 1 ∧
      (s.evictMark = none → u.evictMark = some e.crossing) ∧
      (∀ m, s.evictMark = some m →
        u.evictMark = some (if 0 < timeDiff e.crossing m then e.crossing else m)) ∧
      (∀ i : Fin 32, u.pool[i] = if e.slot = some i then .free else s.pool[i]) ∧
      u = { s with
        hits := u.hits
        evictMark := u.evictMark
        pool := u.pool
        counters := u.counters } ∧
      ((∀ k ∈ s.hits, 0 < fineDiff k.time h.time) → e = h ∧ t = u) ∧
      (¬(∀ k ∈ s.hits, 0 < fineDiff k.time h.time) → t = u.evaluate h.crossing) ∧
      t = { u with calls := t.calls, counters := t.counters } ∧
      t.counter .hitsEvicted = min (s.counter .hitsEvicted + 1) 4294967295

/-- What the evaluation of a surviving new hit at n does: nothing outside RUN, below the seed threshold, or
where a listed seed covers n; else it raises the nearest covering call, or creates a call, or at a full
queue displaces the weakest WAITING call or drops the candidate (R65, R73 to R77). -/
def Obligations.EvaluationRaisesOrCreates : Prop :=
  ∀ (s t : State) (n : SampleTime) (e : Nat), s.callsLawful → s.itemsInRange →
    (∀ c ∈ s.calls, 0 ≤ timeDiff s.now c.time ∧ timeDiff s.now c.time ≤ 65535) →
    e = min 4095 (((s.hits.filter fun h => within s.station.window h.crossing n).map Hit.energy).sum
      / 16) →
    t = s.evaluate n →
    (s.mode ≠ .run ∨ e < s.station.seedThreshold ∨
      (∃ d ∈ s.seeds, within s.station.window d.time n = true) → t = s) ∧
    (s.mode = .run → s.station.seedThreshold ≤ e →
      (∀ d ∈ s.seeds, within s.station.window d.time n = false) →
      t = { s with calls := t.calls, counters := t.counters } ∧
      ((∃ c ∈ s.calls, within s.station.window c.time n = true) →
        t.counters = s.counters ∧
        ∃ k ∈ s.calls, within s.station.window k.time n = true ∧
          (∀ c ∈ s.calls, within s.station.window c.time n = true → c ≠ k →
            (timeDiff k.time n).natAbs < (timeDiff c.time n).natAbs ∨
              (timeDiff k.time n).natAbs = (timeDiff c.time n).natAbs ∧
                0 < timeDiff c.time k.time) ∧
          t.calls = s.calls.map fun c => if c = k then { c with energy := max c.energy e } else c) ∧
      ((∀ c ∈ s.calls, within s.station.window c.time n = false) → s.calls.length < 4 →
        t.calls = s.calls ++ [{ time := n, energy := e, retry := 0, state := .waiting }] ∧
          s.counted t .callsMade 1) ∧
      ((∀ c ∈ s.calls, within s.station.window c.time n = false) → s.calls.length = 4 →
        ∃ w ∈ s.calls, w.state = .waiting ∧
          (∀ c ∈ s.calls, c.state = .waiting → c ≠ w →
            w.energy < c.energy ∨ w.energy = c.energy ∧ 0 < timeDiff c.time w.time) ∧
          (w.energy < e →
            t.calls = (s.calls.filter fun c => c ≠ w) ++
              [{ time := n, energy := e, retry := 0, state := .waiting }] ∧
            t.counter .callsDisplaced = min (s.counter .callsDisplaced + 1) 4294967295 ∧
            t.counter .callsMade = min (s.counter .callsMade + 1) 4294967295 ∧
            ∀ j, j ≠ .callsDisplaced → j ≠ .callsMade → t.counter j = s.counter j) ∧
          (e ≤ w.energy → t.calls = s.calls ∧ s.counted t .callsDropped 1)))

/-! ### The timebase and the bits of the SEED line -/

/-- A CCLK edge outside reset: the timebase advances by one, or stands at 0 where TZ has just zeroed it in
SETUP; HOLD_SAMPLES counts in RUN where HOLD is observed asserted; code pairs are handled from now on; nothing
else moves but the line and the bookkeeping of TZ (R111, R146, R160, R163; the bookkeeping is the model's,
log 7). -/
def Obligations.EdgeAdvancesTimebase : Prop :=
  ∀ (s : State) (seedLevel holdLevel : Bool), s.inReset = false → s.countersInRange →
    ∃ t, exec (.timebaseAdvance seedLevel holdLevel) s = .next t ∧
      (s.edgeTz ≠ .zeroed → t.now.toNat = (s.now.toNat + 1) % 2 ^ 28) ∧
      (s.edgeTz = .zeroed → t.now = 0) ∧
      s.counted t .holdSamples
        (if s.mode = .run ∧ s.edgeTz ≠ .zeroed ∧
            (if s.station.solo then s.hold.drive else holdLevel) = true then 1 else 0) ∧
      (s.edgeTz = .unsampled → t.tzSeen = false) ∧ (s.edgeTz ≠ .unsampled → t.tzSeen = s.tzSeen) ∧
      t.edgeTz = .unsampled ∧ t.awaitsEdge = false ∧
      t = { s with
        now := t.now
        tzSeen := t.tzSeen
        edgeTz := t.edgeTz
        awaitsEdge := t.awaitsEdge
        line := t.line
        counters := t.counters }

/-- The recessive and the dominant run move at each read, at the timebase value 4 above a boundary, and
saturate at 44 and 48; no other step moves them but those whose rules set them; and a release from reset
sets both to 0 (R90). -/
def Obligations.RunsFollowReads : Prop :=
  (∀ (s : State) (seedLevel holdLevel : Bool), s.inReset = false →
    ∃ t, exec (.timebaseAdvance seedLevel holdLevel) s = .next t ∧
      ∀ level : Bool, level = (if s.station.solo then s.line.drive else seedLevel) →
        (t.now.toNat % 8 = 4 → level = false →
          t.line.recessiveRun = min (s.line.recessiveRun + 1) 44 ∧ t.line.dominantRun = 0) ∧
        (t.now.toNat % 8 = 4 → level = true →
          t.line.dominantRun = min (s.line.dominantRun + 1) 48 ∧ t.line.recessiveRun = 0) ∧
        (t.now.toNat % 8 ≠ 4 →
          t.line.recessiveRun = s.line.recessiveRun ∧ t.line.dominantRun = s.line.dominantRun)) ∧
  (∀ (c : Instr) (s t : State), exec c s = .next t → (∀ a b, c ≠ .timebaseAdvance a b) →
    (∀ tz, c ≠ .tzSample tz) → c ≠ .dominantGapBit → c ≠ .set → c ≠ .rstnAssert → c ≠ .resetStation →
    (∀ straps, c ≠ .resetRelease straps) →
      t.line.recessiveRun = s.line.recessiveRun ∧ t.line.dominantRun = s.line.dominantRun) ∧
  ∀ (s : State) (straps : BitVec 4), s.inReset = true → s.resetEdges = 0 →
    ∃ t, exec (.resetRelease straps) s = .next t ∧ t.line.recessiveRun = 0 ∧ t.line.dominantRun = 0

/-- At a bit boundary a view due to become IDLE does, a frame moves to its next position, a CALLER still
CALLER at 17 is WINNER, and the drive is set: the caller's own bits at 1 to 16, the winner's at 17 to 36,
else released. At a bit centre a frame takes the reading at its position. At other samples the line stands
(R89, R91, R93, R96, R97, R99, R101, R102, R104; the moment of becoming IDLE: log 9). -/
def Obligations.LineMovesAtBits : Prop :=
  ∀ (s : State) (seedLevel holdLevel : Bool), s.inReset = false →
    ∃ t, exec (.timebaseAdvance seedLevel holdLevel) s = .next t ∧
      (t.now.toNat % 8 = 0 → t.line.bitRead = none) ∧
      (t.now.toNat % 8 = 0 → s.line.toIdle = true →
        t.line = { s.line with
          view := .idle
          ownFrame := none
          drive := false
          bitRead := none
          toIdle := false }) ∧
      (t.now.toNat % 8 = 0 → s.line.toIdle = false → (∀ f, s.line.view ≠ .frame f) →
        t.line = { s.line with drive := false, bitRead := none }) ∧
      (∀ f : Frame, t.now.toNat % 8 = 0 → s.line.toIdle = false → s.line.view = .frame f →
        ∃ f' : Frame,
          t.line = { s.line with view := .frame f', drive := t.line.drive, bitRead := none } ∧
          f' = { f with position := f'.position, role := f'.role } ∧
          f'.position = min (f.position + 1) 40 ∧
          f'.role = (if f.role = .caller ∧ f'.position = 17 then .winner else f.role) ∧
          (t.line.drive = true ↔ ∃ bits : BitVec 36, s.line.ownFrame = some bits ∧
            (f'.role = .caller ∧ 1 ≤ f'.position ∧ f'.position ≤ 16 ∨
              f'.role = .winner ∧ 17 ≤ f'.position ∧ f'.position ≤ 36) ∧
            bits.getLsbD (36 - f'.position) = true)) ∧
      (∀ level : Bool, t.now.toNat % 8 = 4 →
        level = (if s.station.solo then s.line.drive else seedLevel) →
          t.line.bitRead = some level ∧ t.line.drive = s.line.drive ∧
          t.line.ownFrame = s.line.ownFrame ∧ t.line.toIdle = s.line.toIdle ∧
          ((∀ f, s.line.view ≠ .frame f) → t.line.view = s.line.view) ∧
          ∀ f : Frame, s.line.view = .frame f →
            ∃ f' : Frame, t.line.view = .frame f' ∧
              f' = { f with
                bits := f'.bits
                readbackMismatch := f'.readbackMismatch
                checkMismatch := f'.checkMismatch
                objection := f'.objection } ∧
              (1 ≤ f.position ∧ f.position ≤ 36 → f'.bits = recordBit f.bits f.position level) ∧
              (¬(1 ≤ f.position ∧ f.position ≤ 36) → f'.bits = f.bits) ∧
              (f'.readbackMismatch = true ↔ f.readbackMismatch = true ∨
                f.role = .winner ∧ 17 ≤ f.position ∧ f.position ≤ 36 ∧
                  ∃ bits : BitVec 36, s.line.ownFrame = some bits ∧
                    bits.getLsbD (36 - f.position) ≠ level) ∧
              (f.position = 36 → f'.checkMismatch = checkDiffers f'.bits) ∧
              (f.position ≠ 36 → f'.checkMismatch = f.checkMismatch) ∧
              (f.position = 37 → f'.objection = some level) ∧
              (f.position ≠ 37 → f'.objection = f.objection)) ∧
      (t.now.toNat % 8 ≠ 0 → t.now.toNat % 8 ≠ 4 → t.line = { s.line with bitRead := none })

/-- TZ sampled in SETUP asserted sets the timebase to 0 and sends the line view to JOIN; in RUN and DRAIN
it moves neither, and newly asserted it counts TZ_IGNORED (R95, R164; the place of the sample before the
advance of its edge: log 7). -/
def Obligations.TzHonouredOrIgnored : Prop :=
  ∀ (s : State) (tz : Bool), s.inReset = false → s.countersInRange →
    ∃ t, exec (.tzSample tz) s = .next t ∧ t.tzSeen = tz ∧
      (s.mode = .setup → tz = true →
        t = { s with now := 0, tzSeen := true, edgeTz := .zeroed, line := t.line } ∧
          t.line.view = .join ∧ t.line.recessiveRun = 0 ∧ t.line.dominantRun = 0 ∧
          t.line.drive = false ∧ t.line.ownFrame = none) ∧
      (s.mode = .setup → tz = false → t = { s with tzSeen := false, edgeTz := .sampled }) ∧
      (s.mode ≠ .setup →
        t = { s with tzSeen := tz, edgeTz := t.edgeTz, counters := t.counters } ∧
          s.counted t .tzIgnored (if tz = true ∧ s.tzSeen = false then 1 else 0))

/-! ### What grows too old -/

/-- HIT_EXPIRY removes the front entries older than H_eff, up to the first that is not, counting the
unselected ones and returning their slots; EVICT_MARK_WITHDRAWAL withdraws a mark older than H_eff (R60,
R63, R68). -/
def Obligations.HitsAndMarkExpire : Prop :=
  (∀ s : State, s.mode ≠ .setup →
    ∃ t leaving, exec .hitExpiry s = .next t ∧ s.hits = leaving ++ t.hits ∧
      (∀ h ∈ leaving, (s.hEff : Int) < timeDiff s.now h.crossing) ∧
      (∀ h, t.hits.head? = some h → timeDiff s.now h.crossing ≤ (s.hEff : Int)) ∧
      s.counted t .hitsExpiredUnselected (leaving.countP fun h => !h.selected) ∧
      (∀ i : Fin 32, t.pool[i] = if ∃ h ∈ leaving, h.slot = some i then .free else s.pool[i]) ∧
      t = { s with hits := t.hits, pool := t.pool, counters := t.counters }) ∧
  ∀ (s : State) (m : SampleTime), s.mode ≠ .setup → s.evictMark = some m →
    ∃ t, exec .evictMarkWithdrawal s = .next t ∧
      ((s.hEff : Int) < timeDiff s.now m → t = { s with evictMark := none }) ∧
      (timeDiff s.now m ≤ (s.hEff : Int) → t = s)

/-- CALL_LAPSE removes exactly the WAITING calls older than CALL_DEADLINE, each counted (R82). -/
def Obligations.OldCallsLapse : Prop :=
  ∀ s : State, s.mode = .run →
    ∃ t, exec .callLapse s = .next t ∧
      t.calls = s.calls.filter (fun c =>
        decide (c.state ≠ .waiting ∨ timeDiff s.now c.time ≤ (s.station.callDeadline : Int))) ∧
      s.counted t .callsLapsed (s.calls.length - t.calls.length) ∧
      t = { s with calls := t.calls, counters := t.counters }

/-- The three marks of listed seeds: closed from τ + W + G_max + 8 on, late once τ - W is older than H_eff,
stale once τ + W is; a mark once set stays, and nothing else changes (R124). -/
def Obligations.SeedMarksAreSet : Prop :=
  ∀ (s : State) (w g : BitVec 28), w = BitVec.ofNat 28 s.station.window →
    g = BitVec.ofNat 28 (s.station.window + s.gMax + 8) →
    exec .seedClosed s = .next { s with seeds := s.seeds.map fun d =>
      { d with closed := d.closed || decide (0 ≤ timeDiff s.now (d.time + g)) } } ∧
    exec .seedLateMark s = .next { s with seeds := s.seeds.map fun d =>
      { d with late := d.late || decide ((s.hEff : Int) < timeDiff s.now (d.time - w)) } } ∧
    exec .seedStaleMark s = .next { s with seeds := s.seeds.map fun d =>
      { d with stale := d.stale || decide ((s.hEff : Int) < timeDiff s.now (d.time + w)) } }

/-! ### Fragments -/

/-- A closed head whose fragment without waveforms fits is built in RUN or DRAIN: its hits are marked, the
fragment is written whole at the tail within the free room, the head is removed and counted, the hold
causes are judged, and an idle link may begin (R66, R125 to R134, R142 to R144, R149). -/
def Obligations.BuildWritesHeadFragment : Prop :=
  ∀ (s : State) (d : Seed) (rest : List Seed) (sel : List Hit) (copies : List HitCopy),
    s.linkLawful → s.mode ≠ .setup → s.seeds = d :: rest → d.closed = true →
    sel = s.hits.filter (fun h => !d.stale && within s.station.window h.crossing d.time) →
    3 + 4 * sel.length ≤ 4096 - s.occupancy →
    copies = fitWaveforms s.pool (4096 - s.occupancy - (3 + 4 * sel.length)) false sel →
    ∃ t fragment late evicted, exec .fragmentBuild s = .next t ∧
      t.seeds = rest ∧ t.readout = s.readout ++ [fragment] ∧
      fragment.length ≤ 4096 - s.occupancy ∧
      fragment =
        [ headerWord0 s.slot late evicted d.own (copies.any HitCopy.omitted) sel.length d.lostAfter,
          headerWord1 d.number d.energy d.origin,
          headerWord2 d.time ] ++ (copies.map HitCopy.words).flatten ∧
      (late = true ↔ d.late = true ∨
        (s.hEff : Int) < timeDiff s.now (d.time - BitVec.ofNat 28 s.station.window)) ∧
      (evicted = true ↔ ∃ m, s.evictMark = some m ∧
        (d.stale = true ∨ 0 ≤ timeDiff m (d.time - BitVec.ofNat 28 s.station.window))) ∧
      t.hits = s.hits.map (fun h =>
        if d.stale = false ∧ within s.station.window h.crossing d.time = true then
          { h with selected := true } else h) ∧
      s.counted t .fragmentsBuilt 1 ∧
      s.queueHoldJudged t ∧ s.listHoldJudged t ∧ s.holdRecomputed t ∧
      t.link = { s.link with
        sending := if s.link.sending = .nothing then
          nextSending s.link.paused s.link.response t.readout else s.link.sending } ∧
      t = { s with
        hits := t.hits
        readout := t.readout
        seeds := t.seeds
        hold := t.hold
        link := t.link
        counters := t.counters }

/-- Waveforms fit in store order: those of an unbroken run of slot-holding hits from the start go in, and
from the first that does not fit in what room is left every one is left out with its copy marked; a hit
without a slot takes no room and is not marked (R128). -/
def Obligations.WaveformsFitInOrder : Prop :=
  ∀ (pool : Vector Slot 32) (room : Nat) (hits : List Hit) (len : Hit → Nat),
    (∀ h, len h = if h.slot.isSome then h.waveLength else 0) →
    ∃ before after, hits = before ++ after ∧
      fitWaveforms pool room false hits =
        before.map (fun h =>
          { hit := h
            omitted := false
            samples := match h.slot with
              | none => []
              | some i => (slotSamples pool i).take h.waveLength }) ++
        after.map (fun h => { hit := h, omitted := h.slot.isSome, samples := [] }) ∧
      (before.map len).sum ≤ room ∧
      ∀ h, after.head? = some h → h.slot.isSome = true ∧ room < (before.map len).sum + h.waveLength

/-! ### Frames on the SEED line -/

/-- At a bit boundary in RUN, with the view IDLE, HOLD observed deasserted and no call ON_LINE, the WAITING
call of greatest energy, the earliest of equals, goes ON_LINE with its energy frozen, its frame is formed
and the start bit is driven (R78, R79, R96, R98). -/
def Obligations.StrongestCallStartsFrame : Prop :=
  ∀ (s : State) (level : Bool) (c : Call), s.mode = .run → s.now.toNat % 8 = 0 →
    s.line.view = .idle → (if s.station.solo then s.hold.drive else level) = false →
    (∀ k ∈ s.calls, k.state = .waiting) → c ∈ s.calls →
    (∀ k ∈ s.calls, k ≠ c →
      k.energy < c.energy ∨ k.energy = c.energy ∧ 0 < timeDiff k.time c.time) →
    exec (.frameStart level) s = .next { s with
      calls := s.calls.map fun k => if k = c then { k with state := .onLine k.energy } else k
      line := { s.line with
        ownFrame := some (ownFrameBits s.slot c.energy c.time)
        drive := true } }

/-- A dominant read in IDLE opens a frame as CALLER or LISTENER; a start bit driven and read recessive gives
the call back and leaves the view IDLE; a CALLER that drove recessive and reads dominant at 1 to 16 becomes
a LISTENER and its call is given back (R92, R99, R100, R107). -/
def Obligations.FramesAreJoinedOrLost : Prop :=
  (∀ (s : State) (f : Frame), s.line.view = .idle → s.line.bitRead = some true →
    f =
      { base := s.now - 4
        position := 0
        role := if s.line.drive then .caller else .listener
        bits := 0
        checkMismatch := false
        readbackMismatch := false
        objection := none
        settled := false } →
    exec .startBitHeard s = .next { s with line := { s.line with view := .frame f } }) ∧
  (∀ s : State, s.line.view = .idle → s.line.bitRead = some false → s.line.drive = true →
    s.line.ownFrame.isSome = true →
    ∃ t, exec .startBitRecessive s = .next t ∧ s.callBack t ∧
      t = { s with
        calls := t.calls
        counters := t.counters
        line := { s.line with ownFrame := none } }) ∧
  ∀ (s : State) (f : Frame) (bits : BitVec 36), s.line.view = .frame f → f.role = .caller →
    1 ≤ f.position → f.position ≤ 16 → s.line.ownFrame = some bits →
    bits.getLsbD (36 - f.position) = false → s.line.bitRead = some true →
    ∃ t, exec .arbitrationLost s = .next t ∧ s.callBack t ∧
      t = { s with
        calls := t.calls
        counters := t.counters
        line := { s.line with view := .frame { f with role := .listener }, ownFrame := none } }

/-- At the boundary of position 37 a station in RUN or DRAIN with a check or a readback mismatch drives it
dominant and counts once. At the end of a position 37 read dominant the frame is discarded and counted; a
WINNER's call is back with its retry count raised, or at its fourth discard, or in DRAIN, leaves, counted
(R80, R83, R103, R104, R107). -/
def Obligations.ObjectionsDiscardFrames : Prop :=
  (∀ (s : State) (f : Frame), s.line.view = .frame f → s.mode ≠ .setup → s.now = f.base + 296 →
    s.line.drive = false →
    (f.checkMismatch = true ∨ f.role = .winner ∧ f.readbackMismatch = true) →
    ∃ t, exec .objectionRaised s = .next t ∧ s.counted t .objectionsRaised 1 ∧
      t = { s with counters := t.counters, line := { s.line with drive := true } }) ∧
  ∀ (s : State) (f : Frame), s.countersInRange → s.line.view = .frame f → s.now = f.base + 304 →
    f.objection = some true → f.settled = false →
    ∃ t, exec .framesDiscarded s = .next t ∧
      t = { s with
        calls := t.calls
        counters := t.counters
        line := { s.line with view := .frame { f with settled := true } } } ∧
      t.counter .framesDiscarded = min (s.counter .framesDiscarded + 1) 4294967295 ∧
      (∀ k, k ≠ .framesDiscarded → k ≠ .callsAbandoned → k ≠ .callsLapsed →
        t.counter k = s.counter k) ∧
      (f.role ≠ .winner → t.calls = s.calls ∧ t.counter .callsAbandoned = s.counter .callsAbandoned ∧
        t.counter .callsLapsed = s.counter .callsLapsed) ∧
      (f.role = .winner → s.mode ≠ .drain →
        t.calls = (s.calls.filter fun c => decide (c.state = .waiting ∨ c.retry < 3)).map (fun c =>
          if c.state = .waiting then c else { c with state := .waiting, retry := c.retry + 1 }) ∧
        t.counter .callsAbandoned =
          min (s.counter .callsAbandoned + (s.calls.length - t.calls.length)) 4294967295 ∧
        t.counter .callsLapsed = s.counter .callsLapsed) ∧
      (f.role = .winner → s.mode = .drain →
        t.calls = s.calls.filter (fun c => decide (c.state = .waiting)) ∧
        t.counter .callsLapsed =
          min (s.counter .callsLapsed + (s.calls.length - t.calls.length)) 4294967295 ∧
        t.counter .callsAbandoned = s.counter .callsAbandoned)

/-- At the end of a position 37 read recessive the seed is delivered. In SETUP it is ignored. In RUN and
DRAIN the ON_LINE call is won, other covered calls are merged, and the seed takes its number, is counted
heard and appended to the list, LIST_HOLD being judged; at a full list it is counted lost, in the last entry
too (R81, R105, R117 to R121, R143). -/
def Obligations.AcceptedSeedIsDelivered : Prop :=
  ∀ (s : State) (f : Frame), s.line.view = .frame f → s.now = f.base + 304 →
    f.objection = some false → f.settled = false →
    ∃ t, exec .seedAccepted s = .next t ∧
      t.line = { s.line with view := .frame { f with settled := true } } ∧
      (s.mode = .setup → t = { s with line := t.line }) ∧
      (s.mode ≠ .setup → ∀ τ : SampleTime, τ = rebuildTime s.now (frameTime f.bits) →
        t.calls = s.calls.filter (fun c =>
          decide (c.state = .waiting) && !within s.station.window c.time τ) ∧
        t.counter .callsWon =
          min (s.counter .callsWon + s.calls.countP fun c => decide (c.state ≠ .waiting)) 4294967295 ∧
        t.counter .callsMerged =
          min (s.counter .callsMerged + s.calls.countP fun c =>
            decide (c.state = .waiting) && within s.station.window c.time τ) 4294967295 ∧
        t.counter .seedsHeard = min (s.counter .seedsHeard + 1) 4294967295 ∧
        (∀ k, k ≠ .callsWon → k ≠ .callsMerged → k ≠ .seedsHeard → k ≠ .seedsLost →
          t.counter k = s.counter k) ∧
        t.seedCounter = s.seedCounter + 1 ∧
        (s.seeds.length < 16 →
          t.seeds = s.seeds ++
            [{ number := s.seedCounter
               time := τ
               energy := frameEnergy f.bits
               origin := 15#4 - frameRank f.bits
               own := s.calls.any fun c => decide (c.state ≠ .waiting)
               lostAfter := 0
               closed := decide (0 ≤ timeDiff s.now
                 (τ + BitVec.ofNat 28 (s.station.window + s.gMax + 8)))
               late := decide ((s.hEff : Int) < timeDiff s.now (τ - BitVec.ofNat 28 s.station.window))
               stale := decide ((s.hEff : Int) < timeDiff s.now
                 (τ + BitVec.ofNat 28 s.station.window)) }] ∧
          t.counter .seedsLost = s.counter .seedsLost ∧
          s.listHoldJudged t ∧ s.holdRecomputed t ∧ t.hold.queueHold = s.hold.queueHold) ∧
        (∀ (first : List Seed) (last : Seed), s.seeds = first ++ [last] → 16 ≤ s.seeds.length →
          t.seeds = first ++ [{ last with lostAfter := min (last.lostAfter + 1) 255 }] ∧
          t.counter .seedsLost = min (s.counter .seedsLost + 1) 4294967295 ∧ t.hold = s.hold) ∧
        t = { s with
          line := t.line
          calls := t.calls
          counters := t.counters
          seedCounter := t.seedCounter
          seeds := t.seeds
          hold := t.hold })

/-- The moves of the line view: the last gap bit read recessive and the 44th recessive bit in JOIN bring IDLE
at the next boundary; a dominant gap bit brings JOIN at once; the 48th dominant bit brings STUCK, counted,
with SEED released and an ON_LINE call given back; and the first recessive bit in STUCK brings JOIN (R91,
R93, R94, R107; the mark toIdle is the model's, log 9). -/
def Obligations.LineViewMoves : Prop :=
  (∀ (s : State) (f : Frame), s.line.view = .frame f → f.position = 40 →
    s.line.bitRead = some false → s.line.toIdle = false →
    exec .frameGapEnd s = .next { s with line := { s.line with toIdle := true } }) ∧
  (∀ (s : State) (f : Frame), s.line.view = .frame f → 38 ≤ f.position →
    s.line.bitRead = some true →
    exec .dominantGapBit s = .next { s with line := { s.line with
      view := .join
      ownFrame := none
      recessiveRun := 0
      toIdle := false } }) ∧
  (∀ s : State, s.line.view = .join → s.line.bitRead = some false → s.line.recessiveRun = 44 →
    s.line.toIdle = false →
    exec .lineIdle s = .next { s with line := { s.line with toIdle := true } }) ∧
  (∀ s : State, s.line.view ≠ .stuck → s.line.bitRead = some true → s.line.dominantRun = 48 →
    ∃ t u, exec .lineStuck s = .next t ∧ s.callBack u ∧ u.counted t .lineStuckEvents 1 ∧
      u = { s with calls := u.calls, counters := u.counters } ∧
      t = { u with
        counters := t.counters
        line := { s.line with view := .stuck, ownFrame := none, drive := false, toIdle := false } }) ∧
  ∀ s : State, s.line.view = .stuck → s.line.bitRead = some false →
    exec .stuckRelease s = .next { s with line := { s.line with view := .join } }

/-! ### The output link and the return from DRAIN -/

/-- A word of the frame in transmission goes out with the frame mark on a frame's first word: the start word,
a response word, or the front word of the Readout Queue, which leaves the queue; at a frame's end the link
chooses the next (R140, R142, R148 to R151, R177). With no frame nothing is sent. That the choice at a
response's last word comes before a waiting command word's response is the model's (log 27). -/
def Obligations.LinkSendsWordByWord : Prop :=
  ∀ s : State, s.linkLawful → s.inReset = false →
    ∃ t, exec .linkWordSent s = .next t ∧
      (s.link.sending = .nothing → t = s) ∧
      (s.link.sending = .startWord →
        t = { s with link :=
          { startOwed := false
            paused := s.link.paused
            sending := nextSending s.link.paused s.link.response s.readout
            response := s.link.response
            lastSent := some { word := startWord s.slot, mark := true } } }) ∧
      (∀ (k : Nat) (w : Word), s.link.sending = .response k → s.link.response[k]? = some w →
        (k + 1 < s.link.response.length →
          t = { s with link := { s.link with
            sending := .response (k + 1)
            lastSent := some { word := w, mark := decide (k = 0) } } }) ∧
        (k + 1 = s.link.response.length →
          t = { s with link := { s.link with
            sending := nextSending s.link.paused [] s.readout
            response := []
            lastSent := some { word := w, mark := decide (k = 0) } } })) ∧
      ∀ (k : Nat) (w : Word) (ws : List Word) (rest : List (List Word)),
        s.link.sending = .fragment k → s.readout = (w :: ws) :: rest →
          t.readout = (if ws = [] then rest else ws :: rest) ∧
          t.occupancy + 1 = s.occupancy ∧
          t.link = { s.link with
            sending := if ws = [] then nextSending s.link.paused s.link.response rest
              else .fragment (k + 1)
            lastSent := some { word := w, mark := decide (k = 0) } } ∧
          s.queueHoldJudged t ∧ s.holdRecomputed t ∧ t.hold.listHold = s.hold.listHold ∧
          t = { s with readout := t.readout, link := t.link, hold := t.hold }

/-- A station in DRAIN with every context FREE, no call ON_LINE, Seed List and Readout Queue empty and the
view not FRAME returns to SETUP: the Hit Store is emptied with its unselected entries counted, its slots
returned and evict_mark gone, every discriminator is BELOW, and HOLD is driven (R158, R159, R70). -/
def Obligations.DrainReturnsToSetup : Prop :=
  ∀ s : State, s.mode = .drain →
    (∀ c : Fin 8, s.channels[c].ctxA = none ∧ s.channels[c].ctxB = none) →
    (∀ c ∈ s.calls, c.state = .waiting) → s.seeds = [] → s.readout = [] →
    (∀ f, s.line.view ≠ .frame f) →
    ∃ t, exec .drainReturn s = .next t ∧ t.mode = .setup ∧
      t.hold = { s.hold with notRun := true, drive := true } ∧
      t.hits = [] ∧ t.evictMark = none ∧
      s.counted t .hitsExpiredUnselected (s.hits.countP fun h => !h.selected) ∧
      (∀ i : Fin 32, t.pool[i] = if ∃ h ∈ s.hits, h.slot = some i then .free else s.pool[i]) ∧
      (∀ c : Fin 8, t.channels[c] = { s.channels[c] with disc := .below }) ∧
      t = { s with
        mode := t.mode
        hold := t.hold
        hits := t.hits
        evictMark := t.evictMark
        counters := t.counters
        pool := t.pool
        channels := t.channels }

/-! ### The Command Port -/

/-- A command word joins the tail of the Command Queue, or at 8 words is discarded and counted (R165). -/
def Obligations.CommandWordsQueue : Prop :=
  ∀ (s : State) (w : Word), s.inReset = false →
    (s.commands.length < 8 →
      exec (.commandWordArrival w) s = .next { s with commands := s.commands ++ [w] }) ∧
    (8 ≤ s.commands.length →
      ∃ t, exec (.commandWordArrival w) s = .next t ∧ s.counted t .cmdOverruns 1 ∧
        t = { s with counters := t.counters })

/-- SET in SETUP writes the value, brought into the item's range, to the addressed channel, to all eight, or
to the station, and notes an adjusted value; PED_HI, PED_LO and PED_MODE FIXED load trackers; a change of
SOLO sends the line view to JOIN; all other items stay (R13, R14, R95, R112, R169). -/
def Obligations.SetWritesClampedValue : Prop :=
  ∀ (s : State) (w : Word) (ws : List Word) (c : CommandWord), s.inReset = false →
    s.commands = w :: ws → decodeCommand w = some c → c.kind = .set → s.mode = .setup →
    (∀ (i : ChannelItem) (v : Nat), itemOfCode c.item = some (.channel i) →
      (c.channel.toNat ≤ 7 ∨ c.channel.toNat = 15) →
      v = max (channelItemLeast i) (min c.value.toNat (channelItemGreatest i)) →
      ∃ t, exec .set s = .next t ∧
        t = { s with
          commands := ws
          channels := t.channels
          configAdjusted := s.configAdjusted || decide (v ≠ c.value.toNat) } ∧
        ∀ d : Fin 8,
          (c.channel.toNat ≠ d.val → c.channel.toNat ≠ 15 → t.channels[d] = s.channels[d]) ∧
          (c.channel.toNat = d.val ∨ c.channel.toNat = 15 →
            t.channels[d] = { s.channels[d] with
              items := t.channels[d].items
              trackHi := t.channels[d].trackHi
              trackLo := t.channels[d].trackLo } ∧
            t.channels[d].readItem i = v ∧
            (i ≠ .pedMode → ∀ j, j ≠ i → t.channels[d].readItem j = s.channels[d].readItem j) ∧
            (i = .pedMode → ∀ j, j ≠ i → j ≠ .pedHi → j ≠ .pedLo →
              t.channels[d].readItem j = s.channels[d].readItem j) ∧
            t.channels[d].items.pedHi = (if i = .pedHi then v else s.channels[d].items.pedHi) ∧
            t.channels[d].items.pedLo = (if i = .pedLo then v else s.channels[d].items.pedLo) ∧
            t.channels[d].trackHi = (if i = .pedHi then (v : Int)
              else if i = .pedMode ∧ v = 1 then (s.channels[d].items.pedHi : Int)
              else s.channels[d].trackHi) ∧
            t.channels[d].trackLo = (if i = .pedLo then (v : Int)
              else if i = .pedMode ∧ v = 1 then (s.channels[d].items.pedLo : Int)
              else s.channels[d].trackLo))) ∧
    ∀ (i : StationItem) (v : Nat), itemOfCode c.item = some (.station i) →
      v = max (stationItemLeast i) (min c.value.toNat (stationItemGreatest i)) →
      ∃ t, exec .set s = .next t ∧
        t = { s with
          commands := ws
          station := t.station
          line := t.line
          configAdjusted := s.configAdjusted || decide (v ≠ c.value.toNat) } ∧
        t.station.read i = v ∧ (∀ j, j ≠ i → t.station.read j = s.station.read j) ∧
        (t.station.solo = s.station.solo → t.line = s.line) ∧
        (t.station.solo ≠ s.station.solo →
          t.line =
            { view := .join
              ownFrame := none
              recessiveRun := 0
              dominantRun := 0
              drive := false
              bitRead := none
              toIdle := false })

/-- READ_ITEM reports the item's effective value, a tracker for PED_HI and PED_LO, and READ_STATUS the
status frame of the station as it stands; each takes the empty response buffer, and an idle link begins to
send it at once (R149, R151, R166, R170, R176, R184). -/
def Obligations.ReadsPlaceResponses : Prop :=
  ∀ (s : State) (w : Word) (ws : List Word) (c : CommandWord), s.linkLawful → s.inReset = false →
    s.commands = w :: ws → decodeCommand w = some c → s.link.response = [] →
    (∀ (i : ChannelItem) (d : Fin 8), c.kind = .readItem → itemOfCode c.item = some (.channel i) →
      c.channel.toNat = d.val →
      exec .readItem s = .next { s with
        commands := ws
        link := { s.link with
          response := [itemValueWord c.channel c.item (s.channels[d].readItem i)]
          sending := if s.link.sending = .nothing then .response 0 else s.link.sending } }) ∧
    (∀ i : StationItem, c.kind = .readItem → itemOfCode c.item = some (.station i) →
      exec .readItem s = .next { s with
        commands := ws
        link := { s.link with
          response := [itemValueWord c.channel c.item (s.station.read i)]
          sending := if s.link.sending = .nothing then .response 0 else s.link.sending } }) ∧
    ∀ level : Bool, c.kind = .readStatus →
      exec (.readStatus level) s = .next { s with
        commands := ws
        link := { s.link with
          response := statusFrame s level
          sending := if s.link.sending = .nothing then .response 0 else s.link.sending } }

/-- START in SETUP: HORIZON and LOW_MARK are brought into agreement with the other items, H_eff and G_max are
fixed, the collections are empty, the seed counter is 0, and the station is in RUN with every hold cause
clear and HOLD released (R144, R147, R155, R156). -/
def Obligations.StartEntersRun : Prop :=
  ∀ (s : State) (w : Word) (ws : List Word) (c : CommandWord), s.inReset = false →
    s.commands = w :: ws → decodeCommand w = some c → c.kind = .start → s.mode = .setup →
    ∃ t horizon lowMark, exec .start s = .next t ∧
      horizon = max s.station.horizon (s.station.callDeadline + 2 * s.station.window + 400) ∧
      lowMark = min s.station.lowMark (s.station.highMark - 256) ∧
      t = { s with
        commands := ws
        mode := .run
        station := { s.station with horizon := horizon, lowMark := lowMark }
        hEff := horizon
        gMax := t.gMax
        hits := []
        evictMark := none
        calls := []
        seeds := []
        readout := []
        seedCounter := 0
        hold := { notRun := false, queueHold := false, listHold := false, drive := false }
        configAdjusted := s.configAdjusted ||
          decide (horizon ≠ s.station.horizon ∨ lowMark ≠ s.station.lowMark) } ∧
      ((∀ d : Fin 8, s.channels[d].items.enable = false) → t.gMax = 4) ∧
      ((∃ d : Fin 8, s.channels[d].items.enable = true) →
        (∃ d : Fin 8, s.channels[d].items.enable = true ∧
          s.channels[d].items.gateWidth = t.gMax) ∧
        ∀ d : Fin 8, s.channels[d].items.enable = true → s.channels[d].items.gateWidth ≤ t.gMax)

/-- STOP in RUN: the station is in DRAIN driving HOLD, every WAITING call is withdrawn and counted, and the
conditions of the return to SETUP are tested at once (R83, R144, R157). -/
def Obligations.StopEntersDrain : Prop :=
  ∀ (s : State) (w : Word) (ws : List Word) (c : CommandWord), s.inReset = false →
    s.commands = w :: ws → decodeCommand w = some c → c.kind = .stop → s.mode = .run →
    ∃ t d, exec .stop s = .next t ∧ exec .drainReturn d = .next t ∧
      d.calls = s.calls.filter (fun k => decide (k.state ≠ .waiting)) ∧
      s.counted d .callsLapsed (s.calls.length - d.calls.length) ∧
      d = { s with
        commands := ws
        mode := .drain
        hold := { s.hold with notRun := true, drive := true }
        calls := d.calls
        counters := d.counters }

/-- CLEAR_COUNTERS, in every station state and whatever the response buffer holds, zeroes the twenty-six
counters and clears the seventeen sticky flags, and leaves all else (R175). -/
def Obligations.ClearCountersClearsAll : Prop :=
  ∀ (s : State) (w : Word) (ws : List Word) (c : CommandWord), s.inReset = false →
    s.commands = w :: ws → decodeCommand w = some c → c.kind = .clearCounters →
    ∃ t, exec .clearCounters s = .next t ∧ (∀ k, t.counter k = 0) ∧
      (∀ d : Fin 8, t.hitCounts[d] = 0 ∧ t.rangeFlags[d] = false ∧ t.satFlags[d] = false) ∧
      t.configAdjusted = false ∧
      t = { s with
        commands := ws
        counters := t.counters
        hitCounts := t.hitCounts
        rangeFlags := t.rangeFlags
        satFlags := t.satFlags
        configAdjusted := t.configAdjusted }

/-- LINK_PAUSE and LINK_RESUME, in every station state, set fragment sending; a resumed link with no frame in
transmission begins the fragment at the front at once (R149, R150). -/
def Obligations.PauseAndResume : Prop :=
  ∀ (s : State) (w : Word) (ws : List Word) (c : CommandWord), s.inReset = false →
    s.commands = w :: ws → decodeCommand w = some c →
    (c.kind = .linkPause →
      exec .linkPause s = .next { s with commands := ws, link := { s.link with paused := true } }) ∧
    (c.kind = .linkResume → s.linkLawful →
      exec .linkResume s = .next { s with
        commands := ws
        link := { s.link with
          paused := false
          sending := if s.link.sending = .nothing ∧ s.readout ≠ [] then .fragment 0
            else s.link.sending } })

/-- The refusals, in the order of the checks: an unknown kind, an item code that names no item, a channel
that a SET or a READ_ITEM may not name, and the wrong station state. A refused word leaves with its refusal
frame when the response buffer is empty and waits otherwise; so do accepted reads wait (R155, R157, R166,
R167, R184). -/
def Obligations.BadCommandsAreRefused : Prop :=
  ∀ (s : State) (w : Word) (ws : List Word), s.linkLawful → s.inReset = false →
    s.commands = w :: ws →
    ((w.toNat / 2 ^ 28 = 0 ∨ 10 ≤ w.toNat / 2 ^ 28) →
      s.refuses .unknownCommand w ws .unknownCommand) ∧
    ∀ (c : CommandWord), decodeCommand w = some c →
      (∀ code : Nat, code = c.item.toNat → (15 ≤ code ∧ code ≤ 31 ∨ 39 ≤ code) →
        (c.kind = .set → s.refuses .set w ws .unknownItem) ∧
        (c.kind = .readItem → s.refuses .readItem w ws .unknownItem)) ∧
      (∀ i : ChannelItem, itemOfCode c.item = some (.channel i) →
        (c.kind = .set → 8 ≤ c.channel.toNat → c.channel.toNat ≤ 14 →
          s.refuses .set w ws .badChannel) ∧
        (c.kind = .readItem → 8 ≤ c.channel.toNat → s.refuses .readItem w ws .badChannel) ∧
        (c.kind = .set → (c.channel.toNat ≤ 7 ∨ c.channel.toNat = 15) → s.mode ≠ .setup →
          s.refuses .set w ws .wrongState)) ∧
      (∀ i : StationItem, itemOfCode c.item = some (.station i) → c.kind = .set → s.mode ≠ .setup →
        s.refuses .set w ws .wrongState) ∧
      (c.kind = .start → s.mode ≠ .setup → s.refuses .start w ws .wrongState) ∧
      (c.kind = .stop → s.mode ≠ .run → s.refuses .stop w ws .wrongState) ∧
      (s.link.response ≠ [] →
        (c.kind = .readItem → exec .readItem s = .next s) ∧
        (c.kind = .readStatus → ∀ level, exec (.readStatus level) s = .next s))
end

