-- ==== Sys2Proof/Laws/State.lean ====
section
/-! SUPPORT. What each shared operation leaves unchanged, field by field: the simp set of the state. -/

namespace Sys2Proof.Machine

@[simp] theorem State.count_pending (s : State) (k : Counter) (n : Nat) : (s.count k n).pending = s.pending := rfl
@[simp] theorem State.count_mode (s : State) (k : Counter) (n : Nat) : (s.count k n).mode = s.mode := rfl
@[simp] theorem State.count_now (s : State) (k : Counter) (n : Nat) : (s.count k n).now = s.now := rfl
@[simp] theorem State.count_slot (s : State) (k : Counter) (n : Nat) : (s.count k n).slot = s.slot := rfl
@[simp] theorem State.count_edgeTz (s : State) (k : Counter) (n : Nat) : (s.count k n).edgeTz = s.edgeTz := rfl
@[simp] theorem State.count_tzSeen (s : State) (k : Counter) (n : Nat) : (s.count k n).tzSeen = s.tzSeen := rfl
@[simp] theorem State.count_inReset (s : State) (k : Counter) (n : Nat) : (s.count k n).inReset = s.inReset := rfl
@[simp] theorem State.count_rstn (s : State) (k : Counter) (n : Nat) : (s.count k n).rstn = s.rstn := rfl
@[simp] theorem State.count_resetEdges (s : State) (k : Counter) (n : Nat) : (s.count k n).resetEdges = s.resetEdges := rfl
@[simp] theorem State.count_awaitsEdge (s : State) (k : Counter) (n : Nat) : (s.count k n).awaitsEdge = s.awaitsEdge := rfl
@[simp] theorem State.count_channels (s : State) (k : Counter) (n : Nat) : (s.count k n).channels = s.channels := rfl
@[simp] theorem State.count_station (s : State) (k : Counter) (n : Nat) : (s.count k n).station = s.station := rfl
@[simp] theorem State.count_hEff (s : State) (k : Counter) (n : Nat) : (s.count k n).hEff = s.hEff := rfl
@[simp] theorem State.count_gMax (s : State) (k : Counter) (n : Nat) : (s.count k n).gMax = s.gMax := rfl
@[simp] theorem State.count_pool (s : State) (k : Counter) (n : Nat) : (s.count k n).pool = s.pool := rfl
@[simp] theorem State.count_hits (s : State) (k : Counter) (n : Nat) : (s.count k n).hits = s.hits := rfl
@[simp] theorem State.count_evictMark (s : State) (k : Counter) (n : Nat) : (s.count k n).evictMark = s.evictMark := rfl
@[simp] theorem State.count_calls (s : State) (k : Counter) (n : Nat) : (s.count k n).calls = s.calls := rfl
@[simp] theorem State.count_line (s : State) (k : Counter) (n : Nat) : (s.count k n).line = s.line := rfl
@[simp] theorem State.count_seeds (s : State) (k : Counter) (n : Nat) : (s.count k n).seeds = s.seeds := rfl
@[simp] theorem State.count_seedCounter (s : State) (k : Counter) (n : Nat) : (s.count k n).seedCounter = s.seedCounter := rfl
@[simp] theorem State.count_readout (s : State) (k : Counter) (n : Nat) : (s.count k n).readout = s.readout := rfl
@[simp] theorem State.count_hold (s : State) (k : Counter) (n : Nat) : (s.count k n).hold = s.hold := rfl
@[simp] theorem State.count_link (s : State) (k : Counter) (n : Nat) : (s.count k n).link = s.link := rfl
@[simp] theorem State.count_commands (s : State) (k : Counter) (n : Nat) : (s.count k n).commands = s.commands := rfl
@[simp] theorem State.count_hitCounts (s : State) (k : Counter) (n : Nat) : (s.count k n).hitCounts = s.hitCounts := rfl
@[simp] theorem State.count_rangeFlags (s : State) (k : Counter) (n : Nat) : (s.count k n).rangeFlags = s.rangeFlags := rfl
@[simp] theorem State.count_satFlags (s : State) (k : Counter) (n : Nat) : (s.count k n).satFlags = s.satFlags := rfl
@[simp] theorem State.count_configAdjusted (s : State) (k : Counter) (n : Nat) : (s.count k n).configAdjusted = s.configAdjusted := rfl

@[simp] theorem State.countHit_pending (s : State) (c : Fin 8) : (s.countHit c).pending = s.pending := rfl
@[simp] theorem State.countHit_mode (s : State) (c : Fin 8) : (s.countHit c).mode = s.mode := rfl
@[simp] theorem State.countHit_now (s : State) (c : Fin 8) : (s.countHit c).now = s.now := rfl
@[simp] theorem State.countHit_slot (s : State) (c : Fin 8) : (s.countHit c).slot = s.slot := rfl
@[simp] theorem State.countHit_edgeTz (s : State) (c : Fin 8) : (s.countHit c).edgeTz = s.edgeTz := rfl
@[simp] theorem State.countHit_tzSeen (s : State) (c : Fin 8) : (s.countHit c).tzSeen = s.tzSeen := rfl
@[simp] theorem State.countHit_inReset (s : State) (c : Fin 8) : (s.countHit c).inReset = s.inReset := rfl
@[simp] theorem State.countHit_rstn (s : State) (c : Fin 8) : (s.countHit c).rstn = s.rstn := rfl
@[simp] theorem State.countHit_resetEdges (s : State) (c : Fin 8) : (s.countHit c).resetEdges = s.resetEdges := rfl
@[simp] theorem State.countHit_awaitsEdge (s : State) (c : Fin 8) : (s.countHit c).awaitsEdge = s.awaitsEdge := rfl
@[simp] theorem State.countHit_channels (s : State) (c : Fin 8) : (s.countHit c).channels = s.channels := rfl
@[simp] theorem State.countHit_station (s : State) (c : Fin 8) : (s.countHit c).station = s.station := rfl
@[simp] theorem State.countHit_hEff (s : State) (c : Fin 8) : (s.countHit c).hEff = s.hEff := rfl
@[simp] theorem State.countHit_gMax (s : State) (c : Fin 8) : (s.countHit c).gMax = s.gMax := rfl
@[simp] theorem State.countHit_pool (s : State) (c : Fin 8) : (s.countHit c).pool = s.pool := rfl
@[simp] theorem State.countHit_hits (s : State) (c : Fin 8) : (s.countHit c).hits = s.hits := rfl
@[simp] theorem State.countHit_evictMark (s : State) (c : Fin 8) : (s.countHit c).evictMark = s.evictMark := rfl
@[simp] theorem State.countHit_calls (s : State) (c : Fin 8) : (s.countHit c).calls = s.calls := rfl
@[simp] theorem State.countHit_line (s : State) (c : Fin 8) : (s.countHit c).line = s.line := rfl
@[simp] theorem State.countHit_seeds (s : State) (c : Fin 8) : (s.countHit c).seeds = s.seeds := rfl
@[simp] theorem State.countHit_seedCounter (s : State) (c : Fin 8) : (s.countHit c).seedCounter = s.seedCounter := rfl
@[simp] theorem State.countHit_readout (s : State) (c : Fin 8) : (s.countHit c).readout = s.readout := rfl
@[simp] theorem State.countHit_hold (s : State) (c : Fin 8) : (s.countHit c).hold = s.hold := rfl
@[simp] theorem State.countHit_link (s : State) (c : Fin 8) : (s.countHit c).link = s.link := rfl
@[simp] theorem State.countHit_commands (s : State) (c : Fin 8) : (s.countHit c).commands = s.commands := rfl
@[simp] theorem State.countHit_counters (s : State) (c : Fin 8) : (s.countHit c).counters = s.counters := rfl
@[simp] theorem State.countHit_rangeFlags (s : State) (c : Fin 8) : (s.countHit c).rangeFlags = s.rangeFlags := rfl
@[simp] theorem State.countHit_satFlags (s : State) (c : Fin 8) : (s.countHit c).satFlags = s.satFlags := rfl
@[simp] theorem State.countHit_configAdjusted (s : State) (c : Fin 8) : (s.countHit c).configAdjusted = s.configAdjusted := rfl

@[simp] theorem State.stickHit_pending (s : State) (c : Fin 8) (f : HitFlags) : (s.stickHit c f).pending = s.pending := rfl
@[simp] theorem State.stickHit_mode (s : State) (c : Fin 8) (f : HitFlags) : (s.stickHit c f).mode = s.mode := rfl
@[simp] theorem State.stickHit_now (s : State) (c : Fin 8) (f : HitFlags) : (s.stickHit c f).now = s.now := rfl
@[simp] theorem State.stickHit_slot (s : State) (c : Fin 8) (f : HitFlags) : (s.stickHit c f).slot = s.slot := rfl
@[simp] theorem State.stickHit_edgeTz (s : State) (c : Fin 8) (f : HitFlags) : (s.stickHit c f).edgeTz = s.edgeTz := rfl
@[simp] theorem State.stickHit_tzSeen (s : State) (c : Fin 8) (f : HitFlags) : (s.stickHit c f).tzSeen = s.tzSeen := rfl
@[simp] theorem State.stickHit_inReset (s : State) (c : Fin 8) (f : HitFlags) : (s.stickHit c f).inReset = s.inReset := rfl
@[simp] theorem State.stickHit_rstn (s : State) (c : Fin 8) (f : HitFlags) : (s.stickHit c f).rstn = s.rstn := rfl
@[simp] theorem State.stickHit_resetEdges (s : State) (c : Fin 8) (f : HitFlags) : (s.stickHit c f).resetEdges = s.resetEdges := rfl
@[simp] theorem State.stickHit_awaitsEdge (s : State) (c : Fin 8) (f : HitFlags) : (s.stickHit c f).awaitsEdge = s.awaitsEdge := rfl
@[simp] theorem State.stickHit_channels (s : State) (c : Fin 8) (f : HitFlags) : (s.stickHit c f).channels = s.channels := rfl
@[simp] theorem State.stickHit_station (s : State) (c : Fin 8) (f : HitFlags) : (s.stickHit c f).station = s.station := rfl
@[simp] theorem State.stickHit_hEff (s : State) (c : Fin 8) (f : HitFlags) : (s.stickHit c f).hEff = s.hEff := rfl
@[simp] theorem State.stickHit_gMax (s : State) (c : Fin 8) (f : HitFlags) : (s.stickHit c f).gMax = s.gMax := rfl
@[simp] theorem State.stickHit_pool (s : State) (c : Fin 8) (f : HitFlags) : (s.stickHit c f).pool = s.pool := rfl
@[simp] theorem State.stickHit_hits (s : State) (c : Fin 8) (f : HitFlags) : (s.stickHit c f).hits = s.hits := rfl
@[simp] theorem State.stickHit_evictMark (s : State) (c : Fin 8) (f : HitFlags) : (s.stickHit c f).evictMark = s.evictMark := rfl
@[simp] theorem State.stickHit_calls (s : State) (c : Fin 8) (f : HitFlags) : (s.stickHit c f).calls = s.calls := rfl
@[simp] theorem State.stickHit_line (s : State) (c : Fin 8) (f : HitFlags) : (s.stickHit c f).line = s.line := rfl
@[simp] theorem State.stickHit_seeds (s : State) (c : Fin 8) (f : HitFlags) : (s.stickHit c f).seeds = s.seeds := rfl
@[simp] theorem State.stickHit_seedCounter (s : State) (c : Fin 8) (f : HitFlags) : (s.stickHit c f).seedCounter = s.seedCounter := rfl
@[simp] theorem State.stickHit_readout (s : State) (c : Fin 8) (f : HitFlags) : (s.stickHit c f).readout = s.readout := rfl
@[simp] theorem State.stickHit_hold (s : State) (c : Fin 8) (f : HitFlags) : (s.stickHit c f).hold = s.hold := rfl
@[simp] theorem State.stickHit_link (s : State) (c : Fin 8) (f : HitFlags) : (s.stickHit c f).link = s.link := rfl
@[simp] theorem State.stickHit_commands (s : State) (c : Fin 8) (f : HitFlags) : (s.stickHit c f).commands = s.commands := rfl
@[simp] theorem State.stickHit_counters (s : State) (c : Fin 8) (f : HitFlags) : (s.stickHit c f).counters = s.counters := rfl
@[simp] theorem State.stickHit_hitCounts (s : State) (c : Fin 8) (f : HitFlags) : (s.stickHit c f).hitCounts = s.hitCounts := rfl
@[simp] theorem State.stickHit_configAdjusted (s : State) (c : Fin 8) (f : HitFlags) : (s.stickHit c f).configAdjusted = s.configAdjusted := rfl

@[simp] theorem State.stickAdjusted_pending (s : State) (b : Bool) : (s.stickAdjusted b).pending = s.pending := rfl
@[simp] theorem State.stickAdjusted_mode (s : State) (b : Bool) : (s.stickAdjusted b).mode = s.mode := rfl
@[simp] theorem State.stickAdjusted_now (s : State) (b : Bool) : (s.stickAdjusted b).now = s.now := rfl
@[simp] theorem State.stickAdjusted_slot (s : State) (b : Bool) : (s.stickAdjusted b).slot = s.slot := rfl
@[simp] theorem State.stickAdjusted_edgeTz (s : State) (b : Bool) : (s.stickAdjusted b).edgeTz = s.edgeTz := rfl
@[simp] theorem State.stickAdjusted_tzSeen (s : State) (b : Bool) : (s.stickAdjusted b).tzSeen = s.tzSeen := rfl
@[simp] theorem State.stickAdjusted_inReset (s : State) (b : Bool) : (s.stickAdjusted b).inReset = s.inReset := rfl
@[simp] theorem State.stickAdjusted_rstn (s : State) (b : Bool) : (s.stickAdjusted b).rstn = s.rstn := rfl
@[simp] theorem State.stickAdjusted_resetEdges (s : State) (b : Bool) : (s.stickAdjusted b).resetEdges = s.resetEdges := rfl
@[simp] theorem State.stickAdjusted_awaitsEdge (s : State) (b : Bool) : (s.stickAdjusted b).awaitsEdge = s.awaitsEdge := rfl
@[simp] theorem State.stickAdjusted_channels (s : State) (b : Bool) : (s.stickAdjusted b).channels = s.channels := rfl
@[simp] theorem State.stickAdjusted_station (s : State) (b : Bool) : (s.stickAdjusted b).station = s.station := rfl
@[simp] theorem State.stickAdjusted_hEff (s : State) (b : Bool) : (s.stickAdjusted b).hEff = s.hEff := rfl
@[simp] theorem State.stickAdjusted_gMax (s : State) (b : Bool) : (s.stickAdjusted b).gMax = s.gMax := rfl
@[simp] theorem State.stickAdjusted_pool (s : State) (b : Bool) : (s.stickAdjusted b).pool = s.pool := rfl
@[simp] theorem State.stickAdjusted_hits (s : State) (b : Bool) : (s.stickAdjusted b).hits = s.hits := rfl
@[simp] theorem State.stickAdjusted_evictMark (s : State) (b : Bool) : (s.stickAdjusted b).evictMark = s.evictMark := rfl
@[simp] theorem State.stickAdjusted_calls (s : State) (b : Bool) : (s.stickAdjusted b).calls = s.calls := rfl
@[simp] theorem State.stickAdjusted_line (s : State) (b : Bool) : (s.stickAdjusted b).line = s.line := rfl
@[simp] theorem State.stickAdjusted_seeds (s : State) (b : Bool) : (s.stickAdjusted b).seeds = s.seeds := rfl
@[simp] theorem State.stickAdjusted_seedCounter (s : State) (b : Bool) : (s.stickAdjusted b).seedCounter = s.seedCounter := rfl
@[simp] theorem State.stickAdjusted_readout (s : State) (b : Bool) : (s.stickAdjusted b).readout = s.readout := rfl
@[simp] theorem State.stickAdjusted_hold (s : State) (b : Bool) : (s.stickAdjusted b).hold = s.hold := rfl
@[simp] theorem State.stickAdjusted_link (s : State) (b : Bool) : (s.stickAdjusted b).link = s.link := rfl
@[simp] theorem State.stickAdjusted_commands (s : State) (b : Bool) : (s.stickAdjusted b).commands = s.commands := rfl
@[simp] theorem State.stickAdjusted_counters (s : State) (b : Bool) : (s.stickAdjusted b).counters = s.counters := rfl
@[simp] theorem State.stickAdjusted_hitCounts (s : State) (b : Bool) : (s.stickAdjusted b).hitCounts = s.hitCounts := rfl
@[simp] theorem State.stickAdjusted_rangeFlags (s : State) (b : Bool) : (s.stickAdjusted b).rangeFlags = s.rangeFlags := rfl
@[simp] theorem State.stickAdjusted_satFlags (s : State) (b : Bool) : (s.stickAdjusted b).satFlags = s.satFlags := rfl

@[simp] theorem State.clearCounts_pending (s : State) : (s.clearCounts).pending = s.pending := rfl
@[simp] theorem State.clearCounts_mode (s : State) : (s.clearCounts).mode = s.mode := rfl
@[simp] theorem State.clearCounts_now (s : State) : (s.clearCounts).now = s.now := rfl
@[simp] theorem State.clearCounts_slot (s : State) : (s.clearCounts).slot = s.slot := rfl
@[simp] theorem State.clearCounts_edgeTz (s : State) : (s.clearCounts).edgeTz = s.edgeTz := rfl
@[simp] theorem State.clearCounts_tzSeen (s : State) : (s.clearCounts).tzSeen = s.tzSeen := rfl
@[simp] theorem State.clearCounts_inReset (s : State) : (s.clearCounts).inReset = s.inReset := rfl
@[simp] theorem State.clearCounts_rstn (s : State) : (s.clearCounts).rstn = s.rstn := rfl
@[simp] theorem State.clearCounts_resetEdges (s : State) : (s.clearCounts).resetEdges = s.resetEdges := rfl
@[simp] theorem State.clearCounts_awaitsEdge (s : State) : (s.clearCounts).awaitsEdge = s.awaitsEdge := rfl
@[simp] theorem State.clearCounts_channels (s : State) : (s.clearCounts).channels = s.channels := rfl
@[simp] theorem State.clearCounts_station (s : State) : (s.clearCounts).station = s.station := rfl
@[simp] theorem State.clearCounts_hEff (s : State) : (s.clearCounts).hEff = s.hEff := rfl
@[simp] theorem State.clearCounts_gMax (s : State) : (s.clearCounts).gMax = s.gMax := rfl
@[simp] theorem State.clearCounts_pool (s : State) : (s.clearCounts).pool = s.pool := rfl
@[simp] theorem State.clearCounts_hits (s : State) : (s.clearCounts).hits = s.hits := rfl
@[simp] theorem State.clearCounts_evictMark (s : State) : (s.clearCounts).evictMark = s.evictMark := rfl
@[simp] theorem State.clearCounts_calls (s : State) : (s.clearCounts).calls = s.calls := rfl
@[simp] theorem State.clearCounts_line (s : State) : (s.clearCounts).line = s.line := rfl
@[simp] theorem State.clearCounts_seeds (s : State) : (s.clearCounts).seeds = s.seeds := rfl
@[simp] theorem State.clearCounts_seedCounter (s : State) : (s.clearCounts).seedCounter = s.seedCounter := rfl
@[simp] theorem State.clearCounts_readout (s : State) : (s.clearCounts).readout = s.readout := rfl
@[simp] theorem State.clearCounts_hold (s : State) : (s.clearCounts).hold = s.hold := rfl
@[simp] theorem State.clearCounts_link (s : State) : (s.clearCounts).link = s.link := rfl
@[simp] theorem State.clearCounts_commands (s : State) : (s.clearCounts).commands = s.commands := rfl

@[simp] theorem State.modifyChannel_pending (s : State) (c : Fin 8) (f : Channel → Channel) : (s.modifyChannel c f).pending = s.pending := rfl
@[simp] theorem State.modifyChannel_mode (s : State) (c : Fin 8) (f : Channel → Channel) : (s.modifyChannel c f).mode = s.mode := rfl
@[simp] theorem State.modifyChannel_now (s : State) (c : Fin 8) (f : Channel → Channel) : (s.modifyChannel c f).now = s.now := rfl
@[simp] theorem State.modifyChannel_slot (s : State) (c : Fin 8) (f : Channel → Channel) : (s.modifyChannel c f).slot = s.slot := rfl
@[simp] theorem State.modifyChannel_edgeTz (s : State) (c : Fin 8) (f : Channel → Channel) : (s.modifyChannel c f).edgeTz = s.edgeTz := rfl
@[simp] theorem State.modifyChannel_tzSeen (s : State) (c : Fin 8) (f : Channel → Channel) : (s.modifyChannel c f).tzSeen = s.tzSeen := rfl
@[simp] theorem State.modifyChannel_inReset (s : State) (c : Fin 8) (f : Channel → Channel) : (s.modifyChannel c f).inReset = s.inReset := rfl
@[simp] theorem State.modifyChannel_rstn (s : State) (c : Fin 8) (f : Channel → Channel) : (s.modifyChannel c f).rstn = s.rstn := rfl
@[simp] theorem State.modifyChannel_resetEdges (s : State) (c : Fin 8) (f : Channel → Channel) : (s.modifyChannel c f).resetEdges = s.resetEdges := rfl
@[simp] theorem State.modifyChannel_awaitsEdge (s : State) (c : Fin 8) (f : Channel → Channel) : (s.modifyChannel c f).awaitsEdge = s.awaitsEdge := rfl
@[simp] theorem State.modifyChannel_station (s : State) (c : Fin 8) (f : Channel → Channel) : (s.modifyChannel c f).station = s.station := rfl
@[simp] theorem State.modifyChannel_hEff (s : State) (c : Fin 8) (f : Channel → Channel) : (s.modifyChannel c f).hEff = s.hEff := rfl
@[simp] theorem State.modifyChannel_gMax (s : State) (c : Fin 8) (f : Channel → Channel) : (s.modifyChannel c f).gMax = s.gMax := rfl
@[simp] theorem State.modifyChannel_pool (s : State) (c : Fin 8) (f : Channel → Channel) : (s.modifyChannel c f).pool = s.pool := rfl
@[simp] theorem State.modifyChannel_hits (s : State) (c : Fin 8) (f : Channel → Channel) : (s.modifyChannel c f).hits = s.hits := rfl
@[simp] theorem State.modifyChannel_evictMark (s : State) (c : Fin 8) (f : Channel → Channel) : (s.modifyChannel c f).evictMark = s.evictMark := rfl
@[simp] theorem State.modifyChannel_calls (s : State) (c : Fin 8) (f : Channel → Channel) : (s.modifyChannel c f).calls = s.calls := rfl
@[simp] theorem State.modifyChannel_line (s : State) (c : Fin 8) (f : Channel → Channel) : (s.modifyChannel c f).line = s.line := rfl
@[simp] theorem State.modifyChannel_seeds (s : State) (c : Fin 8) (f : Channel → Channel) : (s.modifyChannel c f).seeds = s.seeds := rfl
@[simp] theorem State.modifyChannel_seedCounter (s : State) (c : Fin 8) (f : Channel → Channel) : (s.modifyChannel c f).seedCounter = s.seedCounter := rfl
@[simp] theorem State.modifyChannel_readout (s : State) (c : Fin 8) (f : Channel → Channel) : (s.modifyChannel c f).readout = s.readout := rfl
@[simp] theorem State.modifyChannel_hold (s : State) (c : Fin 8) (f : Channel → Channel) : (s.modifyChannel c f).hold = s.hold := rfl
@[simp] theorem State.modifyChannel_link (s : State) (c : Fin 8) (f : Channel → Channel) : (s.modifyChannel c f).link = s.link := rfl
@[simp] theorem State.modifyChannel_commands (s : State) (c : Fin 8) (f : Channel → Channel) : (s.modifyChannel c f).commands = s.commands := rfl
@[simp] theorem State.modifyChannel_counters (s : State) (c : Fin 8) (f : Channel → Channel) : (s.modifyChannel c f).counters = s.counters := rfl
@[simp] theorem State.modifyChannel_hitCounts (s : State) (c : Fin 8) (f : Channel → Channel) : (s.modifyChannel c f).hitCounts = s.hitCounts := rfl
@[simp] theorem State.modifyChannel_rangeFlags (s : State) (c : Fin 8) (f : Channel → Channel) : (s.modifyChannel c f).rangeFlags = s.rangeFlags := rfl
@[simp] theorem State.modifyChannel_satFlags (s : State) (c : Fin 8) (f : Channel → Channel) : (s.modifyChannel c f).satFlags = s.satFlags := rfl
@[simp] theorem State.modifyChannel_configAdjusted (s : State) (c : Fin 8) (f : Channel → Channel) : (s.modifyChannel c f).configAdjusted = s.configAdjusted := rfl

@[simp] theorem State.mapChannels_pending (s : State) (f : Channel → Channel) : (s.mapChannels f).pending = s.pending := rfl
@[simp] theorem State.mapChannels_mode (s : State) (f : Channel → Channel) : (s.mapChannels f).mode = s.mode := rfl
@[simp] theorem State.mapChannels_now (s : State) (f : Channel → Channel) : (s.mapChannels f).now = s.now := rfl
@[simp] theorem State.mapChannels_slot (s : State) (f : Channel → Channel) : (s.mapChannels f).slot = s.slot := rfl
@[simp] theorem State.mapChannels_edgeTz (s : State) (f : Channel → Channel) : (s.mapChannels f).edgeTz = s.edgeTz := rfl
@[simp] theorem State.mapChannels_tzSeen (s : State) (f : Channel → Channel) : (s.mapChannels f).tzSeen = s.tzSeen := rfl
@[simp] theorem State.mapChannels_inReset (s : State) (f : Channel → Channel) : (s.mapChannels f).inReset = s.inReset := rfl
@[simp] theorem State.mapChannels_rstn (s : State) (f : Channel → Channel) : (s.mapChannels f).rstn = s.rstn := rfl
@[simp] theorem State.mapChannels_resetEdges (s : State) (f : Channel → Channel) : (s.mapChannels f).resetEdges = s.resetEdges := rfl
@[simp] theorem State.mapChannels_awaitsEdge (s : State) (f : Channel → Channel) : (s.mapChannels f).awaitsEdge = s.awaitsEdge := rfl
@[simp] theorem State.mapChannels_station (s : State) (f : Channel → Channel) : (s.mapChannels f).station = s.station := rfl
@[simp] theorem State.mapChannels_hEff (s : State) (f : Channel → Channel) : (s.mapChannels f).hEff = s.hEff := rfl
@[simp] theorem State.mapChannels_gMax (s : State) (f : Channel → Channel) : (s.mapChannels f).gMax = s.gMax := rfl
@[simp] theorem State.mapChannels_pool (s : State) (f : Channel → Channel) : (s.mapChannels f).pool = s.pool := rfl
@[simp] theorem State.mapChannels_hits (s : State) (f : Channel → Channel) : (s.mapChannels f).hits = s.hits := rfl
@[simp] theorem State.mapChannels_evictMark (s : State) (f : Channel → Channel) : (s.mapChannels f).evictMark = s.evictMark := rfl
@[simp] theorem State.mapChannels_calls (s : State) (f : Channel → Channel) : (s.mapChannels f).calls = s.calls := rfl
@[simp] theorem State.mapChannels_line (s : State) (f : Channel → Channel) : (s.mapChannels f).line = s.line := rfl
@[simp] theorem State.mapChannels_seeds (s : State) (f : Channel → Channel) : (s.mapChannels f).seeds = s.seeds := rfl
@[simp] theorem State.mapChannels_seedCounter (s : State) (f : Channel → Channel) : (s.mapChannels f).seedCounter = s.seedCounter := rfl
@[simp] theorem State.mapChannels_readout (s : State) (f : Channel → Channel) : (s.mapChannels f).readout = s.readout := rfl
@[simp] theorem State.mapChannels_hold (s : State) (f : Channel → Channel) : (s.mapChannels f).hold = s.hold := rfl
@[simp] theorem State.mapChannels_link (s : State) (f : Channel → Channel) : (s.mapChannels f).link = s.link := rfl
@[simp] theorem State.mapChannels_commands (s : State) (f : Channel → Channel) : (s.mapChannels f).commands = s.commands := rfl
@[simp] theorem State.mapChannels_counters (s : State) (f : Channel → Channel) : (s.mapChannels f).counters = s.counters := rfl
@[simp] theorem State.mapChannels_hitCounts (s : State) (f : Channel → Channel) : (s.mapChannels f).hitCounts = s.hitCounts := rfl
@[simp] theorem State.mapChannels_rangeFlags (s : State) (f : Channel → Channel) : (s.mapChannels f).rangeFlags = s.rangeFlags := rfl
@[simp] theorem State.mapChannels_satFlags (s : State) (f : Channel → Channel) : (s.mapChannels f).satFlags = s.satFlags := rfl
@[simp] theorem State.mapChannels_configAdjusted (s : State) (f : Channel → Channel) : (s.mapChannels f).configAdjusted = s.configAdjusted := rfl

@[simp] theorem State.recomputeHold_pending (s : State) : (s.recomputeHold).pending = s.pending := rfl
@[simp] theorem State.recomputeHold_mode (s : State) : (s.recomputeHold).mode = s.mode := rfl
@[simp] theorem State.recomputeHold_now (s : State) : (s.recomputeHold).now = s.now := rfl
@[simp] theorem State.recomputeHold_slot (s : State) : (s.recomputeHold).slot = s.slot := rfl
@[simp] theorem State.recomputeHold_edgeTz (s : State) : (s.recomputeHold).edgeTz = s.edgeTz := rfl
@[simp] theorem State.recomputeHold_tzSeen (s : State) : (s.recomputeHold).tzSeen = s.tzSeen := rfl
@[simp] theorem State.recomputeHold_inReset (s : State) : (s.recomputeHold).inReset = s.inReset := rfl
@[simp] theorem State.recomputeHold_rstn (s : State) : (s.recomputeHold).rstn = s.rstn := rfl
@[simp] theorem State.recomputeHold_resetEdges (s : State) : (s.recomputeHold).resetEdges = s.resetEdges := rfl
@[simp] theorem State.recomputeHold_awaitsEdge (s : State) : (s.recomputeHold).awaitsEdge = s.awaitsEdge := rfl
@[simp] theorem State.recomputeHold_channels (s : State) : (s.recomputeHold).channels = s.channels := rfl
@[simp] theorem State.recomputeHold_station (s : State) : (s.recomputeHold).station = s.station := rfl
@[simp] theorem State.recomputeHold_hEff (s : State) : (s.recomputeHold).hEff = s.hEff := rfl
@[simp] theorem State.recomputeHold_gMax (s : State) : (s.recomputeHold).gMax = s.gMax := rfl
@[simp] theorem State.recomputeHold_pool (s : State) : (s.recomputeHold).pool = s.pool := rfl
@[simp] theorem State.recomputeHold_hits (s : State) : (s.recomputeHold).hits = s.hits := rfl
@[simp] theorem State.recomputeHold_evictMark (s : State) : (s.recomputeHold).evictMark = s.evictMark := rfl
@[simp] theorem State.recomputeHold_calls (s : State) : (s.recomputeHold).calls = s.calls := rfl
@[simp] theorem State.recomputeHold_line (s : State) : (s.recomputeHold).line = s.line := rfl
@[simp] theorem State.recomputeHold_seeds (s : State) : (s.recomputeHold).seeds = s.seeds := rfl
@[simp] theorem State.recomputeHold_seedCounter (s : State) : (s.recomputeHold).seedCounter = s.seedCounter := rfl
@[simp] theorem State.recomputeHold_readout (s : State) : (s.recomputeHold).readout = s.readout := rfl
@[simp] theorem State.recomputeHold_link (s : State) : (s.recomputeHold).link = s.link := rfl
@[simp] theorem State.recomputeHold_commands (s : State) : (s.recomputeHold).commands = s.commands := rfl
@[simp] theorem State.recomputeHold_counters (s : State) : (s.recomputeHold).counters = s.counters := rfl
@[simp] theorem State.recomputeHold_hitCounts (s : State) : (s.recomputeHold).hitCounts = s.hitCounts := rfl
@[simp] theorem State.recomputeHold_rangeFlags (s : State) : (s.recomputeHold).rangeFlags = s.rangeFlags := rfl
@[simp] theorem State.recomputeHold_satFlags (s : State) : (s.recomputeHold).satFlags = s.satFlags := rfl
@[simp] theorem State.recomputeHold_configAdjusted (s : State) : (s.recomputeHold).configAdjusted = s.configAdjusted := rfl

@[simp] theorem State.judgeQueueHold_pending (s : State) : (s.judgeQueueHold).pending = s.pending := rfl
@[simp] theorem State.judgeQueueHold_mode (s : State) : (s.judgeQueueHold).mode = s.mode := rfl
@[simp] theorem State.judgeQueueHold_now (s : State) : (s.judgeQueueHold).now = s.now := rfl
@[simp] theorem State.judgeQueueHold_slot (s : State) : (s.judgeQueueHold).slot = s.slot := rfl
@[simp] theorem State.judgeQueueHold_edgeTz (s : State) : (s.judgeQueueHold).edgeTz = s.edgeTz := rfl
@[simp] theorem State.judgeQueueHold_tzSeen (s : State) : (s.judgeQueueHold).tzSeen = s.tzSeen := rfl
@[simp] theorem State.judgeQueueHold_inReset (s : State) : (s.judgeQueueHold).inReset = s.inReset := rfl
@[simp] theorem State.judgeQueueHold_rstn (s : State) : (s.judgeQueueHold).rstn = s.rstn := rfl
@[simp] theorem State.judgeQueueHold_resetEdges (s : State) : (s.judgeQueueHold).resetEdges = s.resetEdges := rfl
@[simp] theorem State.judgeQueueHold_awaitsEdge (s : State) : (s.judgeQueueHold).awaitsEdge = s.awaitsEdge := rfl
@[simp] theorem State.judgeQueueHold_channels (s : State) : (s.judgeQueueHold).channels = s.channels := rfl
@[simp] theorem State.judgeQueueHold_station (s : State) : (s.judgeQueueHold).station = s.station := rfl
@[simp] theorem State.judgeQueueHold_hEff (s : State) : (s.judgeQueueHold).hEff = s.hEff := rfl
@[simp] theorem State.judgeQueueHold_gMax (s : State) : (s.judgeQueueHold).gMax = s.gMax := rfl
@[simp] theorem State.judgeQueueHold_pool (s : State) : (s.judgeQueueHold).pool = s.pool := rfl
@[simp] theorem State.judgeQueueHold_hits (s : State) : (s.judgeQueueHold).hits = s.hits := rfl
@[simp] theorem State.judgeQueueHold_evictMark (s : State) : (s.judgeQueueHold).evictMark = s.evictMark := rfl
@[simp] theorem State.judgeQueueHold_calls (s : State) : (s.judgeQueueHold).calls = s.calls := rfl
@[simp] theorem State.judgeQueueHold_line (s : State) : (s.judgeQueueHold).line = s.line := rfl
@[simp] theorem State.judgeQueueHold_seeds (s : State) : (s.judgeQueueHold).seeds = s.seeds := rfl
@[simp] theorem State.judgeQueueHold_seedCounter (s : State) : (s.judgeQueueHold).seedCounter = s.seedCounter := rfl
@[simp] theorem State.judgeQueueHold_readout (s : State) : (s.judgeQueueHold).readout = s.readout := rfl
@[simp] theorem State.judgeQueueHold_link (s : State) : (s.judgeQueueHold).link = s.link := rfl
@[simp] theorem State.judgeQueueHold_commands (s : State) : (s.judgeQueueHold).commands = s.commands := rfl
@[simp] theorem State.judgeQueueHold_counters (s : State) : (s.judgeQueueHold).counters = s.counters := rfl
@[simp] theorem State.judgeQueueHold_hitCounts (s : State) : (s.judgeQueueHold).hitCounts = s.hitCounts := rfl
@[simp] theorem State.judgeQueueHold_rangeFlags (s : State) : (s.judgeQueueHold).rangeFlags = s.rangeFlags := rfl
@[simp] theorem State.judgeQueueHold_satFlags (s : State) : (s.judgeQueueHold).satFlags = s.satFlags := rfl
@[simp] theorem State.judgeQueueHold_configAdjusted (s : State) : (s.judgeQueueHold).configAdjusted = s.configAdjusted := rfl

@[simp] theorem State.judgeListHold_pending (s : State) : (s.judgeListHold).pending = s.pending := rfl
@[simp] theorem State.judgeListHold_mode (s : State) : (s.judgeListHold).mode = s.mode := rfl
@[simp] theorem State.judgeListHold_now (s : State) : (s.judgeListHold).now = s.now := rfl
@[simp] theorem State.judgeListHold_slot (s : State) : (s.judgeListHold).slot = s.slot := rfl
@[simp] theorem State.judgeListHold_edgeTz (s : State) : (s.judgeListHold).edgeTz = s.edgeTz := rfl
@[simp] theorem State.judgeListHold_tzSeen (s : State) : (s.judgeListHold).tzSeen = s.tzSeen := rfl
@[simp] theorem State.judgeListHold_inReset (s : State) : (s.judgeListHold).inReset = s.inReset := rfl
@[simp] theorem State.judgeListHold_rstn (s : State) : (s.judgeListHold).rstn = s.rstn := rfl
@[simp] theorem State.judgeListHold_resetEdges (s : State) : (s.judgeListHold).resetEdges = s.resetEdges := rfl
@[simp] theorem State.judgeListHold_awaitsEdge (s : State) : (s.judgeListHold).awaitsEdge = s.awaitsEdge := rfl
@[simp] theorem State.judgeListHold_channels (s : State) : (s.judgeListHold).channels = s.channels := rfl
@[simp] theorem State.judgeListHold_station (s : State) : (s.judgeListHold).station = s.station := rfl
@[simp] theorem State.judgeListHold_hEff (s : State) : (s.judgeListHold).hEff = s.hEff := rfl
@[simp] theorem State.judgeListHold_gMax (s : State) : (s.judgeListHold).gMax = s.gMax := rfl
@[simp] theorem State.judgeListHold_pool (s : State) : (s.judgeListHold).pool = s.pool := rfl
@[simp] theorem State.judgeListHold_hits (s : State) : (s.judgeListHold).hits = s.hits := rfl
@[simp] theorem State.judgeListHold_evictMark (s : State) : (s.judgeListHold).evictMark = s.evictMark := rfl
@[simp] theorem State.judgeListHold_calls (s : State) : (s.judgeListHold).calls = s.calls := rfl
@[simp] theorem State.judgeListHold_line (s : State) : (s.judgeListHold).line = s.line := rfl
@[simp] theorem State.judgeListHold_seeds (s : State) : (s.judgeListHold).seeds = s.seeds := rfl
@[simp] theorem State.judgeListHold_seedCounter (s : State) : (s.judgeListHold).seedCounter = s.seedCounter := rfl
@[simp] theorem State.judgeListHold_readout (s : State) : (s.judgeListHold).readout = s.readout := rfl
@[simp] theorem State.judgeListHold_link (s : State) : (s.judgeListHold).link = s.link := rfl
@[simp] theorem State.judgeListHold_commands (s : State) : (s.judgeListHold).commands = s.commands := rfl
@[simp] theorem State.judgeListHold_counters (s : State) : (s.judgeListHold).counters = s.counters := rfl
@[simp] theorem State.judgeListHold_hitCounts (s : State) : (s.judgeListHold).hitCounts = s.hitCounts := rfl
@[simp] theorem State.judgeListHold_rangeFlags (s : State) : (s.judgeListHold).rangeFlags = s.rangeFlags := rfl
@[simp] theorem State.judgeListHold_satFlags (s : State) : (s.judgeListHold).satFlags = s.satFlags := rfl
@[simp] theorem State.judgeListHold_configAdjusted (s : State) : (s.judgeListHold).configAdjusted = s.configAdjusted := rfl

@[simp] theorem State.enterMode_pending (s : State) (m : StationState) : (s.enterMode m).pending = s.pending := rfl
@[simp] theorem State.enterMode_now (s : State) (m : StationState) : (s.enterMode m).now = s.now := rfl
@[simp] theorem State.enterMode_slot (s : State) (m : StationState) : (s.enterMode m).slot = s.slot := rfl
@[simp] theorem State.enterMode_edgeTz (s : State) (m : StationState) : (s.enterMode m).edgeTz = s.edgeTz := rfl
@[simp] theorem State.enterMode_tzSeen (s : State) (m : StationState) : (s.enterMode m).tzSeen = s.tzSeen := rfl
@[simp] theorem State.enterMode_inReset (s : State) (m : StationState) : (s.enterMode m).inReset = s.inReset := rfl
@[simp] theorem State.enterMode_rstn (s : State) (m : StationState) : (s.enterMode m).rstn = s.rstn := rfl
@[simp] theorem State.enterMode_resetEdges (s : State) (m : StationState) : (s.enterMode m).resetEdges = s.resetEdges := rfl
@[simp] theorem State.enterMode_awaitsEdge (s : State) (m : StationState) : (s.enterMode m).awaitsEdge = s.awaitsEdge := rfl
@[simp] theorem State.enterMode_channels (s : State) (m : StationState) : (s.enterMode m).channels = s.channels := rfl
@[simp] theorem State.enterMode_station (s : State) (m : StationState) : (s.enterMode m).station = s.station := rfl
@[simp] theorem State.enterMode_hEff (s : State) (m : StationState) : (s.enterMode m).hEff = s.hEff := rfl
@[simp] theorem State.enterMode_gMax (s : State) (m : StationState) : (s.enterMode m).gMax = s.gMax := rfl
@[simp] theorem State.enterMode_pool (s : State) (m : StationState) : (s.enterMode m).pool = s.pool := rfl
@[simp] theorem State.enterMode_hits (s : State) (m : StationState) : (s.enterMode m).hits = s.hits := rfl
@[simp] theorem State.enterMode_evictMark (s : State) (m : StationState) : (s.enterMode m).evictMark = s.evictMark := rfl
@[simp] theorem State.enterMode_calls (s : State) (m : StationState) : (s.enterMode m).calls = s.calls := rfl
@[simp] theorem State.enterMode_line (s : State) (m : StationState) : (s.enterMode m).line = s.line := rfl
@[simp] theorem State.enterMode_seeds (s : State) (m : StationState) : (s.enterMode m).seeds = s.seeds := rfl
@[simp] theorem State.enterMode_seedCounter (s : State) (m : StationState) : (s.enterMode m).seedCounter = s.seedCounter := rfl
@[simp] theorem State.enterMode_readout (s : State) (m : StationState) : (s.enterMode m).readout = s.readout := rfl
@[simp] theorem State.enterMode_link (s : State) (m : StationState) : (s.enterMode m).link = s.link := rfl
@[simp] theorem State.enterMode_commands (s : State) (m : StationState) : (s.enterMode m).commands = s.commands := rfl
@[simp] theorem State.enterMode_counters (s : State) (m : StationState) : (s.enterMode m).counters = s.counters := rfl
@[simp] theorem State.enterMode_hitCounts (s : State) (m : StationState) : (s.enterMode m).hitCounts = s.hitCounts := rfl
@[simp] theorem State.enterMode_rangeFlags (s : State) (m : StationState) : (s.enterMode m).rangeFlags = s.rangeFlags := rfl
@[simp] theorem State.enterMode_satFlags (s : State) (m : StationState) : (s.enterMode m).satFlags = s.satFlags := rfl
@[simp] theorem State.enterMode_configAdjusted (s : State) (m : StationState) : (s.enterMode m).configAdjusted = s.configAdjusted := rfl

@[simp] theorem State.popCommand_pending (s : State) : (s.popCommand).pending = s.pending := rfl
@[simp] theorem State.popCommand_mode (s : State) : (s.popCommand).mode = s.mode := rfl
@[simp] theorem State.popCommand_now (s : State) : (s.popCommand).now = s.now := rfl
@[simp] theorem State.popCommand_slot (s : State) : (s.popCommand).slot = s.slot := rfl
@[simp] theorem State.popCommand_edgeTz (s : State) : (s.popCommand).edgeTz = s.edgeTz := rfl
@[simp] theorem State.popCommand_tzSeen (s : State) : (s.popCommand).tzSeen = s.tzSeen := rfl
@[simp] theorem State.popCommand_inReset (s : State) : (s.popCommand).inReset = s.inReset := rfl
@[simp] theorem State.popCommand_rstn (s : State) : (s.popCommand).rstn = s.rstn := rfl
@[simp] theorem State.popCommand_resetEdges (s : State) : (s.popCommand).resetEdges = s.resetEdges := rfl
@[simp] theorem State.popCommand_awaitsEdge (s : State) : (s.popCommand).awaitsEdge = s.awaitsEdge := rfl
@[simp] theorem State.popCommand_channels (s : State) : (s.popCommand).channels = s.channels := rfl
@[simp] theorem State.popCommand_station (s : State) : (s.popCommand).station = s.station := rfl
@[simp] theorem State.popCommand_hEff (s : State) : (s.popCommand).hEff = s.hEff := rfl
@[simp] theorem State.popCommand_gMax (s : State) : (s.popCommand).gMax = s.gMax := rfl
@[simp] theorem State.popCommand_pool (s : State) : (s.popCommand).pool = s.pool := rfl
@[simp] theorem State.popCommand_hits (s : State) : (s.popCommand).hits = s.hits := rfl
@[simp] theorem State.popCommand_evictMark (s : State) : (s.popCommand).evictMark = s.evictMark := rfl
@[simp] theorem State.popCommand_calls (s : State) : (s.popCommand).calls = s.calls := rfl
@[simp] theorem State.popCommand_line (s : State) : (s.popCommand).line = s.line := rfl
@[simp] theorem State.popCommand_seeds (s : State) : (s.popCommand).seeds = s.seeds := rfl
@[simp] theorem State.popCommand_seedCounter (s : State) : (s.popCommand).seedCounter = s.seedCounter := rfl
@[simp] theorem State.popCommand_readout (s : State) : (s.popCommand).readout = s.readout := rfl
@[simp] theorem State.popCommand_hold (s : State) : (s.popCommand).hold = s.hold := rfl
@[simp] theorem State.popCommand_link (s : State) : (s.popCommand).link = s.link := rfl
@[simp] theorem State.popCommand_counters (s : State) : (s.popCommand).counters = s.counters := rfl
@[simp] theorem State.popCommand_hitCounts (s : State) : (s.popCommand).hitCounts = s.hitCounts := rfl
@[simp] theorem State.popCommand_rangeFlags (s : State) : (s.popCommand).rangeFlags = s.rangeFlags := rfl
@[simp] theorem State.popCommand_satFlags (s : State) : (s.popCommand).satFlags = s.satFlags := rfl
@[simp] theorem State.popCommand_configAdjusted (s : State) : (s.popCommand).configAdjusted = s.configAdjusted := rfl

@[simp] theorem State.show_pending (s : State) (w : Word) (b : Bool) : (s.show w b).pending = s.pending := rfl
@[simp] theorem State.show_mode (s : State) (w : Word) (b : Bool) : (s.show w b).mode = s.mode := rfl
@[simp] theorem State.show_now (s : State) (w : Word) (b : Bool) : (s.show w b).now = s.now := rfl
@[simp] theorem State.show_slot (s : State) (w : Word) (b : Bool) : (s.show w b).slot = s.slot := rfl
@[simp] theorem State.show_edgeTz (s : State) (w : Word) (b : Bool) : (s.show w b).edgeTz = s.edgeTz := rfl
@[simp] theorem State.show_tzSeen (s : State) (w : Word) (b : Bool) : (s.show w b).tzSeen = s.tzSeen := rfl
@[simp] theorem State.show_inReset (s : State) (w : Word) (b : Bool) : (s.show w b).inReset = s.inReset := rfl
@[simp] theorem State.show_rstn (s : State) (w : Word) (b : Bool) : (s.show w b).rstn = s.rstn := rfl
@[simp] theorem State.show_resetEdges (s : State) (w : Word) (b : Bool) : (s.show w b).resetEdges = s.resetEdges := rfl
@[simp] theorem State.show_awaitsEdge (s : State) (w : Word) (b : Bool) : (s.show w b).awaitsEdge = s.awaitsEdge := rfl
@[simp] theorem State.show_channels (s : State) (w : Word) (b : Bool) : (s.show w b).channels = s.channels := rfl
@[simp] theorem State.show_station (s : State) (w : Word) (b : Bool) : (s.show w b).station = s.station := rfl
@[simp] theorem State.show_hEff (s : State) (w : Word) (b : Bool) : (s.show w b).hEff = s.hEff := rfl
@[simp] theorem State.show_gMax (s : State) (w : Word) (b : Bool) : (s.show w b).gMax = s.gMax := rfl
@[simp] theorem State.show_pool (s : State) (w : Word) (b : Bool) : (s.show w b).pool = s.pool := rfl
@[simp] theorem State.show_hits (s : State) (w : Word) (b : Bool) : (s.show w b).hits = s.hits := rfl
@[simp] theorem State.show_evictMark (s : State) (w : Word) (b : Bool) : (s.show w b).evictMark = s.evictMark := rfl
@[simp] theorem State.show_calls (s : State) (w : Word) (b : Bool) : (s.show w b).calls = s.calls := rfl
@[simp] theorem State.show_line (s : State) (w : Word) (b : Bool) : (s.show w b).line = s.line := rfl
@[simp] theorem State.show_seeds (s : State) (w : Word) (b : Bool) : (s.show w b).seeds = s.seeds := rfl
@[simp] theorem State.show_seedCounter (s : State) (w : Word) (b : Bool) : (s.show w b).seedCounter = s.seedCounter := rfl
@[simp] theorem State.show_readout (s : State) (w : Word) (b : Bool) : (s.show w b).readout = s.readout := rfl
@[simp] theorem State.show_hold (s : State) (w : Word) (b : Bool) : (s.show w b).hold = s.hold := rfl
@[simp] theorem State.show_commands (s : State) (w : Word) (b : Bool) : (s.show w b).commands = s.commands := rfl
@[simp] theorem State.show_counters (s : State) (w : Word) (b : Bool) : (s.show w b).counters = s.counters := rfl
@[simp] theorem State.show_hitCounts (s : State) (w : Word) (b : Bool) : (s.show w b).hitCounts = s.hitCounts := rfl
@[simp] theorem State.show_rangeFlags (s : State) (w : Word) (b : Bool) : (s.show w b).rangeFlags = s.rangeFlags := rfl
@[simp] theorem State.show_satFlags (s : State) (w : Word) (b : Bool) : (s.show w b).satFlags = s.satFlags := rfl
@[simp] theorem State.show_configAdjusted (s : State) (w : Word) (b : Bool) : (s.show w b).configAdjusted = s.configAdjusted := rfl

@[simp] theorem State.markSettled_pending (s : State) (f : Frame) : (s.markSettled f).pending = s.pending := rfl
@[simp] theorem State.markSettled_mode (s : State) (f : Frame) : (s.markSettled f).mode = s.mode := rfl
@[simp] theorem State.markSettled_now (s : State) (f : Frame) : (s.markSettled f).now = s.now := rfl
@[simp] theorem State.markSettled_slot (s : State) (f : Frame) : (s.markSettled f).slot = s.slot := rfl
@[simp] theorem State.markSettled_edgeTz (s : State) (f : Frame) : (s.markSettled f).edgeTz = s.edgeTz := rfl
@[simp] theorem State.markSettled_tzSeen (s : State) (f : Frame) : (s.markSettled f).tzSeen = s.tzSeen := rfl
@[simp] theorem State.markSettled_inReset (s : State) (f : Frame) : (s.markSettled f).inReset = s.inReset := rfl
@[simp] theorem State.markSettled_rstn (s : State) (f : Frame) : (s.markSettled f).rstn = s.rstn := rfl
@[simp] theorem State.markSettled_resetEdges (s : State) (f : Frame) : (s.markSettled f).resetEdges = s.resetEdges := rfl
@[simp] theorem State.markSettled_awaitsEdge (s : State) (f : Frame) : (s.markSettled f).awaitsEdge = s.awaitsEdge := rfl
@[simp] theorem State.markSettled_channels (s : State) (f : Frame) : (s.markSettled f).channels = s.channels := rfl
@[simp] theorem State.markSettled_station (s : State) (f : Frame) : (s.markSettled f).station = s.station := rfl
@[simp] theorem State.markSettled_hEff (s : State) (f : Frame) : (s.markSettled f).hEff = s.hEff := rfl
@[simp] theorem State.markSettled_gMax (s : State) (f : Frame) : (s.markSettled f).gMax = s.gMax := rfl
@[simp] theorem State.markSettled_pool (s : State) (f : Frame) : (s.markSettled f).pool = s.pool := rfl
@[simp] theorem State.markSettled_hits (s : State) (f : Frame) : (s.markSettled f).hits = s.hits := rfl
@[simp] theorem State.markSettled_evictMark (s : State) (f : Frame) : (s.markSettled f).evictMark = s.evictMark := rfl
@[simp] theorem State.markSettled_calls (s : State) (f : Frame) : (s.markSettled f).calls = s.calls := rfl
@[simp] theorem State.markSettled_seeds (s : State) (f : Frame) : (s.markSettled f).seeds = s.seeds := rfl
@[simp] theorem State.markSettled_seedCounter (s : State) (f : Frame) : (s.markSettled f).seedCounter = s.seedCounter := rfl
@[simp] theorem State.markSettled_readout (s : State) (f : Frame) : (s.markSettled f).readout = s.readout := rfl
@[simp] theorem State.markSettled_hold (s : State) (f : Frame) : (s.markSettled f).hold = s.hold := rfl
@[simp] theorem State.markSettled_link (s : State) (f : Frame) : (s.markSettled f).link = s.link := rfl
@[simp] theorem State.markSettled_commands (s : State) (f : Frame) : (s.markSettled f).commands = s.commands := rfl
@[simp] theorem State.markSettled_counters (s : State) (f : Frame) : (s.markSettled f).counters = s.counters := rfl
@[simp] theorem State.markSettled_hitCounts (s : State) (f : Frame) : (s.markSettled f).hitCounts = s.hitCounts := rfl
@[simp] theorem State.markSettled_rangeFlags (s : State) (f : Frame) : (s.markSettled f).rangeFlags = s.rangeFlags := rfl
@[simp] theorem State.markSettled_satFlags (s : State) (f : Frame) : (s.markSettled f).satFlags = s.satFlags := rfl
@[simp] theorem State.markSettled_configAdjusted (s : State) (f : Frame) : (s.markSettled f).configAdjusted = s.configAdjusted := rfl

@[simp] theorem State.chooseFrame_pending (s : State) : (s.chooseFrame).pending = s.pending := by unfold State.chooseFrame; (repeat' split) <;> rfl
@[simp] theorem State.chooseFrame_mode (s : State) : (s.chooseFrame).mode = s.mode := by unfold State.chooseFrame; (repeat' split) <;> rfl
@[simp] theorem State.chooseFrame_now (s : State) : (s.chooseFrame).now = s.now := by unfold State.chooseFrame; (repeat' split) <;> rfl
@[simp] theorem State.chooseFrame_slot (s : State) : (s.chooseFrame).slot = s.slot := by unfold State.chooseFrame; (repeat' split) <;> rfl
@[simp] theorem State.chooseFrame_edgeTz (s : State) : (s.chooseFrame).edgeTz = s.edgeTz := by unfold State.chooseFrame; (repeat' split) <;> rfl
@[simp] theorem State.chooseFrame_tzSeen (s : State) : (s.chooseFrame).tzSeen = s.tzSeen := by unfold State.chooseFrame; (repeat' split) <;> rfl
@[simp] theorem State.chooseFrame_inReset (s : State) : (s.chooseFrame).inReset = s.inReset := by unfold State.chooseFrame; (repeat' split) <;> rfl
@[simp] theorem State.chooseFrame_rstn (s : State) : (s.chooseFrame).rstn = s.rstn := by unfold State.chooseFrame; (repeat' split) <;> rfl
@[simp] theorem State.chooseFrame_resetEdges (s : State) : (s.chooseFrame).resetEdges = s.resetEdges := by unfold State.chooseFrame; (repeat' split) <;> rfl
@[simp] theorem State.chooseFrame_awaitsEdge (s : State) : (s.chooseFrame).awaitsEdge = s.awaitsEdge := by unfold State.chooseFrame; (repeat' split) <;> rfl
@[simp] theorem State.chooseFrame_channels (s : State) : (s.chooseFrame).channels = s.channels := by unfold State.chooseFrame; (repeat' split) <;> rfl
@[simp] theorem State.chooseFrame_station (s : State) : (s.chooseFrame).station = s.station := by unfold State.chooseFrame; (repeat' split) <;> rfl
@[simp] theorem State.chooseFrame_hEff (s : State) : (s.chooseFrame).hEff = s.hEff := by unfold State.chooseFrame; (repeat' split) <;> rfl
@[simp] theorem State.chooseFrame_gMax (s : State) : (s.chooseFrame).gMax = s.gMax := by unfold State.chooseFrame; (repeat' split) <;> rfl
@[simp] theorem State.chooseFrame_pool (s : State) : (s.chooseFrame).pool = s.pool := by unfold State.chooseFrame; (repeat' split) <;> rfl
@[simp] theorem State.chooseFrame_hits (s : State) : (s.chooseFrame).hits = s.hits := by unfold State.chooseFrame; (repeat' split) <;> rfl
@[simp] theorem State.chooseFrame_evictMark (s : State) : (s.chooseFrame).evictMark = s.evictMark := by unfold State.chooseFrame; (repeat' split) <;> rfl
@[simp] theorem State.chooseFrame_calls (s : State) : (s.chooseFrame).calls = s.calls := by unfold State.chooseFrame; (repeat' split) <;> rfl
@[simp] theorem State.chooseFrame_line (s : State) : (s.chooseFrame).line = s.line := by unfold State.chooseFrame; (repeat' split) <;> rfl
@[simp] theorem State.chooseFrame_seeds (s : State) : (s.chooseFrame).seeds = s.seeds := by unfold State.chooseFrame; (repeat' split) <;> rfl
@[simp] theorem State.chooseFrame_seedCounter (s : State) : (s.chooseFrame).seedCounter = s.seedCounter := by unfold State.chooseFrame; (repeat' split) <;> rfl
@[simp] theorem State.chooseFrame_readout (s : State) : (s.chooseFrame).readout = s.readout := by unfold State.chooseFrame; (repeat' split) <;> rfl
@[simp] theorem State.chooseFrame_hold (s : State) : (s.chooseFrame).hold = s.hold := by unfold State.chooseFrame; (repeat' split) <;> rfl
@[simp] theorem State.chooseFrame_commands (s : State) : (s.chooseFrame).commands = s.commands := by unfold State.chooseFrame; (repeat' split) <;> rfl
@[simp] theorem State.chooseFrame_counters (s : State) : (s.chooseFrame).counters = s.counters := by unfold State.chooseFrame; (repeat' split) <;> rfl
@[simp] theorem State.chooseFrame_hitCounts (s : State) : (s.chooseFrame).hitCounts = s.hitCounts := by unfold State.chooseFrame; (repeat' split) <;> rfl
@[simp] theorem State.chooseFrame_rangeFlags (s : State) : (s.chooseFrame).rangeFlags = s.rangeFlags := by unfold State.chooseFrame; (repeat' split) <;> rfl
@[simp] theorem State.chooseFrame_satFlags (s : State) : (s.chooseFrame).satFlags = s.satFlags := by unfold State.chooseFrame; (repeat' split) <;> rfl
@[simp] theorem State.chooseFrame_configAdjusted (s : State) : (s.chooseFrame).configAdjusted = s.configAdjusted := by unfold State.chooseFrame; (repeat' split) <;> rfl

@[simp] theorem State.respond_pending (s : State) (r : List Word) : (s.respond r).pending = s.pending := by simp [State.respond]
@[simp] theorem State.respond_mode (s : State) (r : List Word) : (s.respond r).mode = s.mode := by simp [State.respond]
@[simp] theorem State.respond_now (s : State) (r : List Word) : (s.respond r).now = s.now := by simp [State.respond]
@[simp] theorem State.respond_slot (s : State) (r : List Word) : (s.respond r).slot = s.slot := by simp [State.respond]
@[simp] theorem State.respond_edgeTz (s : State) (r : List Word) : (s.respond r).edgeTz = s.edgeTz := by simp [State.respond]
@[simp] theorem State.respond_tzSeen (s : State) (r : List Word) : (s.respond r).tzSeen = s.tzSeen := by simp [State.respond]
@[simp] theorem State.respond_inReset (s : State) (r : List Word) : (s.respond r).inReset = s.inReset := by simp [State.respond]
@[simp] theorem State.respond_rstn (s : State) (r : List Word) : (s.respond r).rstn = s.rstn := by simp [State.respond]
@[simp] theorem State.respond_resetEdges (s : State) (r : List Word) : (s.respond r).resetEdges = s.resetEdges := by simp [State.respond]
@[simp] theorem State.respond_awaitsEdge (s : State) (r : List Word) : (s.respond r).awaitsEdge = s.awaitsEdge := by simp [State.respond]
@[simp] theorem State.respond_channels (s : State) (r : List Word) : (s.respond r).channels = s.channels := by simp [State.respond]
@[simp] theorem State.respond_station (s : State) (r : List Word) : (s.respond r).station = s.station := by simp [State.respond]
@[simp] theorem State.respond_hEff (s : State) (r : List Word) : (s.respond r).hEff = s.hEff := by simp [State.respond]
@[simp] theorem State.respond_gMax (s : State) (r : List Word) : (s.respond r).gMax = s.gMax := by simp [State.respond]
@[simp] theorem State.respond_pool (s : State) (r : List Word) : (s.respond r).pool = s.pool := by simp [State.respond]
@[simp] theorem State.respond_hits (s : State) (r : List Word) : (s.respond r).hits = s.hits := by simp [State.respond]
@[simp] theorem State.respond_evictMark (s : State) (r : List Word) : (s.respond r).evictMark = s.evictMark := by simp [State.respond]
@[simp] theorem State.respond_calls (s : State) (r : List Word) : (s.respond r).calls = s.calls := by simp [State.respond]
@[simp] theorem State.respond_line (s : State) (r : List Word) : (s.respond r).line = s.line := by simp [State.respond]
@[simp] theorem State.respond_seeds (s : State) (r : List Word) : (s.respond r).seeds = s.seeds := by simp [State.respond]
@[simp] theorem State.respond_seedCounter (s : State) (r : List Word) : (s.respond r).seedCounter = s.seedCounter := by simp [State.respond]
@[simp] theorem State.respond_readout (s : State) (r : List Word) : (s.respond r).readout = s.readout := by simp [State.respond]
@[simp] theorem State.respond_hold (s : State) (r : List Word) : (s.respond r).hold = s.hold := by simp [State.respond]
@[simp] theorem State.respond_commands (s : State) (r : List Word) : (s.respond r).commands = s.commands := by simp [State.respond]
@[simp] theorem State.respond_counters (s : State) (r : List Word) : (s.respond r).counters = s.counters := by simp [State.respond]
@[simp] theorem State.respond_hitCounts (s : State) (r : List Word) : (s.respond r).hitCounts = s.hitCounts := by simp [State.respond]
@[simp] theorem State.respond_rangeFlags (s : State) (r : List Word) : (s.respond r).rangeFlags = s.rangeFlags := by simp [State.respond]
@[simp] theorem State.respond_satFlags (s : State) (r : List Word) : (s.respond r).satFlags = s.satFlags := by simp [State.respond]
@[simp] theorem State.respond_configAdjusted (s : State) (r : List Word) : (s.respond r).configAdjusted = s.configAdjusted := by simp [State.respond]

@[simp] theorem State.endFrame_pending (s : State) : (s.endFrame).pending = s.pending := by simp [State.endFrame]
@[simp] theorem State.endFrame_mode (s : State) : (s.endFrame).mode = s.mode := by simp [State.endFrame]
@[simp] theorem State.endFrame_now (s : State) : (s.endFrame).now = s.now := by simp [State.endFrame]
@[simp] theorem State.endFrame_slot (s : State) : (s.endFrame).slot = s.slot := by simp [State.endFrame]
@[simp] theorem State.endFrame_edgeTz (s : State) : (s.endFrame).edgeTz = s.edgeTz := by simp [State.endFrame]
@[simp] theorem State.endFrame_tzSeen (s : State) : (s.endFrame).tzSeen = s.tzSeen := by simp [State.endFrame]
@[simp] theorem State.endFrame_inReset (s : State) : (s.endFrame).inReset = s.inReset := by simp [State.endFrame]
@[simp] theorem State.endFrame_rstn (s : State) : (s.endFrame).rstn = s.rstn := by simp [State.endFrame]
@[simp] theorem State.endFrame_resetEdges (s : State) : (s.endFrame).resetEdges = s.resetEdges := by simp [State.endFrame]
@[simp] theorem State.endFrame_awaitsEdge (s : State) : (s.endFrame).awaitsEdge = s.awaitsEdge := by simp [State.endFrame]
@[simp] theorem State.endFrame_channels (s : State) : (s.endFrame).channels = s.channels := by simp [State.endFrame]
@[simp] theorem State.endFrame_station (s : State) : (s.endFrame).station = s.station := by simp [State.endFrame]
@[simp] theorem State.endFrame_hEff (s : State) : (s.endFrame).hEff = s.hEff := by simp [State.endFrame]
@[simp] theorem State.endFrame_gMax (s : State) : (s.endFrame).gMax = s.gMax := by simp [State.endFrame]
@[simp] theorem State.endFrame_pool (s : State) : (s.endFrame).pool = s.pool := by simp [State.endFrame]
@[simp] theorem State.endFrame_hits (s : State) : (s.endFrame).hits = s.hits := by simp [State.endFrame]
@[simp] theorem State.endFrame_evictMark (s : State) : (s.endFrame).evictMark = s.evictMark := by simp [State.endFrame]
@[simp] theorem State.endFrame_calls (s : State) : (s.endFrame).calls = s.calls := by simp [State.endFrame]
@[simp] theorem State.endFrame_line (s : State) : (s.endFrame).line = s.line := by simp [State.endFrame]
@[simp] theorem State.endFrame_seeds (s : State) : (s.endFrame).seeds = s.seeds := by simp [State.endFrame]
@[simp] theorem State.endFrame_seedCounter (s : State) : (s.endFrame).seedCounter = s.seedCounter := by simp [State.endFrame]
@[simp] theorem State.endFrame_readout (s : State) : (s.endFrame).readout = s.readout := by simp [State.endFrame]
@[simp] theorem State.endFrame_hold (s : State) : (s.endFrame).hold = s.hold := by simp [State.endFrame]
@[simp] theorem State.endFrame_commands (s : State) : (s.endFrame).commands = s.commands := by simp [State.endFrame]
@[simp] theorem State.endFrame_counters (s : State) : (s.endFrame).counters = s.counters := by simp [State.endFrame]
@[simp] theorem State.endFrame_hitCounts (s : State) : (s.endFrame).hitCounts = s.hitCounts := by simp [State.endFrame]
@[simp] theorem State.endFrame_rangeFlags (s : State) : (s.endFrame).rangeFlags = s.rangeFlags := by simp [State.endFrame]
@[simp] theorem State.endFrame_satFlags (s : State) : (s.endFrame).satFlags = s.satFlags := by simp [State.endFrame]
@[simp] theorem State.endFrame_configAdjusted (s : State) : (s.endFrame).configAdjusted = s.configAdjusted := by simp [State.endFrame]

@[simp] theorem State.lapseOnLine_pending (s : State) : (s.lapseOnLine).pending = s.pending := rfl
@[simp] theorem State.lapseOnLine_mode (s : State) : (s.lapseOnLine).mode = s.mode := rfl
@[simp] theorem State.lapseOnLine_now (s : State) : (s.lapseOnLine).now = s.now := rfl
@[simp] theorem State.lapseOnLine_slot (s : State) : (s.lapseOnLine).slot = s.slot := rfl
@[simp] theorem State.lapseOnLine_edgeTz (s : State) : (s.lapseOnLine).edgeTz = s.edgeTz := rfl
@[simp] theorem State.lapseOnLine_tzSeen (s : State) : (s.lapseOnLine).tzSeen = s.tzSeen := rfl
@[simp] theorem State.lapseOnLine_inReset (s : State) : (s.lapseOnLine).inReset = s.inReset := rfl
@[simp] theorem State.lapseOnLine_rstn (s : State) : (s.lapseOnLine).rstn = s.rstn := rfl
@[simp] theorem State.lapseOnLine_resetEdges (s : State) : (s.lapseOnLine).resetEdges = s.resetEdges := rfl
@[simp] theorem State.lapseOnLine_awaitsEdge (s : State) : (s.lapseOnLine).awaitsEdge = s.awaitsEdge := rfl
@[simp] theorem State.lapseOnLine_channels (s : State) : (s.lapseOnLine).channels = s.channels := rfl
@[simp] theorem State.lapseOnLine_station (s : State) : (s.lapseOnLine).station = s.station := rfl
@[simp] theorem State.lapseOnLine_hEff (s : State) : (s.lapseOnLine).hEff = s.hEff := rfl
@[simp] theorem State.lapseOnLine_gMax (s : State) : (s.lapseOnLine).gMax = s.gMax := rfl
@[simp] theorem State.lapseOnLine_pool (s : State) : (s.lapseOnLine).pool = s.pool := rfl
@[simp] theorem State.lapseOnLine_hits (s : State) : (s.lapseOnLine).hits = s.hits := rfl
@[simp] theorem State.lapseOnLine_evictMark (s : State) : (s.lapseOnLine).evictMark = s.evictMark := rfl
@[simp] theorem State.lapseOnLine_line (s : State) : (s.lapseOnLine).line = s.line := rfl
@[simp] theorem State.lapseOnLine_seeds (s : State) : (s.lapseOnLine).seeds = s.seeds := rfl
@[simp] theorem State.lapseOnLine_seedCounter (s : State) : (s.lapseOnLine).seedCounter = s.seedCounter := rfl
@[simp] theorem State.lapseOnLine_readout (s : State) : (s.lapseOnLine).readout = s.readout := rfl
@[simp] theorem State.lapseOnLine_hold (s : State) : (s.lapseOnLine).hold = s.hold := rfl
@[simp] theorem State.lapseOnLine_link (s : State) : (s.lapseOnLine).link = s.link := rfl
@[simp] theorem State.lapseOnLine_commands (s : State) : (s.lapseOnLine).commands = s.commands := rfl
@[simp] theorem State.lapseOnLine_hitCounts (s : State) : (s.lapseOnLine).hitCounts = s.hitCounts := rfl
@[simp] theorem State.lapseOnLine_rangeFlags (s : State) : (s.lapseOnLine).rangeFlags = s.rangeFlags := rfl
@[simp] theorem State.lapseOnLine_satFlags (s : State) : (s.lapseOnLine).satFlags = s.satFlags := rfl
@[simp] theorem State.lapseOnLine_configAdjusted (s : State) : (s.lapseOnLine).configAdjusted = s.configAdjusted := rfl

@[simp] theorem State.returnCall_pending (s : State) : (s.returnCall).pending = s.pending := by unfold State.returnCall; split <;> rfl
@[simp] theorem State.returnCall_mode (s : State) : (s.returnCall).mode = s.mode := by unfold State.returnCall; split <;> rfl
@[simp] theorem State.returnCall_now (s : State) : (s.returnCall).now = s.now := by unfold State.returnCall; split <;> rfl
@[simp] theorem State.returnCall_slot (s : State) : (s.returnCall).slot = s.slot := by unfold State.returnCall; split <;> rfl
@[simp] theorem State.returnCall_edgeTz (s : State) : (s.returnCall).edgeTz = s.edgeTz := by unfold State.returnCall; split <;> rfl
@[simp] theorem State.returnCall_tzSeen (s : State) : (s.returnCall).tzSeen = s.tzSeen := by unfold State.returnCall; split <;> rfl
@[simp] theorem State.returnCall_inReset (s : State) : (s.returnCall).inReset = s.inReset := by unfold State.returnCall; split <;> rfl
@[simp] theorem State.returnCall_rstn (s : State) : (s.returnCall).rstn = s.rstn := by unfold State.returnCall; split <;> rfl
@[simp] theorem State.returnCall_resetEdges (s : State) : (s.returnCall).resetEdges = s.resetEdges := by unfold State.returnCall; split <;> rfl
@[simp] theorem State.returnCall_awaitsEdge (s : State) : (s.returnCall).awaitsEdge = s.awaitsEdge := by unfold State.returnCall; split <;> rfl
@[simp] theorem State.returnCall_channels (s : State) : (s.returnCall).channels = s.channels := by unfold State.returnCall; split <;> rfl
@[simp] theorem State.returnCall_station (s : State) : (s.returnCall).station = s.station := by unfold State.returnCall; split <;> rfl
@[simp] theorem State.returnCall_hEff (s : State) : (s.returnCall).hEff = s.hEff := by unfold State.returnCall; split <;> rfl
@[simp] theorem State.returnCall_gMax (s : State) : (s.returnCall).gMax = s.gMax := by unfold State.returnCall; split <;> rfl
@[simp] theorem State.returnCall_pool (s : State) : (s.returnCall).pool = s.pool := by unfold State.returnCall; split <;> rfl
@[simp] theorem State.returnCall_hits (s : State) : (s.returnCall).hits = s.hits := by unfold State.returnCall; split <;> rfl
@[simp] theorem State.returnCall_evictMark (s : State) : (s.returnCall).evictMark = s.evictMark := by unfold State.returnCall; split <;> rfl
@[simp] theorem State.returnCall_line (s : State) : (s.returnCall).line = s.line := by unfold State.returnCall; split <;> rfl
@[simp] theorem State.returnCall_seeds (s : State) : (s.returnCall).seeds = s.seeds := by unfold State.returnCall; split <;> rfl
@[simp] theorem State.returnCall_seedCounter (s : State) : (s.returnCall).seedCounter = s.seedCounter := by unfold State.returnCall; split <;> rfl
@[simp] theorem State.returnCall_readout (s : State) : (s.returnCall).readout = s.readout := by unfold State.returnCall; split <;> rfl
@[simp] theorem State.returnCall_hold (s : State) : (s.returnCall).hold = s.hold := by unfold State.returnCall; split <;> rfl
@[simp] theorem State.returnCall_link (s : State) : (s.returnCall).link = s.link := by unfold State.returnCall; split <;> rfl
@[simp] theorem State.returnCall_commands (s : State) : (s.returnCall).commands = s.commands := by unfold State.returnCall; split <;> rfl
@[simp] theorem State.returnCall_hitCounts (s : State) : (s.returnCall).hitCounts = s.hitCounts := by unfold State.returnCall; split <;> rfl
@[simp] theorem State.returnCall_rangeFlags (s : State) : (s.returnCall).rangeFlags = s.rangeFlags := by unfold State.returnCall; split <;> rfl
@[simp] theorem State.returnCall_satFlags (s : State) : (s.returnCall).satFlags = s.satFlags := by unfold State.returnCall; split <;> rfl
@[simp] theorem State.returnCall_configAdjusted (s : State) : (s.returnCall).configAdjusted = s.configAdjusted := by unfold State.returnCall; split <;> rfl

@[simp] theorem State.discardCall_pending (s : State) : (s.discardCall).pending = s.pending := by unfold State.discardCall; split <;> rfl
@[simp] theorem State.discardCall_mode (s : State) : (s.discardCall).mode = s.mode := by unfold State.discardCall; split <;> rfl
@[simp] theorem State.discardCall_now (s : State) : (s.discardCall).now = s.now := by unfold State.discardCall; split <;> rfl
@[simp] theorem State.discardCall_slot (s : State) : (s.discardCall).slot = s.slot := by unfold State.discardCall; split <;> rfl
@[simp] theorem State.discardCall_edgeTz (s : State) : (s.discardCall).edgeTz = s.edgeTz := by unfold State.discardCall; split <;> rfl
@[simp] theorem State.discardCall_tzSeen (s : State) : (s.discardCall).tzSeen = s.tzSeen := by unfold State.discardCall; split <;> rfl
@[simp] theorem State.discardCall_inReset (s : State) : (s.discardCall).inReset = s.inReset := by unfold State.discardCall; split <;> rfl
@[simp] theorem State.discardCall_rstn (s : State) : (s.discardCall).rstn = s.rstn := by unfold State.discardCall; split <;> rfl
@[simp] theorem State.discardCall_resetEdges (s : State) : (s.discardCall).resetEdges = s.resetEdges := by unfold State.discardCall; split <;> rfl
@[simp] theorem State.discardCall_awaitsEdge (s : State) : (s.discardCall).awaitsEdge = s.awaitsEdge := by unfold State.discardCall; split <;> rfl
@[simp] theorem State.discardCall_channels (s : State) : (s.discardCall).channels = s.channels := by unfold State.discardCall; split <;> rfl
@[simp] theorem State.discardCall_station (s : State) : (s.discardCall).station = s.station := by unfold State.discardCall; split <;> rfl
@[simp] theorem State.discardCall_hEff (s : State) : (s.discardCall).hEff = s.hEff := by unfold State.discardCall; split <;> rfl
@[simp] theorem State.discardCall_gMax (s : State) : (s.discardCall).gMax = s.gMax := by unfold State.discardCall; split <;> rfl
@[simp] theorem State.discardCall_pool (s : State) : (s.discardCall).pool = s.pool := by unfold State.discardCall; split <;> rfl
@[simp] theorem State.discardCall_hits (s : State) : (s.discardCall).hits = s.hits := by unfold State.discardCall; split <;> rfl
@[simp] theorem State.discardCall_evictMark (s : State) : (s.discardCall).evictMark = s.evictMark := by unfold State.discardCall; split <;> rfl
@[simp] theorem State.discardCall_line (s : State) : (s.discardCall).line = s.line := by unfold State.discardCall; split <;> rfl
@[simp] theorem State.discardCall_seeds (s : State) : (s.discardCall).seeds = s.seeds := by unfold State.discardCall; split <;> rfl
@[simp] theorem State.discardCall_seedCounter (s : State) : (s.discardCall).seedCounter = s.seedCounter := by unfold State.discardCall; split <;> rfl
@[simp] theorem State.discardCall_readout (s : State) : (s.discardCall).readout = s.readout := by unfold State.discardCall; split <;> rfl
@[simp] theorem State.discardCall_hold (s : State) : (s.discardCall).hold = s.hold := by unfold State.discardCall; split <;> rfl
@[simp] theorem State.discardCall_link (s : State) : (s.discardCall).link = s.link := by unfold State.discardCall; split <;> rfl
@[simp] theorem State.discardCall_commands (s : State) : (s.discardCall).commands = s.commands := by unfold State.discardCall; split <;> rfl
@[simp] theorem State.discardCall_hitCounts (s : State) : (s.discardCall).hitCounts = s.hitCounts := by unfold State.discardCall; split <;> rfl
@[simp] theorem State.discardCall_rangeFlags (s : State) : (s.discardCall).rangeFlags = s.rangeFlags := by unfold State.discardCall; split <;> rfl
@[simp] theorem State.discardCall_satFlags (s : State) : (s.discardCall).satFlags = s.satFlags := by unfold State.discardCall; split <;> rfl
@[simp] theorem State.discardCall_configAdjusted (s : State) : (s.discardCall).configAdjusted = s.configAdjusted := by unfold State.discardCall; split <;> rfl

/-! ### What the updates set -/

@[simp] theorem State.enterMode_mode (s : State) (m : StationState) : (s.enterMode m).mode = m := rfl

theorem State.modifyChannel_get (s : State) (c : Fin 8) (f : Channel → Channel) :
    (s.modifyChannel c f).channels[c] = f s.channels[c] := by
  simp [State.modifyChannel]

/-- `modifyChannel_get` as simp reads an index. -/
@[simp] theorem State.modifyChannel_getElem (s : State) (c : Fin 8) (f : Channel → Channel) :
    (s.modifyChannel c f).channels[(c : Nat)] = f s.channels[(c : Nat)] := by
  simp [State.modifyChannel]

theorem State.modifyChannel_get_ne (s : State) {c d : Fin 8} (f : Channel → Channel) (h : d ≠ c) :
    (s.modifyChannel c f).channels[d] = s.channels[d] := by
  have : c.val ≠ d.val := fun e => h (Fin.ext e.symm)
  simp [State.modifyChannel, this]

theorem State.mapChannels_get (s : State) (c : Fin 8) (f : Channel → Channel) :
    (s.mapChannels f).channels[c] = f s.channels[c] := by
  simp [State.mapChannels]

/-- `mapChannels_get` as simp reads an index. -/
@[simp] theorem State.mapChannels_getElem (s : State) (c : Fin 8) (f : Channel → Channel) :
    (s.mapChannels f).channels[(c : Nat)] = f s.channels[(c : Nat)] := by
  simp [State.mapChannels]

@[simp] theorem State.recomputeHold_notRun (s : State) : s.recomputeHold.hold.notRun = s.hold.notRun := rfl

@[simp] theorem State.recomputeHold_queueHold (s : State) :
    s.recomputeHold.hold.queueHold = s.hold.queueHold := rfl

@[simp] theorem State.recomputeHold_listHold (s : State) :
    s.recomputeHold.hold.listHold = s.hold.listHold := rfl

@[simp] theorem State.recomputeHold_drive (s : State) :
    s.recomputeHold.hold.drive =
      (s.inReset || s.hold.notRun || s.hold.queueHold || s.hold.listHold) := rfl

@[simp] theorem Channel.ctx_setCtx (k : Channel) (n : ContextName) (x : Option OpenContext) :
    (k.setCtx n x).ctx n = x := by cases n <;> rfl

@[simp] theorem Channel.setCtx_items (k : Channel) (n : ContextName) (x : Option OpenContext) :
    (k.setCtx n x).items = k.items := by cases n <;> rfl

@[simp] theorem Channel.setCtx_trackHi (k : Channel) (n : ContextName) (x : Option OpenContext) :
    (k.setCtx n x).trackHi = k.trackHi := by cases n <;> rfl

@[simp] theorem Channel.setCtx_trackLo (k : Channel) (n : ContextName) (x : Option OpenContext) :
    (k.setCtx n x).trackLo = k.trackLo := by cases n <;> rfl

@[simp] theorem Channel.setCtx_ring (k : Channel) (n : ContextName) (x : Option OpenContext) :
    (k.setCtx n x).ring = k.ring := by cases n <;> rfl

@[simp] theorem Channel.setCtx_disc (k : Channel) (n : ContextName) (x : Option OpenContext) :
    (k.setCtx n x).disc = k.disc := by cases n <;> rfl

end Sys2Proof.Machine
end

