-- ==== Sys2Proof/Laws/Counters.lean ====
section
/-! SUPPORT. What counting does: the counted counter, the others, and the range (R173). -/

namespace Sys2Proof.Machine

theorem counterIndex_injective {j k : Counter} (h : counterIndex j = counterIndex k) : j = k := by
  cases j <;> cases k <;> first | rfl | exact absurd h (by decide)

theorem satAdd_le (x n : Nat) : satAdd x n ≤ Config.counterMax := Nat.min_le_right _ _

theorem satAdd_zero {x : Nat} (h : x ≤ Config.counterMax) : satAdd x 0 = x := by
  simp [satAdd, h]

/-- A counter read after counting: the counted one has risen, saturating, and the others stand. -/
theorem State.count_counter (s : State) (j k : Counter) (n : Nat) :
    (s.count k n).counter j = if j = k then satAdd (s.counter k) n else s.counter j := by
  by_cases h : j = k
  · subst h; simp [State.counter, State.count]
  · have hne : (counterIndex k).val ≠ (counterIndex j).val :=
      fun e => h (counterIndex_injective (Fin.ext e.symm))
    simp [State.counter, State.count, h, hne]

@[simp] theorem State.count_counter_self (s : State) (k : Counter) (n : Nat) :
    (s.count k n).counter k = satAdd (s.counter k) n := by simp [State.count_counter]

@[simp] theorem State.count_counter_ne (s : State) {j k : Counter} (h : j ≠ k) (n : Nat) :
    (s.count k n).counter j = s.counter j := by simp [State.count_counter, h]

/-- Counting is what the statements call counting. -/
theorem State.counted_count (s : State) (k : Counter) (n : Nat) : s.counted (s.count k n) k n :=
  ⟨s.count_counter_self k n, fun _ h => s.count_counter_ne h n⟩

/-- Two states with the same counters read the same. -/
theorem State.counter_congr {s t : State} (h : t.counters = s.counters) (k : Counter) :
    t.counter k = s.counter k := by simp [State.counter, h]

/-- Counting no event changes nothing, in range. -/
theorem State.count_zero (s : State) (k : Counter) (h : s.counter k ≤ Config.counterMax) :
    s.count k 0 = s := by
  have hs : s.counters.set (counterIndex k) (satAdd (s.counter k) 0) = s.counters := by
    rw [satAdd_zero h]
    ext i hi
    simp only [State.counter, Fin.getElem_fin]
    by_cases e : (counterIndex k).val = i <;> simp [e]
  simp [State.count, hs]

end Sys2Proof.Machine
end

