-- ==== Sys2Proof/Laws/Pulse.lean ====
section
/-! SUPPORT. What the operations of the Pulse Processor do: feeding contexts, opening, merging, and the
frame of each (spec 02). -/

namespace Sys2Proof.Machine

/-! ### Channels of a changed state -/

theorem State.modifyChannel_channels (s : State) (c d : Fin 8) (f : Channel → Channel) :
    (s.modifyChannel c f).channels[d] = if d = c then f s.channels[c] else s.channels[d] := by
  split
  · rename_i h; subst h; exact s.modifyChannel_get d f
  · rename_i h; exact s.modifyChannel_get_ne f h

/-- Two channel vectors are equal when they agree at each of the eight channels. -/
theorem channels_ext {u v : Vector Channel 8} (h : ∀ d : Fin 8, u[d] = v[d]) : u = v := by
  ext i hi
  exact h ⟨i, hi⟩

/-! ### Contexts of a channel -/

@[simp] theorem otherContext_ne (n : ContextName) : otherContext n ≠ n := by cases n <;> decide

theorem ne_otherContext {n m : ContextName} (h : m ≠ n) : m = otherContext n := by
  cases n <;> cases m <;> first | rfl | exact absurd rfl h

theorem Channel.ctx_setCtx_ne (k : Channel) {n m : ContextName} (x : Option OpenContext) (h : m ≠ n) :
    (k.setCtx n x).ctx m = k.ctx m := by
  cases n <;> cases m <;> first | rfl | exact absurd rfl h

theorem Channel.setCtx_ctx (k : Channel) (n : ContextName) : k.setCtx n (k.ctx n) = k := by
  cases n <;> rfl

theorem Channel.setCtx_setCtx (k : Channel) (n : ContextName) (x y : Option OpenContext) :
    (k.setCtx n x).setCtx n y = k.setCtx n y := by cases n <;> rfl

@[simp] theorem Channel.ringAt_setCtx (k : Channel) (n : ContextName) (x : Option OpenContext)
    (t : SampleTime) : (k.setCtx n x).ringAt t = k.ringAt t := by cases n <;> rfl

@[simp] theorem Channel.ringAt_withDisc (k : Channel) (d : Discriminator) (t : SampleTime) :
    Channel.ringAt { k with disc := d } t = k.ringAt t := rfl

/-- A read of the ring after a write: the entry written, or another (R7, R8). -/
theorem Channel.ringAt_writeRing (k : Channel) (t τ : SampleTime) (y : Sample) :
    (k.writeRing t y).ringAt τ = if τ.toNat % 16 = t.toNat % 16 then y else k.ringAt τ := by
  simp only [Channel.ringAt, Channel.writeRing, Fin.getElem_fin]
  rw [Vector.getElem_set]
  by_cases h : τ.toNat % 16 = t.toNat % 16
  · simp [h]
  · simp [h, Ne.symm h]

/-! ### Slots -/

@[simp] theorem feedSlot_none (pool : Vector Slot 32) (u : Int) : feedSlot pool none u = pool := rfl

theorem writeSlot_get_ne (pool : Vector Slot 32) {i j : Fin 32} (u : Int) (h : j ≠ i) :
    (writeSlot pool i u)[j] = pool[j] := by
  have hv : i.val ≠ j.val := fun e => h (Fin.ext e.symm)
  unfold writeSlot
  split
  · split
    · simp [hv]
    · rfl
  · rfl

/-- A sample written into a slot: a lent slot stays lent, within its 32 samples (R29, R38). -/
theorem writeSlot_get (pool : Vector Slot 32) (i : Fin 32) (u : Int) :
    (writeSlot pool i u)[i] =
      match pool[i] with
      | .lent xs => .lent (if xs.length < Config.slotDepth then xs ++ [u] else xs)
      | x => x := by
  unfold writeSlot
  cases h : pool[i] with
  | lent xs =>
    by_cases hl : xs.length < Config.slotDepth
    · simp [hl]
    · simp only [hl, if_false]; exact h
  | _ => exact h

theorem feedSlot_get_ne (pool : Vector Slot 32) {slot : Option (Fin 32)} {j : Fin 32} (u : Int)
    (h : slot ≠ some j) : (feedSlot pool slot u)[j] = pool[j] := by
  cases slot with
  | none => rfl
  | some i => exact writeSlot_get_ne pool u fun e => h (by rw [e])

/-- The lowest FREE slot, as found (R36). -/
theorem lowestFree_some {pool : Vector Slot 32} {i : Fin 32} (h : lowestFree pool = some i) :
    pool[i] = .free ∧ ∀ j : Fin 32, j < i → pool[j] ≠ .free := by
  unfold lowestFree at h
  obtain ⟨hp, l, r, hl, hn⟩ := List.find?_eq_some_iff_append.mp h
  refine ⟨by simpa using hp, fun j hj hf => ?_⟩
  have hmem : j ∈ l := by
    have hsorted : (l ++ i :: r).Pairwise (· < ·) := hl ▸ List.pairwise_lt_finRange 32
    have hj2 : j ∈ l ++ i :: r := hl ▸ List.mem_finRange j
    rcases List.mem_append.mp hj2 with h1 | h1
    · exact h1
    · have h2 := (List.pairwise_append.mp hsorted).2.1
      rcases List.mem_cons.mp h1 with h3 | h3
      · exact absurd (h3 ▸ hj) (lt_irrefl _)
      · exact absurd hj (lt_asymm ((List.pairwise_cons.mp h2).1 j h3))
  have := hn j hmem
  simp [hf] at this

theorem lowestFree_none {pool : Vector Slot 32} (h : lowestFree pool = none) (i : Fin 32) :
    pool[i] ≠ .free := by
  have := List.find?_eq_none.mp h i (List.mem_finRange i)
  simpa using this

/-! ### Feeding a context -/

/-- The identity of an OPEN context: all that taking samples leaves unchanged (R25, R29). -/
def OpenContext.sameRecord (x y : OpenContext) : Prop :=
  y = { x with
    taken := y.taken
    accumulator := y.accumulator
    peak := y.peak
    peakOffset := y.peakOffset
    lowGain := y.lowGain
    saturated := y.saturated }

theorem OpenContext.take_sameRecord (x : OpenContext) (t : SampleTime) (y : Sample) :
    x.sameRecord (x.take t y) := rfl

theorem OpenContext.sameRecord_refl (x : OpenContext) : x.sameRecord x := rfl

theorem OpenContext.sameRecord_trans {x y z : OpenContext} (h : x.sameRecord y) (k : y.sameRecord z) :
    x.sameRecord z := by
  unfold OpenContext.sameRecord at *
  rw [k, h]

/-- Taking a sample touches the channels and the pool alone. -/
theorem State.takeSample_frame (s : State) (c : Fin 8) (n : ContextName) (t : SampleTime) (y : Sample) :
    s.takeSample c n t y =
      { s with channels := (s.takeSample c n t y).channels, pool := (s.takeSample c n t y).pool } := by
  unfold State.takeSample
  split <;> rfl

/-- What taking a sample does to the channels (R29). -/
theorem State.takeSample_channels (s : State) (c d : Fin 8) (n : ContextName) (t : SampleTime)
    (y : Sample) :
    (s.takeSample c n t y).channels[d] =
      if d = c then s.channels[c].setCtx n ((s.channels[c].ctx n).map fun x => x.take t y)
      else s.channels[d] := by
  unfold State.takeSample
  split
  · rename_i h
    split
    · rename_i e; subst e; rw [h]
      show s.channels[d] = s.channels[d].setCtx n none
      rw [← h, Channel.setCtx_ctx]
    · rfl
  · rename_i x h
    show (s.modifyChannel c fun k => k.setCtx n (some (x.take t y))).channels[d] = _
    rw [State.modifyChannel_channels, h]; rfl

/-- What taking a sample does to the pool (R29, R38). -/
theorem State.takeSample_pool (s : State) (c : Fin 8) (n : ContextName) (t : SampleTime) (y : Sample) :
    (s.takeSample c n t y).pool =
      match s.channels[c].ctx n with
      | none => s.pool
      | some x => feedSlot s.pool x.slot y.u := by
  unfold State.takeSample
  split <;> simp_all

/-- The samples of the ring that the context takes at its opening, one after another: what becomes of a
context, sample by sample (R28, R29). -/
def OpenContext.takeRing (k : Channel) (first : SampleTime) (x : OpenContext) (is : List Nat) :
    OpenContext :=
  is.foldl (fun z i => z.take (first + BitVec.ofNat 28 i) (k.ringAt (first + BitVec.ofNat 28 i))) x

theorem OpenContext.takeRing_sameRecord (k : Channel) (first : SampleTime) (is : List Nat) :
    ∀ x : OpenContext, x.sameRecord (x.takeRing k first is) := by
  induction is with
  | nil => exact fun x => x.sameRecord_refl
  | cons i is ih => exact fun x => OpenContext.sameRecord_trans (x.take_sameRecord _ _) (ih _)

theorem takeRingFold (k : Channel) (c : Fin 8) (n : ContextName) (first : SampleTime) (is : List Nat) :
    ∀ (s : State) (x : OpenContext), s.channels[c].ring = k.ring → s.channels[c].ctx n = some x →
      let r := is.foldl (fun s' i => s'.takeSample c n (first + BitVec.ofNat 28 i)
        (s'.channels[c].ringAt (first + BitVec.ofNat 28 i))) s
      r = { s with channels := r.channels, pool := r.pool } ∧
      (∀ d : Fin 8, r.channels[d] =
        if d = c then s.channels[c].setCtx n (some (x.takeRing k first is)) else s.channels[d]) ∧
      r.pool = is.foldl (fun p i => feedSlot p x.slot (k.ringAt (first + BitVec.ofNat 28 i)).u) s.pool := by
  induction is with
  | nil =>
    intro s x hk hx
    refine ⟨rfl, fun d => ?_, rfl⟩
    split
    · rename_i e; subst e; show s.channels[d] = _; simp [OpenContext.takeRing, ← hx, Channel.setCtx_ctx]
    · rfl
  | cons i is ih =>
    intro s x hk hx
    have hr : s.channels[c].ringAt (first + BitVec.ofNat 28 i) =
        k.ringAt (first + BitVec.ofNat 28 i) := by simp only [Channel.ringAt, hk]
    have hc := State.takeSample_channels s c c n (first + BitVec.ofNat 28 i)
      (k.ringAt (first + BitVec.ofNat 28 i))
    simp only [if_true, hx, Option.map_some] at hc
    have hp := State.takeSample_pool s c n (first + BitVec.ofNat 28 i)
      (k.ringAt (first + BitVec.ofNat 28 i))
    simp only [hx] at hp
    have := ih (s.takeSample c n (first + BitVec.ofNat 28 i) (k.ringAt (first + BitVec.ofNat 28 i)))
      (x.take (first + BitVec.ofNat 28 i) (k.ringAt (first + BitVec.ofNat 28 i)))
      (by rw [hc, Channel.setCtx_ring, hk]) (by rw [hc, Channel.ctx_setCtx])
    simp only [List.foldl_cons, hr]
    refine ⟨?_, fun d => ?_, ?_⟩
    · rw [this.1, State.takeSample_frame]
    · rw [this.2.1 d, hc]
      split
      · simp [Channel.setCtx_setCtx, OpenContext.takeRing]
      · rename_i hd; rw [State.takeSample_channels]; simp [hd]
    · rw [this.2.2, hp]; rfl

/-- What the ring's samples do to an opening context, to its channel and to its slot (R28). -/
theorem State.takeFromRing_spec (s : State) (c : Fin 8) (n : ContextName) (first : SampleTime)
    (x : OpenContext) (hx : s.channels[c].ctx n = some x) :
    s.takeFromRing c n first =
      { s with channels := (s.takeFromRing c n first).channels, pool := (s.takeFromRing c n first).pool } ∧
    (∀ d : Fin 8, (s.takeFromRing c n first).channels[d] =
      if d = c then s.channels[c].setCtx n
        (some (x.takeRing s.channels[c] first (List.range (s.now - first).toNat)))
      else s.channels[d]) ∧
    (s.takeFromRing c n first).pool =
      (List.range (s.now - first).toNat).foldl
        (fun p i => feedSlot p x.slot (s.channels[c].ringAt (first + BitVec.ofNat 28 i)).u) s.pool :=
  takeRingFold s.channels[c] c n first _ s x rfl hx

/-- Feeding one slot again and again leaves the others alone. -/
theorem feedSlots_get_ne (slot : Option (Fin 32)) (f : Nat → Int) (is : List Nat) {j : Fin 32}
    (h : slot ≠ some j) :
    ∀ pool : Vector Slot 32, (is.foldl (fun p i => feedSlot p slot (f i)) pool)[j] = pool[j] := by
  induction is with
  | nil => exact fun _ => rfl
  | cons i is ih => exact fun pool => (ih _).trans (feedSlot_get_ne pool _ h)

/-- Feeding a lent slot again and again leaves it lent, within its depth. -/
theorem feedSlots_lent (i : Fin 32) (f : Nat → Int) (is : List Nat) :
    ∀ (pool : Vector Slot 32) (xs : List Int), pool[i] = .lent xs → xs.length ≤ Config.slotDepth →
      ∃ ys, (is.foldl (fun p k => feedSlot p (some i) (f k)) pool)[i] = .lent ys ∧
        ys.length ≤ Config.slotDepth := by
  induction is with
  | nil => exact fun _ xs h hl => ⟨xs, h, hl⟩
  | cons k is ih =>
    intro pool xs h hl
    have hw := writeSlot_get pool i (f k)
    rw [h] at hw
    refine ih _ _ hw ?_
    split
    · rename_i hlt; simpa using hlt
    · exact hl

/-! ### Opening and merging -/

/-- What an opening does (R25, R26, R28, R36): the named context is the opened one after the ring's samples,
the other is piled up if OPEN, and the pool has lent the slot and holds the samples. -/
theorem State.openContext_spec (s : State) (c : Fin 8) (n : ContextName) (x : Crossing) :
    let other := s.channels[c].ctx (otherContext n)
    let z := s.openedContext c x other.isSome
    let is := List.range (s.now - z.gateFirst).toNat
    let t := s.openContext c n x
    t = { s with channels := t.channels, pool := t.pool } ∧
    (∀ d : Fin 8, d ≠ c → t.channels[d] = s.channels[d]) ∧
    t.channels[c] = (s.channels[c].setCtx (otherContext n) (other.map OpenContext.pileUp)).setCtx n
      (some (z.takeRing s.channels[c] z.gateFirst is)) ∧
    t.pool = is.foldl (fun p i =>
      feedSlot p z.slot (s.channels[c].ringAt (z.gateFirst + BitVec.ofNat 28 i)).u) (s.poolAfterRequest c) := by
  intro other z is t
  let k := (s.channels[c].setCtx (otherContext n) (other.map OpenContext.pileUp)).setCtx n (some z)
  let s' : State := { s.modifyChannel c (fun _ => k) with pool := s.poolAfterRequest c }
  have hk : s'.channels[c] = k := State.modifyChannel_get s c fun _ => k
  have ht : t = s'.takeFromRing c n z.gateFirst := rfl
  have hring : ∀ τ, k.ringAt τ = s.channels[c].ringAt τ := fun τ => by simp [k]
  obtain ⟨h1, h2, h3⟩ := State.takeFromRing_spec s' c n z.gateFirst z (by rw [hk]; simp [k])
  rw [← ht] at h1 h2 h3
  refine ⟨?_, fun d hd => ?_, ?_, ?_⟩
  · rw [h1]; rfl
  · rw [h2 d, if_neg hd]
    exact State.modifyChannel_get_ne s (fun _ => k) hd
  · rw [h2 c, if_pos rfl, hk, Channel.setCtx_setCtx]
    congr 2
    have : ∀ (is : List Nat) (z0 : OpenContext), z0.takeRing k z.gateFirst is =
        z0.takeRing s.channels[c] z.gateFirst is := by
      intro is z0; simp only [OpenContext.takeRing, hring]
    exact this _ _
  · rw [h3]; simp only [hk, hring]; rfl

/-- What a merge does (R27). -/
theorem State.mergeCrossing_spec (s : State) (c : Fin 8) (a b : OpenContext) :
    s.mergeCrossing c a b = { s with channels := (s.mergeCrossing c a b).channels } ∧
    (∀ d : Fin 8, d ≠ c → (s.mergeCrossing c a b).channels[d] = s.channels[d]) ∧
    (s.mergeCrossing c a b).channels[c] =
      { s.channels[c] with
        ctxA := some { a.pileUp with merged := a.merged || decide (0 < timeDiff a.crossing b.crossing) }
        ctxB := some { b.pileUp with
          merged := b.merged || !decide (0 < timeDiff a.crossing b.crossing) } } :=
  ⟨rfl, fun _ hd => State.modifyChannel_get_ne s _ hd, State.modifyChannel_get s c _⟩

/-- Acting on a crossing touches the channel's contexts and the pool alone. -/
theorem State.actOnCrossing_frame (s : State) (c : Fin 8) (x : Crossing) :
    s.actOnCrossing c x =
      { s with channels := (s.actOnCrossing c x).channels, pool := (s.actOnCrossing c x).pool } ∧
    (∀ d : Fin 8, d ≠ c → (s.actOnCrossing c x).channels[d] = s.channels[d]) ∧
    (s.actOnCrossing c x).channels[c] = { s.channels[c] with
      ctxA := (s.actOnCrossing c x).channels[c].ctxA
      ctxB := (s.actOnCrossing c x).channels[c].ctxB } := by
  unfold State.actOnCrossing
  split
  · obtain ⟨h1, h2, h3, -⟩ := State.openContext_spec s c .a x
    exact ⟨h1, h2, by rw [h3]; rfl⟩
  · obtain ⟨h1, h2, h3, -⟩ := State.openContext_spec s c .b x
    exact ⟨h1, h2, by rw [h3]; rfl⟩
  · rename_i a b _ _
    obtain ⟨h1, h2, h3⟩ := State.mergeCrossing_spec s c a b
    refine ⟨h1, h2, by rw [h3]⟩

end Sys2Proof.Machine
end

