-- ==== Sys2Proof/Laws/HitStore.lean ====
section
/-! SUPPORT. What an insertion, an evaluation and a completion do, and the frame of a code pair (specs 03,
04 and 05). -/

namespace Sys2Proof.Machine

/-! ### Placing -/

/-- Where a new record stands (R58): after all that come before, the last of which is not later, and before
entries that are all later. -/
theorem placeHit_spec (h : Hit) (hits : List Hit) :
    ∃ before after, hits = before ++ after ∧ placeHit h hits = before ++ h :: after ∧
      placeIndex h hits = before.length ∧
      (∀ e ∈ after, e.laterThan h.time = true) ∧
      ∀ e, before.getLast? = some e → e.laterThan h.time = false := by
  have hsplit : hits.reverse.takeWhile (fun e => e.laterThan h.time) ++
      hits.reverse.dropWhile (fun e => e.laterThan h.time) = hits.reverse :=
    List.takeWhile_append_dropWhile
  have hrev : hits = (hits.reverse.dropWhile fun e => e.laterThan h.time).reverse ++
      (hits.reverse.takeWhile fun e => e.laterThan h.time).reverse := by
    rw [← List.reverse_append, hsplit, List.reverse_reverse]
  have hidx : placeIndex h hits = (hits.reverse.dropWhile fun e => e.laterThan h.time).reverse.length := by
    have := congrArg List.length hsplit
    simp only [List.length_append, List.length_reverse] at this
    simp only [placeIndex, List.length_reverse]
    omega
  refine ⟨_, _, hrev, ?_, hidx, fun e he => ?_, fun e he => ?_⟩
  · unfold placeHit
    rw [hidx]
    have h1 := hrev
    set b := (hits.reverse.dropWhile fun e => e.laterThan h.time).reverse
    set a := (hits.reverse.takeWhile fun e => e.laterThan h.time).reverse
    rw [h1, List.take_left, List.drop_left]
  · have := List.mem_reverse.mp he
    exact List.mem_takeWhile_imp (p := fun e : Hit => e.laterThan h.time) this
  · rw [List.getLast?_reverse] at he
    have := List.head?_dropWhile_not (fun e => e.laterThan h.time) hits.reverse
    rw [he] at this
    simpa using this

theorem placeHit_length (h : Hit) (hits : List Hit) : (placeHit h hits).length = hits.length + 1 := by
  obtain ⟨b, a, h1, h2, -⟩ := placeHit_spec h hits
  rw [h2, h1]; simp; omega

theorem placeHit_ne_nil (h : Hit) (hits : List Hit) : placeHit h hits ≠ [] := by
  intro e; have := placeHit_length h hits; rw [e] at this; simp at this

theorem mem_placeHit {h e : Hit} {hits : List Hit} : e ∈ placeHit h hits ↔ e = h ∨ e ∈ hits := by
  obtain ⟨b, a, h1, h2, -⟩ := placeHit_spec h hits
  rw [h2, h1]; simp only [List.mem_append, List.mem_cons]; tauto

theorem placeHit_perm (h : Hit) (hits : List Hit) : (placeHit h hits).Perm (h :: hits) := by
  obtain ⟨b, a, h1, h2, -⟩ := placeHit_spec h hits
  rw [h2, h1]; exact List.perm_middle

/-! ### Choosing among calls -/

theorem foldl_better_mem {α : Type} (better : α → α → Bool) (l : List α) :
    ∀ a, l.foldl (fun m b => if better b m then b else m) a ∈ a :: l := by
  induction l with
  | nil => exact fun a => List.mem_cons_self
  | cons b l ih =>
    intro a
    rw [List.foldl_cons]
    rcases List.mem_cons.mp (ih (if better b a then b else a)) with h | h
    · rw [h]
      split
      · exact List.mem_cons_of_mem _ List.mem_cons_self
      · exact List.mem_cons_self
    · exact List.mem_cons_of_mem _ (List.mem_cons_of_mem _ h)

theorem best_mem {α : Type} {better : α → α → Bool} {l : List α} {x : α} (h : best better l = some x) :
    x ∈ l := by
  cases l with
  | nil => cases h
  | cons a as =>
    simp only [best, Option.some.injEq] at h
    exact h ▸ foldl_better_mem better as a

theorem best_none {α : Type} {better : α → α → Bool} {l : List α} : best better l = none ↔ l = [] := by
  cases l <;> simp [best]

/-- The best element is preferred to every other, where the preference is total and transitive on the
list. -/
theorem best_optimal {α : Type} {better : α → α → Bool} {l : List α} {x : α}
    (h : best better l = some x)
    (total : ∀ a ∈ l, ∀ b ∈ l, a ≠ b → better a b = true ∨ better b a = true)
    (trans : ∀ a ∈ l, ∀ b ∈ l, ∀ c ∈ l, better a b = true → better b c = true → better a c = true) :
    ∀ y ∈ l, y ≠ x → better x y = true := by
  have key : ∀ (as pre : List α) (m : α), m ∈ l → (∀ b ∈ as, b ∈ l) → (∀ b ∈ pre, b ∈ l) →
      (∀ b ∈ pre, b ≠ m → better m b = true) →
      let r := as.foldl (fun m b => if better b m then b else m) m
      r ∈ l ∧ (∀ b ∈ pre ++ as, b ≠ r → better r b = true) ∧ (m = r ∨ better r m = true) := by
    intro as
    induction as with
    | nil => intro pre m hm _ _ hp; exact ⟨hm, by simpa using hp, Or.inl rfl⟩
    | cons b as ih =>
      intro pre m hm has hpre hp
      have hb := has b List.mem_cons_self
      have has' : ∀ d ∈ as, d ∈ l := fun d hd => has d (List.mem_cons_of_mem _ hd)
      simp only [List.foldl_cons]
      by_cases hbm : better b m = true
      · simp only [hbm, if_true]
        have hp' : ∀ d ∈ pre, d ≠ b → better b d = true := by
          intro d hd hne
          by_cases hdm : d = m
          · subst hdm; exact hbm
          · exact trans b hb m hm d (hpre d hd) hbm (hp d hd hdm)
        obtain ⟨h1, h2, h3⟩ := ih pre b hb has' hpre hp'
        set r := as.foldl (fun m b => if better b m then b else m) b
        refine ⟨h1, fun d hd hne => ?_, ?_⟩
        · rcases List.mem_append.mp hd with hd | hd
          · exact h2 d (List.mem_append_left _ hd) hne
          · rcases List.mem_cons.mp hd with hd | hd
            · subst hd
              rcases h3 with h3 | h3
              · exact absurd h3 hne
              · exact h3
            · exact h2 d (List.mem_append_right _ hd) hne
        · right
          rcases h3 with h3 | h3
          · rw [← h3]; exact hbm
          · exact trans r h1 b hb m hm h3 hbm
      · simp only [Bool.not_eq_true] at hbm
        simp only [hbm, Bool.false_eq_true, if_false]
        obtain ⟨h1, h2, h3⟩ := ih pre m hm has' hpre hp
        set r := as.foldl (fun m b => if better b m then b else m) m
        refine ⟨h1, fun d hd hne => ?_, h3⟩
        rcases List.mem_append.mp hd with hd | hd
        · exact h2 d (List.mem_append_left _ hd) hne
        · rcases List.mem_cons.mp hd with hd | hd
          · subst hd
            by_cases hdm : d = m
            · rcases h3 with h3 | h3
              · exact absurd (hdm.trans h3) hne
              · rw [hdm]; exact h3
            · have hmd : better m d = true := by
                rcases total d hb m hm hdm with h4 | h4
                · rw [hbm] at h4; cases h4
                · exact h4
              rcases h3 with h3 | h3
              · rw [← h3]; exact hmd
              · exact trans r h1 m hm d hb h3 hmd
          · exact h2 d (List.mem_append_right _ hd) hne
  cases l with
  | nil => cases h
  | cons a as =>
    simp only [best, Option.some.injEq] at h
    obtain ⟨-, h2, -⟩ := key as [a] a List.mem_cons_self
      (fun b hb => List.mem_cons_of_mem _ hb) (by simp) (by simp)
    intro y hy hne
    rw [h] at h2
    exact h2 y (by simpa using hy) hne

/-! ### The Seed Former -/

/-- Placing a candidate touches the calls and the counters alone. -/
theorem State.placeCandidate_frame (s : State) (n : SampleTime) (e : Nat) :
    s.placeCandidate n e =
      { s with calls := (s.placeCandidate n e).calls, counters := (s.placeCandidate n e).counters } := by
  unfold State.placeCandidate
  split
  · rfl
  · split
    · rfl
    · split
      · rfl
      · unfold State.displaceOrDrop
        split
        · rfl
        · split <;> rfl

/-- An evaluation touches the calls and the counters alone, and outside RUN nothing (R73). -/
theorem State.evaluate_frame (s : State) (n : SampleTime) :
    s.evaluate n = { s with calls := (s.evaluate n).calls, counters := (s.evaluate n).counters } := by
  unfold State.evaluate
  simp only
  split
  · exact State.placeCandidate_frame s n _
  · rfl

theorem State.evaluate_of_not_run (s : State) (n : SampleTime) (h : s.mode ≠ .run) : s.evaluate n = s := by
  simp [State.evaluate, h]

/-- An evaluation is a candidate placed, or nothing (R73). -/
theorem State.evaluate_cases (s : State) (n : SampleTime) :
    s.evaluate n = s ∨
      (s.mode = .run ∧ ∃ e, e ≤ 4095 ∧ s.station.seedThreshold ≤ e ∧ s.evaluate n = s.placeCandidate n e) := by
  unfold State.evaluate
  simp only
  split
  · rename_i h
    exact Or.inr ⟨h.1, _, Nat.min_le_left _ _, h.2, rfl⟩
  · exact Or.inl rfl

/-! ### Insertion and completion -/

/-- An insertion: the record is placed; a full store evicts its first entry; what survives is evaluated, but
for a record evicted at its own insertion (R58, R59, R61). -/
theorem State.insertHit_cases (s : State) (h : Hit) :
    (s.hits.length < Config.hitStoreDepth ∧
      s.insertHit h = State.evaluate { s with hits := placeHit h s.hits } h.crossing) ∨
    (Config.hitStoreDepth ≤ s.hits.length ∧ ∃ e rest, placeHit h s.hits = e :: rest ∧
      (s.insertHit h = s.evict e rest ∧ e = h ∧ rest = s.hits ∧
          (∀ k ∈ s.hits, k.laterThan h.time = true) ∨
        s.insertHit h = (s.evict e rest).evaluate h.crossing ∧ (∃ k ∈ s.hits, e = k) ∧
          ¬∀ k ∈ s.hits, k.laterThan h.time = true)) := by
  obtain ⟨b, a, h1, h2, h3, h4, h5⟩ := placeHit_spec h s.hits
  have hl := placeHit_length h s.hits
  have hi : ∀ e rest, placeHit h s.hits = e :: rest → s.insertHit h =
      if Config.hitStoreDepth < (e :: rest).length then
        if placeIndex h s.hits = 0 then s.evict e rest
        else (s.evict e rest).evaluate h.crossing
      else State.evaluate { s with hits := e :: rest } h.crossing := by
    intro e rest hp
    unfold State.insertHit
    rw [hp]
  cases hp : placeHit h s.hits with
  | nil => exact absurd hp (placeHit_ne_nil h s.hits)
  | cons e rest =>
    rw [hp] at hl
    rw [hi e rest hp]
    by_cases hf : Config.hitStoreDepth < (e :: rest).length
    · rw [if_pos hf]
      refine Or.inr ⟨by simp only [List.length_cons] at hf hl; omega, e, rest, rfl, ?_⟩
      by_cases hz : placeIndex h s.hits = 0
      · rw [if_pos hz]
        rw [h3] at hz
        have hb : b = [] := List.length_eq_zero_iff.mp hz
        subst hb
        rw [hp] at h2
        simp only [List.nil_append, List.cons.injEq] at h1 h2
        exact Or.inl ⟨rfl, h2.1, by rw [h2.2, ← h1], by rw [h1]; exact h4⟩
      · rw [if_neg hz]
        rw [h3] at hz
        cases b with
        | nil => exact absurd rfl hz
        | cons k b =>
          rw [hp] at h2
          simp only [List.cons_append, List.cons.injEq] at h2
          refine Or.inr ⟨rfl, ⟨k, by rw [h1]; simp, h2.1⟩, fun hall => ?_⟩
          obtain ⟨x, hx⟩ : ∃ x, (k :: b).getLast? = some x := ⟨_, List.getLast?_eq_some_getLast (by simp)⟩
          have hm : x ∈ s.hits := by
            rw [h1]; exact List.mem_append_left _ (List.mem_of_getLast? hx)
          have := h5 x hx
          rw [hall x hm] at this
          cases this
    · rw [if_neg hf]
      exact Or.inl ⟨by simp only [List.length_cons] at hf hl; omega, rfl⟩

/-- An insertion touches the store, evict_mark, the pool, the calls and the counters alone. -/
theorem State.insertHit_frame (s : State) (h : Hit) :
    s.insertHit h = { s with
      hits := (s.insertHit h).hits
      evictMark := (s.insertHit h).evictMark
      pool := (s.insertHit h).pool
      calls := (s.insertHit h).calls
      counters := (s.insertHit h).counters } := by
  unfold State.insertHit
  split
  · rfl
  · split
    · split
      · rfl
      · rw [State.evaluate_frame]; rfl
    · rw [State.evaluate_frame]

/-- A completion that takes place: the hit is formed from the context, the context is FREE, the slot is
held or returned, HITS and the sticky flags are noted, and the hit is inserted (R30, R39, R43, R53). -/
theorem State.completeContext_done (s : State) (c : Fin 8) (n : ContextName) (x : OpenContext)
    (hx : s.channels[c].ctx n = some x) (hg : x.gateLast = s.now) :
    s.completeContext c n =
      State.insertHit (State.stickHit (State.countHit
        { s.modifyChannel c (fun k => k.setCtx n none) with
          pool := poolAfterCompletion s.channels[c].items.waveMode s.pool x } c) c
        (formHit c s.channels[c].items s.pool x).flags) (formHit c s.channels[c].items s.pool x) := by
  unfold State.completeContext
  rw [hx]
  exact if_pos hg

/-- A context that is FREE, or whose gate goes on, does not complete. -/
theorem State.completeContext_skip (s : State) (c : Fin 8) (n : ContextName)
    (h : ∀ x, s.channels[c].ctx n = some x → x.gateLast ≠ s.now) : s.completeContext c n = s := by
  unfold State.completeContext
  cases hx : s.channels[c].ctx n with
  | none => rfl
  | some x => exact if_neg (h x hx)

/-- A context completes or it does not. -/
theorem State.completeContext_cases (s : State) (c : Fin 8) (n : ContextName) :
    (∃ x, s.channels[c].ctx n = some x ∧ x.gateLast = s.now) ∨
      ((∀ x, s.channels[c].ctx n = some x → x.gateLast ≠ s.now) ∧ s.completeContext c n = s) := by
  by_cases h : ∃ x, s.channels[c].ctx n = some x ∧ x.gateLast = s.now
  · exact Or.inl h
  · have h' : ∀ x, s.channels[c].ctx n = some x → x.gateLast ≠ s.now := fun x hx hg => h ⟨x, hx, hg⟩
    exact Or.inr ⟨h', State.completeContext_skip s c n h'⟩

/-- A completion touches the channel's context, the pool, the store and what an insertion may, and the
channel's HITS and sticky flags. -/
theorem State.completeContext_frame (s : State) (c : Fin 8) (n : ContextName) :
    s.completeContext c n = { s with
      channels := (s.completeContext c n).channels
      hits := (s.completeContext c n).hits
      evictMark := (s.completeContext c n).evictMark
      pool := (s.completeContext c n).pool
      calls := (s.completeContext c n).calls
      counters := (s.completeContext c n).counters
      hitCounts := (s.completeContext c n).hitCounts
      rangeFlags := (s.completeContext c n).rangeFlags
      satFlags := (s.completeContext c n).satFlags } := by
  rcases State.completeContext_cases s c n with ⟨x, hx, hg⟩ | ⟨-, h⟩
  · rw [State.completeContext_done s c n x hx hg, State.insertHit_frame]
    rfl
  · rw [h]

/-- What a completion does to the channels: the context is FREE where its gate ends, else as it was (R30). -/
theorem State.completeContext_channels (s : State) (c d : Fin 8) (n : ContextName) :
    (s.completeContext c n).channels[d] =
      if d = c then s.channels[c].setCtx n
        ((s.channels[c].ctx n).filter fun x => decide (x.gateLast ≠ s.now))
      else s.channels[d] := by
  rcases State.completeContext_cases s c n with ⟨x, hx, hg⟩ | ⟨h', h⟩
  · rw [State.completeContext_done s c n x hx hg, State.insertHit_frame]
    show (s.modifyChannel c fun k => k.setCtx n none).channels[d] = _
    have : (some x).filter (fun x => decide (x.gateLast ≠ s.now)) = none := by
      simp [Option.filter, hg]
    rw [State.modifyChannel_channels, hx, this]
  · rw [h]
    split
    · rename_i e; subst e
      cases hx : s.channels[d].ctx n with
      | none => rw [Option.filter_none, ← hx, Channel.setCtx_ctx]
      | some x =>
        have : (some x).filter (fun x => decide (x.gateLast ≠ s.now)) = some x := by
          simp [h' x hx]
        rw [this, ← hx, Channel.setCtx_ctx]
    · rfl

/-! ### A code pair -/

/-- The crossing, if any, that the sample declares, the ring written (R18). -/
def State.declared (s : State) (c : Fin 8) (y : Sample) : Discriminator × Option Crossing :=
  s.channels[c].discriminate s.now y.u

/-- The state after the first two stages of R18. -/
def State.afterCrossing (s : State) (c : Fin 8) (y : Sample) : State :=
  match (s.declared c y).2 with
  | none => s.modifyChannel c fun k => { k with disc := (s.declared c y).1 }
  | some x =>
    if s.mode = .run then
      State.actOnCrossing (s.modifyChannel c fun k => { k with disc := (s.declared c y).1 }) c x
    else s.modifyChannel c fun k => { k with disc := (s.declared c y).1 }

/-- The state after the third stage of R18. -/
def State.afterTaking (s : State) (c : Fin 8) (y : Sample) : State :=
  ((s.afterCrossing c y).takeSample c .a s.now y).takeSample c .b s.now y

theorem State.processSample_eq (s : State) (c : Fin 8) (y : Sample) :
    s.processSample c y = ((s.afterTaking c y).completeContext c .a).completeContext c .b := by
  have h : s.processSample c y =
      (((s.afterCrossing c y).takeSample c .a s.now y).takeSample c .b s.now y |>.completeContext c .a
        |>.completeContext c .b) := by
    cases h : (s.channels[c].discriminate s.now y.u).2 <;>
      simp only [State.processSample, State.afterCrossing, State.declared, h]
  exact h

/-- The first two stages touch the channel and the pool alone. -/
theorem State.afterCrossing_frame (s : State) (c : Fin 8) (y : Sample) :
    s.afterCrossing c y =
      { s with channels := (s.afterCrossing c y).channels, pool := (s.afterCrossing c y).pool } ∧
    (∀ d : Fin 8, d ≠ c → (s.afterCrossing c y).channels[d] = s.channels[d]) ∧
    (s.afterCrossing c y).channels[c] = { s.channels[c] with
      disc := (s.declared c y).1
      ctxA := (s.afterCrossing c y).channels[c].ctxA
      ctxB := (s.afterCrossing c y).channels[c].ctxB } := by
  have h0 : ∀ d : Fin 8, d ≠ c →
      (s.modifyChannel c fun k => { k with disc := (s.declared c y).1 }).channels[d] = s.channels[d] :=
    fun d hd => State.modifyChannel_get_ne s _ hd
  have h1 : (s.modifyChannel c fun k => { k with disc := (s.declared c y).1 }).channels[c] =
      { s.channels[c] with disc := (s.declared c y).1 } := State.modifyChannel_get s c _
  unfold State.afterCrossing
  split
  · exact ⟨rfl, h0, by rw [h1]⟩
  · rename_i x _
    split
    · obtain ⟨g1, g2, g3⟩ := State.actOnCrossing_frame
        (s.modifyChannel c fun k => { k with disc := (s.declared c y).1 }) c x
      refine ⟨?_, fun d hd => ?_, ?_⟩
      · rw [g1]; rfl
      · rw [g2 d hd, h0 d hd]
      · rw [g3, h1]
    · exact ⟨rfl, h0, by rw [h1]⟩

/-- The third stage touches the channel's contexts and the pool alone. -/
theorem State.afterTaking_frame (s : State) (c : Fin 8) (y : Sample) :
    s.afterTaking c y =
      { s with channels := (s.afterTaking c y).channels, pool := (s.afterTaking c y).pool } ∧
    (∀ d : Fin 8, d ≠ c → (s.afterTaking c y).channels[d] = s.channels[d]) ∧
    (s.afterTaking c y).channels[c] = { s.channels[c] with
      disc := (s.declared c y).1
      ctxA := (s.afterTaking c y).channels[c].ctxA
      ctxB := (s.afterTaking c y).channels[c].ctxB } := by
  obtain ⟨h1, h2, h3⟩ := State.afterCrossing_frame s c y
  unfold State.afterTaking
  refine ⟨?_, fun d hd => ?_, ?_⟩
  · rw [State.takeSample_frame, State.takeSample_frame (s.afterCrossing c y), h1]
  · rw [State.takeSample_channels, if_neg hd, State.takeSample_channels, if_neg hd, h2 d hd]
  · rw [State.takeSample_channels, if_pos rfl, State.takeSample_channels, if_pos rfl]
    rw [h3]; rfl

/-- What the third stage leaves of each context (R29). -/
theorem State.afterTaking_ctx (s : State) (c : Fin 8) (y : Sample) (n : ContextName) :
    (s.afterTaking c y).channels[c].ctx n =
      ((s.afterCrossing c y).channels[c].ctx n).map fun x => x.take s.now y := by
  unfold State.afterTaking
  rw [State.takeSample_channels, if_pos rfl, State.takeSample_channels, if_pos rfl]
  cases n
  · rw [Channel.ctx_setCtx_ne _ _ (by decide), Channel.ctx_setCtx]
  · rw [Channel.ctx_setCtx, Channel.ctx_setCtx_ne _ _ (by decide)]

/-- The fields that the handling of a code pair may touch. -/
def State.pairFrame (s t : State) : Prop :=
  t = { s with
    channels := t.channels
    pool := t.pool
    hits := t.hits
    evictMark := t.evictMark
    calls := t.calls
    counters := t.counters
    hitCounts := t.hitCounts
    rangeFlags := t.rangeFlags
    satFlags := t.satFlags }

theorem State.pairFrame_trans {s t u : State} (h : s.pairFrame t) (k : t.pairFrame u) : s.pairFrame u := by
  unfold State.pairFrame at *
  rw [k, h]

theorem State.processSample_frame (s : State) (c : Fin 8) (y : Sample) :
    s.pairFrame (s.processSample c y) := by
  rw [State.processSample_eq]
  refine State.pairFrame_trans (t := s.afterTaking c y) ?_
    (State.pairFrame_trans (State.completeContext_frame _ c .a) (State.completeContext_frame _ c .b))
  unfold State.pairFrame
  rw [(State.afterTaking_frame s c y).1]

/-- What the four stages leave of the channels: the discriminator moved, the contexts, and no more. -/
theorem State.processSample_channels (s : State) (c : Fin 8) (y : Sample) :
    (∀ d : Fin 8, d ≠ c → (s.processSample c y).channels[d] = s.channels[d]) ∧
    (s.processSample c y).channels[c] = { s.channels[c] with
      disc := (s.declared c y).1
      ctxA := (s.processSample c y).channels[c].ctxA
      ctxB := (s.processSample c y).channels[c].ctxB } ∧
    ∀ n, (s.processSample c y).channels[c].ctx n =
      (((s.afterCrossing c y).channels[c].ctx n).map fun x => x.take s.now y).filter
        fun x => decide (x.gateLast ≠ s.now) := by
  obtain ⟨h1, h2, h3⟩ := State.afterTaking_frame s c y
  have hnow : ((s.afterTaking c y).completeContext c .a).now = s.now := by
    rw [State.completeContext_frame, h1]
  have hnow' : (s.afterTaking c y).now = s.now := by rw [h1]
  rw [State.processSample_eq]
  refine ⟨fun d hd => ?_, ?_, fun n => ?_⟩
  · rw [State.completeContext_channels, if_neg hd, State.completeContext_channels, if_neg hd, h2 d hd]
  · rw [State.completeContext_channels, if_pos rfl, State.completeContext_channels, if_pos rfl]
    rw [h3]; rfl
  · rw [State.completeContext_channels, if_pos rfl, State.completeContext_channels, if_pos rfl, hnow, hnow']
    cases n
    · rw [Channel.ctx_setCtx_ne _ _ (by decide), Channel.ctx_setCtx, State.afterTaking_ctx]
    · rw [Channel.ctx_setCtx, Channel.ctx_setCtx_ne _ _ (by decide), State.afterTaking_ctx]

theorem State.takePulse_frame (s : State) (c : Fin 8) (y : Sample) : s.pairFrame (s.takePulse c y) := by
  unfold State.takePulse
  split
  · exact State.processSample_frame s c y
  · rfl

/-- The handling of a code pair touches these fields alone (R1). -/
theorem State.handlePair_frame (s : State) (c : Fin 8) (hi lo : BitVec 12) :
    s.pairFrame (s.handlePair c hi lo) := by
  unfold State.handlePair
  refine State.pairFrame_trans (t := s.modifyChannel c fun k =>
    k.writeRing s.now (unifiedSample s.channels[c] hi lo)) rfl ?_
  exact State.pairFrame_trans (State.takePulse_frame _ c _) rfl

/-- What the Pulse Processor leaves of the channels. -/
theorem State.takePulse_channels (s : State) (c : Fin 8) (y : Sample) :
    (∀ d : Fin 8, d ≠ c → (s.takePulse c y).channels[d] = s.channels[d]) ∧
    (s.takePulse c y).channels[c] = { s.channels[c] with
      disc := (s.takePulse c y).channels[c].disc
      ctxA := (s.takePulse c y).channels[c].ctxA
      ctxB := (s.takePulse c y).channels[c].ctxB } := by
  unfold State.takePulse
  split
  · obtain ⟨h1, h2, -⟩ := State.processSample_channels s c y
    exact ⟨h1, by rw [h2]⟩
  · exact ⟨fun d hd => State.modifyChannel_get_ne s _ hd, by rw [State.modifyChannel_get]⟩

/-- What the quiet decision may move: the two trackers (R11, R12). -/
theorem Channel.settleTrackers_frame (k : Channel) (u : Int) (hi lo : BitVec 12) :
    k.settleTrackers u hi lo = { k with
      trackHi := (k.settleTrackers u hi lo).trackHi
      trackLo := (k.settleTrackers u hi lo).trackLo } := by
  unfold Channel.settleTrackers
  split <;> rfl

/-- What a code pair leaves of the channels: the ring written at its sample time, the discriminator and the
contexts as the Pulse Processor leaves them, and the trackers after the quiet decision (R1). -/
theorem State.handlePair_channels (s : State) (c : Fin 8) (hi lo : BitVec 12) :
    let y := unifiedSample s.channels[c] hi lo
    let s1 : State := s.modifyChannel c fun k => k.writeRing s.now y
    (∀ d : Fin 8, d ≠ c → (s.handlePair c hi lo).channels[d] = s.channels[d]) ∧
    (s.handlePair c hi lo).channels[c] =
      Channel.settleTrackers { s.channels[c].writeRing s.now y with
        disc := (s1.takePulse c y).channels[c].disc
        ctxA := (s1.takePulse c y).channels[c].ctxA
        ctxB := (s1.takePulse c y).channels[c].ctxB } y.u hi lo := by
  intro y s1
  have h1 : s1.channels[c] = s.channels[c].writeRing s.now y := State.modifyChannel_get s c _
  obtain ⟨h2, h3⟩ := State.takePulse_channels s1 c y
  refine ⟨fun d hd => ?_, ?_⟩
  · show ((s1.takePulse c y).modifyChannel c fun k => k.settleTrackers y.u hi lo).channels[d] = _
    rw [State.modifyChannel_get_ne _ _ hd, h2 d hd, State.modifyChannel_get_ne _ _ hd]
  · show ((s1.takePulse c y).modifyChannel c fun k => k.settleTrackers y.u hi lo).channels[c] = _
    rw [State.modifyChannel_get, h3, h1]

end Sys2Proof.Machine
end

