-- ==== Sys2Proof/Laws/Frames.lean ====
section
/-! SUPPORT. What each command can touch: the frame of every meaning. In each equation the state after
equals the state before in every field but those named. -/

namespace Sys2Proof.Machine

/-! ### Shared operations -/

theorem State.chooseFrame_frame (s : State) :
    s.chooseFrame = { s with link := { s.link with sending := s.chooseFrame.link.sending } } := by
  unfold State.chooseFrame
  repeat' split
  all_goals rfl

theorem State.endFrame_frame (s : State) :
    s.endFrame = { s with link := { s.link with sending := s.endFrame.link.sending } } := by
  unfold State.endFrame
  rw [State.chooseFrame_frame]

theorem State.respond_frame (s : State) (f : List Word) :
    s.respond f =
      { s with link := { s.link with response := f, sending := (s.respond f).link.sending } } := by
  unfold State.respond
  rw [State.chooseFrame_frame]

theorem State.refuseHead_frame (s : State) (w : Word) (code : RefusalCode) :
    s.refuseHead w code = { s with
      commands := (s.refuseHead w code).commands
      link := (s.refuseHead w code).link } := by
  unfold State.refuseHead
  split
  · rw [State.respond_frame]; rfl
  · rfl

theorem State.lapseOnLine_frame (s : State) :
    s.lapseOnLine = { s with calls := s.lapseOnLine.calls, counters := s.lapseOnLine.counters } := rfl

theorem State.returnCall_frame (s : State) :
    s.returnCall = { s with calls := s.returnCall.calls, counters := s.returnCall.counters } := by
  unfold State.returnCall
  split <;> rfl

theorem State.discardCall_frame (s : State) :
    s.discardCall = { s with calls := s.discardCall.calls, counters := s.discardCall.counters } := by
  unfold State.discardCall
  split <;> rfl

theorem State.deliver_frame (s : State) (bits : BitVec 36) :
    s.deliver bits = { s with
      calls := (s.deliver bits).calls
      counters := (s.deliver bits).counters
      seedCounter := (s.deliver bits).seedCounter
      seeds := (s.deliver bits).seeds
      hold := (s.deliver bits).hold } := by
  unfold State.deliver State.deliverToList
  split
  · simp only
    split <;> rfl
  · rfl

theorem State.testDrain_frame (s : State) :
    s.testDrain = { s with
      mode := s.testDrain.mode
      hold := s.testDrain.hold
      hits := s.testDrain.hits
      evictMark := s.testDrain.evictMark
      counters := s.testDrain.counters
      pool := s.testDrain.pool
      channels := s.testDrain.channels } := by
  unfold State.testDrain
  split <;> rfl

/-! ### Commands -/

variable {s t : State}

theorem execCodePairArrival_frame {channel : Nat} {hi lo : BitVec 12}
    (h : execCodePairArrival channel hi lo s = .next t) : s.pairFrame t := by
  unfold execCodePairArrival at h
  split at h
  · cases h
    split
    · rfl
    · exact State.handlePair_frame s _ hi lo
  · cases h

theorem execTimebaseAdvance_frame {a b : Bool} (h : execTimebaseAdvance a b s = .next t) :
    t = { s with
      now := t.now
      tzSeen := t.tzSeen
      edgeTz := t.edgeTz
      awaitsEdge := t.awaitsEdge
      line := t.line
      counters := t.counters
      resetEdges := t.resetEdges } := by
  cases h
  split <;> rfl

theorem execTzSample_frame {tz : Bool} (h : execTzSample tz s = .next t) :
    t = { s with
      now := t.now
      tzSeen := t.tzSeen
      edgeTz := t.edgeTz
      line := t.line
      counters := t.counters } := by
  cases h
  unfold State.ignoreTz State.honourTz
  repeat' split
  all_goals rfl

theorem execHitExpiry_frame (h : execHitExpiry s = .next t) :
    t = { s with hits := t.hits, pool := t.pool, counters := t.counters } := by
  cases h
  split <;> rfl

theorem execEvictMarkWithdrawal_frame (h : execEvictMarkWithdrawal s = .next t) :
    t = { s with evictMark := t.evictMark } := by
  cases h
  split <;> rfl

theorem execCallLapse_frame (h : execCallLapse s = .next t) :
    t = { s with calls := t.calls, counters := t.counters } := by
  cases h
  split <;> rfl

theorem execSeedClosed_frame (h : execSeedClosed s = .next t) : t = { s with seeds := t.seeds } := by
  cases h; rfl

theorem execSeedLateMark_frame (h : execSeedLateMark s = .next t) : t = { s with seeds := t.seeds } := by
  cases h; rfl

theorem execSeedStaleMark_frame (h : execSeedStaleMark s = .next t) :
    t = { s with seeds := t.seeds } := by
  cases h; rfl

theorem execFragmentBuild_frame (h : execFragmentBuild s = .next t) :
    t = { s with
      hits := t.hits
      readout := t.readout
      seeds := t.seeds
      hold := t.hold
      link := t.link
      counters := t.counters } := by
  cases h
  split
  · rfl
  · split
    · unfold State.build
      rw [State.chooseFrame_frame]; rfl
    · rfl

theorem execFrameStart_frame {level : Bool} (h : execFrameStart level s = .next t) :
    t = { s with calls := t.calls, line := t.line } := by
  cases h
  split
  · split <;> rfl
  · rfl

theorem execStartBitHeard_frame (h : execStartBitHeard s = .next t) : t = { s with line := t.line } := by
  cases h
  split <;> rfl

theorem execStartBitRecessive_frame (h : execStartBitRecessive s = .next t) :
    t = { s with calls := t.calls, counters := t.counters, line := t.line } := by
  cases h
  split
  · rw [State.returnCall_frame]
  · rfl

theorem execArbitrationLost_frame (h : execArbitrationLost s = .next t) :
    t = { s with calls := t.calls, counters := t.counters, line := t.line } := by
  cases h
  split
  · split
    · rw [State.returnCall_frame]
    · rfl
  · rfl

theorem execObjectionRaised_frame (h : execObjectionRaised s = .next t) :
    t = { s with counters := t.counters, line := t.line } := by
  cases h
  split
  · split <;> rfl
  · rfl

theorem execFramesDiscarded_frame (h : execFramesDiscarded s = .next t) :
    t = { s with calls := t.calls, counters := t.counters, line := t.line } := by
  cases h
  split
  · split
    · split
      · rw [State.discardCall_frame]; rfl
      · rfl
    · rfl
  · rfl

theorem execSeedAccepted_frame (h : execSeedAccepted s = .next t) :
    t = { s with
      line := t.line
      calls := t.calls
      counters := t.counters
      seedCounter := t.seedCounter
      seeds := t.seeds
      hold := t.hold } := by
  cases h
  split
  · split
    · rw [State.deliver_frame]; rfl
    · rfl
  · rfl

theorem execFrameGapEnd_frame (h : execFrameGapEnd s = .next t) : t = { s with line := t.line } := by
  cases h
  split
  · split <;> rfl
  · rfl

theorem execDominantGapBit_frame (h : execDominantGapBit s = .next t) :
    t = { s with line := t.line } := by
  cases h
  split
  · split <;> rfl
  · rfl

theorem execLineIdle_frame (h : execLineIdle s = .next t) : t = { s with line := t.line } := by
  cases h
  split <;> rfl

theorem execLineStuck_frame (h : execLineStuck s = .next t) :
    t = { s with calls := t.calls, counters := t.counters, line := t.line } := by
  cases h
  split
  · rw [State.returnCall_frame]; rfl
  · rfl

theorem execStuckRelease_frame (h : execStuckRelease s = .next t) : t = { s with line := t.line } := by
  cases h
  split <;> rfl

theorem State.sendWord_frame (s : State) (w : Word) :
    s.sendWord w = { s with
      link := (s.sendWord w).link
      readout := (s.sendWord w).readout
      hold := (s.sendWord w).hold } := by
  unfold State.sendWord
  split
  · rfl
  · unfold State.sendStartWord; rw [State.endFrame_frame]; rfl
  · unfold State.sendResponseWord
    split
    · rw [State.endFrame_frame]
    · split
      · rfl
      · rw [State.endFrame_frame]; rfl
  · unfold State.sendFragmentWord
    split
    · rw [State.endFrame_frame]
    · rw [State.endFrame_frame]
    · rw [State.endFrame_frame]; rfl
    · rfl

theorem execLinkWordSent_frame (h : execLinkWordSent s = .next t) :
    t = { s with link := t.link, readout := t.readout, hold := t.hold } := by
  cases h
  split
  · rfl
  · rw [State.sendWord_frame, State.chooseFrame_frame]

theorem execDrainReturn_frame (h : execDrainReturn s = .next t) :
    t = { s with
      mode := t.mode
      hold := t.hold
      hits := t.hits
      evictMark := t.evictMark
      counters := t.counters
      pool := t.pool
      channels := t.channels } := by
  cases h
  exact State.testDrain_frame s

theorem execCommandWordArrival_frame {w : Word} (h : execCommandWordArrival w s = .next t) :
    t = { s with commands := t.commands, counters := t.counters } := by
  cases h
  repeat' split
  all_goals rfl

theorem execSet_frame (h : execSet s = .next t) :
    t = { s with
      commands := t.commands
      link := t.link
      channels := t.channels
      station := t.station
      line := t.line
      configAdjusted := t.configAdjusted } := by
  cases h
  split
  · rfl
  · split
    · rw [State.refuseHead_frame]
    · unfold State.setItem State.writeItem
      split <;> rfl
    · rfl

theorem execReadItem_frame (h : execReadItem s = .next t) :
    t = { s with commands := t.commands, link := t.link } := by
  cases h
  split
  · rfl
  · split
    · rw [State.refuseHead_frame]
    · split
      · rw [State.respond_frame]; rfl
      · rfl
    · rfl

theorem execStart_frame (h : execStart s = .next t) :
    t = { s with
      commands := t.commands
      link := t.link
      mode := t.mode
      station := t.station
      hEff := t.hEff
      gMax := t.gMax
      hits := t.hits
      evictMark := t.evictMark
      calls := t.calls
      seeds := t.seeds
      readout := t.readout
      seedCounter := t.seedCounter
      hold := t.hold
      configAdjusted := t.configAdjusted } := by
  cases h
  split
  · rfl
  · split
    · rw [State.refuseHead_frame]
    · rfl

theorem execStop_frame (h : execStop s = .next t) :
    t = { s with
      commands := t.commands
      link := t.link
      calls := t.calls
      mode := t.mode
      hold := t.hold
      hits := t.hits
      evictMark := t.evictMark
      counters := t.counters
      pool := t.pool
      channels := t.channels } := by
  cases h
  split
  · rfl
  · split
    · rw [State.refuseHead_frame]
    · unfold State.stopRun; rw [State.testDrain_frame]; rfl

theorem execReadStatus_frame {level : Bool} (h : execReadStatus level s = .next t) :
    t = { s with commands := t.commands, link := t.link } := by
  cases h
  split
  · rfl
  · split
    · rw [State.respond_frame]; rfl
    · rfl

theorem execClearCounters_frame (h : execClearCounters s = .next t) :
    t = { s with
      commands := t.commands
      counters := t.counters
      hitCounts := t.hitCounts
      rangeFlags := t.rangeFlags
      satFlags := t.satFlags
      configAdjusted := t.configAdjusted } := by
  cases h
  split <;> rfl

theorem execLinkPause_frame (h : execLinkPause s = .next t) :
    t = { s with commands := t.commands, link := t.link } := by
  cases h
  split <;> rfl

theorem execLinkResume_frame (h : execLinkResume s = .next t) :
    t = { s with commands := t.commands, link := t.link } := by
  cases h
  split
  · rfl
  · rw [State.chooseFrame_frame]; rfl

theorem execUnknownCommand_frame (h : execUnknownCommand s = .next t) :
    t = { s with commands := t.commands, link := t.link } := by
  cases h
  split
  · rfl
  · split
    · rw [State.refuseHead_frame]
    · rfl

/-- RESET_STATION enters reset or does nothing. -/
theorem execResetStation_cases (h : execResetStation s = .next t) :
    t = s ∨ (s.inReset = false ∧ t = s.enterReset false Config.resetEdges) := by
  cases h
  cases hc : s.headOfKind .resetStation with
  | none => exact Or.inl rfl
  | some p =>
    refine Or.inr ⟨?_, rfl⟩
    by_contra hr
    have hr : s.inReset = true := by simpa using hr
    simp [State.headOfKind, State.headCommand, State.headWord, hr] at hc

/-- RESET_RELEASE releases, notes RSTN deasserted, or does nothing. -/
theorem execResetRelease_cases {straps : BitVec 4} (h : execResetRelease straps s = .next t) :
    (s.inReset = false ∧ t = s) ∨
      (s.inReset = true ∧ s.resetEdges = 0 ∧ t = s.release straps) ∨
      (s.inReset = true ∧ s.resetEdges ≠ 0 ∧ t = { s with rstn := false }) := by
  cases h
  cases hr : s.inReset with
  | false => exact Or.inl ⟨rfl, rfl⟩
  | true =>
    by_cases he : s.resetEdges = 0
    · exact Or.inr (Or.inl ⟨rfl, he, by simp [he]⟩)
    · exact Or.inr (Or.inr ⟨rfl, he, by simp [he]⟩)

end Sys2Proof.Machine
end

