-- ==== Sys2Proof/Laws/Hold.lean ====
section
/-! SUPPORT. Hold Control's judgements and its law, the delivery of a seed, and the link's choice (R81,
R119, R120, R142 to R144, R149). -/

namespace Sys2Proof.Machine

/-! ### The law of the HOLD drive -/

theorem State.holdLaw_congr {s t : State} (h : s.holdLaw) (h1 : t.hold = s.hold) (h2 : t.mode = s.mode)
    (h3 : t.inReset = s.inReset) : t.holdLaw := by
  unfold State.holdLaw at *
  rw [h1, h2, h3]
  exact h

theorem State.holdLaw_recomputeHold (s : State) (h : s.hold.notRun = (s.mode != .run)) :
    s.recomputeHold.holdLaw := ⟨h, rfl⟩

theorem State.holdLaw_judgeQueueHold (s : State) (h : s.hold.notRun = (s.mode != .run)) :
    s.judgeQueueHold.holdLaw := ⟨h, rfl⟩

theorem State.holdLaw_judgeListHold (s : State) (h : s.hold.notRun = (s.mode != .run)) :
    s.judgeListHold.holdLaw := ⟨h, rfl⟩

theorem State.holdLaw_enterMode (s : State) (m : StationState) : (s.enterMode m).holdLaw := ⟨rfl, rfl⟩

/-! ### The law of the two causes -/

theorem State.causesLawful_congr {s t : State} (h : s.causesLawful) (h1 : t.hold = s.hold)
    (h2 : t.station = s.station) (h3 : t.occupancy = s.occupancy) (h4 : t.seeds.length = s.seeds.length)
    (h5 : t.mode = s.mode) (h6 : s.mode = .setup → t.readout = s.readout) : t.causesLawful := by
  unfold State.causesLawful at *
  rw [h1, h2, h3, h4, h5]
  refine ⟨h.1, h.2.1, h.2.2.1, h.2.2.2.1, fun hm => ?_⟩
  obtain ⟨e1, e2, e3, e4⟩ := h.2.2.2.2 hm
  rw [e3] at h4
  exact ⟨e1, e2, List.length_eq_zero_iff.mp h4, by rw [h6 hm, e4]⟩

/-- What a judgement of QUEUE_HOLD finds (R142). -/
theorem State.judgeQueueHold_queueHold (s : State) :
    s.judgeQueueHold.hold.queueHold =
      if s.hold.queueHold then !decide (s.occupancy ≤ s.station.lowMark)
      else decide (s.station.highMark ≤ s.occupancy) := rfl

/-- What a judgement of LIST_HOLD finds (R143). -/
theorem State.judgeListHold_listHold (s : State) :
    s.judgeListHold.hold.listHold =
      if s.hold.listHold then !decide (s.seeds.length ≤ Config.listHoldClear)
      else decide (Config.listHoldSet ≤ s.seeds.length) := rfl

/-! ### Delivery -/

/-- What a delivery to the Call Queue does: won and merged calls leave, each counted (R81). -/
theorem State.deliverToCalls_spec (s : State) (τ : SampleTime) :
    s.deliverToCalls τ = { s with
      calls := s.calls.filter fun c => !c.isOnLine && !within s.station.window c.time τ
      counters := (s.deliverToCalls τ).counters } ∧
    ∀ k, (s.deliverToCalls τ).counter k =
      if k = .callsMerged then
        satAdd (s.counter .callsMerged)
          (s.calls.countP fun c => !c.isOnLine && within s.station.window c.time τ)
      else if k = .callsWon then satAdd (s.counter .callsWon) (s.calls.countP Call.isOnLine)
      else s.counter k := by
  refine ⟨rfl, fun k => ?_⟩
  have hb : ∀ (x : List Call) (j : Counter), State.counter { s with calls := x } j = s.counter j :=
    fun _ _ => rfl
  unfold State.deliverToCalls
  rw [State.count_counter, State.count_counter, State.count_counter]
  simp only [hb]
  split
  · simp
  · rfl

/-- What a delivery to the Seed List does: a list with room takes the entry; a full one loses it (R118 to
R120, R143). -/
theorem State.deliverToList_spec (s : State) (d : Seed) :
    (s.seeds.length < Config.seedListDepth ∧
      s.deliverToList d = State.judgeListHold
        { State.count { s with seedCounter := s.seedCounter + 1 } .seedsHeard 1 with
          seeds := s.seeds ++ [d] }) ∨
    (Config.seedListDepth ≤ s.seeds.length ∧
      s.deliverToList d = State.count
        { State.count { s with seedCounter := s.seedCounter + 1 } .seedsHeard 1 with
          seeds := raiseLost s.seeds } .seedsLost 1) := by
  unfold State.deliverToList
  by_cases h : s.seeds.length < Config.seedListDepth
  · exact Or.inl ⟨h, if_pos h⟩
  · exact Or.inr ⟨Nat.le_of_not_lt h, if_neg h⟩

theorem State.deliver_active (s : State) (bits : BitVec 36) (h : s.active = true) :
    s.deliver bits = State.deliverToList (s.deliverToCalls (rebuildTime s.now (frameTime bits)))
      (s.seedEntry bits s.callOnLine) := if_pos h

theorem State.deliver_setup (s : State) (bits : BitVec 36) (h : s.active = false) :
    s.deliver bits = s := by
  unfold State.deliver
  simp [h]

theorem raiseLost_append (ds : List Seed) (d : Seed) :
    raiseLost (ds ++ [d]) =
      ds ++ [{ d with lostAfter := min (d.lostAfter + 1) Config.lostAfterMax }] := by
  induction ds with
  | nil => rfl
  | cons e ds ih =>
    cases ds with
    | nil => rfl
    | cons f ds => simp only [List.cons_append] at *; rw [raiseLost, ih]

@[simp] theorem raiseLost_length (ds : List Seed) : (raiseLost ds).length = ds.length := by
  rcases List.eq_nil_or_concat ds with rfl | ⟨l, d, rfl⟩
  · rfl
  · simp [raiseLost_append]

/-- The hold law survives a delivery. -/
theorem State.holdLaw_deliver (s : State) (bits : BitVec 36) (h : s.holdLaw) :
    (s.deliver bits).holdLaw := by
  cases ha : s.active with
  | false => rw [State.deliver_setup s bits ha]; exact h
  | true =>
    rw [State.deliver_active s bits ha]
    have hc := (State.deliverToCalls_spec s (rebuildTime s.now (frameTime bits))).1
    generalize s.deliverToCalls (rebuildTime s.now (frameTime bits)) = u at hc
    have hu : u.hold.notRun = (u.mode != .run) := by rw [hc]; exact h.1
    rcases State.deliverToList_spec u (s.seedEntry bits s.callOnLine) with ⟨-, e⟩ | ⟨-, e⟩
    · rw [e]; exact State.holdLaw_judgeListHold _ hu
    · rw [e]
      refine State.holdLaw_congr (s := s) h ?_ ?_ ?_ <;> (rw [hc]; rfl)

/-! ### The link's choice -/

/-- The choice of the next frame (R149): unchanged with one in transmission; else the start word owed, else
what the statements call the next sending. -/
theorem State.chooseFrame_spec (s : State) :
    s.chooseFrame.link.sending =
      if s.link.sending ≠ .nothing then s.link.sending
      else if s.link.startOwed then .startWord
      else nextSending s.link.paused s.link.response s.readout := by
  unfold State.chooseFrame nextSending
  repeat' split
  all_goals simp_all

end Sys2Proof.Machine
end

