-- ==== Sys2Proof/Laws/Calls.lean ====
section
/-! SUPPORT. What becomes of calls: the fate of a candidate (R74 to R77), the outcomes of the ON_LINE call
(R80, R83), and what an insertion and a code pair keep. -/

namespace Sys2Proof.Machine

/-! ### Windows -/

theorem timeDiff_self (a : SampleTime) : timeDiff a a = 0 := by simp [timeDiff]

theorem within_self (w : Nat) (a : SampleTime) : within w a a = true := by
  simp [within, timeDiff_self]

/-- Being within a window does not depend on the side it is seen from. -/
theorem within_comm (w : Nat) (a b : SampleTime) : within w a b = within w b a := by
  have h : timeDiff b a = -timeDiff a b ∨ (timeDiff a b = -134217728 ∧ timeDiff b a = -134217728) := by
    unfold timeDiff
    have hn : b - a = -(a - b) := (neg_sub a b).symm
    rw [hn]
    generalize a - b = x
    by_cases hx : x = BitVec.intMin 28
    · right; subst hx; decide
    · left; exact BitVec.toInt_neg_of_ne_intMin hx
  unfold within
  rcases h with h | ⟨h1, h2⟩
  · rw [h]
    by_cases h1 : -(w : Int) ≤ timeDiff a b <;> by_cases h2 : timeDiff a b ≤ (w : Int) <;>
      simp [h1, h2] <;> omega
  · rw [h1, h2]

/-! ### Candidates -/

/-- What can become of a candidate (R74 to R77). -/
theorem State.placeCandidate_cases (s : State) (n : SampleTime) (e : Nat) :
    ((∃ d ∈ s.seeds, within s.station.window d.time n = true) ∧ s.placeCandidate n e = s) ∨
    ((∀ d ∈ s.seeds, within s.station.window d.time n = false) ∧
      ((∃ k, best (nearerCall n) (s.calls.filter fun c => within s.station.window c.time n) = some k ∧
          s.placeCandidate n e =
            { s with calls := s.calls.map fun c => if c = k then c.raise e else c }) ∨
        ((∀ c ∈ s.calls, within s.station.window c.time n = false) ∧
          ((s.calls.length < Config.callQueueDepth ∧ s.placeCandidate n e = s.createCall n e) ∨
            (Config.callQueueDepth ≤ s.calls.length ∧
              ((best weakerCall (s.calls.filter fun c => !c.isOnLine) = none ∧
                  s.placeCandidate n e = s.count .callsDropped 1) ∨
                ∃ w, best weakerCall (s.calls.filter fun c => !c.isOnLine) = some w ∧
                  ((w.energy < e ∧ s.placeCandidate n e = State.createCall
                      (State.count { s with calls := s.calls.erase w } .callsDisplaced 1) n e) ∨
                    (e ≤ w.energy ∧ s.placeCandidate n e = s.count .callsDropped 1)))))))) := by
  unfold State.placeCandidate
  by_cases hs : (s.seeds.any fun d => within s.station.window d.time n) = true
  · exact Or.inl ⟨by simpa using hs, if_pos hs⟩
  · rw [if_neg hs]
    refine Or.inr ⟨by simpa using hs, ?_⟩
    cases hb : best (nearerCall n) (s.calls.filter fun c => within s.station.window c.time n) with
    | some k => exact Or.inl ⟨k, rfl, rfl⟩
    | none =>
      refine Or.inr ⟨fun c hc => ?_, ?_⟩
      · have := List.filter_eq_nil_iff.mp (best_none.mp hb) c hc
        simpa using this
      · simp only
        by_cases hl : s.calls.length < Config.callQueueDepth
        · exact Or.inl ⟨hl, if_pos hl⟩
        · refine Or.inr ⟨Nat.le_of_not_lt hl, ?_⟩
          rw [if_neg hl]
          unfold State.displaceOrDrop
          cases hw : best weakerCall (s.calls.filter fun c => !c.isOnLine) with
          | none => exact Or.inl ⟨rfl, rfl⟩
          | some w =>
            refine Or.inr ⟨w, rfl, ?_⟩
            simp only
            by_cases he : w.energy < e
            · exact Or.inl ⟨he, if_pos he⟩
            · exact Or.inr ⟨Nat.le_of_not_lt he, if_neg he⟩

/-! ### What insertions and code pairs keep -/

/-- A property that placing a candidate keeps survives an evaluation. -/
theorem State.evaluate_keeps {P : State → Prop}
    (h : ∀ (s : State) (n : SampleTime) (e : Nat), s.mode = .run → P s → P (s.placeCandidate n e))
    (s : State) (n : SampleTime) (hs : P s) : P (s.evaluate n) := by
  rcases State.evaluate_cases s n with h1 | ⟨hr, e, -, -, h1⟩ <;> rw [h1]
  · exact hs
  · exact h s n e hr hs

/-- A property that the parts of an insertion keep survives the insertion. -/
theorem State.insertHit_keeps {P : State → Prop}
    (hc : ∀ (s : State) (n : SampleTime) (e : Nat), s.mode = .run → P s → P (s.placeCandidate n e))
    (hp : ∀ (s : State) (h : Hit), s.hits.length < Config.hitStoreDepth → P s →
      P { s with hits := placeHit h s.hits })
    (he : ∀ (s : State) (h e : Hit) (rest : List Hit), Config.hitStoreDepth ≤ s.hits.length →
      placeHit h s.hits = e :: rest → P s → P (s.evict e rest))
    (s : State) (h : Hit) (hs : P s) : P (s.insertHit h) := by
  rcases State.insertHit_cases s h with ⟨hl, e⟩ | ⟨hl, e, rest, hr, ⟨h1, -⟩ | ⟨h1, -⟩⟩
  · rw [e]; exact State.evaluate_keeps hc _ _ (hp s h hl hs)
  · rw [h1]; exact he s h e rest hl hr hs
  · rw [h1]; exact State.evaluate_keeps hc _ _ (he s h e rest hl hr hs)

/-- A property that insertions keep, and that does not speak of the channels, the pool, HITS and the sticky
flags, survives a code pair. -/
theorem State.handlePair_keeps {P : State → Prop}
    (hf : ∀ (s : State) (ch : Vector Channel 8) (pool : Vector Slot 32) (hc : Vector Nat 8)
      (rf sf : Vector Bool 8), P s →
        P { s with channels := ch, pool := pool, hitCounts := hc, rangeFlags := rf, satFlags := sf })
    (hi : ∀ (s : State) (h : Hit), P s → P (s.insertHit h))
    (s : State) (c : Fin 8) (hi' lo : BitVec 12) (hs : P s) : P (s.handlePair c hi' lo) := by
  have key : ∀ (u : State) (n : ContextName), P u → P (u.completeContext c n) := by
    intro u n hu
    rcases State.completeContext_cases u c n with ⟨x, hx, hg⟩ | ⟨-, e⟩
    · rw [State.completeContext_done u c n x hx hg]
      exact hi _ _ (hf u _ _ _ _ _ hu)
    · rw [e]; exact hu
  have hproc : ∀ (u : State) (y : Sample), P u → P (u.takePulse c y) := by
    intro u y hu
    unfold State.takePulse
    split
    · rw [State.processSample_eq]
      refine key _ _ (key _ _ ?_)
      rw [(State.afterTaking_frame u c y).1]
      exact hf u _ _ u.hitCounts u.rangeFlags u.satFlags hu
    · exact hf u _ u.pool u.hitCounts u.rangeFlags u.satFlags hu
  unfold State.handlePair
  refine hf _ _ (State.takePulse _ c _).pool (State.takePulse _ c _).hitCounts
    (State.takePulse _ c _).rangeFlags (State.takePulse _ c _).satFlags (hproc _ _ ?_)
  exact hf s _ s.pool s.hitCounts s.rangeFlags s.satFlags hs

/-! ### The ON_LINE call -/

theorem Call.isOnLine_iff (c : Call) : c.isOnLine = true ↔ c.state ≠ .waiting := by
  cases h : c.state <;> simp [Call.isOnLine, h]

theorem Call.isOnLine_eq (c : Call) : c.isOnLine = decide (c.state ≠ .waiting) := by
  cases h : c.state <;> simp [Call.isOnLine, h]

@[simp] theorem Call.returned_isOnLine (c : Call) : c.returned.isOnLine = false := rfl
@[simp] theorem Call.returned_time (c : Call) : c.returned.time = c.time := rfl
@[simp] theorem Call.raise_time (c : Call) (e : Nat) : (c.raise e).time = c.time := rfl
@[simp] theorem Call.raise_isOnLine (c : Call) (e : Nat) : (c.raise e).isOnLine = c.isOnLine := rfl

/-- A call given back is what the statements say (R80, R83). -/
theorem State.callBack_returnCall (s : State) : s.callBack s.returnCall := by
  constructor
  · intro h
    have : s.returnCall = { s with calls := s.calls.map fun c => if c.isOnLine then c.returned else c } :=
      if_neg h
    rw [this]
    exact ⟨rfl, rfl⟩
  · intro h
    have : s.returnCall = s.lapseOnLine := if_pos h
    rw [this]
    exact ⟨rfl, State.counted_count _ _ _⟩

end Sys2Proof.Machine
end

