-- ==== Sys2Proof/Laws/Sampling.lean ====
section
/-! SUPPORT. The handling of one sample in the terms of the statements: the crossing it declares, the state
in which the crossing has been acted upon, and the samples that an opened context and its slot hold (R18,
R24 to R29, R36 to R38). -/

namespace Sys2Proof.Machine

/-! ### The declared crossing -/

/-- The discriminator declares what the rules of its four states give (R20 to R24). -/
theorem Channel.discriminate_declares (k : Channel) (now : SampleTime) :
    (k.discriminate now (k.ringAt now).u).2 = k.declares now := by
  unfold Channel.discriminate Channel.declares
  cases k.disc with
  | below =>
    simp only [Channel.discBelow, Channel.freshKind]
    split
    · rw [if_neg (by omega)]
    · split
      · split
        · rw [if_pos (by omega)]
        · rw [if_neg (by omega)]
      · rw [if_neg (by omega)]
  | pending n count m =>
    simp only [Channel.discPending, Channel.freshKind]
    split
    · rw [if_neg (by omega)]
    · split
      · rw [if_pos (by omega)]
      · rw [if_neg (by omega)]
  | rising p =>
    simp only [Channel.discRising]
    repeat' split
    all_goals rfl
  | falling v =>
    simp only [Channel.discFalling]
    split
    · rw [if_neg (by omega)]
    · split
      · rw [if_pos (by omega)]
      · rw [if_neg (by omega)]

/-! ### The ring written, and the crossing acted upon -/

theorem State.ringWritten_channels (s : State) (c d : Fin 8) (hi lo : BitVec 12) :
    (s.ringWritten c hi lo).channels[d] =
      if d = c then s.channels[c].writeRing s.now (unifiedSample s.channels[c] hi lo)
      else s.channels[d] :=
  s.modifyChannel_channels c d _

theorem State.ringWritten_frame (s : State) (c : Fin 8) (hi lo : BitVec 12) :
    s.ringWritten c hi lo = { s with channels := (s.ringWritten c hi lo).channels } := rfl

/-- The ring then holds the unified sample at the present sample time (R7). -/
theorem State.ringWritten_ringAt (s : State) (c : Fin 8) (hi lo : BitVec 12) :
    (s.ringWritten c hi lo).channels[c].ringAt s.now = unifiedSample s.channels[c] hi lo := by
  rw [State.ringWritten_channels, if_pos rfl, Channel.ringAt_writeRing, if_pos rfl]

/-- Acting on a crossing does not look at the discriminator: the contexts and the pool come out alike. -/
theorem State.actOnCrossing_withDisc (s : State) (c : Fin 8) (x : Crossing) (d : Discriminator) :
    let s' := s.modifyChannel c fun k => { k with disc := d }
    (∀ n, (s'.actOnCrossing c x).channels[c].ctx n = (s.actOnCrossing c x).channels[c].ctx n) ∧
      (s'.actOnCrossing c x).pool = (s.actOnCrossing c x).pool := by
  intro s'
  have hk : s'.channels[c] = { s.channels[c] with disc := d } := State.modifyChannel_get s c _
  have ho : ∀ n, (∀ m, (s'.openContext c n x).channels[c].ctx m = (s.openContext c n x).channels[c].ctx m) ∧
      (s'.openContext c n x).pool = (s.openContext c n x).pool := by
    intro n
    obtain ⟨-, -, h3, h4⟩ := State.openContext_spec s' c n x
    obtain ⟨-, -, g3, g4⟩ := State.openContext_spec s c n x
    have e1 : s'.channels[c].ctx (otherContext n) = s.channels[c].ctx (otherContext n) := by
      rw [hk]; cases n <;> rfl
    have e2 : ∀ b, s'.openedContext c x b = s.openedContext c x b := by
      intro b
      have : s'.pool = s.pool := rfl
      unfold State.openedContext State.slotForOpening
      rw [hk, this]
    have e3 : ∀ (z : OpenContext) (t : SampleTime) (is : List Nat),
        z.takeRing s'.channels[c] t is = z.takeRing s.channels[c] t is := by
      intro z t is; rw [hk]; rfl
    have e4 : s'.poolAfterRequest c = s.poolAfterRequest c := by
      have : s'.pool = s.pool := rfl
      unfold State.poolAfterRequest State.slotForOpening
      rw [hk, this]
    have e5 : s'.now = s.now := rfl
    rw [e1, e2, e5] at h4
    rw [e1, e2, e3, e5] at h3
    refine ⟨fun m => ?_, ?_⟩
    · rw [h3, g3, hk]; cases n <;> cases m <;> rfl
    · rw [h4, g4, e4, hk]; rfl
  have h1 : s'.channels[c].ctxA = s.channels[c].ctxA := by rw [hk]
  have h2 : s'.channels[c].ctxB = s.channels[c].ctxB := by rw [hk]
  unfold State.actOnCrossing
  rw [h1, h2]
  cases s.channels[c].ctxA with
  | none => exact ho .a
  | some a =>
    cases s.channels[c].ctxB with
    | none => exact ho .b
    | some b =>
      refine ⟨fun n => ?_, rfl⟩
      simp only
      rw [(State.mergeCrossing_spec s' c a b).2.2, (State.mergeCrossing_spec s c a b).2.2, hk]
      cases n <;> rfl

/-- The contexts and the pool after the first two stages of R18 are those of the declared crossing acted
upon. -/
theorem State.crossed_afterCrossing (s : State) (c : Fin 8) (hi lo : BitVec 12) :
    let v := s.ringWritten c hi lo
    let y := unifiedSample s.channels[c] hi lo
    (∀ n, (v.afterCrossing c y).channels[c].ctx n = (s.crossed c hi lo).channels[c].ctx n) ∧
      (v.afterCrossing c y).pool = (s.crossed c hi lo).pool := by
  intro v y
  have hd : (v.declared c y).2 = v.channels[c].declares s.now := by
    have := v.channels[c].discriminate_declares s.now
    rw [State.ringWritten_ringAt] at this
    exact this
  have hm : v.mode = s.mode := rfl
  have hb : ∀ n, (v.modifyChannel c fun k => { k with disc := (v.declared c y).1 }).channels[c].ctx n =
      v.channels[c].ctx n := by
    intro n; rw [State.modifyChannel_get]; cases n <;> rfl
  unfold State.afterCrossing State.crossed
  simp only
  rw [hd, hm]
  split
  · rename_i h; rw [h]; exact ⟨hb, rfl⟩
  · rename_i x h
    rw [h]
    simp only
    split
    · exact State.actOnCrossing_withDisc v c x _
    · exact ⟨hb, rfl⟩

/-- Where the Pulse Processor runs, a code pair does what its four stages do to the ring-written station, and
moves the trackers (R1, R18, R19). -/
theorem State.handlePair_active (s : State) (c : Fin 8) (hi lo : BitVec 12) (hm : s.mode ≠ .setup)
    (he : s.channels[c].items.enable = true) :
    let p := (s.ringWritten c hi lo).processSample c (unifiedSample s.channels[c] hi lo)
    s.handlePair c hi lo =
      p.modifyChannel c fun k => k.settleTrackers (unifiedSample s.channels[c] hi lo).u hi lo := by
  have hr : (s.ringWritten c hi lo).discRuns c = true := by
    unfold State.discRuns State.active
    rw [State.ringWritten_channels, if_pos rfl, show (s.ringWritten c hi lo).mode = s.mode from rfl]
    simp only [Bool.and_eq_true, bne_iff_ne, ne_eq, hm, not_false_iff, and_true]
    exact he
  have hp : (s.ringWritten c hi lo).takePulse c (unifiedSample s.channels[c] hi lo) =
      (s.ringWritten c hi lo).processSample c (unifiedSample s.channels[c] hi lo) := if_pos hr
  have h : s.handlePair c hi lo =
      ((s.ringWritten c hi lo).takePulse c (unifiedSample s.channels[c] hi lo)).modifyChannel c
        fun k => k.settleTrackers (unifiedSample s.channels[c] hi lo).u hi lo := rfl
  rw [h, hp]

/-- What a code pair leaves of a context where the Pulse Processor runs: the one that the declared crossing
leaves, the sample taken, and FREE at its last gate sample (R18, R29, R30). -/
theorem State.handlePair_ctx (s : State) (c : Fin 8) (hi lo : BitVec 12) (hm : s.mode ≠ .setup)
    (he : s.channels[c].items.enable = true) (n : ContextName) :
    (s.handlePair c hi lo).channels[c].ctx n =
      (((s.crossed c hi lo).channels[c].ctx n).map
        fun x => x.take s.now (unifiedSample s.channels[c] hi lo)).filter
          fun x => decide (x.gateLast ≠ s.now) := by
  have hs : ∀ (k : Channel) (u : Int), (k.settleTrackers u hi lo).ctx n = k.ctx n := by
    intro k u
    unfold Channel.settleTrackers
    split <;> cases n <;> rfl
  rw [State.handlePair_active s c hi lo hm he, State.modifyChannel_get, hs,
    (State.processSample_channels _ c _).2.2 n, (State.crossed_afterCrossing s c hi lo).1 n]
  rfl

/-- The pool after the third stage of R18: each OPEN context's slot has been fed, A's first (R29, R38). -/
theorem State.afterTaking_pool (s : State) (c : Fin 8) (hi lo : BitVec 12) :
    ((s.ringWritten c hi lo).afterTaking c (unifiedSample s.channels[c] hi lo)).pool =
      feedSlot (feedSlot (s.crossed c hi lo).pool
          ((s.crossed c hi lo).channels[c].ctxA.bind OpenContext.slot)
          (unifiedSample s.channels[c] hi lo).u)
        ((s.crossed c hi lo).channels[c].ctxB.bind OpenContext.slot)
        (unifiedSample s.channels[c] hi lo).u := by
  obtain ⟨h1, h2⟩ := State.crossed_afterCrossing s c hi lo
  unfold State.afterTaking
  rw [State.takeSample_pool, State.takeSample_channels, if_pos rfl, State.takeSample_pool,
    Channel.ctx_setCtx_ne _ _ (by decide), h1 .a, h1 .b, h2]
  simp only [Channel.ctx]
  cases (s.crossed c hi lo).channels[c].ctxA <;> cases (s.crossed c hi lo).channels[c].ctxB <;> rfl

/-- An insertion neither reads nor writes the channels, HITS and the sticky flags of the channels. -/
theorem State.insertHit_aside (s : State) (h : Hit) (ch : Vector Channel 8) (hc : Vector Nat 8)
    (rf sf : Vector Bool 8) :
    State.insertHit { s with channels := ch, hitCounts := hc, rangeFlags := rf, satFlags := sf } h =
      { s.insertHit h with channels := ch, hitCounts := hc, rangeFlags := rf, satFlags := sf } := by
  have he : ∀ (w : State) (n : SampleTime),
      State.evaluate { w with channels := ch, hitCounts := hc, rangeFlags := rf, satFlags := sf } n =
        { w.evaluate n with channels := ch, hitCounts := hc, rangeFlags := rf, satFlags := sf } := by
    intro w n
    simp only [State.evaluate, State.placeCandidate, State.displaceOrDrop]
    repeat' split
    all_goals rfl
  unfold State.insertHit
  simp only
  cases placeHit h s.hits with
  | nil => rfl
  | cons e rest =>
    simp only
    split
    · split
      · rfl
      · exact he (s.evict e rest) _
    · exact he { s with hits := e :: rest } _

/-! ### What an opened context and its slot hold -/

@[simp] theorem Channel.ringSpan_length (k : Channel) (first : SampleTime) (n : Nat) :
    (k.ringSpan first n).length = n := by simp [Channel.ringSpan]

theorem Channel.ringSpan_succ (k : Channel) (first : SampleTime) (n : Nat) :
    k.ringSpan first (n + 1) = k.ringSpan first n ++ [k.ringAt (first + BitVec.ofNat 28 n)] := by
  simp [Channel.ringSpan, List.range_succ]

/-- A context that has taken the first samples of its gate, and takes the next one (R29). -/
theorem OpenContext.hasTaken_take (z : OpenContext) (g : List Sample) (y : Sample) (h : z.hasTaken g)
    (hn : g.length < 2 ^ 28) :
    (z.take (z.gateFirst + BitVec.ofNat 28 g.length) y).hasTaken (g ++ [y]) := by
  obtain ⟨i0, i1, i2, i3, i4, i5, i6⟩ := h
  have hoff : (z.gateFirst + BitVec.ofNat 28 g.length - z.gateFirst).toNat = g.length := by
    rw [BitVec.add_comm, BitVec.add_sub_cancel, BitVec.toNat_ofNat]
    exact Nat.mod_eq_of_lt hn
  by_cases hz : z.taken = 0
  · have hg : g = [] := List.length_eq_zero_iff.mp (i0 ▸ hz)
    subst hg
    simp [OpenContext.hasTaken, OpenContext.take, hz] at *
    simp [i1, i5, i6]
  · have hpk := i2 fun e => hz (by rw [i0, e]; rfl)
    have hpl : z.peakOffset < g.length := by simpa using (List.getElem?_eq_some_iff.mp hpk).1
    simp only [OpenContext.hasTaken, OpenContext.take, hz, if_false, hoff]
    refine ⟨by simp [i0], by simp [i1], fun _ => ?_, ?_, ?_, by simp [i5], by simp [i6]⟩
    · split
      · rename_i hlt
        simp [max_eq_right hlt.le]
      · rename_i hlt
        rw [max_eq_left (not_lt.mp hlt), List.map_append, List.getElem?_append_left (by simpa using hpl)]
        exact hpk
    · intro w hw
      rcases List.mem_append.mp hw with hw | hw
      · exact le_trans (i3 w hw) (le_max_left _ _)
      · rw [List.mem_singleton.mp hw]; exact le_max_right _ _
    · intro i w hi hw
      split at hi
      · rename_i hlt
        rw [List.getElem?_append_left hi] at hw
        exact lt_of_le_of_lt (i3 w (List.mem_of_getElem? hw)) (by rw [max_eq_right hlt.le]; exact hlt)
      · rw [List.getElem?_append_left (by omega)] at hw
        exact lt_of_lt_of_le (i4 i w hi hw) (le_max_left _ _)

/-- A context with nothing taken, fed the samples of a span of the ring, has taken exactly these (R28,
R29). -/
theorem OpenContext.takeRing_hasTaken (k : Channel) (x : OpenContext) (h0 : x.taken = 0)
    (h1 : x.accumulator = 0) (h2 : x.lowGain = false) (h3 : x.saturated = false) :
    ∀ n, n ≤ 2 ^ 28 → (x.takeRing k x.gateFirst (List.range n)).hasTaken (k.ringSpan x.gateFirst n) := by
  intro n
  induction n with
  | zero =>
    intro _
    refine ⟨h0, h1, fun h => absurd rfl h, ?_, ?_, h2, h3⟩
    · intro y hy; cases hy
    · intro i y _ hy; cases hy
  | succ n ih =>
    intro hn
    have ht : x.takeRing k x.gateFirst (List.range (n + 1)) =
        (x.takeRing k x.gateFirst (List.range n)).take (x.gateFirst + BitVec.ofNat 28 n)
          (k.ringAt (x.gateFirst + BitVec.ofNat 28 n)) := by
      simp [OpenContext.takeRing, List.range_succ]
    have hg : (x.takeRing k x.gateFirst (List.range n)).gateFirst = x.gateFirst := by
      rw [OpenContext.takeRing_sameRecord k x.gateFirst (List.range n) x]
    have := OpenContext.hasTaken_take _ _ (k.ringAt (x.gateFirst + BitVec.ofNat 28 n)) (ih (by omega))
      (by rw [Channel.ringSpan_length]; omega)
    rw [hg, Channel.ringSpan_length] at this
    rw [ht, Channel.ringSpan_succ]
    exact this

/-- A lent slot fed a list of samples holds the first 32 of what it held and these (R38). -/
theorem feedSlots_samples (i : Fin 32) (us : List Int) :
    ∀ (pool : Vector Slot 32) (xs : List Int), pool[i] = .lent xs → xs.length ≤ 32 →
      (us.foldl (fun p u => feedSlot p (some i) u) pool)[i] = .lent ((xs ++ us).take 32) := by
  induction us with
  | nil =>
    intro pool xs h hl
    simp only [List.foldl_nil, List.append_nil, List.take_of_length_le hl]
    exact h
  | cons u us ih =>
    intro pool xs h hl
    have hw : (feedSlot pool (some i) u)[i] =
        .lent (if xs.length < Config.slotDepth then xs ++ [u] else xs) := by
      rw [show (feedSlot pool (some i) u)[i] = _ from writeSlot_get pool i u, h]
    rw [List.foldl_cons, ih _ _ hw]
    · split
      · rw [List.append_assoc]; rfl
      · rename_i hn
        have : 32 ≤ xs.length := not_lt.mp hn
        rw [List.take_append_of_le_length (by omega), List.take_append_of_le_length (by omega)]
    · split
      · rename_i hlt; simpa using hlt
      · exact hl

end Sys2Proof.Machine
end

