-- ==== Sys2Proof/Tests/Slice0.lean ====
section
/-! SUPPORT. Tests of the model against the spec's own tables and worked sequences, and for every statement
with hypotheses a concrete state that meets them. A test's source stands in its comment. -/

namespace Sys2Proof.Tests

open Sys2Proof Sys2Proof.Machine

/-! ### Small states -/

/-- The state an outcome leaves, if it is a next state. -/
def after (o : Host.Outcome State Fault Refusal) : Option State :=
  match o with
  | .next t => some t
  | _ => none

/-- A station in RUN at sample `n` after its start word, with the line IDLE. -/
def running (n : Nat) : State :=
  { State.reset with
    mode := .run
    now := BitVec.ofNat 28 n
    awaitsEdge := false
    hold := { notRun := false, queueHold := false, listHold := false, drive := false }
    line := { Line.reset with view := .idle }
    link := { Link.reset with startOwed := false, sending := .nothing } }

/-- A station in DRAIN at sample `n`. -/
def draining (n : Nat) : State :=
  { running n with mode := .drain, hold := { notRun := true, queueHold := false, listHold := false, drive := true } }

/-- A station in SETUP at sample `n`, after its start word. -/
def configuring (n : Nat) : State :=
  { State.reset with
    now := BitVec.ofNat 28 n
    awaitsEdge := false
    link := { Link.reset with startOwed := false, sending := .nothing } }

/-- A hit record of energy `e` with crossing sample `n` and the given slot. -/
def hitAt (n e : Nat) (slot : Option (Fin 32)) (len : Nat) : Hit :=
  { channel := 1
    crossing := BitVec.ofNat 28 n
    delta := 0
    time := BitVec.ofNat 32 (16 * n)
    charge := e
    energy := e
    peak := 500
    peakOffset := 3
    pileup := 0
    flags :=
      { lowGain := false, sat := false, pileup := false, merged := false, coarseTime := true, qLow := false
        qHigh := false, eHigh := false, waveLost := false, waveOmitted := false }
    slot := slot
    waveLength := len
    selected := false }

/-- A WAITING call. -/
def callAt (n e retry : Nat) : Call := { time := BitVec.ofNat 28 n, energy := e, retry := retry, state := .waiting }

/-- A listed seed with no mark. -/
def seedAt (number n : Nat) : Seed :=
  { number := BitVec.ofNat 16 number
    time := BitVec.ofNat 28 n
    energy := 512
    origin := 9
    own := false
    lostAfter := 0
    closed := false
    late := false
    stale := false }

/-- A frame at a position, begun at `base`, as a role. -/
def frameAt (base position : Nat) (role : Role) : Frame :=
  { base := BitVec.ofNat 28 base
    position := position
    role := role
    bits := 0
    checkMismatch := false
    readbackMismatch := false
    objection := none
    settled := false }

/-- The line in a frame, with own bits and a reading. -/
def inFrame (f : Frame) (own : Option (BitVec 36)) (reading : Option Bool) : Line :=
  { Line.reset with view := .frame f, ownFrame := own, bitRead := reading }

/-- A command word waits at the head of the Command Queue. -/
def withHead (s : State) (w : Word) : State := { s with commands := [w] }

/-! ### Well-formedness and decoding -/

/-- A code pair on a ninth channel is ill formed. -/
theorem test_wf_refuses_channel_8 : (Instr.codePairArrival 8 0 0).wf = false := by decide

/-- A code pair on the eighth channel is well formed, and on the ninth it faults. -/
theorem test_wf_channel_7 : (Instr.codePairArrival 7 0 0).wf = true := by decide

/-- SET THRESHOLD of channel 2 to 500: kind 0001, channel 0010, item 000111, value 500 (section 11.3). -/
theorem test_decode_set :
    decodeCommand 0b0001_0010_000111_000000000111110100#32 =
      some { kind := .set, channel := 2, item := 7, value := 500 } := by decide

/-- READ_ITEM WINDOW: kind 0010, item 100001 (section 11.3). -/
theorem test_decode_readItem :
    decodeCommand 0b0010_0000_100001_000000000000000000#32 =
      some { kind := .readItem, channel := 0, item := 33, value := 0 } := by decide

/-- The kinds without operands, 3 to 9 (section 11.3). -/
theorem test_decode_kinds :
    ([0x30000000#32, 0x40000000#32, 0x50000000#32, 0x60000000#32, 0x70000000#32, 0x80000000#32,
        0x90000000#32].map fun w => (decodeCommand w).map CommandWord.kind) =
      [some .start, some .stop, some .readStatus, some .clearCounters, some .linkPause, some .linkResume,
        some .resetStation] := by decide

/-- A kind of 0 and one of 10 name no command (R184). -/
theorem test_decode_unknown : decodeCommand 0#32 = none ∧ decodeCommand 0xA0000000#32 = none := by decide

/-- The items either side of the two runs of codes that name none (R184). -/
theorem test_item_codes :
    itemOfCode 14 = some (.channel .waveMode) ∧ itemOfCode 15 = none ∧ itemOfCode 31 = none ∧
      itemOfCode 32 = some (.station .seedThreshold) ∧ itemOfCode 38 = some (.station .solo) ∧
      itemOfCode 39 = none := by decide

/-! ### Channels and hits -/

/-- Channel 5 of section 1.7.1 with its two trackers. -/
def tracking (n : Nat) (hi lo : Int) : State :=
  (running n).modifyChannel 5 fun k =>
    { k with items := { k.items with trackShift := 3 }, trackHi := hi, trackLo := lo }

/-- Section 1.7.1, sample 2000: u = 40, and the trackers go to 805 and 798. -/
theorem test_codePair_quiet :
    (after (exec (.codePairArrival 5 210 195) (tracking 2000 800 800))).map (fun t =>
      (t.channels[5].trackHi, t.channels[5].trackLo, (t.channels[5].ringAt 2000).u)) =
      some (805, 798, 40) := by decide

/-- A code pair before the first edge after the release is not handled; the one after that edge is, and its
sample time is 1 (R160, R163). -/
theorem test_codePair_first_edge :
    ((after (exec (.codePairArrival 5 210 200) State.reset)).map fun t => (t.channels[5].ringAt 0).u,
      ((after (exec (.timebaseAdvance false true) State.reset)).bind fun t =>
        after (exec (.codePairArrival 5 210 200) t)).map fun t => (t.channels[5].ringAt 1).u) =
      (some 0, some 40) := by decide

/-- Section 1.7.1, sample 2003: u = 467 makes the candidate 2003 and moves no tracker. -/
theorem test_codePair_pending :
    (after (exec (.codePairArrival 5 320 195) (tracking 2003 813 794))).map (fun t =>
      (t.channels[5].trackHi, t.channels[5].trackLo, t.channels[5].disc)) =
      some (813, 794, .pending 2003 1 467) := by decide

/-- Section 1.7.2, cases b and c: the low-gain path with its rounding and its marks. -/
theorem test_unifiedSample :
    unifiedSample { Channel.reset with trackLo := 792, items := { ChannelItems.reset with gainRatio := 4100 } }
        3950 1000 = { u := 51378, lowGain := true, saturated := false } ∧
      unifiedSample { Channel.reset with trackLo := 792 } 4095 4095 =
        { u := 249408, lowGain := true, saturated := true } := by decide

/-- The context of section 3.8.1 after its sample 107. -/
def pulseContext : OpenContext :=
  { crossing := 103
    kind := .fresh 248 1440
    gateFirst := 101
    gateLast := 108
    taken := 7
    accumulator := 9100
    peak := 2800
    peakOffset := 3
    pileup := 0
    pileupFlag := false
    merged := false
    waveLost := false
    lowGain := false
    saturated := false
    slot := none }

/-- Channel 3 of section 3.8.1 at sample 108, in RUN. -/
def pulse : State :=
  (running 108).modifyChannel 3 fun k =>
    { k with
      items := { k.items with pedMode := .fixed, gateWidth := 6, calib := 20480 }
      disc := .falling 840
      ctxA := some pulseContext }

/-- Section 3.8.1, sample 108: the record in the Hit Store, and HITS. -/
theorem test_completion :
    (after (exec (.codePairArrival 3 300 200) pulse)).map (fun t =>
      (t.hits.map (fun h => (h.delta, h.time, h.charge, h.energy)), t.hitCounts[3],
        t.channels[3].ctxA.isNone)) = some ([(13, 1635, 2375, 2969)], 1, true) := by decide

/-- Section 3.8.2: charge and energy of a saturating shower, and the limited energy at C = 20480. -/
theorem test_charge_and_energy :
    roundedCharge 2 735800 = 183950 ∧ limitedCharge 183950 = 65535 ∧ roundedEnergy 16384 65535 = 65535 ∧
      limitedEnergy (roundedEnergy 20480 65535) = 65535 ∧ roundedEnergy 20480 65535 = 81919 := by decide

/-- Section 3.8.3: a charge on an undershoot rounds to -300, and -2 to 0. -/
theorem test_negative_charge :
    roundedCharge 2 (-1200) = -300 ∧ limitedCharge (-300) = 0 ∧ roundedCharge 2 (-2) = 0 := by decide

/-- Section 4.8.1, the later of two marks. -/
theorem test_evict_mark :
    raiseEvictMark (some 19990) 20000 = some 20000#28 ∧ raiseEvictMark (some 20003) 20000 = some 20003#28 := by
  decide

/-- Section 5.8.2: candidate t displaces q, the earlier of the two weakest. -/
theorem test_displacement :
    ({ running 5100 with
        station := { StationItems.reset with seedThreshold := 100 }
        calls := [{ callAt 5000 310 1 with state := .onLine 300 }, callAt 5020 140 0, callAt 5040 140 0,
          callAt 5060 420 0] }.placeCandidate 5090 150).calls =
      [{ callAt 5000 310 1 with state := .onLine 300 }, callAt 5040 140 0, callAt 5060 420 0,
        callAt 5090 150 0] := by decide

/-- Section 5.8.2: candidate e = 600 at 5044 raises r. -/
theorem test_raise :
    ({ running 5100 with calls := [callAt 5040 140 0, callAt 5060 420 0] }.placeCandidate 5044 600).calls =
      [callAt 5040 600 0, callAt 5060 420 0] := by decide

/-! ### The timebase and what grows too old -/

/-- The timebase wraps at 2^28 (section 6.2). -/
theorem test_advance_wraps :
    (after (exec (.timebaseAdvance false false) (running 268435455))).map State.now = some 0 := by decide

/-- The read 4 above a boundary raises the dominant run and clears the other (R90). -/
theorem test_advance_reads :
    (after (exec (.timebaseAdvance true false) { running 3 with line.recessiveRun := 7 })).map (fun t =>
      (t.line.dominantRun, t.line.recessiveRun, t.line.bitRead)) = some (1, 0, some true) := by decide

/-- TZ in SETUP zeroes the timebase, and the edge's advance then leaves it at 0 (R164). -/
theorem test_tz_in_setup :
    ((after (exec (.tzSample true) (configuring 77))).bind fun t =>
      after (exec (.timebaseAdvance false true) t)).map State.now = some 0 := by decide

/-- TZ newly asserted in RUN counts TZ_IGNORED and moves no time (R164). -/
theorem test_tz_in_run :
    (after (exec (.tzSample true) (running 77))).map (fun t => (t.now, t.counter .tzIgnored)) =
      some (77, 1) := by decide

/-- Section 4.8.3: an age of 4096 keeps the hit, 4097 lets it go, uncounted when it is selected. -/
theorem test_hitExpiry :
    (after (exec .hitExpiry { running 24099 with hits := [hitAt 20003 450 none 0] })).map (fun t =>
        t.hits.length) = some 1 ∧
      (after (exec .hitExpiry
        { running 24100 with hits := [{ hitAt 20003 450 none 0 with selected := true }] })).map (fun t =>
        (t.hits.length, t.counter .hitsExpiredUnselected)) = some (0, 0) := by decide

/-- Section 4.8.3: the mark 20,003 is withdrawn at 24,100 and not before. -/
theorem test_evictMarkWithdrawal :
    ((after (exec .evictMarkWithdrawal { running 24099 with evictMark := some 20003 })).map State.evictMark,
      (after (exec .evictMarkWithdrawal { running 24100 with evictMark := some 20003 })).map State.evictMark) =
      (some (some 20003), some none) := by decide

/-- A call lapses when its age exceeds CALL_DEADLINE, 1024 by default (R82). -/
theorem test_callLapse :
    (after (exec .callLapse { running 2025 with calls := [callAt 1000 5 0, callAt 1001 5 0] })).map (fun t =>
      (t.calls, t.counter .callsLapsed)) = some ([callAt 1001 5 0], 1) := by decide

/-! ### Seeds and fragments -/

/-- Section 4.8.2: with W = 8 and G_max = 63 the seed at 20,005 closes at 20,084. -/
theorem test_seedClosed :
    ((after (exec .seedClosed { running 20083 with gMax := 63, seeds := [seedAt 0 20005] })).map fun t =>
        t.seeds.map Seed.closed,
      (after (exec .seedClosed { running 20084 with gMax := 63, seeds := [seedAt 0 20005] })).map fun t =>
        t.seeds.map Seed.closed) = (some [false], some [true]) := by decide

/-- Section 7.9.2: at 206,060 seed 46, at 201,962, is late and not stale. -/
theorem test_late_and_stale :
    ((after (exec .seedLateMark { running 206060 with seeds := [seedAt 46 201962] })).map fun t =>
        t.seeds.map Seed.late,
      (after (exec .seedStaleMark { running 206060 with seeds := [seedAt 46 201962] })).map fun t =>
        t.seeds.map Seed.stale) = (some [true], some [false]) := by decide

/-- Section 7.9.1: which of the five waveforms fit the 37 words left. -/
theorem test_fitWaveforms :
    (fitWaveforms State.reset.pool 37 false [hitAt 80395 9 (some 0) 18, hitAt 80397 9 (some 1) 11,
      hitAt 80401 9 (some 2) 18, hitAt 80402 9 none 0, hitAt 80406 9 (some 3) 6]).map HitCopy.omitted =
      [false, false, true, false, true] := by decide

/-- Seed 40 of section 7.9.2 at the head, late and without hits; the link is paused. -/
def blockedHead : State :=
  { running 205910 with
    slot := 6
    seeds := [{ seedAt 40 199994 with closed := true, late := true }]
    readout := [[0, 0]]
    link := { (running 0).link with paused := true } }

/-- The build of seed 40: header words of R179 with LATE, slot 6, energy 512, origin 9. -/
theorem test_fragmentBuild :
    (after (exec .fragmentBuild blockedHead)).map (fun t =>
      (t.seeds, t.readout.getLast?, t.counter .fragmentsBuilt)) =
      some ([], some [0x16800000, 0x00282009, 0x0030D3A0], 1) := by decide

/-! ### The SEED line -/

/-- The bits of section 6.13.1 for the call of energy 300 at 20,470 in slot 2. -/
def frame20470 : BitVec 36 := 0b0001_0010_1100_1101_0100_1111_1111_0110_0010#36

/-- Section 6.13.1: the frame station 2 drives, and the time rebuilt at 20,904. -/
theorem test_ownFrameBits :
    ownFrameBits 2 300 20470 = frame20470 ∧ checkDiffers frame20470 = false ∧
      rebuildTime 20904 (frameTime frame20470) = 20470 := by decide

/-- Section 6.13.2: the frame read when the winner is reset disagrees with its check. -/
theorem test_check_mismatch :
    checkDiffers 0b0001_0010_1100_1101_0100_1111_0000_0000_0000#36 = true := by decide

/-- Section 6.13.1: at boundary 20,600 station 2 drives the start bit for its call. -/
theorem test_frameStart :
    (after (exec (.frameStart false) { running 20600 with slot := 2, calls := [callAt 20470 300 0] })).map
        (fun t => (t.line.ownFrame, t.line.drive, t.calls)) =
      some (some frame20470, true, [{ callAt 20470 300 0 with state := .onLine 300 }]) := by decide

/-- No frame is started while HOLD is observed asserted (R98). -/
theorem test_frameStart_held :
    (after (exec (.frameStart true) { running 20600 with calls := [callAt 20470 300 0] })).map
      (fun t => t.line.drive) = some false := by decide

/-- Section 6.13.1: the read at 20,604 gives the frame base 20,600; a station that drives nothing listens. -/
theorem test_startBitHeard :
    (after (exec .startBitHeard { running 20604 with line.bitRead := some true })).map (fun t => t.line.view) =
      some (.frame (frameAt 20600 0 .listener)) := by decide

/-- A driven start bit read recessive gives the call back, its retry count as it was (R99, R80). -/
theorem test_startBitRecessive :
    (after (exec .startBitRecessive
      { running 20604 with
        calls := [{ callAt 20470 300 2 with state := .onLine 300 }]
        line := { Line.reset with
          view := .idle, ownFrame := some frame20470, drive := true, bitRead := some false } })).map (fun t =>
      (t.line.view, t.calls)) = some (.idle, [callAt 20470 300 2]) := by decide

/-- Section 6.13.1: station 5, rank 10, drives 0 at position 14 and reads 1: it loses. -/
theorem test_arbitrationLost :
    (after (exec .arbitrationLost
      { running 20716 with
        calls := [{ callAt 20476 300 0 with state := .onLine 300 }]
        line := inFrame (frameAt 20600 14 .caller) (some (ownFrameBits 5 300 20476)) (some true) })).map
      (fun t => (t.line.view, t.calls)) =
      some (.frame (frameAt 20600 14 .listener), [callAt 20476 300 0]) := by decide

/-- Section 6.13.2: at boundary 20,896 a listener with a check mismatch objects. -/
theorem test_objectionRaised :
    (after (exec .objectionRaised
      { running 20896 with
        line := inFrame { frameAt 20600 37 .listener with checkMismatch := true } none none })).map (fun t =>
      (t.line.drive, t.counter .objectionsRaised)) = some (true, 1) := by decide

/-- A winner's fourth discard abandons its call (R80). -/
theorem test_framesDiscarded :
    (after (exec .framesDiscarded
      { running 20904 with
        calls := [{ callAt 20470 300 3 with state := .onLine 300 }]
        line := inFrame { frameAt 20600 38 .winner with objection := some true } none none })).map (fun t =>
      (t.calls, t.counter .framesDiscarded, t.counter .callsAbandoned)) = some ([], 1, 1) := by decide

/-- A frame accepted at 20,904, as section 6.13.1 has it read. -/
def acceptedFrame : Frame :=
  { frameAt 20600 38 .listener with bits := frame20470, objection := some false }

/-- Section 6.13.1: station 5 merges its call at 20,476, and the seed has energy 300 and origin 2. -/
theorem test_seedAccepted :
    (after (exec .seedAccepted
      { running 20904 with calls := [callAt 20476 300 0], line := inFrame acceptedFrame none none })).map
      (fun t => (t.calls, t.counter .callsMerged,
        t.seeds.map fun d => (d.time, d.energy, d.origin))) =
      some ([], 1, [(20470, 300, 2)]) := by decide

/-- Section 6.13.1: after position 40 read recessive, the boundary 20,928 brings IDLE. -/
theorem test_frameGapEnd :
    ((after (exec .frameGapEnd
      { running 20927 with line := inFrame (frameAt 20600 40 .listener) none (some false) })).bind fun t =>
        after (exec (.timebaseAdvance false false) t)).map (fun t => t.line.view) = some .idle := by decide

/-- A gap bit read dominant sends the view to JOIN with the recessive run at 0 (R93). -/
theorem test_dominantGapBit :
    (after (exec .dominantGapBit
      { running 20916 with line := inFrame (frameAt 20600 39 .winner) none (some true) })).map (fun t =>
      (t.line.view, t.line.recessiveRun)) = some (.join, 0) := by decide

/-- The 44th recessive read in JOIN marks the view for IDLE; the 43rd does not (R91). -/
theorem test_lineIdle :
    ([43, 44].map fun n =>
      (after (exec .lineIdle
        { running 20 with line := { Line.reset with bitRead := some false, recessiveRun := n } })).map
        fun t => t.line.toIdle) = [some false, some true] := by decide

/-- The 48th dominant read brings STUCK, counted once (R94). -/
theorem test_lineStuck :
    ([47, 48].map fun n =>
      (after (exec .lineStuck
        { running 20 with line := { Line.reset with bitRead := some true, dominantRun := n } })).map
        fun t => (t.line.view, t.counter .lineStuckEvents)) = [some (.join, 0), some (.stuck, 1)] := by decide

/-- A recessive read in STUCK brings JOIN (R94). -/
theorem test_stuckRelease :
    (after (exec .stuckRelease
      { running 20 with line := { Line.reset with view := .stuck, bitRead := some false } })).map
      (fun t => t.line.view) = some .join := by decide

/-! ### The link, the states and the Command Port -/

/-- The first word after reset is the start word, with the frame mark (R148, R178). -/
theorem test_linkWordSent_start :
    (after (exec .linkWordSent { State.reset with slot := 6 })).map (fun t => t.link) =
      some { startOwed := false, paused := false, sending := .nothing, response := []
             lastSent := some { word := 0x06000000, mark := true } } := by decide

/-- Section 8.5.2: the last word of a fragment while PAUSED; the response is chosen next. -/
theorem test_linkWordSent_paused :
    (after (exec .linkWordSent
      { running 9 with
        readout := [[7], [1, 2, 3]]
        link := { startOwed := false, paused := true, sending := .fragment 51, response := [5]
                  lastSent := none } })).map (fun t => (t.readout, t.link.sending)) =
      some ([[1, 2, 3]], .response 0) := by decide

/-- DRAIN with nothing left returns to SETUP and counts the unselected hits (R159, R70). -/
theorem test_drainReturn :
    (after (exec .drainReturn { draining 50 with hits := [hitAt 20 5 none 0] })).map (fun t =>
      (t.mode, t.hits, t.counter .hitsExpiredUnselected)) = some (.setup, [], 1) := by decide

/-- DRAIN with a listed seed stays (R158). -/
theorem test_drainReturn_waits :
    (after (exec .drainReturn { draining 50 with seeds := [seedAt 0 20] })).map State.mode =
      some .drain := by decide

/-- Section 9.8: the ninth word is discarded and counted. -/
theorem test_commandWordArrival :
    (after (exec (.commandWordArrival 0x30000000) { running 9 with commands := List.replicate 8 1 })).map
      (fun t => (t.commands.length, t.counter .cmdOverruns)) = some (8, 1) := by decide

/-- A PED_MODE of 2 is written as FIXED, noted, and loads the trackers (R184, R169, R14). -/
theorem test_set_clamps :
    (after (exec .set
      ((withHead (configuring 9) 0x12040002).modifyChannel 2 fun k => { k with trackHi := 900 }))).map
      (fun t => (t.channels[2].items.pedMode, t.channels[2].trackHi, t.configAdjusted)) =
      some (.fixed, 800, true) := by decide

/-- Section 9.8, c3: SET THRESHOLD in RUN is refused WRONG_STATE with its echo. -/
theorem test_set_in_run :
    (after (exec .set (withHead (running 9) 0x121C01F4))).map (fun t => (t.commands, t.link.response)) =
      some ([], [0x41000000, 0x121C01F4]) := by decide

/-- Section 9.8, c1: READ_ITEM WINDOW gives the value 8 (layout of R178). -/
theorem test_readItem :
    (after (exec .readItem (withHead (running 9) 0x20840000))).map (fun t => t.link.response) =
      some [0x30840008] := by decide

/-- Section 9.8, c5: READ_ITEM THRESHOLD of channel 9 is refused BAD_CHANNEL. -/
theorem test_readItem_bad :
    (after (exec .readItem (withHead (running 9) 0x291C0000))).map (fun t => t.link.response) =
      some [0x44000000, 0x291C0000] := by decide

/-- START enters RUN and releases HOLD; D = 4095 and W = 8 raise HORIZON to 4511 (R155, R156). -/
theorem test_start :
    (after (exec .start
      { withHead (configuring 9) 0x30000000 with
        station := { StationItems.reset with callDeadline := 4095 } })).map
      (fun t => (t.mode, t.hold.drive, t.station.horizon, t.hEff, t.configAdjusted)) =
      some (.run, false, 4511, 4511, true) := by decide

/-- Section 9.8, c6: STOP goes to DRAIN, HOLD is driven and WAITING calls lapse. -/
theorem test_stop :
    (after (exec .stop
      { withHead (running 9) 0x40000000 with calls := [callAt 5 100 0], seeds := [seedAt 0 100] })).map
      (fun t => (t.mode, t.hold.drive, t.calls, t.counter .callsLapsed)) =
      some (.drain, true, [], 1) := by decide

/-- Section 8.5.2: the status header with the occupancy 35 in RUN, view IDLE, fragment sending RUNNING. -/
theorem test_readStatus :
    (after (exec (.readStatus false)
      { withHead (running 9) 0x50000000 with readout := [List.replicate 35 0] })).map
      (fun t => (t.link.response.length, t.link.response.head?)) =
      some (28, some 0x20500023) := by decide

/-- CLEAR_COUNTERS with the response buffer full (section 9.8, c4). -/
theorem test_clearCounters :
    (after (exec .clearCounters
      { withHead (running 9).clearCounts 0x60000000 with
        link := { (running 9).link with response := [1, 2], sending := .response 0 }
        configAdjusted := true })).map (fun t => (t.commands, t.configAdjusted, t.link.response)) =
      some ([], false, [1, 2]) := by decide

/-- LINK_PAUSE lets the fragment that has begun go on (R150). -/
theorem test_linkPause :
    (after (exec .linkPause
      { withHead (running 9) 0x70000000 with
        readout := [[1, 2]], link := { (running 9).link with sending := .fragment 1 } })).map
      (fun t => (t.link.paused, t.link.sending)) = some (true, .fragment 1) := by decide

/-- Section 8.5.2: LINK_RESUME begins the waiting fragment. -/
theorem test_linkResume :
    (after (exec .linkResume
      { withHead (running 9) 0x80000000 with
        readout := [[1, 2, 3]], link := { (running 9).link with paused := true } })).map
      (fun t => (t.link.paused, t.link.sending)) = some (false, .fragment 0) := by decide

/-- RESET_STATION waits for its eighth edge and drives HOLD meanwhile (R161). -/
theorem test_resetStation :
    (after (exec .resetStation (withHead (running 9) 0x90000000))).map (fun t =>
      (t.inReset, t.resetEdges, t.hold.drive, t.commands)) = some (true, 8, true, []) := by decide

/-- RSTN_ASSERT discards what is under way and keeps the slot (R160). -/
theorem test_rstnAssert :
    (after (exec .rstnAssert { running 9 with slot := 6, calls := [callAt 5 100 0] })).map (fun t =>
      (t.inReset, t.calls, t.slot, t.mode)) = some (true, [], 6, .setup) := by decide

/-- RESET_RELEASE takes the straps as the slot number (R162), and owes the start word (R148). -/
theorem test_resetRelease :
    (after (exec (.resetRelease 11) ((running 9).enterReset true 0))).map (fun t =>
      (t.inReset, t.slot, t.link.sending)) = some (false, 11, .startWord) := by decide

/-- A word of all zeros is refused with UNKNOWN_COMMAND and echoed as zero (R184). -/
theorem test_unknownCommand :
    (after (exec .unknownCommand (withHead (running 9) 0))).map (fun t => t.link.response) =
      some [0x42000000, 0] := by decide

/-- The queue is first in, first out, and an empty one idles. -/
theorem test_step :
    ((after (step { running 9 with pending := [.tzSample true, .hitExpiry] })).map fun t =>
        (t.pending, t.tzSeen),
      (after (step (running 9))).map fun t => t.pending) = (some ([.hitExpiry], true), some []) := by decide

/-! ### Witnesses: states and operands that meet a statement's hypotheses

Each names the statement it stands for; a statement of several clauses has a part for each. -/

/-- The context that a busy station's channel 0 has open. -/
def busyContext : OpenContext :=
  { pulseContext with
    crossing := 1997, gateFirst := 1995, gateLast := 2010, pileup := 1, pileupFlag := true, slot := some 1 }

/-- A station in RUN with something in every part of it, sending a fragment. -/
def busy : State :=
  { (running 2000).modifyChannel 0 (fun k => { k with disc := .rising 900, ctxA := some busyContext }) with
    pending := [.linkWordSent]
    pool := ((Vector.replicate 32 Slot.free).set 0 (.held [1, 2])).set 1 (.lent [3])
    hits := [hitAt 1980 100 (some 0) 2, hitAt 1990 60 none 0]
    calls := [callAt 1950 100 0]
    seeds := [seedAt 0 1000, seedAt 1 1400]
    seedCounter := 2
    readout := [[7, 8], [9]]
    link := { (running 0).link with sending := .fragment 0 }
    commands := [0x20840000]
    counters := ((Vector.replicate 18 0).set 0 1).set 9 2 }

/-- A station in SETUP with a code pair waiting. -/
def setupBusy : State := { configuring 9 with pending := [.codePairArrival 3 400 200] }

/-- A station in reset with an edge waiting. -/
def resetting : State := { (running 9).enterReset false 8 with pending := [.timebaseAdvance false true] }

theorem busy_steps : ∃ t, step busy = .next t := ⟨_, rfl⟩

theorem setupBusy_steps : ∃ t, step setupBusy = .next t := ⟨_, rfl⟩

theorem resetting_steps : ∃ t, step resetting = .next t := ⟨_, rfl⟩

/-- The busy station with 9 seeds listed and LOW_MARK below its occupancy, both causes set. -/
def holding : State :=
  { busy with
    seeds := (List.range 9).map fun i => seedAt i (1000 + i)
    station := { StationItems.reset with lowMark := 2, highMark := 512 }
    hold := { notRun := false, queueHold := true, listHold := true, drive := true } }

/-- Both causes clear, both set, and a station in SETUP. -/
theorem witness_HoldFollowsCauses :
    busy.holdLaw ∧ busy.itemsInRange ∧ busy.causesLawful ∧ holding.holdLaw ∧ holding.itemsInRange ∧
      holding.causesLawful ∧ setupBusy.causesLawful := by
  refine ⟨⟨by decide, by decide⟩, ?_, ?_, ⟨by decide, by decide⟩, ?_, ?_, ?_⟩
  · unfold State.itemsInRange ChannelItems.inRange StationItems.inRange
    decide
  · unfold State.causesLawful
    decide
  · unfold State.itemsInRange ChannelItems.inRange StationItems.inRange
    decide
  · unfold State.causesLawful
    decide
  · unfold State.causesLawful
    decide

theorem witness_CollectionsKeepDepths : busy.depthsKept := by
  refine ⟨?_, ?_, ?_, ?_, ?_⟩ <;> decide

theorem busy_countersInRange : busy.countersInRange :=
  ⟨fun k => by cases k <;> decide, by decide⟩

theorem witness_ValuesStayInRange : busy.countersInRange ∧ busy.itemsInRange ∧ busy.trackersInRange := by
  refine ⟨busy_countersInRange, ?_, ?_⟩
  · unfold State.itemsInRange ChannelItems.inRange StationItems.inRange
    decide
  · unfold State.trackersInRange
    decide

theorem busy_contexts :
    ∀ c : Fin 8, (busy.channels[c].ctxA = none ∨ busy.channels[c].ctxA = some busyContext) ∧
      busy.channels[c].ctxB = none := by decide

theorem witness_PileupAndHitsConsistent : busy.pileupsLawful := by
  constructor
  · intro c name x h
    cases name
    · rcases (busy_contexts c).1 with k | k
      · exact absurd (k.symm.trans h) (by simp)
      · cases (k.symm.trans h)
        unfold OpenContext.pileupLaw
        decide
    · exact absurd ((busy_contexts c).2.symm.trans h) (by simp)
  · unfold Hit.lawful
    decide

theorem witness_HitStoreStaysOrdered : busy.storeOrdered := by
  unfold State.storeOrdered Hit.notLater
  decide

theorem busy_callsLawful : busy.callsLawful := by
  unfold State.callsLawful
  decide

theorem witness_CallQueueLawKept : busy.callsLawful ∧ setupBusy.callsLawful := by
  unfold State.callsLawful
  decide

theorem setupBusy_setupIdle : setupBusy.setupIdle := by
  unfold State.setupIdle
  decide

theorem witness_SetupStaysIdle : setupBusy.callsLawful ∧ setupBusy.setupIdle :=
  ⟨witness_CallQueueLawKept.2, setupBusy_setupIdle⟩

theorem witness_SlotsHaveOneHolder : busy.setupIdle ∧ busy.slotsLawful := by
  constructor
  · intro h
    cases h
  · intro i
    fin_cases i <;> first | exact ⟨by decide, by decide, by decide⟩ | exact ⟨by decide, by decide⟩

theorem busy_seedsLawful : busy.seedsLawful := by
  refine ⟨by decide, ⟨fun _ => by decide, fun _ => by decide⟩, ?_⟩
  decide

theorem witness_SeedNumbersRun : busy.callsLawful ∧ busy.seedsLawful := ⟨busy_callsLawful, busy_seedsLawful⟩

theorem busy_linkLawful : busy.linkLawful := by
  refine ⟨by decide, by decide, by decide, ?_, fun _ _ => by decide, ?_⟩
  · intro k h
    cases h
  · intro h
    cases h

theorem witness_LinkNeverIdlesWithWork : busy.linkLawful := busy_linkLawful

theorem witness_ResetStaysBlank : resetting.blankInReset ∧ resetting.edgesLawful :=
  ⟨fun _ => rfl, by decide, by decide⟩

theorem witness_CountersBalance :
    busy.callsLawful ∧ busy.callsBalance ∧ busy.seedsBalance ∧
      busy.pending.head? ≠ some .clearCounters ∧ ∃ t, step busy = .next t ∧ t.balancesUnsaturated :=
  ⟨busy_callsLawful, by unfold State.callsBalance; decide, by unfold State.seedsBalance; decide, by decide,
    _, rfl, fun k => by cases k <;> decide⟩

/-! ### Witnesses of the queue, the words and reset -/

theorem witness_StepCarriesOutFrontCommand :
    busy.pending = [.linkWordSent] ∧ (running 9).pending = [] := by decide

theorem witness_CommandsIgnoreQueue : ∃ t, exec .hitExpiry busy = .next t := ⟨_, rfl⟩

theorem witness_WellFormedCommandsComplete : (Instr.codePairArrival 7 4095 0).wf = true ∧ 8 ≤ 8 := by decide

theorem witness_StepsNotDueChangeNothing :
    busy.countersInRange ∧ isOwnStep .hitExpiry = true ∧ busy.due .hitExpiry = false :=
  ⟨busy_countersInRange, by decide, by decide⟩

theorem witness_InResetNothingHappens :
    resetting.blankInReset ∧ resetting.inReset = true ∧ (Instr.codePairArrival 7 1 2).wf = true ∧
      Instr.codePairArrival 7 1 2 ≠ .rstnAssert :=
  ⟨fun _ => rfl, by decide, by decide, by decide⟩

theorem witness_CommandWordRoundTrip :
    decodeCommand 0x121C01F4 = some { kind := .set, channel := 2, item := 7, value := 500 } ∧
      itemOfCode 38 = some (.station .solo) := by decide

theorem witness_CommandWordLayout :
    (0x1FFFFFFF#32).toNat / 2 ^ 28 = 1 ∧ (0x90000000#32).toNat / 2 ^ 28 = 9 := by decide

theorem witness_LinkWordLayouts : 262143 < 2 ^ 18 ∧ 256 ≤ 256 ∧ 255 ≤ 255 := by decide

/-- The greatest hit that the fields of a copy hold, with the least peak. -/
def fullHit : Hit :=
  { hitAt 9 65535 (some 0) 32 with charge := 65535, peak := -524288, peakOffset := 69, pileup := 3 }

theorem witness_HitCopyLayout :
    fullHit.charge ≤ 65535 ∧ fullHit.energy ≤ 65535 ∧ fullHit.pileup ≤ 3 ∧ -524288 ≤ fullHit.peak ∧
      fullHit.peak ≤ 524287 ∧ fullHit.peakOffset ≤ 69 ∧ fullHit.waveLength ≤ 32 := by decide

theorem witness_StatusFrameLayout : busy.occupancy ≤ 4096 ∧ busy.countersInRange :=
  ⟨by decide, busy_countersInRange⟩

theorem witness_CallFrameCarriesCall :
    4095 ≤ 4095 ∧ (20470#28).setWidth 16 = 20470#16 ∧ (20904#28 - 20470#28).toNat < 65536 := by decide

theorem witness_ResetsDiscardWorkInFlight :
    (withHead (running 9) 0x90000000).inReset = false ∧
      (withHead (running 9) 0x90000000).commands = [0x90000000#32] ∧
      (decodeCommand 0x90000000).map CommandWord.kind = some .resetStation := by decide

theorem witness_ReleaseGivesResetState :
    (running 9).inReset = false ∧ (resetting.inReset = true ∧ resetting.resetEdges ≠ 0) ∧
      (((running 9).enterReset true 0).inReset = true ∧ ((running 9).enterReset true 0).resetEdges = 0) ∧
      7 < 8 := by decide

/-! ### Witnesses of the channels and hits -/

theorem witness_CodePairWritesRing :
    resetting.inReset = true ∧ (State.reset.inReset = false ∧ State.reset.awaitsEdge = true) ∧
      (busy.inReset = false ∧ busy.awaitsEdge = false) ∧ (2016#28).toNat % 16 = busy.now.toNat % 16 ∧
      (1999#28).toNat % 16 ≠ busy.now.toNat % 16 ∧ (7 : Fin 8) ≠ 0 := by decide

/-- A quiet sample, one that is not, and a station in SETUP. -/
theorem witness_QuietSamplesMoveTrackers :
    ((tracking 2000 800 800).inReset = false ∧ (tracking 2000 800 800).awaitsEdge = false) ∧
      ((after (exec (.codePairArrival 5 210 195) (tracking 2000 800 800))).map fun t =>
        (t.channels[5].disc, t.channels[5].allFree)) = some (.below, true) ∧
      ((after (exec (.codePairArrival 5 320 195) (tracking 2003 813 794))).map fun t =>
        t.channels[5].disc) = some (.pending 2003 1 467) ∧
      (configuring 9).mode = .setup ∧ 1 ≤ 1 := by decide

/-- Channel 3 of section 3.8.1 in each discriminator state, in RUN. -/
theorem witness_DiscriminatorMoves :
    pulse.inReset = false ∧ pulse.awaitsEdge = false ∧ pulse.mode ≠ .setup ∧ pulse.channels[3].items.enable = true ∧
      pulse.channels[3].disc = .falling 840 ∧ (running 9).channels[0].disc = .below ∧
      (running 9).channels[0].items.enable = true := by decide

/-- Channel 0 before a fresh crossing at a full ring's turn. -/
def crossing : State :=
  (running 1600).modifyChannel 0 fun k =>
    { k with items := { k.items with waveMode := .never, persist := 1, gatePre := 7, gateWidth := 63 } }

/-- Channel 0 at the fourth sample of a pulse with PERSIST 4, WAVE_MODE ON_FLAG and a full pool, where the
present sample is also the gate's last one. -/
def confirming : State :=
  { (running 1603).modifyChannel 0 fun k =>
      { k with items := { k.items with persist := 4, gateWidth := 4 }, disc := .pending 1600 3 700 } with
    pool := Vector.replicate 32 (.held []) }

/-- Channel 0 before a re-rise, with WAVE_MODE ALWAYS and slot 0 the lowest FREE one. -/
def rerising : State :=
  (running 1600).modifyChannel 0 fun k =>
    { k with items := { k.items with waveMode := .always }, disc := .falling 500 }

/-- A fresh crossing with PERSIST 1 whose gate goes on, one confirmed from PENDING at the gate's last sample,
and a re-rise: each declared in RUN with both contexts FREE. -/
theorem witness_LoneCrossingOpensContext :
    (crossing.inReset = false ∧ crossing.awaitsEdge = false ∧ crossing.mode = .run ∧
        crossing.channels[0].items.enable = true ∧ crossing.channels[0].ctxA = none ∧
        crossing.channels[0].ctxB = none) ∧
      ((crossing.ringWritten 0 400 200).channels[0].declares crossing.now =
          some { sample := 1600, kind := .fresh 0 800 } ∧
        crossing.channels[0].items.waveMode = .never ∧
        1600#28 + BitVec.ofNat 28 crossing.channels[0].items.gateWidth - 1 ≠ crossing.now) ∧
      (confirming.channels[0].ctxA = none ∧ confirming.channels[0].ctxB = none ∧
        (confirming.ringWritten 0 400 200).channels[0].declares confirming.now =
          some { sample := 1600, kind := .fresh 0 0 } ∧
        1600#28 + BitVec.ofNat 28 confirming.channels[0].items.gateWidth - 1 = confirming.now ∧
        ∀ i : Fin 32, confirming.pool[i] ≠ .free) ∧
      (rerising.channels[0].ctxA = none ∧ rerising.channels[0].ctxB = none ∧
        (rerising.ringWritten 0 400 200).channels[0].declares rerising.now =
          some { sample := 1600, kind := .rerise } ∧
        rerising.pool[0] = .free ∧ ∀ j : Fin 32, j < 0 → rerising.pool[j] ≠ .free) := by
  decide

/-- Channels with both contexts FREE, with one OPEN and with two, with free slots, with slot 2 the lowest free
one, and with none free; code pairs that declare a crossing in RUN, and none; and a context whose gate ends. -/
theorem witness_CrossingsOpenOrMerge :
    ((running 9).channels[0].ctx .a = none ∧ (running 9).channels[0].items.waveMode ≠ .never ∧
        (running 9).pool[0] = .free ∧ crossing.channels[0].items.waveMode = .never) ∧
      (busy.channels[0].ctxA.isSome = true ∧ busy.channels[0].ctx .b = none ∧ busy.pool[2] = .free ∧
        ∀ j : Fin 32, j < 2 → busy.pool[j] ≠ .free) ∧
      (∀ i : Fin 32, (Vector.replicate 32 (Slot.lent []))[i] ≠ .free) ∧
      ((busy.modifyChannel 0 fun k => { k with ctxB := some pulseContext }).channels[0].ctxB =
        some pulseContext) ∧
      (crossing.mode = .run ∧ ((crossing.ringWritten 0 400 200).channels[0].declares crossing.now).isSome) ∧
      (busy.inReset = false ∧ busy.awaitsEdge = false ∧ busy.mode ≠ .setup ∧
        busy.channels[0].items.enable = true ∧
        (busy.ringWritten 0 400 200).channels[0].declares busy.now = none) ∧
      busyContext.gateLast ≠ busy.now ∧ pulseContext.gateLast = pulse.now := by decide

/-- Channel 0 of the busy station, in DRAIN. -/
def drainBusy : State := { busy with mode := .drain, calls := [] }

/-- A context whose gate goes on, in RUN and in DRAIN, and a FREE one; a lent slot with room and a full
one. -/
theorem witness_DrainOnlyFeedsOpenContexts :
    (busy.inReset = false ∧ busy.awaitsEdge = false ∧ busy.mode ≠ .setup ∧
        busy.channels[0].items.enable = true) ∧
      ((busy.crossed 0 400 200).channels[0].ctx .a = some busyContext ∧
        (busy.crossed 0 400 200).channels[0].ctx .b = none ∧ busyContext.gateLast ≠ busy.now) ∧
      (drainBusy.inReset = false ∧ drainBusy.awaitsEdge = false ∧ drainBusy.mode = .drain ∧
        drainBusy.channels[0].items.enable = true) ∧
      ((drainBusy.crossed 0 400 200).channels[0].ctx .a = some busyContext ∧
        (drainBusy.crossed 0 400 200).channels[0].ctx .b = none) ∧
      (busyContext.slot = some 1 ∧ busy.pool[1] = .lent [3] ∧ [(3 : Int)].length < 32 ∧
        32 ≤ (List.replicate 32 (3 : Int)).length) := by decide

/-- The busy station in DRAIN with its context at its last gate sample. -/
def completing : State := { drainBusy with now := 2010 }

/-- The busy station in RUN, its older context in B at its last gate sample while A's gate goes on. -/
def completingB : State :=
  { busy.modifyChannel 0 fun k =>
      { k with ctxA := some { pulseContext with gateLast := 2020 }, ctxB := some busyContext } with
    now := 2010 }

/-- A completion of A in DRAIN with B FREE, and one of B in RUN with A still OPEN. -/
theorem witness_CompletionStoresHit :
    (completing.inReset = false ∧ completing.awaitsEdge = false ∧ completing.mode = .drain ∧
        completing.channels[0].items.enable = true) ∧
      ((completing.crossed 0 400 200).channels[0].ctxA = some busyContext ∧
        (completing.crossed 0 400 200).channels[0].ctxB = none ∧ busyContext.gateLast = completing.now) ∧
      (completingB.inReset = false ∧ completingB.awaitsEdge = false ∧ completingB.mode = .run ∧
        completingB.channels[0].items.enable = true) ∧
      ((completingB.crossed 0 400 200).channels[0].ctxA = some { pulseContext with gateLast := 2020 } ∧
        (completingB.crossed 0 400 200).channels[0].ctxB = some busyContext ∧
        busyContext.gateLast = completingB.now ∧
        ({ pulseContext with gateLast := 2020 } : OpenContext).gateLast ≠ completingB.now) := by decide

/-- A fresh crossing and a re-rise; scale shifts 0 and 2; the three wave modes, contexts with PILEUP and with
none of the three flags, and a slot of two samples. -/
theorem witness_HitRecordArithmetic :
    pulseContext.kind = .fresh 248 1440 ∧ (248 : Int) < ChannelItems.reset.threshold ∧
      (ChannelItems.reset.threshold : Int) ≤ 1440 ∧
      ({ pulseContext with kind := .rerise } : OpenContext).kind = .rerise ∧
      ({ ChannelItems.reset with scaleShift := 0 } : ChannelItems).scaleShift = 0 ∧
      ChannelItems.reset.scaleShift ≠ 0 ∧
      (ChannelItems.reset.waveMode = .onFlag ∧ crossing.channels[0].items.waveMode = .never ∧
        rerising.channels[0].items.waveMode = .always) ∧
      (busyContext.pileupFlag = true ∧ pulseContext.pileupFlag = false ∧ pulseContext.saturated = false ∧
        pulseContext.merged = false) ∧
      (formHit 0 ChannelItems.reset ((Vector.replicate 32 Slot.free).set 1 (.lent [3, 4])) busyContext).slot =
        some 1 ∧
      (formHit 0 ChannelItems.reset (Vector.replicate 32 Slot.free) pulseContext).slot = none := by decide

/-- A full store, with a mark and without; its entries are all later than a record of time 0. -/
def fullStore : State := { running 20062 with hits := List.replicate 256 (hitAt 20003 9 none 0) }

theorem witness_InsertionPlacesAndEvicts :
    busy.hits.length < 256 ∧ fullStore.hits.length = 256 ∧ fullStore.evictMark = none ∧
      ({ fullStore with evictMark := some 19990 } : State).evictMark = some 19990 ∧
      (∀ k ∈ fullStore.hits, 0 < fineDiff k.time (hitAt 0 9 none 0).time) ∧
      ¬∀ k ∈ fullStore.hits, 0 < fineDiff k.time (hitAt 20062 9 none 0).time := by
  have hm : hitAt 20003 9 none 0 ∈ fullStore.hits := List.mem_replicate.mpr ⟨by decide, rfl⟩
  refine ⟨by decide, List.length_replicate, rfl, rfl, fun k hk => ?_, fun hall => ?_⟩
  · rw [List.eq_of_mem_replicate hk]
    decide
  · have := hall _ hm
    revert this
    decide

/-- A station of section 5.8.2 with four calls, and its hit at 5090 of e = 150. -/
def fullQueue : State :=
  { running 5100 with
    station := { StationItems.reset with seedThreshold := 100 }
    calls := [{ callAt 5000 310 1 with state := .onLine 300 }, callAt 5020 140 0, callAt 5040 140 0,
      callAt 5060 420 0]
    hits := [hitAt 5090 2400 none 0] }

theorem fullQueue_callsLawful : fullQueue.callsLawful := by
  unfold State.callsLawful
  decide

theorem fullQueue_itemsInRange : fullQueue.itemsInRange := by
  unfold State.itemsInRange ChannelItems.inRange StationItems.inRange
  decide

/-- The window sum at n = 5090 in a full queue, a hit at 5044 that a call covers, one that a listed seed
covers, a sum below the threshold, and a queue with room. -/
theorem witness_EvaluationRaisesOrCreates :
    fullQueue.callsLawful ∧ fullQueue.itemsInRange ∧
      (∀ c ∈ fullQueue.calls, 0 ≤ timeDiff fullQueue.now c.time ∧ timeDiff fullQueue.now c.time ≤ 65535) ∧
      fullQueue.mode = .run ∧
      (150 = min 4095 (((fullQueue.hits.filter fun h =>
        within fullQueue.station.window h.crossing 5090).map Hit.energy).sum / 16) ∧
        fullQueue.station.seedThreshold ≤ 150 ∧ fullQueue.calls.length = 4 ∧
        (∀ c ∈ fullQueue.calls, within fullQueue.station.window c.time 5090 = false) ∧
        (∀ d ∈ fullQueue.seeds, within fullQueue.station.window d.time 5090 = false)) ∧
      (∃ c ∈ fullQueue.calls, within fullQueue.station.window c.time 5044 = true) ∧
      (∃ d ∈ busy.seeds, within busy.station.window d.time 1008 = true) ∧
      (running 9).calls.length < 4 ∧ 0 < (running 9).station.seedThreshold :=
  ⟨fullQueue_callsLawful, fullQueue_itemsInRange, by decide⟩

/-! ### Witnesses of the timebase, the line and what grows too old -/

/-- Edges that an advance, a TZ sample and a zeroing precede. -/
theorem witness_EdgeAdvancesTimebase :
    busy.inReset = false ∧ busy.countersInRange ∧ busy.edgeTz = .unsampled ∧
      ({ busy with edgeTz := .zeroed } : State).edgeTz = .zeroed :=
  ⟨by decide, busy_countersInRange, by decide, by decide⟩

/-- Advances onto a bit centre, read recessive and dominant, and onto a boundary. -/
theorem witness_RunsFollowReads :
    ((running 3).inReset = false ∧ (running 3).station.solo = false ∧
        ((after (exec (.timebaseAdvance true false) (running 3))).map fun t => t.now.toNat % 8) = some 4 ∧
        ((after (exec (.timebaseAdvance true false) (running 7))).map fun t => t.now.toNat % 8) = some 0) ∧
      (∃ t, exec .hitExpiry busy = .next t) ∧
      (((running 9).enterReset true 0).inReset = true ∧ ((running 9).enterReset true 0).resetEdges = 0) :=
  ⟨by decide, ⟨_, rfl⟩, by decide⟩

/-- Advances onto a boundary in IDLE, with a view due to become IDLE, and in a frame at position 16; onto a
centre in a frame at 36 and at 37; and onto neither. -/
theorem witness_LineMovesAtBits :
    (running 7).inReset = false ∧
      ((after (exec (.timebaseAdvance false false) (running 7))).map fun t => t.now.toNat % 8) = some 0 ∧
      ((after (exec (.timebaseAdvance false false) (running 3))).map fun t => t.now.toNat % 8) = some 4 ∧
      ((after (exec (.timebaseAdvance false false) (running 4))).map fun t => t.now.toNat % 8) = some 5 ∧
      (running 7).line.toIdle = false ∧ (running 7).line.view = .idle ∧
      ({ Line.reset with toIdle := true } : Line).toIdle = true ∧
      (inFrame (frameAt 8 16 .caller) (some frame20470) none).view = .frame (frameAt 8 16 .caller) ∧
      (frameAt 8 36 .winner).position = 36 ∧ (frameAt 8 37 .winner).position = 37 := by decide

theorem witness_TzHonouredOrIgnored :
    busy.inReset = false ∧ busy.countersInRange ∧ busy.mode ≠ .setup ∧ setupBusy.mode = .setup ∧
      setupBusy.inReset = false ∧ setupBusy.countersInRange :=
  ⟨by decide, busy_countersInRange, by decide, by decide, by decide, fun k => by cases k <;> decide, by decide⟩

theorem witness_HitsAndMarkExpire :
    busy.mode ≠ .setup ∧ ({ busy with evictMark := some 1990 } : State).evictMark = some 1990 ∧
      timeDiff busy.now 1990 ≤ (busy.hEff : Int) ∧ (busy.hEff : Int) < timeDiff 24100 20003 := by decide

theorem witness_OldCallsLapse : busy.mode = .run := by decide

theorem witness_SeedMarksAreSet :
    BitVec.ofNat 28 busy.station.window = 8 ∧
      BitVec.ofNat 28 (busy.station.window + busy.gMax + 8) = 32 := by decide

/-- The busy station with its first seed closed. -/
def building : State := { busy with seeds := [{ seedAt 0 1990 with closed := true }, seedAt 1 1400] }

theorem witness_BuildWritesHeadFragment :
    building.linkLawful ∧ building.mode ≠ .setup ∧
      building.seeds = [{ seedAt 0 1990 with closed := true }, seedAt 1 1400] ∧
      (building.hits.filter fun h => within building.station.window h.crossing 1990).length = 1 ∧
      3 + 4 * 1 ≤ 4096 - building.occupancy := by
  refine ⟨⟨by decide, by decide, by decide, ?_, fun _ _ => by decide, ?_⟩, by decide⟩
  · intro k h
    cases h
  · intro h
    cases h

theorem witness_WaveformsFitInOrder :
    (hitAt 80395 9 (some 0) 18).slot.isSome = true ∧ (hitAt 80402 9 none 0).slot.isSome = false := by decide

/-! ### Witnesses of the frames on the SEED line -/

/-- Station 2 of section 6.13.1 at boundary 20,600, with a second, weaker call. -/
def offering : State := { running 20600 with slot := 2, calls := [callAt 20470 300 0, callAt 20500 200 0] }

theorem witness_StrongestCallStartsFrame :
    offering.mode = .run ∧ offering.now.toNat % 8 = 0 ∧ offering.line.view = .idle ∧
      offering.station.solo = false ∧ (∀ k ∈ offering.calls, k.state = .waiting) ∧
      callAt 20470 300 0 ∈ offering.calls ∧
      ∀ k ∈ offering.calls, k ≠ callAt 20470 300 0 → k.energy < (callAt 20470 300 0).energy := by decide

/-- The line of a station that drove its start bit and reads it recessive. -/
def startLost : Line :=
  { Line.reset with view := .idle, ownFrame := some frame20470, drive := true, bitRead := some false }

/-- A start bit heard in IDLE, one driven and read recessive, and a caller at position 14. -/
theorem witness_FramesAreJoinedOrLost :
    ((running 20604).line.view = .idle ∧
        ({ running 20604 with line.bitRead := some true } : State).line.bitRead = some true) ∧
      (startLost.view = .idle ∧ startLost.bitRead = some false ∧ startLost.drive = true ∧
        startLost.ownFrame.isSome = true) ∧
      (frameAt 20600 14 .caller).role = .caller ∧ 1 ≤ (frameAt 20600 14 .caller).position ∧
      (frameAt 20600 14 .caller).position ≤ 16 ∧
      (ownFrameBits 5 300 20476).getLsbD (36 - (frameAt 20600 14 .caller).position) = false := by decide

/-- A station in a frame that it has a reason to object to. -/
def objecting : State :=
  { running 20896 with
    line := inFrame { frameAt 20600 37 .winner with readbackMismatch := true } (some frame20470) none }

/-- A frame that ends its position 37 dominant. -/
def discarding : State :=
  { running 20904 with
    calls := [{ callAt 20470 300 3 with state := .onLine 300 }]
    line := inFrame { frameAt 20600 38 .winner with objection := some true } (some frame20470) none }

theorem witness_ObjectionsDiscardFrames :
    (objecting.mode ≠ .setup ∧ objecting.now = 20600 + 296 ∧ objecting.line.drive = false ∧
        objecting.line.view = .frame { frameAt 20600 37 .winner with readbackMismatch := true }) ∧
      discarding.countersInRange ∧
      (discarding.now = 20600 + 304 ∧
        discarding.line.view = .frame { frameAt 20600 38 .winner with objection := some true }) ∧
      discarding.mode ≠ .drain ∧ ({ discarding with mode := .drain } : State).mode = .drain :=
  ⟨by decide, ⟨fun k => by cases k <;> decide, by decide⟩, by decide⟩

/-- The acceptance of section 6.13.1 in RUN, in SETUP, and at a full Seed List. -/
theorem witness_AcceptedSeedIsDelivered :
    (inFrame acceptedFrame none none).view = .frame acceptedFrame ∧ (running 20904).now = 20600 + 304 ∧
      acceptedFrame.base = 20600 ∧ acceptedFrame.objection = some false ∧ acceptedFrame.settled = false ∧
      (running 20904).mode ≠ .setup ∧ (configuring 20904).mode = .setup ∧
      (running 20904).seeds.length < 16 ∧
      16 ≤ (List.replicate 15 (seedAt 0 100) ++ [seedAt 15 100]).length := by decide

/-- The line at the 44th recessive read in JOIN. -/
def joining : Line := { Line.reset with bitRead := some false, recessiveRun := 44 }

/-- The line at the 48th dominant read. -/
def sticking : Line := { Line.reset with bitRead := some true, dominantRun := 48 }

/-- A last gap bit recessive, a gap bit dominant, JOIN's 44th recessive bit, the 48th dominant bit, and a
recessive bit in STUCK. -/
theorem witness_LineViewMoves :
    (inFrame (frameAt 8 40 .listener) none (some false)).toIdle = false ∧
      (frameAt 8 40 .listener).position = 40 ∧ 38 ≤ (frameAt 8 38 .winner).position ∧
      (inFrame (frameAt 8 38 .winner) none (some true)).bitRead = some true ∧
      (joining.view = .join ∧ joining.bitRead = some false ∧ joining.recessiveRun = 44 ∧
        joining.toIdle = false) ∧
      (sticking.view ≠ .stuck ∧ sticking.bitRead = some true ∧ sticking.dominantRun = 48) ∧
      ({ joining with view := .stuck } : Line).view = .stuck := by decide

/-! ### Witnesses of the link and the Command Port -/

/-- A link with nothing to send, one that owes its start word, one in a response, one in a fragment. -/
theorem witness_LinkSendsWordByWord :
    busy.linkLawful ∧ busy.inReset = false ∧ busy.link.sending = .fragment 0 ∧ busy.readout = [[7, 8], [9]] ∧
      (running 9).link.sending = .nothing ∧ State.reset.link.sending = .startWord ∧
      ([1#32, 2#32] : List Word)[1]? = some 2 ∧ 1 + 1 = ([1#32, 2#32] : List Word).length :=
  ⟨busy_linkLawful, by decide⟩

theorem witness_LinkLawWhileIdle : (running 9).linkLawful := by
  refine ⟨by decide, by decide, by decide, ?_, ?_, fun _ => by decide⟩
  · intro k h
    cases h
  · intro k h
    cases h

theorem witness_LinkLawAtReset : State.reset.linkLawful := by
  refine ⟨by decide, by decide, by decide, ?_, ?_, ?_⟩
  · intro k h
    cases h
  · intro k h
    cases h
  · intro h
    cases h

/-- A link sending the second word of a refusal. -/
def responding : State :=
  { running 9 with link := { (running 9).link with response := [1, 2], sending := .response 1 } }

theorem witness_LinkLawInResponse : responding.linkLawful := by
  refine ⟨by decide, by decide, by decide, ?_, ?_, ?_⟩
  · intro k h
    cases h
    decide
  · intro k h
    cases h
  · intro h
    cases h

theorem witness_DrainReturnsToSetup :
    (draining 50).mode = .drain ∧
      (∀ c : Fin 8, (draining 50).channels[c].ctxA = none ∧ (draining 50).channels[c].ctxB = none) ∧
      (∀ c ∈ (draining 50).calls, c.state = .waiting) ∧ (draining 50).seeds = [] ∧
      (draining 50).readout = [] ∧ (draining 50).line.view = .idle := by decide

theorem witness_CommandWordsQueue :
    (running 9).inReset = false ∧ (running 9).commands.length < 8 ∧
      8 ≤ (List.replicate 8 (1#32)).length := by decide

/-- SET THRESHOLD of channel 2 to 500, SET PED_MODE of every channel to 1, and SET SOLO to 1, in SETUP. -/
theorem witness_SetWritesClampedValue :
    (configuring 9).inReset = false ∧ (configuring 9).mode = .setup ∧
      decodeCommand 0x121C01F4 = some { kind := .set, channel := 2, item := 7, value := 500 } ∧
      itemOfCode 7 = some (.channel .threshold) ∧
      decodeCommand 0x1F040001 = some { kind := .set, channel := 15, item := 1, value := 1 } ∧
      itemOfCode 1 = some (.channel .pedMode) ∧
      decodeCommand 0x10980001 = some { kind := .set, channel := 0, item := 38, value := 1 } ∧
      itemOfCode 38 = some (.station .solo) ∧ (withHead (configuring 9) 0x10980001).commands = [0x10980001#32] := by
  decide

/-- READ_ITEM PED_HI of channel 7, READ_ITEM WINDOW and READ_STATUS at the head. -/
theorem witness_ReadsPlaceResponses :
    (running 9).linkLawful ∧ (running 9).inReset = false ∧ (running 9).link.response = [] ∧
      (withHead (running 9) 0x27080000).commands = [0x27080000#32] ∧
      decodeCommand 0x27080000 = some { kind := .readItem, channel := 7, item := 2, value := 0 } ∧
      itemOfCode 2 = some (.channel .pedHi) ∧
      decodeCommand 0x20840000 = some { kind := .readItem, channel := 0, item := 33, value := 0 } ∧
      itemOfCode 33 = some (.station .window) ∧
      (decodeCommand 0x50000000).map CommandWord.kind = some .readStatus :=
  ⟨witness_LinkLawWhileIdle, by decide⟩

/-- START in SETUP with every channel enabled, and with none. -/
theorem witness_StartEntersRun :
    (withHead (configuring 9) 0x30000000).inReset = false ∧
      (withHead (configuring 9) 0x30000000).commands = [0x30000000#32] ∧
      (decodeCommand 0x30000000).map CommandWord.kind = some .start ∧ (configuring 9).mode = .setup ∧
      (configuring 9).channels[0].items.enable = true ∧
      ∀ d : Fin 8, ((configuring 9).mapChannels fun k =>
        { k with items := { k.items with enable := false } }).channels[d].items.enable = false := by decide

theorem witness_StopEntersDrain :
    (withHead busy 0x40000000).inReset = false ∧ (withHead busy 0x40000000).commands = [0x40000000#32] ∧
      (decodeCommand 0x40000000).map CommandWord.kind = some .stop ∧ busy.mode = .run := by decide

theorem witness_ClearCountersClearsAll :
    (withHead busy 0x60000000).inReset = false ∧ (withHead busy 0x60000000).commands = [0x60000000#32] ∧
      (decodeCommand 0x60000000).map CommandWord.kind = some .clearCounters := by decide

theorem witness_PauseAndResume :
    busy.linkLawful ∧ (withHead busy 0x70000000).inReset = false ∧
      (withHead busy 0x70000000).commands = [0x70000000#32] ∧
      (decodeCommand 0x70000000).map CommandWord.kind = some .linkPause ∧
      (decodeCommand 0x80000000).map CommandWord.kind = some .linkResume :=
  ⟨busy_linkLawful, by decide⟩

/-- The first and the last unknown kind, item code and channel; commands in the wrong state; a full
response buffer. -/
theorem witness_BadCommandsAreRefused :
    responding.linkLawful ∧ responding.link.response ≠ [] ∧ (running 9).link.response = [] ∧
      ((0x0FFFFFFF#32).toNat / 2 ^ 28 = 0 ∧ 10 ≤ (0xA0000000#32).toNat / 2 ^ 28) ∧
      (decodeCommand 0x103C0000).map CommandWord.item = some 15 ∧
      (decodeCommand 0x20FC0000).map CommandWord.item = some 63 ∧
      (decodeCommand 0x18000000).map CommandWord.channel = some 8 ∧
      (decodeCommand 0x2F000000).map CommandWord.channel = some 15 ∧
      (itemOfCode 0 = some (.channel .enable) ∧ itemOfCode 32 = some (.station .seedThreshold)) ∧
      (running 9).mode ≠ .setup ∧ (draining 9).mode ≠ .run :=
  ⟨witness_LinkLawInResponse, by decide⟩

end Sys2Proof.Tests
end

/-! PROOFS. The Input Conditioner: which code pairs are handled, and what a handled one leaves of its
channel's ring and items (spec 01). -/

namespace Sys2Proof.Machine

/-! ### Which code pairs are handled -/

/-- In reset, and before the first edge after it, a code pair is not handled (R160, R163). -/
theorem exec_codePairArrival_idle (s : State) (c : Fin 8) (hi lo : BitVec 12)
    (h : s.inReset = true ∨ s.awaitsEdge = true) : exec (.codePairArrival c hi lo) s = .next s := by
  have hskip : (s.inReset || s.awaitsEdge) = true := by rwa [Bool.or_eq_true]
  show execCodePairArrival c hi lo s = .next s
  rw [execCodePairArrival, dif_pos c.isLt, if_pos hskip]

/-- At any other time it is handled, whatever the station's state (R1). -/
theorem exec_codePairArrival_handled (s : State) (c : Fin 8) (hi lo : BitVec 12)
    (hr : s.inReset = false) (he : s.awaitsEdge = false) :
    exec (.codePairArrival c hi lo) s = .next (s.handlePair c hi lo) := by
  show execCodePairArrival c hi lo s = _
  rw [execCodePairArrival, dif_pos c.isLt, hr, he]
  rfl

/-! ### The unified sample -/

/-- The sample in one record: the high-gain code alone chooses the path and its mark, the low-gain code alone
the saturated mark (R3 to R6). -/
theorem unifiedSample_eq (k : Channel) (hi lo : BitVec 12) :
    unifiedSample k hi lo =
      { u := if hi.toNat < k.items.switchLevel then highGainSample k hi else lowGainSample k lo
        lowGain := decide (k.items.switchLevel ≤ hi.toNat)
        saturated := decide (lo.toNat = 4095) } := by
  unfold unifiedSample
  by_cases hpath : hi.toNat < k.items.switchLevel
  · simp [hpath, beq_eq_decide]
  · simp [hpath, not_lt.mp hpath, beq_eq_decide]

/-! ### The channel after a code pair -/

@[simp] theorem Channel.settleTrackers_items (k : Channel) (u : Int) (hi lo : BitVec 12) :
    (k.settleTrackers u hi lo).items = k.items := by
  rw [Channel.settleTrackers_frame]

@[simp] theorem Channel.settleTrackers_ringAt (k : Channel) (u : Int) (hi lo : BitVec 12) (τ : SampleTime) :
    (k.settleTrackers u hi lo).ringAt τ = k.ringAt τ := by
  rw [Channel.settleTrackers_frame]
  rfl

theorem State.handlePair_items (s : State) (c : Fin 8) (hi lo : BitVec 12) :
    (s.handlePair c hi lo).channels[c].items = s.channels[c].items := by
  rw [(State.handlePair_channels s c hi lo).2, Channel.settleTrackers_items]
  rfl

/-- The ring after a code pair is the ring before with the unified sample written at the present sample time:
the Pulse Processor and the quiet decision do not write it (R7, R8). -/
theorem State.handlePair_ringAt (s : State) (c : Fin 8) (hi lo : BitVec 12) (τ : SampleTime) :
    (s.handlePair c hi lo).channels[c].ringAt τ =
      if τ.toNat % 16 = s.now.toNat % 16 then unifiedSample s.channels[c] hi lo
      else s.channels[c].ringAt τ := by
  rw [(State.handlePair_channels s c hi lo).2, Channel.settleTrackers_ringAt]
  exact Channel.ringAt_writeRing s.channels[c] s.now τ _

/-- Settles O27, by reading the ring that the handled pair leaves at its own entry and at the others. -/
theorem codePairWritesRing : Obligations.CodePairWritesRing := by
  refine ⟨exec_codePairArrival_idle, fun s c hi lo hr he => ?_⟩
  have hown : ∀ τ : SampleTime, τ.toNat % 16 = s.now.toNat % 16 →
      (s.handlePair c hi lo).channels[c].ringAt τ = unifiedSample s.channels[c] hi lo := fun τ hτ => by
    rw [State.handlePair_ringAt, if_pos hτ]
  have hother : ∀ τ : SampleTime, τ.toNat % 16 ≠ s.now.toNat % 16 →
      (s.handlePair c hi lo).channels[c].ringAt τ = s.channels[c].ringAt τ := fun τ hτ => by
    rw [State.handlePair_ringAt, if_neg hτ]
  refine ⟨s.handlePair c hi lo, exec_codePairArrival_handled s c hi lo hr he, ?_, fun τ hτ => ?_, hother,
    State.handlePair_items s c hi lo, (State.handlePair_channels s c hi lo).1,
    State.handlePair_frame s c hi lo⟩
  · rw [hown s.now rfl, unifiedSample_eq]
    rfl
  · rw [hown τ hτ, hown s.now rfl]

end Sys2Proof.Machine

/-! PROOFS. The two runs of the SEED line: what an edge makes of them, what each line step can change of the
line, and that every other step carries the runs (R90). -/

namespace Sys2Proof.Machine

/-! ### The runs -/

/-- The recessive and the dominant run (R90). -/
def Line.runs (l : Line) : Nat × Nat := (l.recessiveRun, l.dominantRun)

theorem Line.runs_eq_iff {l l' : Line} :
    l'.runs = l.runs ↔ l'.recessiveRun = l.recessiveRun ∧ l'.dominantRun = l.dominantRun :=
  Prod.mk_inj

/-! ### The line at the edge -/

theorem isBoundary_iff (t : SampleTime) : isBoundary t = true ↔ t.toNat % 8 = 0 := beq_iff_eq

theorem isCentre_iff (t : SampleTime) : isCentre t = true ↔ t.toNat % 8 = 4 := beq_iff_eq

/-- Outside reset an edge is an advance, and the line moves to the sample that it opens (R89, R163). -/
theorem exec_timebaseAdvance (s : State) (seedLevel holdLevel : Bool) (h : s.inReset = false) :
    exec (.timebaseAdvance seedLevel holdLevel) s = .next (s.advance seedLevel holdLevel) := by
  show execTimebaseAdvance seedLevel holdLevel s = _
  rw [execTimebaseAdvance, h]
  rfl

@[simp] theorem State.advance_now (s : State) (seedLevel holdLevel : Bool) :
    (s.advance seedLevel holdLevel).now = s.nextNow := rfl

@[simp] theorem State.advance_line (s : State) (seedLevel holdLevel : Bool) :
    (s.advance seedLevel holdLevel).line = s.line.atSample s.nextNow (s.seedObserved seedLevel) := rfl

theorem Line.atSample_boundary (l : Line) {now : SampleTime} (b : Bool) (h : now.toNat % 8 = 0) :
    l.atSample now b = l.atBoundary :=
  if_pos ((isBoundary_iff now).2 h)

theorem Line.atSample_centre (l : Line) {now : SampleTime} (b : Bool) (h : now.toNat % 8 = 4) :
    l.atSample now b = l.atCentre b := by
  have hb : ¬ isBoundary now = true := by rw [isBoundary_iff]; omega
  rw [Line.atSample, if_neg hb, if_pos ((isCentre_iff now).2 h)]

/-- Neither a boundary nor a centre: the line stands, and no reading is there any more (R89). -/
theorem Line.atSample_between (l : Line) {now : SampleTime} (b : Bool) (h0 : now.toNat % 8 ≠ 0)
    (h4 : now.toNat % 8 ≠ 4) : l.atSample now b = { l with bitRead := none } := by
  rw [Line.atSample, if_neg (mt (isBoundary_iff now).1 h0), if_neg (mt (isCentre_iff now).1 h4)]

@[simp] theorem Line.atBoundary_runs (l : Line) : l.atBoundary.runs = l.runs := by
  unfold Line.atBoundary
  split
  · rfl
  · split <;> rfl

@[simp] theorem Line.atCentre_recessive_runs (l : Line) :
    (l.atCentre false).runs = (min (l.recessiveRun + 1) 44, 0) := rfl

@[simp] theorem Line.atCentre_dominant_runs (l : Line) :
    (l.atCentre true).runs = (0, min (l.dominantRun + 1) 48) := rfl

/-- Only a bit centre moves the runs (R90). -/
theorem Line.atSample_runs (l : Line) {now : SampleTime} (b : Bool) (h : now.toNat % 8 ≠ 4) :
    (l.atSample now b).runs = l.runs := by
  by_cases h0 : now.toNat % 8 = 0
  · rw [Line.atSample_boundary l b h0, Line.atBoundary_runs]
  · rw [Line.atSample_between l b h0 h]
    rfl

/-! ### What each line step can change of the line -/

@[simp] theorem State.deliver_line (s : State) (bits : BitVec 36) : (s.deliver bits).line = s.line := by
  rw [State.deliver_frame]

@[simp] theorem State.markSettled_line (s : State) (f : Frame) :
    (s.markSettled f).line = { s.line with view := .frame { f with settled := true } } := rfl

section LineSteps

variable {s t : State}

theorem execFrameStart_line {level : Bool} (h : execFrameStart level s = .next t) :
    t.line = { s.line with ownFrame := t.line.ownFrame, drive := t.line.drive } := by
  cases h
  split
  · split <;> rfl
  · rfl

theorem execStartBitHeard_line (h : execStartBitHeard s = .next t) :
    t.line = { s.line with view := t.line.view } := by
  cases h
  split <;> rfl

theorem execStartBitRecessive_line (h : execStartBitRecessive s = .next t) :
    t.line = { s.line with ownFrame := t.line.ownFrame } := by
  cases h
  split
  · simp
  · rfl

theorem execArbitrationLost_line (h : execArbitrationLost s = .next t) :
    t.line = { s.line with view := t.line.view, ownFrame := t.line.ownFrame } := by
  cases h
  split
  · split <;> rfl
  · rfl

theorem execObjectionRaised_line (h : execObjectionRaised s = .next t) :
    t.line = { s.line with drive := t.line.drive } := by
  cases h
  split
  · split <;> rfl
  · rfl

theorem execFramesDiscarded_line (h : execFramesDiscarded s = .next t) :
    t.line = { s.line with view := t.line.view } := by
  cases h
  split
  · split
    · split <;> simp
    · rfl
  · rfl

theorem execSeedAccepted_line (h : execSeedAccepted s = .next t) :
    t.line = { s.line with view := t.line.view } := by
  cases h
  split
  · split
    · simp
    · rfl
  · rfl

theorem execFrameGapEnd_line (h : execFrameGapEnd s = .next t) :
    t.line = { s.line with toIdle := t.line.toIdle } := by
  cases h
  split
  · split <;> rfl
  · rfl

theorem execLineIdle_line (h : execLineIdle s = .next t) :
    t.line = { s.line with toIdle := t.line.toIdle } := by
  cases h
  split <;> rfl

theorem execLineStuck_line (h : execLineStuck s = .next t) :
    t.line = { s.line with
      view := t.line.view
      ownFrame := t.line.ownFrame
      toIdle := t.line.toIdle
      drive := t.line.drive } := by
  cases h
  split <;> rfl

theorem execStuckRelease_line (h : execStuckRelease s = .next t) :
    t.line = { s.line with view := t.line.view } := by
  cases h
  split <;> rfl

end LineSteps

/-! ### Every other step carries the runs -/

/-- The rule that the command carries out sets the runs: an edge reads the line, TZ and a changed SOLO rejoin
it, a dominant gap bit begins a new JOIN, and reset and its release start afresh (R90, R93, R95, R160). -/
def setsRuns : Instr → Prop
  | .timebaseAdvance _ _ | .tzSample _ | .dominantGapBit | .set => True
  | .rstnAssert | .resetStation | .resetRelease _ => True
  | _ => False

/-- The runs are carried: a step off the SEED line leaves the line, and a line step whose rule does not set
the runs changes other fields of it. -/
theorem exec_runs {c : Instr} {s t : State} (hc : ¬ setsRuns c) (h : exec c s = .next t) :
    t.line.runs = s.line.runs := by
  cases c with
  | timebaseAdvance | tzSample | dominantGapBit | set | rstnAssert | resetStation | resetRelease =>
    exact absurd trivial hc
  | frameStart => exact (congrArg Line.runs (execFrameStart_line h) :)
  | startBitHeard => exact (congrArg Line.runs (execStartBitHeard_line h) :)
  | startBitRecessive => exact (congrArg Line.runs (execStartBitRecessive_line h) :)
  | arbitrationLost => exact (congrArg Line.runs (execArbitrationLost_line h) :)
  | objectionRaised => exact (congrArg Line.runs (execObjectionRaised_line h) :)
  | framesDiscarded => exact (congrArg Line.runs (execFramesDiscarded_line h) :)
  | seedAccepted => exact (congrArg Line.runs (execSeedAccepted_line h) :)
  | frameGapEnd => exact (congrArg Line.runs (execFrameGapEnd_line h) :)
  | lineIdle => exact (congrArg Line.runs (execLineIdle_line h) :)
  | lineStuck => exact (congrArg Line.runs (execLineStuck_line h) :)
  | stuckRelease => exact (congrArg Line.runs (execStuckRelease_line h) :)
  | codePairArrival => exact congrArg (·.line.runs) (execCodePairArrival_frame h)
  | hitExpiry => exact congrArg (·.line.runs) (execHitExpiry_frame h)
  | evictMarkWithdrawal => exact congrArg (·.line.runs) (execEvictMarkWithdrawal_frame h)
  | callLapse => exact congrArg (·.line.runs) (execCallLapse_frame h)
  | seedClosed => exact congrArg (·.line.runs) (execSeedClosed_frame h)
  | seedLateMark => exact congrArg (·.line.runs) (execSeedLateMark_frame h)
  | seedStaleMark => exact congrArg (·.line.runs) (execSeedStaleMark_frame h)
  | fragmentBuild => exact congrArg (·.line.runs) (execFragmentBuild_frame h)
  | linkWordSent => exact congrArg (·.line.runs) (execLinkWordSent_frame h)
  | drainReturn => exact congrArg (·.line.runs) (execDrainReturn_frame h)
  | commandWordArrival => exact congrArg (·.line.runs) (execCommandWordArrival_frame h)
  | readItem => exact congrArg (·.line.runs) (execReadItem_frame h)
  | start => exact congrArg (·.line.runs) (execStart_frame h)
  | stop => exact congrArg (·.line.runs) (execStop_frame h)
  | readStatus => exact congrArg (·.line.runs) (execReadStatus_frame h)
  | clearCounters => exact congrArg (·.line.runs) (execClearCounters_frame h)
  | linkPause => exact congrArg (·.line.runs) (execLinkPause_frame h)
  | linkResume => exact congrArg (·.line.runs) (execLinkResume_frame h)
  | unknownCommand => exact congrArg (·.line.runs) (execUnknownCommand_frame h)

/-- With no edge of RESET_STATION awaited, the release takes a station out of reset (R160, R161). -/
theorem exec_resetRelease_releases (s : State) (straps : BitVec 4) (hr : s.inReset = true)
    (he : s.resetEdges = 0) : exec (.resetRelease straps) s = .next (s.release straps) := by
  show execResetRelease straps s = _
  rw [execResetRelease, if_pos hr, if_pos he]

/-- Settles O38: the edge by the line at its sample, the other commands by `exec_runs`, and the release by the
line of a released station. -/
theorem runsFollowReads : Obligations.RunsFollowReads := by
  refine ⟨fun s seedLevel holdLevel hr => ?edge,
    fun c s t h hedge htz hgap hset hrstn hreset hrelease => ?other,
    fun s straps hr he => ⟨_, exec_resetRelease_releases s straps hr he, rfl, rfl⟩⟩
  case edge =>
    refine ⟨_, exec_timebaseAdvance s seedLevel holdLevel hr, fun level hlevel => ?_⟩
    have hseen : s.seedObserved seedLevel = level := hlevel.symm
    rw [State.advance_now, State.advance_line, hseen]
    refine ⟨fun hcentre hrec => ?_, fun hcentre hdom => ?_, fun hother => ?_⟩
    · rw [Line.atSample_centre _ _ hcentre, hrec]
      exact Prod.mk_inj.1 s.line.atCentre_recessive_runs
    · rw [Line.atSample_centre _ _ hcentre, hdom]
      exact (Prod.mk_inj.1 s.line.atCentre_dominant_runs).symm
    · exact Line.runs_eq_iff.1 (Line.atSample_runs _ _ hother)
  case other =>
    have hcarries : ¬ setsRuns c := by
      cases c with
      | timebaseAdvance a b => exact absurd rfl (hedge a b)
      | tzSample tz => exact absurd rfl (htz tz)
      | dominantGapBit => exact absurd rfl hgap
      | set => exact absurd rfl hset
      | rstnAssert => exact absurd rfl hrstn
      | resetStation => exact absurd rfl hreset
      | resetRelease straps => exact absurd rfl (hrelease straps)
      | _ => exact id
    exact Line.runs_eq_iff.1 (exec_runs hcarries h)

end Sys2Proof.Machine

/-! PROOFS. The layouts of words and frames: a word put together from fields, as a number and bit by bit; the
command word, the frames of the link and the status frame (spec 11, sections 11.2 and 11.3). -/

namespace Sys2Proof.Machine

/-! ### Words put together from fields -/

/-- A field with `n` bits below it stands at bit `n`: its number counts `2 ^ n` times. -/
theorem toNat_append_eq_mul_add {m n : Nat} (x : BitVec m) (y : BitVec n) :
    (x ++ y).toNat = x.toNat * 2 ^ n + y.toNat := by
  rw [BitVec.toNat_append, ← Nat.shiftLeft_add_eq_or_of_lt y.isLt, Nat.shiftLeft_eq]

/-- Bit `i` of what stands above a field of `n` bits is bit `n + i` of the whole. -/
theorem getLsbD_append_above {m n : Nat} (x : BitVec m) (y : BitVec n) (i : Nat) :
    (x ++ y).getLsbD (n + i) = x.getLsbD i := by
  rw [BitVec.getLsbD_append, if_neg (by omega), Nat.add_sub_cancel_left]

theorem getLsbD_append_of_lt {m n i : Nat} (x : BitVec m) (y : BitVec n) (h : i < n) :
    (x ++ y).getLsbD i = y.getLsbD i := by
  rw [BitVec.getLsbD_append, if_pos h]

@[simp] theorem bit_toNat (b : Bool) : (bit b).toNat = b.toNat := BitVec.toNat_ofBool b

/-- A field cut out of a word, as a number. -/
theorem extractLsb'_eq_ofNat {w : Nat} (x : BitVec w) (start len : Nat) :
    x.extractLsb' start len = BitVec.ofNat len (x.toNat / 2 ^ start % 2 ^ len) := by
  apply BitVec.eq_of_toNat_eq
  rw [BitVec.extractLsb'_toNat, BitVec.toNat_ofNat, Nat.mod_mod, Nat.shiftRight_eq_div_pow]

/-! ### The command word -/

/-- A word whose four top bits name a kind is a command of that kind, with the fields below them as they
arrived (R183). -/
theorem decodeCommand_of_kindOfCode {w : Word} {code : Nat} {kind : CommandKind}
    (hkind : kindOfCode (BitVec.ofNat 4 code) = some kind) (hcode : w.toNat / 2 ^ 28 = code) :
    decodeCommand w = some
      { kind := kind
        channel := BitVec.ofNat 4 (w.toNat / 2 ^ 24 % 16)
        item := BitVec.ofNat 6 (w.toNat / 2 ^ 18 % 64)
        value := BitVec.ofNat 18 (w.toNat % 2 ^ 18) } := by
  have htop : w.extractLsb' 28 4 = BitVec.ofNat 4 code := by
    have hfour : code < 2 ^ 4 := by omega
    rw [extractLsb'_eq_ofNat, hcode, Nat.mod_eq_of_lt hfour]
  rw [decodeCommand, htop, hkind]
  simp [extractLsb'_eq_ofNat]

/-- A channel field addresses its own channel, and 15 addresses all of them (R169). -/
theorem addresses_iff (field : BitVec 4) (c : Fin 8) :
    addresses field c = true ↔ field.toNat = c.val ∨ field.toNat = 15 := by
  rw [addresses, Bool.or_eq_true, beq_iff_eq, beq_iff_eq, ← BitVec.toNat_inj, or_comm]
  rfl

/-- Settles O7: each kind code by the fields around it, the two tables of item codes row by row, and channel
15 by `addresses_iff`. -/
theorem commandWordLayout : Obligations.CommandWordLayout := by
  refine ⟨fun w p hp => ?kinds, by decide, by decide, addresses_iff⟩
  case kinds =>
    suffices hkind : kindOfCode (BitVec.ofNat 4 p.1) = some p.2 from decodeCommand_of_kindOfCode hkind
    revert p
    decide

/-! ### The frames of the link -/

theorem startWord_toNat (slot : BitVec 4) : (startWord slot).toNat = slot.toNat * 2 ^ 24 := by
  simp only [startWord, toNat_append_eq_mul_add, BitVec.reduceToNat]
  omega

theorem itemValueWord_toNat (channel : BitVec 4) (item : BitVec 6) {value : Nat} (h : value < 2 ^ 18) :
    (itemValueWord channel item value).toNat =
      3 * 2 ^ 28 + channel.toNat * 2 ^ 24 + item.toNat * 2 ^ 18 + value := by
  have hvalue : (BitVec.ofNat 18 value).toNat = value := Nat.mod_eq_of_lt h
  simp only [itemValueWord, toNat_append_eq_mul_add, hvalue, BitVec.reduceToNat]
  omega

/-- The first word of a refusal frame has its kind and its code above 24 zero bits (R178). -/
theorem refusalFrame_eq (code : RefusalCode) (w : Word) :
    refusalFrame code w = [BitVec.ofNat 32 (4 * 2 ^ 28 + (refusalNumber code).toNat * 2 ^ 24), w] := by
  cases code <;> rfl

/-- The count of a fragment's hits and lost_after fit their fields of the first header word (R120, R179). -/
theorem headerWord0_toNat (slot : BitVec 4) (late evicted own omitted : Bool) {hitCount lostAfter : Nat}
    (hhits : hitCount ≤ 256) (hlost : lostAfter ≤ 255) :
    (headerWord0 slot late evicted own omitted hitCount lostAfter).toNat =
      1 * 2 ^ 28 + slot.toNat * 2 ^ 24 + late.toNat * 2 ^ 23 + evicted.toNat * 2 ^ 22 +
        own.toNat * 2 ^ 21 + omitted.toNat * 2 ^ 20 + hitCount * 2 ^ 11 + lostAfter * 2 ^ 3 := by
  have hcount : (BitVec.ofNat 9 hitCount).toNat = hitCount := Nat.mod_eq_of_lt (by omega)
  have hafter : (BitVec.ofNat 8 lostAfter).toNat = lostAfter := Nat.mod_eq_of_lt (by omega)
  simp only [headerWord0, toNat_append_eq_mul_add, bit_toNat, hcount, hafter, BitVec.reduceToNat]
  omega

theorem headerWord1_toNat (number : BitVec 16) (energy : BitVec 12) (origin : BitVec 4) :
    (headerWord1 number energy origin).toNat =
      number.toNat * 2 ^ 16 + energy.toNat * 2 ^ 4 + origin.toNat := by
  simp only [headerWord1, toNat_append_eq_mul_add]
  omega

theorem headerWord2_toNat (time : SampleTime) : (headerWord2 time).toNat = time.toNat * 2 ^ 4 := by
  rw [headerWord2, toNat_append_eq_mul_add]
  rfl

/-- Settles O8, word by word: each is the sum of its fields at their bits. -/
theorem linkWordLayouts : Obligations.LinkWordLayouts := by
  refine ⟨startWord_toNat, fun channel item _ => itemValueWord_toNat channel item, fun w p hp => ?refusal,
    fun slot late evicted own omitted _ _ => headerWord0_toNat slot late evicted own omitted,
    headerWord1_toNat, headerWord2_toNat⟩
  case refusal =>
    suffices hnumber : (refusalNumber p.1).toNat = p.2 by rw [refusalFrame_eq, hnumber]
    revert p
    decide

/-! ### The status frame -/

/-- The status header word, by the numbers of the station state and of the line view; the occupancy of the
Readout Queue fits its field (R139, R181). -/
theorem statusWord0_toNat (s : State) (level : Bool) {mode view : Nat} (hocc : s.occupancy ≤ 4096)
    (hmode : (stateCode s.mode).toNat = mode) (hview : (viewCode s.line.view).toNat = view) :
    (statusWord0 s level).toNat =
      2 * 2 ^ 28 + s.slot.toNat * 2 ^ 24 + mode * 2 ^ 22 + view * 2 ^ 20 +
        (s.holdObserved level).toNat * 2 ^ 19 + s.hold.drive.toNat * 2 ^ 18 +
        s.hold.notRun.toNat * 2 ^ 17 + s.hold.queueHold.toNat * 2 ^ 16 + s.hold.listHold.toNat * 2 ^ 15 +
        s.link.paused.toNat * 2 ^ 14 + s.occupancy := by
  have hwords : (BitVec.ofNat 13 s.occupancy).toNat = s.occupancy := Nat.mod_eq_of_lt (by omega)
  simp only [statusWord0, toNat_append_eq_mul_add, bit_toNat, hmode, hview, hwords, BitVec.reduceToNat]
  omega

/-- Channel c's flag is at bit c (R181). -/
theorem channelBits_getLsbD (v : Vector Bool 8) (c : Fin 8) : (channelBits v).getLsbD c = v[c] := by
  fin_cases c <;> simp only [channelBits, bit, BitVec.getLsbD_append] <;> simp

theorem statusWord1_rangeFlag (s : State) (c : Fin 8) :
    (statusWord1 s).getLsbD (24 + c) = s.rangeFlags[c] := by
  have hpos : 24 + c.val = 15 + (1 + (8 + c.val)) := by omega
  rw [statusWord1, hpos, getLsbD_append_above, getLsbD_append_above, getLsbD_append_above,
    channelBits_getLsbD]

theorem statusWord1_satFlag (s : State) (c : Fin 8) :
    (statusWord1 s).getLsbD (16 + c) = s.satFlags[c] := by
  have hpos : 16 + c.val = 15 + (1 + c.val) := by omega
  rw [statusWord1, hpos, getLsbD_append_above, getLsbD_append_above, getLsbD_append_of_lt _ _ c.isLt,
    channelBits_getLsbD]

theorem statusWord1_configAdjusted (s : State) : (statusWord1 s).getLsbD 15 = s.configAdjusted := by
  rw [statusWord1, getLsbD_append_above _ _ 0, getLsbD_append_of_lt _ _ one_pos]
  cases s.configAdjusted <;> rfl

/-- The low bits of the flags word are those of the timebase (R181). -/
theorem statusWord1_toNat_mod (s : State) : (statusWord1 s).toNat % 2 ^ 15 = s.now.toNat % 2 ^ 15 := by
  rw [statusWord1, toNat_append_eq_mul_add, Nat.mul_add_mod_self_right, BitVec.toNat_setWidth, Nat.mod_mod]

/-- The station counters in the order of R172. -/
def stationCounters : List Counter :=
  [.callsMade, .callsWon, .callsMerged, .callsLapsed, .callsAbandoned, .callsDisplaced, .callsDropped,
    .objectionsRaised, .framesDiscarded, .seedsHeard, .seedsLost, .fragmentsBuilt, .hitsEvicted,
    .hitsExpiredUnselected, .holdSamples, .cmdOverruns, .tzIgnored, .lineStuckEvents]

theorem State.counters_toList (s : State) : s.counters.toList = stationCounters.map s.counter := by
  rw [← Vector.ofFn_getElem (xs := s.counters), Vector.toList_ofFn]
  rfl

theorem State.counters_le {s : State} (h : s.countersInRange) {n : Nat} (hn : n ∈ s.counters.toList) :
    n ≤ Config.counterMax := by
  rw [State.counters_toList] at hn
  obtain ⟨k, -, rfl⟩ := List.mem_map.1 hn
  exact h.1 k

theorem State.hitCounts_le {s : State} (h : s.countersInRange) {n : Nat} (hn : n ∈ s.hitCounts.toList) :
    n ≤ Config.counterMax := by
  obtain ⟨i, hi, rfl⟩ := Vector.mem_iff_getElem.1 (Vector.mem_toList_iff.1 hn)
  exact h.2 ⟨i, hi⟩

/-- Counts in range are carried whole by words (R173). -/
theorem map_toNat_map_ofNat {counts : List Nat} (h : ∀ n ∈ counts, n ≤ Config.counterMax) :
    (counts.map (BitVec.ofNat 32)).map BitVec.toNat = counts := by
  have hword : ∀ n ∈ counts, (BitVec.ofNat 32 n).toNat = n := fun n hn =>
    Nat.mod_eq_of_lt (Nat.lt_succ_of_le (h n hn))
  rw [List.map_map]
  exact (List.map_congr_left hword).trans (List.map_id counts)

/-- Settles O10: the header word as a number, the flags word bit by bit, and the counters in their order. -/
theorem statusFrameLayout : Obligations.StatusFrameLayout := by
  intro s level hocc hrange
  refine ⟨statusWord0 s level, statusWord1 s, _, _, rfl,
    statusWord0_toNat s level hocc ?mode ?view,
    fun c => ⟨statusWord1_rangeFlag s c, statusWord1_satFlag s c⟩, statusWord1_configAdjusted s,
    statusWord1_toNat_mod s, ?counters, map_toNat_map_ofNat fun _ => State.hitCounts_le hrange⟩
  case mode => cases s.mode <;> rfl
  case view => cases s.line.view <;> rfl
  case counters =>
    rw [map_toNat_map_ofNat fun _ => State.counters_le hrange, State.counters_toList]
    rfl

end Sys2Proof.Machine

/-! PROOFS. What a step can do: the frame of every command in one relation, the commands that enter or leave
reset, and how a law is carried along a step (95, what each step holds). -/

namespace Sys2Proof.Machine

/-! ### The frame of every command -/

/-- The fields that a command may touch, command by command. The three that enter or leave reset have no
frame: they build a state anew. -/
def keepsFrame : Instr → State → State → Prop
  | .codePairArrival _ _ _, s, t => s.pairFrame t
  | .timebaseAdvance _ _, s, t =>
    t = { s with
      now := t.now
      tzSeen := t.tzSeen
      edgeTz := t.edgeTz
      awaitsEdge := t.awaitsEdge
      line := t.line
      counters := t.counters
      resetEdges := t.resetEdges }
  | .tzSample _, s, t =>
    t = { s with
      now := t.now
      tzSeen := t.tzSeen
      edgeTz := t.edgeTz
      line := t.line
      counters := t.counters }
  | .hitExpiry, s, t => t = { s with hits := t.hits, pool := t.pool, counters := t.counters }
  | .evictMarkWithdrawal, s, t => t = { s with evictMark := t.evictMark }
  | .callLapse, s, t => t = { s with calls := t.calls, counters := t.counters }
  | .seedClosed, s, t | .seedLateMark, s, t | .seedStaleMark, s, t => t = { s with seeds := t.seeds }
  | .fragmentBuild, s, t =>
    t = { s with
      hits := t.hits
      readout := t.readout
      seeds := t.seeds
      hold := t.hold
      link := t.link
      counters := t.counters }
  | .frameStart _, s, t => t = { s with calls := t.calls, line := t.line }
  | .startBitHeard, s, t | .frameGapEnd, s, t | .dominantGapBit, s, t | .lineIdle, s, t
  | .stuckRelease, s, t => t = { s with line := t.line }
  | .startBitRecessive, s, t | .arbitrationLost, s, t | .framesDiscarded, s, t | .lineStuck, s, t =>
    t = { s with calls := t.calls, counters := t.counters, line := t.line }
  | .objectionRaised, s, t => t = { s with counters := t.counters, line := t.line }
  | .seedAccepted, s, t =>
    t = { s with
      line := t.line
      calls := t.calls
      counters := t.counters
      seedCounter := t.seedCounter
      seeds := t.seeds
      hold := t.hold }
  | .linkWordSent, s, t => t = { s with link := t.link, readout := t.readout, hold := t.hold }
  | .drainReturn, s, t =>
    t = { s with
      mode := t.mode
      hold := t.hold
      hits := t.hits
      evictMark := t.evictMark
      counters := t.counters
      pool := t.pool
      channels := t.channels }
  | .commandWordArrival _, s, t => t = { s with commands := t.commands, counters := t.counters }
  | .set, s, t =>
    t = { s with
      commands := t.commands
      link := t.link
      channels := t.channels
      station := t.station
      line := t.line
      configAdjusted := t.configAdjusted }
  | .readItem, s, t | .readStatus _, s, t | .linkPause, s, t | .linkResume, s, t
  | .unknownCommand, s, t => t = { s with commands := t.commands, link := t.link }
  | .start, s, t =>
    t = { s with
      commands := t.commands
      link := t.link
      mode := t.mode
      station := t.station
      hEff := t.hEff
      gMax := t.gMax
      hits := t.hits
      evictMark := t.evictMark
      calls := t.calls
      seeds := t.seeds
      readout := t.readout
      seedCounter := t.seedCounter
      hold := t.hold
      configAdjusted := t.configAdjusted }
  | .stop, s, t =>
    t = { s with
      commands := t.commands
      link := t.link
      calls := t.calls
      mode := t.mode
      hold := t.hold
      hits := t.hits
      evictMark := t.evictMark
      counters := t.counters
      pool := t.pool
      channels := t.channels }
  | .clearCounters, s, t =>
    t = { s with
      commands := t.commands
      counters := t.counters
      hitCounts := t.hitCounts
      rangeFlags := t.rangeFlags
      satFlags := t.satFlags
      configAdjusted := t.configAdjusted }
  | .resetStation, _, _ | .rstnAssert, _, _ | .resetRelease _, _, _ => True

/-- Every command keeps its frame. -/
theorem exec_frame {c : Instr} {s t : State} (h : exec c s = .next t) : keepsFrame c s t := by
  cases c with
  | codePairArrival => exact execCodePairArrival_frame h
  | timebaseAdvance => exact execTimebaseAdvance_frame h
  | tzSample => exact execTzSample_frame h
  | hitExpiry => exact execHitExpiry_frame h
  | evictMarkWithdrawal => exact execEvictMarkWithdrawal_frame h
  | callLapse => exact execCallLapse_frame h
  | seedClosed => exact execSeedClosed_frame h
  | seedLateMark => exact execSeedLateMark_frame h
  | seedStaleMark => exact execSeedStaleMark_frame h
  | fragmentBuild => exact execFragmentBuild_frame h
  | frameStart => exact execFrameStart_frame h
  | startBitHeard => exact execStartBitHeard_frame h
  | startBitRecessive => exact execStartBitRecessive_frame h
  | arbitrationLost => exact execArbitrationLost_frame h
  | objectionRaised => exact execObjectionRaised_frame h
  | framesDiscarded => exact execFramesDiscarded_frame h
  | seedAccepted => exact execSeedAccepted_frame h
  | frameGapEnd => exact execFrameGapEnd_frame h
  | dominantGapBit => exact execDominantGapBit_frame h
  | lineIdle => exact execLineIdle_frame h
  | lineStuck => exact execLineStuck_frame h
  | stuckRelease => exact execStuckRelease_frame h
  | linkWordSent => exact execLinkWordSent_frame h
  | drainReturn => exact execDrainReturn_frame h
  | commandWordArrival => exact execCommandWordArrival_frame h
  | set => exact execSet_frame h
  | readItem => exact execReadItem_frame h
  | start => exact execStart_frame h
  | stop => exact execStop_frame h
  | readStatus => exact execReadStatus_frame h
  | clearCounters => exact execClearCounters_frame h
  | linkPause => exact execLinkPause_frame h
  | linkResume => exact execLinkResume_frame h
  | resetStation => trivial
  | rstnAssert => trivial
  | resetRelease => trivial
  | unknownCommand => exact execUnknownCommand_frame h

/-! ### Laws along a step -/

/-- The command enters reset or leaves it (R160, R161). -/
def resets : Instr → Bool
  | .resetStation | .rstnAssert | .resetRelease _ => true
  | _ => false

/-- What the commands of reset come to: reset entered, left, RSTN noted deasserted, or nothing. -/
theorem exec_resets {c : Instr} {s t : State} (hc : resets c = true) (h : exec c s = .next t) :
    t = s ∨ (∃ rstn edges, t = s.enterReset rstn edges) ∨ (∃ straps, t = s.release straps) ∨
      t = { s with rstn := false } := by
  cases c with
  | resetStation => exact (execResetStation_cases h).imp_right fun e => Or.inl ⟨_, _, e.2⟩
  | rstnAssert => cases h; exact Or.inr (Or.inl ⟨_, _, rfl⟩)
  | resetRelease straps =>
    rcases execResetRelease_cases h with ⟨-, e⟩ | ⟨-, -, e⟩ | ⟨-, -, e⟩
    · exact Or.inl e
    · exact Or.inr (Or.inr (Or.inl ⟨straps, e⟩))
    · exact Or.inr (Or.inr (Or.inr e))
  | _ => cases hc

/-- A step is an idle one or a command with the queue's rest. -/
theorem step_cases {s t : State} (h : step s = .next t) :
    t = s ∨ ∃ c rest, s.pending = c :: rest ∧ exec c { s with pending := rest } = .next t := by
  unfold step at h
  cases hp : s.pending with
  | nil => rw [hp] at h; cases h; exact Or.inl rfl
  | cons c rest => rw [hp] at h; exact Or.inr ⟨c, rest, rfl, h⟩

/-- How a law `P` comes to hold after a step from a state with `Q`: the queue of commands is not looked at,
reset and release give `P`, RSTN does not matter, and every other command leads from `Q` to `P`. -/
theorem step_leads {Q P : State → Prop} (hself : ∀ s, Q s → P s)
    (hqueue : ∀ s q, Q s → Q { s with pending := q }) (hrstn : ∀ s b, P s → P { s with rstn := b })
    (henter : ∀ s rstn edges, P (State.enterReset s rstn edges))
    (hrelease : ∀ s straps, P (State.release s straps))
    (hexec : ∀ c s t, resets c = false → Q s → exec c s = .next t → P t) {s t : State} (hs : Q s)
    (h : step s = .next t) : P t := by
  rcases step_cases h with rfl | ⟨c, rest, -, hc⟩
  · exact hself _ hs
  · have hq := hqueue s rest hs
    cases hr : resets c with
    | false => exact hexec c _ t hr hq hc
    | true =>
      rcases exec_resets hr hc with rfl | ⟨b, n, rfl⟩ | ⟨straps, rfl⟩ | rfl
      · exact hself _ hq
      · exact henter _ b n
      · exact hrelease _ straps
      · exact hrstn _ false (hself _ hq)

/-- The command is a code pair's arrival. -/
def isCodePair : Instr → Bool
  | .codePairArrival _ _ _ => true
  | _ => false

/-- A code pair that arrives is handled on its channel, or not at all (R1, R160). -/
theorem exec_isCodePair {c : Instr} {s t : State} (hc : isCodePair c = true) (h : exec c s = .next t) :
    t = s ∨ ∃ k hi lo, t = s.handlePair k hi lo := by
  cases c with
  | codePairArrival n hi lo =>
    change execCodePairArrival n hi lo s = .next t at h
    unfold execCodePairArrival at h
    split at h <;> cases h
    split
    · exact Or.inl rfl
    · exact Or.inr ⟨_, hi, lo, rfl⟩
  | _ => cases hc

/-! ### The commands with several outcomes -/

section Outcomes

variable {s t : State}

/-- SET waits or finds no SET at the head, is refused, or writes in SETUP (R167, R169). -/
theorem execSet_cases (h : execSet s = .next t) :
    t = s ∨ (∃ w code, t = s.refuseHead w code) ∨
      (s.mode = .setup ∧ ∃ field i value, t = s.popCommand.setItem field i value) := by
  cases h
  split
  · exact Or.inl rfl
  · rename_i w c _
    cases hr : refuseSet s.mode c with
    | some code => exact Or.inr (Or.inl ⟨w, code, rfl⟩)
    | none =>
      cases hi : itemOfCode c.item with
      | none => exact Or.inl rfl
      | some i =>
        refine Or.inr (Or.inr ⟨?_, c.channel, i, c.value, rfl⟩)
        by_contra hm
        simp only [refuseSet, hi, hm, ne_eq, not_false_eq_true, if_true] at hr
        split at hr <;> cases hr

/-- START does nothing, is refused, or enters RUN from SETUP (R155). -/
theorem execStart_cases (h : execStart s = .next t) :
    t = s ∨ (∃ w code, t = s.refuseHead w code) ∨ (s.mode = .setup ∧ t = s.popCommand.startRun) := by
  cases h
  split
  · exact Or.inl rfl
  · rename_i w c _
    by_cases hm : s.mode = .setup
    · exact Or.inr (Or.inr ⟨hm, by rw [refuseState, if_pos hm]⟩)
    · exact Or.inr (Or.inl ⟨w, .wrongState, by rw [refuseState, if_neg hm]⟩)

/-- STOP does nothing, is refused, or leaves RUN (R157). -/
theorem execStop_cases (h : execStop s = .next t) :
    t = s ∨ (∃ w code, t = s.refuseHead w code) ∨ (s.mode = .run ∧ t = s.popCommand.stopRun) := by
  cases h
  split
  · exact Or.inl rfl
  · rename_i w c _
    by_cases hm : s.mode = .run
    · exact Or.inr (Or.inr ⟨hm, by rw [refuseState, if_pos hm]⟩)
    · exact Or.inr (Or.inl ⟨w, .wrongState, by rw [refuseState, if_neg hm]⟩)

/-- FRAGMENT_BUILD does nothing, or builds a head that can be built (R125, R127). -/
theorem execFragmentBuild_cases (h : execFragmentBuild s = .next t) :
    t = s ∨ ∃ d rest, s.seeds = d :: rest ∧ s.headBuildable d = true ∧ t = s.build d rest := by
  cases h
  split
  · exact Or.inl rfl
  · rename_i d rest hd
    split
    · exact Or.inr ⟨d, rest, hd, ‹_›, rfl⟩
    · exact Or.inl rfl

/-- SEED_ACCEPTED does nothing, or delivers the seed of a frame it marks settled (R105). -/
theorem execSeedAccepted_cases (h : execSeedAccepted s = .next t) :
    t = s ∨ ∃ f, s.settles f false = true ∧ t = (s.markSettled f).deliver f.bits := by
  cases h
  split
  · split
    · exact Or.inr ⟨_, ‹_›, rfl⟩
    · exact Or.inl rfl
  · exact Or.inl rfl

/-- LINK_WORD_SENT does nothing in reset, and else sends a word after the link's choice (R149, R160). -/
theorem execLinkWordSent_cases (h : execLinkWordSent s = .next t) :
    t = s ∨ s.inReset = false ∧ t = s.chooseFrame.sendWord (startWord s.slot) := by
  cases h
  cases hr : s.inReset with
  | true => exact Or.inl rfl
  | false => exact Or.inr ⟨rfl, rfl⟩

theorem State.testDrain_cases (s : State) :
    s.testDrain = s ∨ s.drainDone = true ∧ s.testDrain = s.returnToSetup := by
  unfold State.testDrain
  split
  · exact Or.inr ⟨‹_›, rfl⟩
  · exact Or.inl rfl

end Outcomes

/-- Settles O1, by the equations of `step`. -/
theorem stepCarriesOutFrontCommand : Obligations.StepCarriesOutFrontCommand := by
  refine ⟨fun c rest s hp => ?_, fun s hp => ?_⟩ <;> rw [step, hp]

end Sys2Proof.Machine

/-! PROOFS. Hold Control: NOT_RUN and the drive, and the law of QUEUE_HOLD and LIST_HOLD, along a step (R142
to R144, R147). -/

namespace Sys2Proof.Machine

/-! ### The drive -/

theorem State.holdLaw_testDrain {s : State} (h : s.holdLaw) : s.testDrain.holdLaw := by
  rcases s.testDrain_cases with e | ⟨-, e⟩ <;> rw [e]
  · exact h
  · exact State.holdLaw_enterMode _ _

theorem State.holdLaw_chooseFrame {s : State} (h : s.holdLaw) : s.chooseFrame.holdLaw :=
  State.holdLaw_congr h s.chooseFrame_hold s.chooseFrame_mode s.chooseFrame_inReset

theorem State.holdLaw_endFrame {s : State} (h : s.holdLaw) : s.endFrame.holdLaw :=
  State.holdLaw_congr h s.endFrame_hold s.endFrame_mode s.endFrame_inReset

theorem State.holdLaw_refuseHead {s : State} (w : Word) (code : RefusalCode) (h : s.holdLaw) :
    (s.refuseHead w code).holdLaw :=
  State.holdLaw_congr h (congrArg (·.hold) (s.refuseHead_frame w code))
    (congrArg (·.mode) (s.refuseHead_frame w code)) (congrArg (·.inReset) (s.refuseHead_frame w code))

theorem State.holdLaw_build {s : State} (d : Seed) (rest : List Seed) (h : s.holdLaw) :
    (s.build d rest).holdLaw :=
  State.holdLaw_chooseFrame ⟨h.1, rfl⟩

theorem State.holdLaw_sendWord {s : State} (w : Word) (h : s.holdLaw) : (s.sendWord w).holdLaw := by
  unfold State.sendWord
  split
  · exact h
  · exact State.holdLaw_endFrame h
  · unfold State.sendResponseWord
    split
    · exact State.holdLaw_endFrame h
    · split
      · exact h
      · exact State.holdLaw_endFrame h
  · unfold State.sendFragmentWord
    split
    · exact State.holdLaw_endFrame h
    · exact State.holdLaw_endFrame h
    · exact State.holdLaw_endFrame (State.holdLaw_judgeQueueHold _ h.1)
    · exact State.holdLaw_judgeQueueHold _ h.1

/-- Every command but those of reset keeps the law of the drive (R144). -/
theorem exec_holdLaw {c : Instr} {s t : State} (hc : resets c = false) (hs : s.holdLaw)
    (h : exec c s = .next t) : t.holdLaw := by
  cases c with
  | resetStation | rstnAssert | resetRelease => cases hc
  | fragmentBuild =>
    rcases execFragmentBuild_cases h with rfl | ⟨d, rest, -, -, rfl⟩
    · exact hs
    · exact State.holdLaw_build _ _ hs
  | seedAccepted =>
    rcases execSeedAccepted_cases h with rfl | ⟨f, -, rfl⟩
    · exact hs
    · exact State.holdLaw_deliver (s.markSettled f) _ hs
  | linkWordSent =>
    rcases execLinkWordSent_cases h with rfl | ⟨-, rfl⟩
    · exact hs
    · exact State.holdLaw_sendWord _ (State.holdLaw_chooseFrame hs)
  | drainReturn => cases h; exact State.holdLaw_testDrain hs
  | start =>
    rcases execStart_cases h with rfl | ⟨w, code, rfl⟩ | ⟨-, rfl⟩
    · exact hs
    · exact State.holdLaw_refuseHead _ _ hs
    · exact State.holdLaw_enterMode _ _
  | stop =>
    rcases execStop_cases h with rfl | ⟨w, code, rfl⟩ | ⟨-, rfl⟩
    · exact hs
    · exact State.holdLaw_refuseHead _ _ hs
    · exact State.holdLaw_testDrain (State.holdLaw_congr (State.holdLaw_enterMode _ .drain) rfl rfl rfl)
  | _ =>
    exact State.holdLaw_congr hs (congrArg (·.hold) (exec_frame h)) (congrArg (·.mode) (exec_frame h))
      (congrArg (·.inReset) (exec_frame h))

/-! ### The two causes -/

theorem State.occupancy_congr {s t : State} (h : t.readout = s.readout) : t.occupancy = s.occupancy := by
  rw [State.occupancy, h, State.occupancy]

/-- QUEUE_HOLD between the marks of the Readout Queue (R142). -/
def State.queueHoldLaw (s : State) : Prop :=
  (s.hold.queueHold = true → s.station.lowMark < s.occupancy) ∧
    (s.hold.queueHold = false → s.occupancy < s.station.highMark)

/-- LIST_HOLD between its two bounds of the Seed List (R143). -/
def State.listHoldLaw (s : State) : Prop :=
  (s.hold.listHold = true → 8 < s.seeds.length) ∧ (s.hold.listHold = false → s.seeds.length < 12)

/-- Outside SETUP the law of the causes is that of each cause, with the marks 256 apart. -/
theorem State.causesLawful_of_active {s : State} (hm : s.mode ≠ .setup)
    (hmarks : s.station.lowMark + 256 ≤ s.station.highMark) (hq : s.queueHoldLaw) (hl : s.listHoldLaw) :
    s.causesLawful :=
  ⟨hq.1, hl.1, hl.2, fun _ => ⟨hmarks, hq.2⟩, fun h => absurd h hm⟩

/-- In SETUP it says that both causes are clear and both queues empty. -/
theorem State.causesLawful_of_setup {s : State} (hm : s.mode = .setup) (hq : s.hold.queueHold = false)
    (hl : s.hold.listHold = false) (hseeds : s.seeds = []) (hreadout : s.readout = []) :
    s.causesLawful := by
  refine ⟨fun h => ?_, fun h => ?_, fun _ => ?_, fun h => absurd hm h, fun _ => ⟨hq, hl, hseeds, hreadout⟩⟩
  · rw [hq] at h; cases h
  · rw [hl] at h; cases h
  · rw [hseeds]; exact Nat.zero_lt_succ _

theorem State.causesLawful.active {s : State} (h : s.causesLawful) (hm : s.mode ≠ .setup) :
    s.station.lowMark + 256 ≤ s.station.highMark ∧ s.queueHoldLaw ∧ s.listHoldLaw :=
  ⟨(h.2.2.2.1 hm).1, ⟨h.1, (h.2.2.2.1 hm).2⟩, h.2.1, h.2.2.1⟩

theorem State.causesLawful.setup {s : State} (h : s.causesLawful) (hm : s.mode = .setup) :
    s.hold.queueHold = false ∧ s.hold.listHold = false ∧ s.seeds = [] ∧ s.readout = [] :=
  h.2.2.2.2 hm

theorem State.queueHoldLaw_judgeQueueHold (s : State) (h : s.station.lowMark < s.station.highMark) :
    s.judgeQueueHold.queueHoldLaw := by
  unfold State.queueHoldLaw
  rw [State.judgeQueueHold_queueHold]
  show (_ → s.station.lowMark < s.occupancy) ∧ (_ → s.occupancy < s.station.highMark)
  split <;> simp <;> omega

theorem State.listHoldLaw_judgeListHold (s : State) : s.judgeListHold.listHoldLaw := by
  unfold State.listHoldLaw
  rw [State.judgeListHold_listHold]
  show (_ → 8 < s.seeds.length) ∧ (_ → s.seeds.length < 12)
  split <;> simp [Config.listHoldClear, Config.listHoldSet] <;> omega

/-- A change of the link alone does not matter to the causes. -/
theorem State.causesLawful_chooseFrame {s : State} (h : s.causesLawful) : s.chooseFrame.causesLawful :=
  State.causesLawful_congr h s.chooseFrame_hold s.chooseFrame_station
    (congrArg (·.occupancy) s.chooseFrame_frame) (congrArg (·.seeds.length) s.chooseFrame_frame)
    s.chooseFrame_mode fun _ => s.chooseFrame_readout

theorem State.causesLawful_endFrame {s : State} (h : s.causesLawful) : s.endFrame.causesLawful :=
  State.causesLawful_chooseFrame (s := { s with link.sending := .nothing }) h

theorem State.causesLawful_refuseHead {s : State} (w : Word) (code : RefusalCode) (h : s.causesLawful) :
    (s.refuseHead w code).causesLawful := by
  have hf := s.refuseHead_frame w code
  exact State.causesLawful_congr h (congrArg (·.hold) hf) (congrArg (·.station) hf)
    (congrArg (·.occupancy) hf) (congrArg (·.seeds.length) hf) (congrArg (·.mode) hf)
    fun _ => congrArg (·.readout) hf

/-- A fragment word that goes out leaves the causes lawful: the queue is judged again (R142). -/
theorem State.causesLawful_sendFragmentWord {s : State} (k : Nat) (h : s.causesLawful) :
    (s.sendFragmentWord k).causesLawful := by
  unfold State.sendFragmentWord
  by_cases hm : s.mode = .setup
  · rw [(h.setup hm).2.2.2]
    exact State.causesLawful_endFrame h
  · obtain ⟨hmarks, hq, hl⟩ := h.active hm
    have hlt : s.station.lowMark < s.station.highMark := by omega
    split
    · exact State.causesLawful_endFrame h
    · rename_i rest hr
      refine State.causesLawful_endFrame (State.causesLawful_congr h rfl rfl ?_ rfl rfl fun e => absurd e hm)
      simp [State.occupancy, hr]
    · exact State.causesLawful_endFrame (State.causesLawful_of_active hm hmarks
        (State.queueHoldLaw_judgeQueueHold _ hlt) hl)
    · exact State.causesLawful_of_active hm hmarks
        (State.queueHoldLaw_judgeQueueHold _ hlt) hl

theorem State.causesLawful_sendWord {s : State} (w : Word) (h : s.causesLawful) :
    (s.sendWord w).causesLawful := by
  unfold State.sendWord
  split
  · exact h
  · exact State.causesLawful_endFrame (s := { s.show w true with link.startOwed := false }) h
  · rename_i k _
    unfold State.sendResponseWord
    split
    · exact State.causesLawful_endFrame (s := { s with link.response := [] }) h
    · rename_i v _
      split
      · exact h
      · exact State.causesLawful_endFrame (s := { s.show v (k == 0) with link.response := [] }) h
  · exact State.causesLawful_sendFragmentWord _ h

theorem State.active_iff (s : State) : s.active = true ↔ s.mode ≠ .setup := bne_iff_ne

/-- A build judges both causes anew (R142, R143). -/
theorem State.causesLawful_build {s : State} (d : Seed) (rest : List Seed) (hm : s.mode ≠ .setup)
    (h : s.causesLawful) : (s.build d rest).causesLawful := by
  obtain ⟨hmarks, -, -⟩ := h.active hm
  have hlt : s.station.lowMark < s.station.highMark := by omega
  refine State.causesLawful_chooseFrame (State.causesLawful_of_active hm hmarks ?_ ?_)
  · exact State.queueHoldLaw_judgeQueueHold
      { s with hits := s.markSelected d, readout := s.readout ++ [s.fragmentWords d], seeds := rest }
      hlt
  · exact State.listHoldLaw_judgeListHold _

theorem State.causesLawful_count {s : State} (k : Counter) (n : Nat) (h : s.causesLawful) :
    (s.count k n).causesLawful := h

theorem State.causesLawful_deliverToList {s : State} (d : Seed) (hm : s.mode ≠ .setup)
    (h : s.causesLawful) : (s.deliverToList d).causesLawful := by
  obtain ⟨hmarks, hq, -⟩ := h.active hm
  rcases s.deliverToList_spec d with ⟨-, e⟩ | ⟨-, e⟩ <;> rw [e]
  · exact State.causesLawful_of_active hm hmarks hq (State.listHoldLaw_judgeListHold _)
  · refine State.causesLawful_count _ _ ?_
    exact State.causesLawful_congr h rfl rfl rfl (raiseLost_length s.seeds) rfl fun _ => rfl

theorem State.causesLawful_deliver {s : State} (bits : BitVec 36) (h : s.causesLawful) :
    (s.deliver bits).causesLawful := by
  cases ha : s.active with
  | false => rw [State.deliver_setup s bits ha]; exact h
  | true =>
    rw [State.deliver_active s bits ha]
    exact State.causesLawful_deliverToList _ (s.active_iff.mp ha) h

/-- The return from DRAIN finds both queues empty, so that no cause can be set (R158). -/
theorem State.causesLawful_testDrain {s : State} (h : s.causesLawful) : s.testDrain.causesLawful := by
  rcases s.testDrain_cases with e | ⟨hd, e⟩ <;> rw [e]
  · exact h
  · simp only [State.drainDone, Bool.and_eq_true, beq_iff_eq] at hd
    obtain ⟨⟨⟨-, hseeds⟩, hreadout⟩, -⟩ := hd
    refine State.causesLawful_of_setup rfl (Bool.eq_false_iff.mpr fun hq => ?_)
      (Bool.eq_false_iff.mpr fun hl => ?_) hseeds hreadout
    · have := h.1 hq
      simp [State.occupancy, hreadout] at this
    · have := h.2.1 hl
      simp [hseeds] at this

/-- START brings the marks 256 apart and clears both causes (R147, R156). -/
theorem State.causesLawful_startRun {s : State} (h : s.itemsInRange) : s.startRun.causesLawful := by
  obtain ⟨-, -, -, -, -, -, -, -, -, hhigh, -, -⟩ := h
  refine State.causesLawful_of_active (s := s.startRun) StationState.noConfusion ?_
    ⟨fun e => (by cases e), fun _ => ?_⟩ ⟨fun e => (by cases e), fun _ => (by decide : (0 : Nat) < 12)⟩
  · show min s.station.lowMark (s.station.highMark - 256) + 256 ≤ s.station.highMark
    omega
  · show (0 : Nat) < s.station.highMark
    omega

theorem exec_causesLawful {c : Instr} {s t : State} (hc : resets c = false) (hi : s.itemsInRange)
    (hs : s.causesLawful) (h : exec c s = .next t) : t.causesLawful := by
  cases c with
  | resetStation | rstnAssert | resetRelease => cases hc
  | seedClosed | seedLateMark | seedStaleMark =>
    cases h
    exact State.causesLawful_congr hs rfl rfl rfl (List.length_map ..) rfl fun _ => rfl
  | fragmentBuild =>
    rcases execFragmentBuild_cases h with rfl | ⟨d, rest, -, hb, rfl⟩
    · exact hs
    · simp only [State.headBuildable, Bool.and_eq_true] at hb
      exact State.causesLawful_build _ _ (s.active_iff.mp hb.1.1) hs
  | seedAccepted =>
    rcases execSeedAccepted_cases h with rfl | ⟨f, -, rfl⟩
    · exact hs
    · exact State.causesLawful_deliver (s := s.markSettled f) _ hs
  | linkWordSent =>
    rcases execLinkWordSent_cases h with rfl | ⟨-, rfl⟩
    · exact hs
    · exact State.causesLawful_sendWord _ (State.causesLawful_chooseFrame hs)
  | drainReturn => cases h; exact State.causesLawful_testDrain hs
  | set =>
    rcases execSet_cases h with rfl | ⟨w, code, rfl⟩ | ⟨hm, field, i, value, rfl⟩
    · exact hs
    · exact State.causesLawful_refuseHead _ _ hs
    · obtain ⟨hq, hl, hseeds, hreadout⟩ := hs.setup hm
      cases i <;> exact State.causesLawful_of_setup hm hq hl hseeds hreadout
  | start =>
    rcases execStart_cases h with rfl | ⟨w, code, rfl⟩ | ⟨-, rfl⟩
    · exact hs
    · exact State.causesLawful_refuseHead _ _ hs
    · exact State.causesLawful_startRun (s := s.popCommand) hi
  | stop =>
    rcases execStop_cases h with rfl | ⟨w, code, rfl⟩ | ⟨hm, rfl⟩
    · exact hs
    · exact State.causesLawful_refuseHead _ _ hs
    · obtain ⟨hmarks, hq, hl⟩ := hs.active (by rw [hm]; exact StationState.noConfusion)
      exact State.causesLawful_testDrain
        (State.causesLawful_of_active (by decide : StationState.drain ≠ .setup) hmarks hq hl)
  | _ =>
    exact State.causesLawful_congr hs (congrArg (·.hold) (exec_frame h))
      (congrArg (·.station) (exec_frame h)) (congrArg (·.occupancy) (exec_frame h))
      (congrArg (·.seeds.length) (exec_frame h)) (congrArg (·.mode) (exec_frame h))
      fun _ => congrArg (·.readout) (exec_frame h)

/-- Reset, entered or left, has no cause set and both queues empty (R147). -/
theorem State.causesLawful_enterReset (s : State) (rstn : Bool) (edges : Nat) :
    (s.enterReset rstn edges).causesLawful := State.causesLawful_of_setup rfl rfl rfl rfl rfl

/-- Settles O15, each law by what its commands do to it. -/
theorem holdFollowsCauses : Obligations.HoldFollowsCauses := by
  refine fun s t h => ⟨fun hs => ?drive, fun hi hs => ?causes⟩
  case drive =>
    exact step_leads (Q := State.holdLaw) (fun _ h => h) (fun _ _ h => h) (fun _ _ h => h)
      (fun _ _ _ => ⟨rfl, rfl⟩) (fun _ _ => ⟨rfl, rfl⟩) (fun _ _ _ hc => exec_holdLaw hc) hs h
  case causes =>
    exact step_leads (Q := fun u => u.itemsInRange ∧ u.causesLawful) (fun _ h => h.2) (fun _ _ h => h)
      (fun _ _ h => h) State.causesLawful_enterReset
      (fun _ _ => State.causesLawful_of_setup rfl rfl rfl rfl rfl)
      (fun _ _ _ hc hq => exec_causesLawful hc hq.1 hq.2) ⟨hi, hs⟩ h

end Sys2Proof.Machine

/-! PROOFS. What a step makes of the collections: the Hit Store, the times of the calls, the Seed List, the
Readout Queue and the Command Queue, and that none outgrows its depth (R56, R72, R117, R139, R165). -/

namespace Sys2Proof.Machine

/-! ### The Hit Store outside a code pair -/

theorem State.testDrain_hits (s : State) : s.testDrain.hits <:+ s.hits := by
  rcases s.testDrain_cases with e | ⟨-, e⟩
  · rw [e]
  · rw [e]; exact List.nil_suffix

theorem State.refuseHead_hits (s : State) (w : Word) (code : RefusalCode) :
    (s.refuseHead w code).hits = s.hits := congrArg (·.hits) (s.refuseHead_frame w code)

/-- Only a code pair puts a hit in the store: every other command leaves a rear part of it, or marks the
selection of a seed (R58, R63, R70, R127). -/
theorem exec_hits {c : Instr} {s t : State} (hc : resets c = false)
    (hpair : isCodePair c = false) (h : exec c s = .next t) :
    t.hits <:+ s.hits ∨ ∃ d, t.hits = s.markSelected d := by
  cases c with
  | resetStation | rstnAssert | resetRelease => cases hc
  | codePairArrival => cases hpair
  | hitExpiry =>
    cases h
    split
    · exact Or.inl (List.dropWhile_suffix _)
    · exact Or.inl List.suffix_rfl
  | fragmentBuild =>
    rcases execFragmentBuild_cases h with rfl | ⟨d, rest, -, -, rfl⟩
    · exact Or.inl List.suffix_rfl
    · exact Or.inr ⟨d, State.chooseFrame_hits _⟩
  | drainReturn => cases h; exact Or.inl s.testDrain_hits
  | start =>
    rcases execStart_cases h with rfl | ⟨w, code, rfl⟩ | ⟨-, rfl⟩
    · exact Or.inl List.suffix_rfl
    · rw [State.refuseHead_hits]; exact Or.inl List.suffix_rfl
    · exact Or.inl List.nil_suffix
  | stop =>
    rcases execStop_cases h with rfl | ⟨w, code, rfl⟩ | ⟨-, rfl⟩
    · exact Or.inl List.suffix_rfl
    · rw [State.refuseHead_hits]; exact Or.inl List.suffix_rfl
    · exact Or.inl (State.testDrain_hits _)
  | _ => exact Or.inl (congrArg (·.hits) (exec_frame h) ▸ List.suffix_rfl)

theorem State.markSelected_length (s : State) (d : Seed) : (s.markSelected d).length = s.hits.length :=
  List.length_map ..

/-! ### The times of the calls outside a code pair -/

/-- The times of the calls, in the order of the Call Queue. -/
def State.callTimes (s : State) : List SampleTime := s.calls.map Call.time

theorem callTimes_filter (p : Call → Bool) (calls : List Call) :
    ((calls.filter p).map Call.time).Sublist (calls.map Call.time) := List.filter_sublist.map _

/-- A change of the calls that keeps each call's time keeps the list of times. -/
theorem callTimes_map {f : Call → Call} (hf : ∀ c, (f c).time = c.time) (calls : List Call) :
    ((calls.map f).map Call.time).Sublist (calls.map Call.time) := by
  rw [List.map_map, List.map_congr_left fun c _ => show (Call.time ∘ f) c = c.time from hf c]

/-- A discard by objection gives back calls with the times they had, or removes them (R80). -/
theorem callTimes_afterDiscard (calls : List Call) :
    ((calls.filterMap Call.afterDiscard).map Call.time).Sublist (calls.map Call.time) := by
  induction calls with
  | nil => exact List.Sublist.refl _
  | cons c cs ih =>
    rw [List.filterMap_cons]
    cases hd : c.afterDiscard with
    | none => exact ih.cons _
    | some d =>
      have htime : d.time = c.time := by
        unfold Call.afterDiscard at hd
        split at hd
        · split at hd <;> cases hd; rfl
        · cases hd; rfl
      simp only [List.map_cons, htime]
      exact ih.cons_cons _

theorem State.returnCall_callTimes (s : State) : s.returnCall.callTimes.Sublist s.callTimes := by
  unfold State.returnCall
  split
  · exact callTimes_filter _ _
  · refine callTimes_map (fun c => ?_) s.calls
    split <;> rfl

theorem State.discardCall_callTimes (s : State) : s.discardCall.callTimes.Sublist s.callTimes := by
  unfold State.discardCall
  split
  · exact callTimes_filter _ _
  · exact callTimes_afterDiscard _

theorem State.deliverToList_calls (s : State) (d : Seed) : (s.deliverToList d).calls = s.calls := by
  rcases s.deliverToList_spec d with ⟨-, e⟩ | ⟨-, e⟩ <;> rw [e] <;> rfl

/-- What a delivery leaves of the calls in RUN and DRAIN: the WAITING ones that the seed does not cover
(R81). -/
theorem State.deliver_calls (s : State) (bits : BitVec 36) (h : s.active = true) :
    (s.deliver bits).calls = s.calls.filter fun c =>
      !c.isOnLine && !within s.station.window c.time (rebuildTime s.now (frameTime bits)) := by
  rw [State.deliver_active s bits h, State.deliverToList_calls,
    congrArg State.calls (State.deliverToCalls_spec s _).1]

theorem State.deliver_callTimes (s : State) (bits : BitVec 36) :
    (s.deliver bits).callTimes.Sublist s.callTimes := by
  cases ha : s.active with
  | false => rw [State.deliver_setup s bits ha]
  | true =>
    rw [State.callTimes, State.deliver_calls s bits ha]
    exact callTimes_filter _ _

theorem State.testDrain_calls (s : State) : s.testDrain.calls = s.calls :=
  congrArg (·.calls) s.testDrain_frame

theorem State.refuseHead_calls (s : State) (w : Word) (code : RefusalCode) :
    (s.refuseHead w code).calls = s.calls := congrArg (·.calls) (s.refuseHead_frame w code)

/-- Only a code pair makes a call: every other command leaves a part of the list of times (R76). -/
theorem exec_callTimes {c : Instr} {s t : State} (hc : resets c = false)
    (hpair : isCodePair c = false) (h : exec c s = .next t) :
    t.callTimes.Sublist s.callTimes := by
  cases c with
  | resetStation | rstnAssert | resetRelease => cases hc
  | codePairArrival => cases hpair
  | callLapse =>
    cases h
    split
    · exact callTimes_filter _ _
    · exact List.Sublist.refl _
  | frameStart =>
    cases h
    split
    · split
      · exact List.Sublist.refl _
      · refine callTimes_map (fun c => ?_) s.calls
        split <;> rfl
    · exact List.Sublist.refl _
  | startBitRecessive =>
    cases h
    split
    · exact s.returnCall_callTimes
    · exact List.Sublist.refl _
  | arbitrationLost =>
    cases h
    split
    · split
      · exact s.returnCall_callTimes
      · exact List.Sublist.refl _
    · exact List.Sublist.refl _
  | lineStuck =>
    cases h
    split
    · exact s.returnCall_callTimes
    · exact List.Sublist.refl _
  | framesDiscarded =>
    cases h
    split
    · rename_i f _
      split
      · split
        · exact (s.markSettled f).discardCall_callTimes
        · exact List.Sublist.refl _
      · exact List.Sublist.refl _
    · exact List.Sublist.refl _
  | seedAccepted =>
    rcases execSeedAccepted_cases h with rfl | ⟨f, -, rfl⟩
    · exact List.Sublist.refl _
    · exact (s.markSettled f).deliver_callTimes _
  | start =>
    rcases execStart_cases h with rfl | ⟨w, code, rfl⟩ | ⟨-, rfl⟩
    · exact List.Sublist.refl _
    · rw [State.callTimes, State.refuseHead_calls]; exact List.Sublist.refl _
    · exact List.nil_sublist _
  | stop =>
    rcases execStop_cases h with rfl | ⟨w, code, rfl⟩ | ⟨-, rfl⟩
    · exact List.Sublist.refl _
    · rw [State.callTimes, State.refuseHead_calls]; exact List.Sublist.refl _
    · unfold State.stopRun
      rw [State.callTimes, State.testDrain_calls]
      exact callTimes_filter _ _
  | _ => exact congrArg (·.callTimes) (exec_frame h) ▸ List.Sublist.refl _

/-! ### The Seed List -/

/-- The entry is another one but for its three marks (R124). -/
def Seed.marksOnly (e d : Seed) : Prop :=
  e = { d with closed := e.closed, late := e.late, stale := e.stale }

/-- What a step makes of the Seed List: marks are set on it, its head is built, it is emptied, or a delivery
appends to a list with room or counts in the last entry of a full one (R119, R120, R124, R134). -/
theorem exec_seeds {c : Instr} {s t : State} (hc : resets c = false) (h : exec c s = .next t) :
    t.seeds = s.seeds ∨
    (∃ m : Seed → Seed, (∀ d, (m d).marksOnly d) ∧ t.seeds = s.seeds.map m) ∨
    (c = .fragmentBuild ∧ ∃ d, s.seeds = d :: t.seeds) ∨ (c = .start ∧ t.seeds = []) ∨
    (c = .seedAccepted ∧ s.mode ≠ .setup ∧
      ((s.seeds.length < Config.seedListDepth ∧ ∃ d, t.seeds = s.seeds ++ [d]) ∨
        (Config.seedListDepth ≤ s.seeds.length ∧ t.seeds = raiseLost s.seeds))) := by
  cases c with
  | resetStation | rstnAssert | resetRelease => cases hc
  | seedClosed | seedLateMark | seedStaleMark =>
    cases h
    refine Or.inr (Or.inl ⟨_, fun _ => ?_, rfl⟩)
    rfl
  | fragmentBuild =>
    rcases execFragmentBuild_cases h with rfl | ⟨d, rest, hd, -, rfl⟩
    · exact Or.inl rfl
    · refine Or.inr (Or.inr (Or.inl ⟨rfl, d, ?_⟩))
      unfold State.build
      rw [State.chooseFrame_seeds, hd]
      rfl
  | seedAccepted =>
    rcases execSeedAccepted_cases h with rfl | ⟨f, -, rfl⟩
    · exact Or.inl rfl
    · cases ha : (s.markSettled f).active with
      | false => rw [State.deliver_setup _ _ ha]; exact Or.inl rfl
      | true =>
        rw [State.deliver_active _ _ ha]
        refine Or.inr (Or.inr (Or.inr (Or.inr ⟨rfl, (State.active_iff _).mp ha, ?_⟩)))
        generalize State.seedEntry _ _ _ = d
        rcases State.deliverToList_spec ((s.markSettled f).deliverToCalls
          (rebuildTime (s.markSettled f).now (frameTime f.bits))) d with ⟨hl, e⟩ | ⟨hl, e⟩ <;> rw [e]
        · exact Or.inl ⟨hl, d, rfl⟩
        · exact Or.inr ⟨hl, rfl⟩
  | start =>
    rcases execStart_cases h with rfl | ⟨w, code, rfl⟩ | ⟨-, rfl⟩
    · exact Or.inl rfl
    · exact Or.inl (congrArg (·.seeds) (s.refuseHead_frame w code))
    · exact Or.inr (Or.inr (Or.inr (Or.inl ⟨rfl, rfl⟩)))
  | _ => exact Or.inl (congrArg (·.seeds) (exec_frame h))

theorem exec_seeds_length {c : Instr} {s t : State} (hc : resets c = false) (h : exec c s = .next t)
    (hl : s.seeds.length ≤ Config.seedListDepth) : t.seeds.length ≤ Config.seedListDepth := by
  rcases exec_seeds hc h with e | ⟨m, -, e⟩ | ⟨-, d, e⟩ | ⟨-, e⟩ | ⟨-, -, ⟨hr, d, e⟩ | ⟨-, e⟩⟩
  · rw [e]; exact hl
  · rw [e, List.length_map]; exact hl
  · rw [e, List.length_cons] at hl; omega
  · rw [e]; exact Nat.zero_le _
  · rw [e, List.length_append, List.length_singleton]; exact hr
  · rw [e, raiseLost_length]; exact hl

/-! ### The Readout Queue -/

theorem State.sendFragmentWord_occupancy (s : State) (k : Nat) :
    (s.sendFragmentWord k).occupancy ≤ s.occupancy := by
  unfold State.sendFragmentWord
  split
  · exact (State.occupancy_congr s.endFrame_readout).le
  all_goals rename_i hr
  · rw [State.occupancy_congr (State.endFrame_readout _)]
    simp [State.occupancy, hr]
  · rw [State.occupancy_congr (State.endFrame_readout _)]
    simp [State.occupancy, hr]
  · simp [State.occupancy, hr]

theorem State.sendWord_occupancy (s : State) (w : Word) : (s.sendWord w).occupancy ≤ s.occupancy := by
  unfold State.sendWord
  split
  · exact le_rfl
  · exact (State.occupancy_congr (State.endFrame_readout _)).le
  · unfold State.sendResponseWord
    split
    · exact (State.occupancy_congr (State.endFrame_readout _)).le
    · split
      · exact le_rfl
      · exact (State.occupancy_congr (State.endFrame_readout _)).le
  · exact s.sendFragmentWord_occupancy _

/-- The waveform words that are fitted take no more than the room (R128). -/
theorem fitWaveforms_words_le (pool : Vector Slot 32) (hits : List Hit) :
    ∀ (room : Nat) (stopped : Bool),
      ((fitWaveforms pool room stopped hits).flatMap HitCopy.words).length ≤ room + 4 * hits.length := by
  have hwords : ∀ c : HitCopy, c.words.length = 4 + c.samples.length := fun c => by
    simp [HitCopy.words, hitWords]; omega
  induction hits with
  | nil => intro room _; exact Nat.zero_le _
  | cons h hs ih =>
    intro room stopped
    unfold fitWaveforms
    split
    · have := ih room stopped
      simp only [List.flatMap_cons, List.length_append, hwords, List.length_nil, List.length_cons]
      omega
    · split
      · have := ih room true
        simp only [List.flatMap_cons, List.length_append, hwords, List.length_nil, List.length_cons]
        omega
      · rename_i i _ hfit
        have := ih (room - h.waveLength) false
        simp only [Bool.or_eq_true, decide_eq_true_eq, not_or, not_lt] at hfit
        simp only [List.flatMap_cons, List.length_append, hwords, List.length_take, List.length_cons]
        omega

/-- A fragment whose words without waveforms fit takes no more than the free room (R126, R128). -/
theorem State.fragmentWords_length (s : State) (d : Seed)
    (h : baseWords (s.selection d).length ≤ s.freeRoom) :
    (s.fragmentWords d).length ≤ s.freeRoom := by
  have := fitWaveforms_words_le s.pool (s.selection d)
    (s.freeRoom - baseWords (s.selection d).length) false
  unfold State.fragmentWords State.copies
  simp only [List.length_append, List.length_cons, List.length_nil]
  unfold baseWords at *
  omega

theorem State.build_readout (s : State) (d : Seed) (rest : List Seed) :
    (s.build d rest).readout = s.readout ++ [s.fragmentWords d] := State.chooseFrame_readout _

theorem exec_occupancy {c : Instr} {s t : State} (hc : resets c = false) (h : exec c s = .next t)
    (hl : s.occupancy ≤ Config.readoutDepth) : t.occupancy ≤ Config.readoutDepth := by
  cases c with
  | resetStation | rstnAssert | resetRelease => cases hc
  | fragmentBuild =>
    rcases execFragmentBuild_cases h with rfl | ⟨d, rest, -, hb, rfl⟩
    · exact hl
    · simp only [State.headBuildable, Bool.and_eq_true, decide_eq_true_eq] at hb
      have hfit := s.fragmentWords_length d hb.2
      rw [State.occupancy, State.build_readout]
      simp only [State.freeRoom, State.occupancy, List.map_append, List.map_cons, List.map_nil,
        List.sum_append, List.sum_cons, List.sum_nil] at *
      omega
  | linkWordSent =>
    rcases execLinkWordSent_cases h with rfl | ⟨-, rfl⟩
    · exact hl
    · refine le_trans (State.sendWord_occupancy _ _) ?_
      rwa [State.occupancy_congr s.chooseFrame_readout]
  | start =>
    rcases execStart_cases h with rfl | ⟨w, code, rfl⟩ | ⟨-, rfl⟩
    · exact hl
    · rwa [State.occupancy_congr (congrArg (·.readout) (s.refuseHead_frame w code))]
    · exact Nat.zero_le _
  | _ => rwa [State.occupancy_congr (congrArg (·.readout) (exec_frame h))]

/-! ### The Command Queue -/

theorem State.refuseHead_commands (s : State) (w : Word) (code : RefusalCode) :
    (s.refuseHead w code).commands = s.commands ∨ (s.refuseHead w code).commands = s.commands.tail := by
  unfold State.refuseHead
  split
  · exact Or.inr (State.respond_commands _ _)
  · exact Or.inl rfl

/-- What a step makes of the Command Queue: it stands, its head leaves, or an arriving word joins a queue of
fewer than 8 (R165, R166). -/
theorem exec_commands {c : Instr} {s t : State} (hc : resets c = false) (h : exec c s = .next t) :
    t.commands = s.commands ∨ t.commands = s.commands.tail ∨
      (s.commands.length < Config.commandQueueDepth ∧ ∃ w, t.commands = s.commands ++ [w]) := by
  cases c with
  | resetStation | rstnAssert | resetRelease => cases hc
  | commandWordArrival w =>
    cases h
    split
    · exact Or.inl rfl
    · split
      · exact Or.inr (Or.inr ⟨‹_›, w, rfl⟩)
      · exact Or.inl rfl
  | set =>
    rcases execSet_cases h with rfl | ⟨w, code, rfl⟩ | ⟨-, field, i, value, rfl⟩
    · exact Or.inl rfl
    · exact (State.refuseHead_commands _ _ _).imp_right Or.inl
    · cases i <;> exact Or.inr (Or.inl rfl)
  | readItem =>
    cases h
    split
    · exact Or.inl rfl
    · split
      · exact (State.refuseHead_commands _ _ _).imp_right Or.inl
      · split
        · exact Or.inr (Or.inl (State.respond_commands _ _))
        · exact Or.inl rfl
      · exact Or.inl rfl
  | start =>
    rcases execStart_cases h with rfl | ⟨w, code, rfl⟩ | ⟨-, rfl⟩
    · exact Or.inl rfl
    · exact (State.refuseHead_commands _ _ _).imp_right Or.inl
    · exact Or.inr (Or.inl rfl)
  | stop =>
    rcases execStop_cases h with rfl | ⟨w, code, rfl⟩ | ⟨-, rfl⟩
    · exact Or.inl rfl
    · exact (State.refuseHead_commands _ _ _).imp_right Or.inl
    · exact Or.inr (Or.inl (congrArg (·.commands) (State.testDrain_frame _)))
  | readStatus =>
    cases h
    split
    · exact Or.inl rfl
    · split
      · exact Or.inr (Or.inl (State.respond_commands _ _))
      · exact Or.inl rfl
  | clearCounters | linkPause =>
    cases h
    split
    · exact Or.inl rfl
    · exact Or.inr (Or.inl rfl)
  | linkResume =>
    cases h
    split
    · exact Or.inl rfl
    · exact Or.inr (Or.inl (State.chooseFrame_commands _))
  | unknownCommand =>
    cases h
    split
    · exact Or.inl rfl
    · split
      · exact (State.refuseHead_commands _ _ _).imp_right Or.inl
      · exact Or.inl rfl
  | _ => exact Or.inl (congrArg (·.commands) (exec_frame h))

theorem exec_commands_length {c : Instr} {s t : State} (hc : resets c = false) (h : exec c s = .next t)
    (hl : s.commands.length ≤ Config.commandQueueDepth) :
    t.commands.length ≤ Config.commandQueueDepth := by
  rcases exec_commands hc h with e | e | ⟨hr, w, e⟩ <;> rw [e]
  · exact hl
  · rw [List.length_tail]; omega
  · rw [List.length_append, List.length_singleton]; exact hr

/-! ### The depths -/

/-- A candidate never makes a fifth call (R77). -/
theorem State.placeCandidate_calls_length (s : State) (n : SampleTime) (e : Nat)
    (h : s.calls.length ≤ Config.callQueueDepth) :
    (s.placeCandidate n e).calls.length ≤ Config.callQueueDepth := by
  rcases s.placeCandidate_cases n e with ⟨-, p⟩ | ⟨-, ⟨k, -, p⟩ | ⟨-, ⟨hl, p⟩ | ⟨-, ⟨-, p⟩ | ⟨w, hw, ⟨-, p⟩ |
    ⟨-, p⟩⟩⟩⟩⟩ <;> rw [p]
  · exact h
  · simpa using h
  · simpa [State.createCall] using hl
  · exact h
  · have hmem := List.mem_of_mem_filter (best_mem hw)
    have hpos := List.length_pos_of_mem hmem
    have := List.length_erase_of_mem hmem
    simp [State.createCall, this]
    omega
  · exact h

theorem State.depthsKept_insertHit {s : State} (h : Hit) (hs : s.depthsKept) :
    (s.insertHit h).depthsKept := by
  refine State.insertHit_keeps (P := State.depthsKept) (fun s n e _ hs => ?_) (fun s h hl hs => ?_)
    (fun s h e rest hl hr hs => ?_) s h hs
  · obtain ⟨hhits, hcalls, hseeds, hocc, hcmds⟩ := hs
    have hf := s.placeCandidate_frame n e
    refine ⟨?_, s.placeCandidate_calls_length n e hcalls, ?_, ?_, ?_⟩ <;> rw [hf]
    exacts [hhits, hseeds, hocc, hcmds]
  · exact ⟨by rw [placeHit_length]; exact hl, hs.2⟩
  · refine ⟨?_, hs.2⟩
    have := placeHit_length h s.hits
    rw [hr, List.length_cons] at this
    show rest.length ≤ Config.hitStoreDepth
    have := hs.1
    omega

theorem exec_depthsKept {c : Instr} {s t : State} (hc : resets c = false) (hs : s.depthsKept)
    (h : exec c s = .next t) : t.depthsKept := by
  cases hpair : isCodePair c with
  | false =>
    obtain ⟨hhits, hcalls, hseeds, hocc, hcmds⟩ := hs
    refine ⟨?_, ?_, exec_seeds_length hc h hseeds, exec_occupancy hc h hocc,
      exec_commands_length hc h hcmds⟩
    · rcases exec_hits hc hpair h with hsuf | ⟨d, e⟩
      · exact le_trans hsuf.length_le hhits
      · rwa [e, State.markSelected_length]
    · have := (exec_callTimes hc hpair h).length_le
      simp only [State.callTimes, List.length_map] at this
      exact le_trans this hcalls
  | true =>
    rcases exec_isCodePair hpair h with rfl | ⟨k, hi, lo, rfl⟩
    · exact hs
    · exact State.handlePair_keeps (P := State.depthsKept) (fun _ _ _ _ _ _ h => h)
        (fun _ h => State.depthsKept_insertHit h) _ _ _ _ hs

/-- Settles O16, collection by collection; a code pair by its insertions. -/
theorem collectionsKeepDepths : Obligations.CollectionsKeepDepths := by
  have hempty : ∀ (s : State) rstn edges, (State.enterReset s rstn edges).depthsKept :=
    fun _ _ _ => ⟨Nat.zero_le _, Nat.zero_le _, Nat.zero_le _, Nat.zero_le _, Nat.zero_le _⟩
  exact fun s t hs h => step_leads (Q := State.depthsKept) (fun _ h => h) (fun _ _ h => h)
    (fun _ _ h => h) hempty (fun s _ => hempty s false 0) (fun _ _ _ hc => exec_depthsKept hc) hs h

end Sys2Proof.Machine

/-! PROOFS. The order of the Hit Store, the run of the seed numbers, and the pile-up law of contexts and stored
hits, along a step (R31, R55, R56, R58, R117, R120). -/

namespace Sys2Proof.Machine

/-! ### The order of the Hit Store -/

/-- Of two fine-tick times the one that is later makes the other not later (section 6.2). -/
theorem fineDiff_not_pos_of_pos {a b : FineTime} (h : 0 < fineDiff a b) : ¬ 0 < fineDiff b a := by
  unfold fineDiff at *
  have hneg : b - a = -(a - b) := (neg_sub a b).symm
  rw [hneg, BitVec.toInt_neg_of_ne_intMin]
  · omega
  · intro e
    rw [e] at h
    exact absurd h (by decide)

theorem Hit.notLater_of_laterThan {h e : Hit} (he : e.laterThan h.time = true) : h.notLater e :=
  decide_eq_false (fineDiff_not_pos_of_pos (of_decide_eq_true he))

/-- A record placed where R58 places it keeps the order neighbour by neighbour. -/
theorem placeHit_isChain {h : Hit} {hits : List Hit} (hs : hits.IsChain Hit.notLater) :
    (placeHit h hits).IsChain Hit.notLater := by
  obtain ⟨before, after, rfl, hplace, -, hafter, hbefore⟩ := placeHit_spec h hits
  obtain ⟨hb, ha, -⟩ := List.isChain_append.mp hs
  rw [hplace]
  refine List.isChain_append.mpr ⟨hb, List.isChain_cons.mpr ⟨fun e he => ?_, ha⟩, fun x hx y hy => ?_⟩
  · exact Hit.notLater_of_laterThan (hafter e (List.mem_of_mem_head? he))
  · cases hy
    exact hbefore x hx

theorem State.storeOrdered_insertHit {s : State} (h : Hit) (hs : s.storeOrdered) :
    (s.insertHit h).storeOrdered := by
  refine State.insertHit_keeps (P := State.storeOrdered) (fun s n e _ hs => ?_)
    (fun _ _ _ hs => placeHit_isChain hs) (fun s h e rest _ hr hs => ?_) s h hs
  · rw [State.placeCandidate_frame]; exact hs
  · have := placeHit_isChain (h := h) hs
    rw [hr] at this
    exact this.tail

/-- The selected mark does not enter the order. -/
theorem State.markSelected_isChain {s : State} (d : Seed) (hs : s.storeOrdered) :
    (s.markSelected d).IsChain Hit.notLater := by
  refine List.isChain_map_of_isChain _ (fun a b hab => ?_) hs
  unfold Hit.notLater Hit.laterThan at *
  split <;> split <;> exact hab

theorem exec_storeOrdered {c : Instr} {s t : State} (hc : resets c = false) (hs : s.storeOrdered)
    (h : exec c s = .next t) : t.storeOrdered := by
  cases hpair : isCodePair c with
  | false =>
    rcases exec_hits hc hpair h with hsuf | ⟨d, e⟩
    · exact List.IsChain.suffix hs hsuf
    · unfold State.storeOrdered
      rw [e]
      exact State.markSelected_isChain d hs
  | true =>
    rcases exec_isCodePair hpair h with rfl | ⟨k, hi, lo, rfl⟩
    · exact hs
    · exact State.handlePair_keeps (P := State.storeOrdered) (fun _ _ _ _ _ _ h => h)
        (fun _ h => State.storeOrdered_insertHit h) _ _ _ _ hs

/-- Settles O19: a code pair places its records in order, and no other command brings a record in. -/
theorem hitStoreStaysOrdered : Obligations.HitStoreStaysOrdered :=
  fun _ _ hs h => step_leads (Q := State.storeOrdered) (fun _ h => h) (fun _ _ h => h) (fun _ _ h => h)
    (fun _ _ _ => List.IsChain.nil) (fun _ _ => List.IsChain.nil)
    (fun _ _ _ hc => exec_storeOrdered hc) hs h

/-! ### The run of the seed numbers -/

theorem numbersRun_map {m : Seed → Seed} (hm : ∀ d, (m d).marksOnly d) (counter : BitVec 16)
    (ds : List Seed) (h : numbersRun counter ds) : numbersRun counter (ds.map m) := by
  have hnumber : ∀ d, (m d).number = d.number := fun d => by rw [hm d]
  have hlost : ∀ d, (m d).lostAfter = d.lostAfter := fun d => by rw [hm d]
  have hnext : ∀ d, (m d).nextNumber = d.nextNumber := fun d => by
    rw [Seed.nextNumber, hnumber, hlost, Seed.nextNumber]
  induction ds with
  | nil => trivial
  | cons d ds ih =>
    cases ds with
    | nil => intro hl; rw [hlost] at hl; rw [hnext]; exact h hl
    | cons e ds => exact ⟨fun hl => by rw [hlost] at hl; rw [hnext, hnumber]; exact h.1 hl, ih h.2⟩

theorem numbersRun_tail {counter : BitVec 16} {d : Seed} {ds : List Seed}
    (h : numbersRun counter (d :: ds)) : numbersRun counter ds := by
  cases ds with
  | nil => trivial
  | cons e ds => exact h.2

/-- An entry numbered with the counter, with no seed lost after it, continues the run (R118, R119). -/
theorem numbersRun_append {counter : BitVec 16} {d : Seed} (hn : d.number = counter)
    (hl : d.lostAfter = 0) (ds : List Seed) (h : numbersRun counter ds) :
    numbersRun (counter + 1) (ds ++ [d]) := by
  induction ds with
  | nil => intro _; rw [Seed.nextNumber, hn, hl]; exact BitVec.add_zero _
  | cons e ds ih =>
    cases ds with
    | nil => exact ⟨fun he => (h he).trans hn.symm, ih trivial⟩
    | cons f ds => exact ⟨h.1, ih h.2⟩

/-- A seed lost is counted in the last entry, up to the saturation of its field (R120). -/
theorem numbersRun_raiseLost {counter : BitVec 16} (ds : List Seed) (h : numbersRun counter ds) :
    numbersRun (counter + 1) (raiseLost ds) := by
  induction ds with
  | nil => trivial
  | cons d ds ih =>
    cases ds with
    | nil =>
      intro hl
      have hlt : d.lostAfter < Config.lostAfterMax := by
        simp only at hl; omega
      have hmin : min (d.lostAfter + 1) Config.lostAfterMax = d.lostAfter + 1 := by omega
      show d.number + 1 + BitVec.ofNat 16 (min (d.lostAfter + 1) Config.lostAfterMax) = counter + 1
      rw [hmin, ← h hlt, Seed.nextNumber, BitVec.ofNat_add]
      exact (BitVec.add_assoc _ _ _).symm
    | cons e ds =>
      cases ds with
      | nil => exact ⟨h.1, ih h.2⟩
      | cons f ds => exact ⟨h.1, ih h.2⟩

theorem State.seedsLawful_deliver {s : State} (bits : BitVec 36) (hs : s.seedsLawful) :
    (s.deliver bits).seedsLawful := by
  cases ha : s.active with
  | false => rw [State.deliver_setup s bits ha]; exact hs
  | true =>
    obtain ⟨hlen, hrun, hlost⟩ := hs
    rw [State.deliver_active s bits ha]
    have hentry : (s.seedEntry bits s.callOnLine).number = s.seedCounter ∧
        (s.seedEntry bits s.callOnLine).lostAfter = 0 := ⟨rfl, rfl⟩
    generalize s.seedEntry bits s.callOnLine = d at hentry
    rcases State.deliverToList_spec (s.deliverToCalls (rebuildTime s.now (frameTime bits))) d with
      ⟨hl, e⟩ | ⟨hl, e⟩ <;> rw [e]
    · refine ⟨?_, numbersRun_append hentry.1 hentry.2 _ hrun, fun x hx => ?_⟩
      · show (s.seeds ++ [d]).length ≤ _
        rw [List.length_append, List.length_singleton]; exact hl
      · rcases List.mem_append.mp hx with hx | hx
        · exact hlost x hx
        · rw [List.mem_singleton.mp hx, hentry.2]; exact Nat.zero_le _
    · refine ⟨(raiseLost_length s.seeds).trans_le hlen, numbersRun_raiseLost _ hrun, fun x hx => ?_⟩
      change x ∈ raiseLost s.seeds at hx
      rcases List.eq_nil_or_concat s.seeds with e | ⟨ds, last, e⟩
      · rw [e] at hx; cases hx
      · rw [List.concat_eq_append] at e
        rw [e, raiseLost_append] at hx
        rw [e] at hlost
        rcases List.mem_append.mp hx with hx | hx
        · exact hlost x (List.mem_append_left _ hx)
        · rw [List.mem_singleton.mp hx]; exact Nat.min_le_right _ _

theorem State.seedsLawful_congr {s t : State} (hs : s.seedsLawful) (h1 : t.seeds = s.seeds)
    (h2 : t.seedCounter = s.seedCounter) : t.seedsLawful := by
  unfold State.seedsLawful at *
  rwa [h1, h2]

theorem exec_seedsLawful {c : Instr} {s t : State} (hc : resets c = false) (hs : s.seedsLawful)
    (h : exec c s = .next t) : t.seedsLawful := by
  have hmarks : ∀ {u : State} {m : Seed → Seed}, (∀ d, (m d).marksOnly d) →
      u.seedCounter = s.seedCounter → u.seeds = s.seeds.map m → u.seedsLawful := by
    intro u m hm hcounter hu
    obtain ⟨hlen, hrun, hlost⟩ := hs
    refine ⟨?_, ?_, fun d hd => ?_⟩
    · rw [hu, List.length_map]; exact hlen
    · rw [hu, hcounter]; exact numbersRun_map hm _ _ hrun
    · rw [hu] at hd
      obtain ⟨e, he, rfl⟩ := List.mem_map.mp hd
      rw [hm e]
      exact hlost e he
  cases c with
  | resetStation | rstnAssert | resetRelease => cases hc
  | seedClosed | seedLateMark | seedStaleMark =>
    cases h
    refine hmarks (fun d => ?_) rfl rfl
    rfl
  | fragmentBuild =>
    rcases exec_seeds hc h with e | ⟨m, hm, e⟩ | ⟨-, d, e⟩ | ⟨e, -⟩ | ⟨e, -⟩
    · exact State.seedsLawful_congr hs e (congrArg (·.seedCounter) (exec_frame h))
    · exact hmarks hm (congrArg (·.seedCounter) (exec_frame h)) e
    · obtain ⟨hlen, hrun, hlost⟩ := hs
      rw [e] at hlen hrun hlost
      have hcounter : t.seedCounter = s.seedCounter := congrArg (·.seedCounter) (exec_frame h)
      exact ⟨Nat.le_of_succ_le hlen, hcounter ▸ numbersRun_tail hrun,
        fun x hx => hlost x (List.mem_cons_of_mem _ hx)⟩
    · cases e
    · cases e
  | seedAccepted =>
    rcases execSeedAccepted_cases h with rfl | ⟨f, -, rfl⟩
    · exact hs
    · exact State.seedsLawful_deliver (s := s.markSettled f) _ hs
  | start =>
    rcases execStart_cases h with rfl | ⟨w, code, rfl⟩ | ⟨-, rfl⟩
    · exact hs
    · exact State.seedsLawful_congr hs (congrArg (·.seeds) (s.refuseHead_frame w code))
        (congrArg (·.seedCounter) (s.refuseHead_frame w code))
    · exact ⟨Nat.zero_le _, trivial, fun _ hd => (by cases hd)⟩
  | _ =>
    exact State.seedsLawful_congr hs (congrArg (·.seeds) (exec_frame h))
      (congrArg (·.seedCounter) (exec_frame h))

/-- Settles O23, by the appended entry, the last entry of a full list, and the removal of the head. -/
theorem seedNumbersRun : Obligations.SeedNumbersRun := by
  have hempty : ∀ u : State, u.seeds = [] → u.seedsLawful := fun u hu =>
    ⟨by rw [hu]; exact Nat.zero_le _, by rw [hu]; trivial, by rw [hu]; exact fun _ hd => (by cases hd)⟩
  exact fun s t _ hs h => step_leads (Q := State.seedsLawful) (fun _ h => h) (fun _ _ h => h)
    (fun _ _ h => h) (fun _ _ _ => hempty _ rfl) (fun _ _ => hempty _ rfl)
    (fun _ _ _ hc => exec_seedsLawful hc) hs h

end Sys2Proof.Machine

/-! PROOFS. The stages of a code pair, and what they keep: the pile-up law of contexts and hits, and the one
holder of every Waveform Pool slot (R18, R31, R35, R39, R55, R68). -/

namespace Sys2Proof.Machine

/-! ### The stages of a code pair -/

/-- A change of a channel that leaves its items and contexts: the ring, the discriminator or the trackers. -/
def aroundContexts (f : Channel → Channel) : Prop :=
  ∀ k, (f k).items = k.items ∧ (f k).ctxA = k.ctxA ∧ (f k).ctxB = k.ctxB

theorem aroundContexts_settleTrackers (u : Int) (hi lo : BitVec 12) :
    aroundContexts fun k => k.settleTrackers u hi lo := fun k => by
  beta_reduce
  rw [Channel.settleTrackers_frame]
  exact ⟨rfl, rfl, rfl⟩

/-- What holds through the four stages of R18, and through the changes around them, survives a code pair. -/
theorem State.handlePair_stages {P : State → Prop} (c : Fin 8)
    (haround : ∀ s f, aroundContexts f → P s → P (State.modifyChannel s c f))
    (hact : ∀ s x, P s → P (State.actOnCrossing s c x))
    (htake : ∀ s n t y, P s → P (State.takeSample s c n t y))
    (hcomplete : ∀ s n, P s → P (State.completeContext s c n)) {s : State} (hi lo : BitVec 12)
    (hs : P s) : P (s.handlePair c hi lo) := by
  have hdisc : ∀ d : Discriminator, aroundContexts fun k => { k with disc := d } :=
    fun _ _ => ⟨rfl, rfl, rfl⟩
  have hcross : ∀ (u : State) (y : Sample), P u → P (u.afterCrossing c y) := by
    intro u y hu
    unfold State.afterCrossing
    split
    · exact haround _ _ (hdisc _) hu
    · split
      · exact hact _ _ (haround _ _ (hdisc _) hu)
      · exact haround _ _ (hdisc _) hu
  have hring := haround s (fun k => k.writeRing s.now (unifiedSample s.channels[c] hi lo))
    (fun _ => ⟨rfl, rfl, rfl⟩) hs
  unfold State.handlePair
  refine haround _ _ (aroundContexts_settleTrackers _ hi lo) ?_
  unfold State.takePulse
  split
  · rw [State.processSample_eq]
    exact hcomplete _ _ (hcomplete _ _ (htake _ _ _ _ (htake _ _ _ _ (hcross _ _ hring))))
  · exact haround _ _ (hdisc .below) hring

/-! ### Contexts and pile-up -/

/-- Every OPEN context of the channel keeps the pile-up law (R31). -/
def Channel.pileupsLawful (k : Channel) : Prop := ∀ n x, k.ctx n = some x → x.pileupLaw

theorem OpenContext.pileupLaw_of_sameRecord {x y : OpenContext} (h : x.sameRecord y)
    (hx : x.pileupLaw) : y.pileupLaw := by
  rw [h]; exact hx

theorem OpenContext.pileupLaw_pileUp (x : OpenContext) (merged : Bool) :
    x.pileUp.pileupLaw ∧ OpenContext.pileupLaw { x.pileUp with merged := merged } := by
  have hcount : 1 ≤ raisePileup x.pileup ∧ raisePileup x.pileup ≤ Config.pileupMax := by
    show 1 ≤ min (x.pileup + 1) 3 ∧ min (x.pileup + 1) 3 ≤ 3
    omega
  exact ⟨⟨hcount.2, fun _ => rfl, fun _ => hcount.1, fun _ => rfl⟩,
    hcount.2, fun _ => rfl, fun _ => hcount.1, fun _ => rfl⟩

theorem State.pileupLaw_openedContext (s : State) (c : Fin 8) (x : Crossing) (piled : Bool) :
    (s.openedContext c x piled).pileupLaw := by
  cases piled <;> simp [State.openedContext, OpenContext.pileupLaw]

theorem Channel.pileupsLawful_setCtx {k : Channel} {n : ContextName} {o : Option OpenContext}
    (hk : k.pileupsLawful) (ho : ∀ x, o = some x → x.pileupLaw) : (k.setCtx n o).pileupsLawful := by
  intro m x hx
  by_cases hm : m = n
  · subst hm; rw [Channel.ctx_setCtx] at hx; exact ho x hx
  · rw [Channel.ctx_setCtx_ne k o hm] at hx; exact hk m x hx

theorem State.pileupsLawful_openContext {s : State} {c : Fin 8} (n : ContextName) (x : Crossing)
    (h : s.channels[c].pileupsLawful) : (s.openContext c n x).channels[c].pileupsLawful := by
  obtain ⟨-, -, hc, -⟩ := s.openContext_spec c n x
  rw [hc]
  refine Channel.pileupsLawful_setCtx (Channel.pileupsLawful_setCtx h fun y hy => ?_) fun y hy => ?_
  · obtain ⟨z, -, rfl⟩ := Option.map_eq_some_iff.mp hy
    exact (z.pileupLaw_pileUp false).1
  · cases hy
    exact OpenContext.pileupLaw_of_sameRecord (OpenContext.takeRing_sameRecord _ _ _ _)
      (s.pileupLaw_openedContext c x _)

theorem State.pileupsLawful_actOnCrossing_channel {s : State} {c : Fin 8} (x : Crossing)
    (h : s.channels[c].pileupsLawful) : (s.actOnCrossing c x).channels[c].pileupsLawful := by
  unfold State.actOnCrossing
  split
  · exact State.pileupsLawful_openContext _ _ h
  · exact State.pileupsLawful_openContext _ _ h
  · rename_i a b _ _
    rw [(s.mergeCrossing_spec c a b).2.2]
    intro n y hy
    cases n <;> cases hy
    · exact (a.pileupLaw_pileUp _).2
    · exact (b.pileupLaw_pileUp _).2

/-- The law of the state, channel by channel. -/
theorem State.pileupsLawful_iff (s : State) :
    s.pileupsLawful ↔ (∀ d : Fin 8, s.channels[d].pileupsLawful) ∧ ∀ h ∈ s.hits, h.lawful := Iff.rfl

/-- A change of channel `c` alone keeps the law if it keeps that of the channel. -/
theorem State.pileupsLawful_of_channel {s t : State} (c : Fin 8) (hs : s.pileupsLawful)
    (hne : ∀ d : Fin 8, d ≠ c → t.channels[d] = s.channels[d]) (hc : t.channels[c].pileupsLawful)
    (hh : ∀ h ∈ t.hits, h.lawful) : t.pileupsLawful := by
  refine (State.pileupsLawful_iff t).mpr ⟨fun d => ?_, hh⟩
  by_cases hd : d = c
  · subst hd; exact hc
  · rw [hne d hd]; exact hs.1 d

/-! ### Hits formed and stored -/

theorem limitedCharge_le (r : Int) : limitedCharge r ≤ 65535 := by
  unfold limitedCharge
  repeat' split
  all_goals omega

theorem limitedEnergy_le (r : Nat) : limitedEnergy r ≤ 65535 := by
  unfold limitedEnergy
  split <;> omega

/-- A hit formed from a lawful context has fields that agree (R49, R50, R55). -/
theorem formHit_lawful (c : Fin 8) (items : ChannelItems) (pool : Vector Slot 32) {x : OpenContext}
    (hx : x.pileupLaw) : (formHit c items pool x).lawful := by
  obtain ⟨hmax, hmerged, hpiled⟩ := hx
  unfold formHit Hit.lawful
  generalize roundedCharge items.scaleShift x.accumulator = r
  refine ⟨limitedCharge_le r, limitedEnergy_le _, hmax, hmerged, hpiled, ?_, ?_, ?_, ?_, ?_, rfl⟩
  · rintro ⟨hlow, hhigh⟩
    simp only [decide_eq_true_eq] at hlow hhigh
    omega
  · intro hlow
    have hzero : limitedCharge r = 0 := if_pos (of_decide_eq_true hlow)
    simp [hzero, roundedEnergy, limitedEnergy]
  · intro hhigh
    have hr : 65535 < r := of_decide_eq_true hhigh
    have hlow : ¬ r < 0 := by omega
    simp [limitedCharge, hr, hlow]
  · intro hhigh
    exact if_pos (of_decide_eq_true hhigh)
  · intro hcoarse
    rw [show x.kind = .rerise from beq_iff_eq.mp hcoarse]
    rfl

theorem State.evaluate_hits (s : State) (n : SampleTime) : (s.evaluate n).hits = s.hits :=
  congrArg (·.hits) (s.evaluate_frame n)

/-- The store after an insertion holds hits it held, and perhaps the new one. -/
theorem State.mem_hits_insertHit {s : State} {h e : Hit} (he : e ∈ (s.insertHit h).hits) :
    e = h ∨ e ∈ s.hits := by
  rcases s.insertHit_cases h with ⟨-, p⟩ | ⟨-, k, rest, hr, ⟨p, -⟩ | ⟨p, -⟩⟩ <;> rw [p] at he
  · rw [State.evaluate_hits] at he
    exact mem_placeHit.mp he
  · exact mem_placeHit.mp (hr ▸ List.mem_cons_of_mem _ he)
  · rw [State.evaluate_hits] at he
    exact mem_placeHit.mp (hr ▸ List.mem_cons_of_mem _ he)

/-- A completion stores hits that were there, and perhaps the one formed from its context. -/
theorem State.mem_hits_completeContext {s : State} {c : Fin 8} {n : ContextName} {h : Hit}
    (hh : h ∈ (s.completeContext c n).hits) :
    h ∈ s.hits ∨ ∃ x, s.channels[c].ctx n = some x ∧ h = formHit c s.channels[c].items s.pool x := by
  rcases s.completeContext_cases c n with ⟨x, hx, hg⟩ | ⟨-, e⟩
  · rw [s.completeContext_done c n x hx hg] at hh
    rcases State.mem_hits_insertHit hh with rfl | hh
    · exact Or.inr ⟨x, hx, rfl⟩
    · exact Or.inl hh
  · rw [e] at hh; exact Or.inl hh

/-- The four stages keep the pile-up law. -/
theorem State.pileupsLawful_handlePair {s : State} (c : Fin 8) (hi lo : BitVec 12)
    (hs : s.pileupsLawful) : (s.handlePair c hi lo).pileupsLawful := by
  refine State.handlePair_stages (P := State.pileupsLawful) c (fun s f hf hs => ?around)
    (fun s x hs => ?act) (fun s n t y hs => ?take) (fun s n hs => ?complete) hi lo hs
  case around =>
    refine State.pileupsLawful_of_channel c hs (fun d hd => s.modifyChannel_get_ne f hd)
      (fun n x hx => ?_) hs.2
    obtain ⟨-, ha, hb⟩ := hf s.channels[c]
    rw [State.modifyChannel_get] at hx
    cases n
    · exact hs.1 c .a x (ha.symm.trans hx)
    · exact hs.1 c .b x (hb.symm.trans hx)
  case act =>
    obtain ⟨hframe, hne, -⟩ := s.actOnCrossing_frame c x
    refine State.pileupsLawful_of_channel c hs hne
      (State.pileupsLawful_actOnCrossing_channel x (hs.1 c)) ?_
    rw [congrArg State.hits hframe]; exact hs.2
  case take =>
    refine State.pileupsLawful_of_channel c hs
      (fun d hd => by rw [State.takeSample_channels, if_neg hd]) ?_ ?_
    · rw [State.takeSample_channels, if_pos rfl]
      refine Channel.pileupsLawful_setCtx (hs.1 c) fun z hz => ?_
      obtain ⟨x, hx, rfl⟩ := Option.map_eq_some_iff.mp hz
      exact hs.1 c n x hx
    · rw [congrArg State.hits (s.takeSample_frame c n t y)]; exact hs.2
  case complete =>
    refine State.pileupsLawful_of_channel c hs
      (fun d hd => by rw [State.completeContext_channels, if_neg hd]) ?_ fun h hh => ?_
    · rw [State.completeContext_channels, if_pos rfl]
      exact Channel.pileupsLawful_setCtx (hs.1 c) fun x hx =>
        hs.1 c n x (Option.eq_some_of_filter_eq_some hx)
    · rcases State.mem_hits_completeContext hh with hh | ⟨x, hx, rfl⟩
      · exact hs.2 h hh
      · exact formHit_lawful c _ _ (hs.1 c n x hx)

/-! ### The pile-up law along a step -/

theorem State.writeChannelItem_get (s : State) (field : BitVec 4) (i : ChannelItem) (v : Nat)
    (d : Fin 8) : (s.writeChannelItem field i v).channels[d] =
      if addresses field d then s.channels[d].writeItem i v else s.channels[d] := by
  simp [State.writeChannelItem]

/-- What the write of a channel item can change: the items and the trackers (R13, R14, R169). -/
theorem Channel.writeItem_frame (k : Channel) (i : ChannelItem) (v : Nat) :
    k.writeItem i v = { k with
      items := k.items.write i v
      trackHi := (k.writeItem i v).trackHi
      trackLo := (k.writeItem i v).trackLo } := by
  unfold Channel.writeItem Channel.loadTrackers
  cases i with
  | pedMode => simp only; split <;> rfl
  | _ => rfl

theorem Channel.writeItem_ctx (k : Channel) (i : ChannelItem) (v : Nat) (n : ContextName) :
    (k.writeItem i v).ctx n = k.ctx n := by
  rw [Channel.writeItem_frame]
  cases n <;> rfl

/-- What the commands other than a code pair do to the contexts of a channel: nothing (R25). -/
theorem exec_ctx {c : Instr} {s t : State} (hc : resets c = false) (hpair : isCodePair c = false)
    (h : exec c s = .next t) (d : Fin 8) (n : ContextName) :
    t.channels[d].ctx n = s.channels[d].ctx n := by
  have hdrain : ∀ u : State, u.testDrain.channels[d].ctx n = u.channels[d].ctx n := by
    intro u
    rcases u.testDrain_cases with e | ⟨-, e⟩
    · rw [e]
    · rw [e]
      show (u.mapChannels fun k => { k with disc := .below }).channels[d].ctx n = _
      rw [State.mapChannels_get]
      cases n <;> rfl
  cases c with
  | resetStation | rstnAssert | resetRelease => cases hc
  | codePairArrival => cases hpair
  | drainReturn => cases h; exact hdrain s
  | set =>
    rcases execSet_cases h with rfl | ⟨w, code, rfl⟩ | ⟨-, field, i, value, rfl⟩
    · rfl
    · rw [congrArg (·.channels) (s.refuseHead_frame w code)]
    · cases i with
      | station j => rfl
      | channel j =>
        show (s.popCommand.writeChannelItem field j _).channels[d].ctx n = _
        rw [State.writeChannelItem_get]
        split
        · exact Channel.writeItem_ctx _ _ _ _
        · rfl
  | stop =>
    rcases execStop_cases h with rfl | ⟨w, code, rfl⟩ | ⟨-, rfl⟩
    · rfl
    · rw [congrArg (·.channels) (s.refuseHead_frame w code)]
    · exact hdrain _
  | _ => exact (congrArg (fun u : State => u.channels[d].ctx n) (exec_frame h) :)

theorem exec_pileupsLawful {c : Instr} {s t : State} (hc : resets c = false) (hs : s.pileupsLawful)
    (h : exec c s = .next t) : t.pileupsLawful := by
  cases hpair : isCodePair c with
  | false =>
    refine ⟨fun d n x hx => hs.1 d n x (exec_ctx hc hpair h d n ▸ hx), fun e he => ?_⟩
    rcases exec_hits hc hpair h with hsuf | ⟨d, hd⟩
    · exact hs.2 e (hsuf.subset he)
    · rw [hd] at he
      obtain ⟨x, hx, rfl⟩ := List.mem_map.mp he
      split <;> exact hs.2 x hx
  | true =>
    rcases exec_isCodePair hpair h with rfl | ⟨k, hi, lo, rfl⟩
    · exact hs
    · exact State.pileupsLawful_handlePair k hi lo hs

/-- With every channel at its reset values and an empty store the law holds. -/
theorem State.pileupsLawful_of_reset {s : State} (hch : s.channels = State.reset.channels)
    (hh : s.hits = []) : s.pileupsLawful := by
  refine ⟨fun d n x hx => ?_, by rw [hh]; exact fun _ h => (by cases h)⟩
  have hd : s.channels[d] = Channel.reset := by rw [hch]; simp [State.reset]
  rw [hd] at hx
  cases n <;> cases hx

/-- Settles O18: a code pair by its four stages, every other command by the contexts and hits it leaves. -/
theorem pileupAndHitsConsistent : Obligations.PileupAndHitsConsistent :=
  fun _ _ hs h => step_leads (Q := State.pileupsLawful) (fun _ h => h) (fun _ _ h => h) (fun _ _ h => h)
    (fun _ _ _ => State.pileupsLawful_of_reset rfl rfl) (fun _ _ => State.pileupsLawful_of_reset rfl rfl)
    (fun _ _ _ hc => exec_pileupsLawful hc) hs h

end Sys2Proof.Machine

/-! PROOFS. The Waveform Pool: every slot keeps its one holder through the stages of a code pair and along every
step (R35 to R41, R68). -/

namespace Sys2Proof.Machine

/-! ### Holders -/

/-- What R35 says of a slot that `lent` OPEN contexts and `held` stored hits hold. -/
def slotLaw (x : Slot) (lent held : Nat) : Prop :=
  match x with
  | .free => lent = 0 ∧ held = 0
  | .lent xs => lent = 1 ∧ held = 0 ∧ xs.length ≤ Config.slotDepth
  | .held xs => lent = 0 ∧ held = 1 ∧ xs.length ≤ Config.slotDepth

theorem State.slotsLawful_iff (s : State) :
    s.slotsLawful ↔ ∀ i : Fin 32, slotLaw s.pool[i] (s.lentCount i) (s.heldCount i) := Iff.rfl

/-- How many of the hits hold slot `i`. -/
def heldIn (hits : List Hit) (i : Fin 32) : Nat := hits.countP fun h => h.slot == some i

theorem heldIn_cons (h : Hit) (hits : List Hit) (i : Fin 32) :
    heldIn (h :: hits) i = heldIn hits i + if h.slot = some i then 1 else 0 := by
  simp [heldIn, List.countP_cons]

theorem State.heldCount_congr {s t : State} (h : t.hits = s.hits) (i : Fin 32) :
    t.heldCount i = s.heldCount i := by
  rw [State.heldCount, h, State.heldCount]

/-- Whether a context, if OPEN, holds slot `i`, as a number. -/
def lendsSlot (o : Option OpenContext) (i : Fin 32) : Nat := if o.any fun x => x.slot == some i then 1 else 0

/-- How many contexts of the channel hold slot `i`. -/
def Channel.lends (k : Channel) (i : Fin 32) : Nat := lendsSlot k.ctxA i + lendsSlot k.ctxB i

theorem lendsSlot_some (x : OpenContext) (i : Fin 32) :
    lendsSlot (some x) i = if x.slot = some i then 1 else 0 := by
  simp [lendsSlot]

/-- A change of a context that leaves its slot leaves what it lends. -/
theorem lendsSlot_map {f : OpenContext → OpenContext} (hf : ∀ x, (f x).slot = x.slot)
    (o : Option OpenContext) (i : Fin 32) : lendsSlot (o.map f) i = lendsSlot o i := by
  cases o with
  | none => rfl
  | some x => rw [Option.map_some, lendsSlot_some, lendsSlot_some, hf]

theorem Channel.lends_setCtx (k : Channel) (n : ContextName) (o : Option OpenContext) (i : Fin 32) :
    (k.setCtx n o).lends i + lendsSlot (k.ctx n) i = k.lends i + lendsSlot o i := by
  cases n <;> simp only [Channel.lends, Channel.setCtx, Channel.ctx] <;> omega

theorem State.lentCount_eq_sum (s : State) (i : Fin 32) :
    s.lentCount i = ∑ c : Fin 8, s.channels[c].lends i := by
  have hsum : ∀ p : Fin 8 → Bool, (List.finRange 8).countP p = ∑ c : Fin 8, if p c then 1 else 0 := by
    intro p
    rw [Fin.sum_univ_eight]
    simp [List.finRange, List.ofFn, Fin.foldr, Fin.foldr.loop, List.countP_cons]
    omega
  simp only [State.lentCount, hsum, Channel.lends, lendsSlot, Finset.sum_add_distrib]

theorem State.lentCount_congr {s t : State} (h : ∀ d : Fin 8, ∀ n, t.channels[d].ctx n = s.channels[d].ctx n)
    (i : Fin 32) : t.lentCount i = s.lentCount i := by
  rw [State.lentCount_eq_sum, State.lentCount_eq_sum]
  refine Finset.sum_congr rfl fun d _ => ?_
  show lendsSlot (t.channels[d].ctx .a) i + lendsSlot (t.channels[d].ctx .b) i = _
  rw [h d .a, h d .b]
  rfl

/-- Where channel `c` alone changes, the count moves as that channel's does. -/
theorem State.lentCount_of_channel {s t : State} (c : Fin 8)
    (h : ∀ d : Fin 8, d ≠ c → t.channels[d] = s.channels[d]) (i : Fin 32) :
    t.lentCount i + s.channels[c].lends i = s.lentCount i + t.channels[c].lends i := by
  have hsplit : ∀ u : State, u.lentCount i =
      u.channels[c].lends i + ∑ d ∈ Finset.univ.erase c, u.channels[d].lends i := fun u => by
    rw [State.lentCount_eq_sum, Finset.add_sum_erase _ (fun d : Fin 8 => u.channels[d].lends i)
      (Finset.mem_univ c)]
  have hrest : ∑ d ∈ Finset.univ.erase c, t.channels[d].lends i =
      ∑ d ∈ Finset.univ.erase c, s.channels[d].lends i :=
    Finset.sum_congr rfl fun d hd => by rw [h d (Finset.ne_of_mem_erase hd)]
  rw [hsplit s, hsplit t, hrest]
  omega

/-- A slot that a context holds is lent, and to that context alone. -/
theorem slotLaw_of_lent {x : Slot} {lent held : Nat} (h : slotLaw x lent held) (hl : 1 ≤ lent) :
    ∃ xs, x = .lent xs ∧ lent = 1 ∧ held = 0 ∧ xs.length ≤ Config.slotDepth := by
  cases x with
  | free => have := h.1; omega
  | lent xs => exact ⟨xs, rfl, h⟩
  | held xs => have := h.1; omega

theorem slotLaw_of_held {x : Slot} {lent held : Nat} (h : slotLaw x lent held) (hl : 1 ≤ held) :
    lent = 0 ∧ held = 1 := by
  cases x with
  | free => have := h.2; omega
  | lent xs => have := h.2.1; omega
  | held xs => exact ⟨h.1, h.2.1⟩

/-- Feeding a slot leaves its holder: a lent slot stays lent, within its depth (R29, R38). -/
theorem slotLaw_feedSlot {pool : Vector Slot 32} (slot : Option (Fin 32)) (u : Int) {j : Fin 32}
    {lent held : Nat} (h : slotLaw pool[j] lent held) : slotLaw (feedSlot pool slot u)[j] lent held := by
  by_cases hj : slot = some j
  · subst hj
    have hw : (feedSlot pool (some j) u)[j] = _ := writeSlot_get pool j u
    rw [hw]
    cases hp : pool[j] with
    | free => rw [hp] at h; exact h
    | held xs => rw [hp] at h; exact h
    | lent xs =>
      rw [hp] at h
      refine ⟨h.1, h.2.1, ?_⟩
      split
      · rename_i hlt; simpa using hlt
      · exact h.2.2
  · rw [feedSlot_get_ne pool u hj]; exact h

theorem slotLaw_feedSlots (slot : Option (Fin 32)) (f : Nat → Int) (is : List Nat) {j : Fin 32}
    {lent held : Nat} : ∀ {pool : Vector Slot 32}, slotLaw pool[j] lent held →
      slotLaw (is.foldl (fun p i => feedSlot p slot (f i)) pool)[j] lent held := by
  induction is with
  | nil => exact fun h => h
  | cons i is ih => exact fun h => ih (slotLaw_feedSlot slot (f i) h)

theorem returnSlot_get (pool : Vector Slot 32) (slot : Option (Fin 32)) (j : Fin 32) :
    (returnSlot pool slot)[j] = if slot = some j then .free else pool[j] := by
  cases slot with
  | none => simp [returnSlot]
  | some i =>
    by_cases h : i = j
    · subst h; simp [returnSlot]
    · have hv : i.val ≠ j.val := fun e => h (Fin.ext e)
      simp [returnSlot, h, hv]

/-- The pool after hits have left the store: their slots are FREE, and the others stand (R68). -/
theorem returnSlots_get (leaving : List Hit) (j : Fin 32) : ∀ pool : Vector Slot 32,
    (returnSlots pool leaving)[j] = if ∃ h ∈ leaving, h.slot = some j then .free else pool[j] := by
  induction leaving with
  | nil => intro pool; simp [returnSlots]
  | cons h hs ih =>
    intro pool
    have hstep : (returnSlots pool (h :: hs))[j] = (returnSlots (returnSlot pool h.slot) hs)[j] := rfl
    rw [hstep, ih, returnSlot_get]
    by_cases h1 : ∃ e ∈ hs, e.slot = some j
    · have h2 : ∃ e ∈ h :: hs, e.slot = some j := h1.imp fun e he => ⟨List.mem_cons_of_mem _ he.1, he.2⟩
      rw [if_pos h1, if_pos h2]
    · rw [if_neg h1]
      by_cases h2 : h.slot = some j
      · rw [if_pos h2, if_pos ⟨h, List.mem_cons_self, h2⟩]
      · rw [if_neg h2, if_neg]
        rintro ⟨e, he, hs⟩
        rcases List.mem_cons.mp he with rfl | he
        · exact h2 hs
        · exact h1 ⟨e, he, hs⟩

/-- Hits that leave give their slots back; those that stay keep theirs (R68). -/
theorem slotLaw_returnSlots {pool : Vector Slot 32} {leaving rest : List Hit} {lent : Nat} {j : Fin 32}
    (h : slotLaw pool[j] lent (heldIn (leaving ++ rest) j)) :
    slotLaw (returnSlots pool leaving)[j] lent (heldIn rest j) := by
  have hsplit : heldIn (leaving ++ rest) j = heldIn leaving j + heldIn rest j := List.countP_append ..
  rw [returnSlots_get]
  split
  · rename_i hex
    have hpos : 0 < heldIn leaving j := by
      obtain ⟨e, he, hslot⟩ := hex
      exact List.countP_pos_iff.mpr ⟨e, he, beq_iff_eq.mpr hslot⟩
    obtain ⟨h1, h2⟩ := slotLaw_of_held h (by omega)
    exact ⟨h1, by omega⟩
  · rename_i hex
    have hzero : heldIn leaving j = 0 :=
      List.countP_eq_zero.mpr fun e he hs => hex ⟨e, he, beq_iff_eq.mp hs⟩
    rwa [hsplit, hzero, Nat.zero_add] at h

/-! ### Stages -/

theorem State.slotsLawful_congr {s t : State} (hs : s.slotsLawful) (hpool : t.pool = s.pool)
    (hctx : ∀ d : Fin 8, ∀ n, t.channels[d].ctx n = s.channels[d].ctx n)
    (hheld : ∀ i, t.heldCount i = s.heldCount i) : t.slotsLawful := by
  intro i
  have := hs i
  rwa [hpool, State.lentCount_congr hctx i, hheld i]

theorem State.evaluate_slotsLawful {s : State} (n : SampleTime) (hs : s.slotsLawful) :
    (s.evaluate n).slotsLawful := by
  rw [State.evaluate_frame]; exact hs

/-- An insertion takes over the slot of its record: where the law holds with the record counted among the
hits, it holds after the insertion (R35, R58, R59). -/
theorem State.slotsLawful_insertHit {s : State} {h : Hit}
    (hs : ∀ i : Fin 32, slotLaw s.pool[i] (s.lentCount i) (heldIn (h :: s.hits) i)) :
    (s.insertHit h).slotsLawful := by
  have hplaced : ∀ i : Fin 32, slotLaw s.pool[i] (s.lentCount i) (heldIn (placeHit h s.hits) i) := by
    intro i
    have hperm : heldIn (placeHit h s.hits) i = heldIn (h :: s.hits) i :=
      (placeHit_perm h s.hits).countP_eq _
    rw [hperm]; exact hs i
  have hevict : ∀ e rest, placeHit h s.hits = e :: rest → (s.evict e rest).slotsLawful := by
    intro e rest hr i
    have := hplaced i
    rw [hr] at this
    exact slotLaw_returnSlots (leaving := [e]) this
  rcases s.insertHit_cases h with ⟨-, p⟩ | ⟨-, e, rest, hr, ⟨p, -⟩ | ⟨p, -⟩⟩ <;> rw [p]
  · exact State.evaluate_slotsLawful (s := { s with hits := placeHit h s.hits }) _ hplaced
  · exact hevict e rest hr
  · exact State.evaluate_slotsLawful _ (hevict e rest hr)

/-- What a completing context's slot becomes: held by the hit formed from it, or FREE (R39). -/
theorem slotLaw_poolAfterCompletion {m : WaveMode} {pool : Vector Slot 32} {x : OpenContext} {j : Fin 32}
    {lent held : Nat}
    (h : slotLaw pool[j] (lent + if x.slot = some j then 1 else 0) held) :
    slotLaw (poolAfterCompletion m pool x)[j] lent
      (held + if hitSlot m x = some j then 1 else 0) := by
  unfold poolAfterCompletion hitSlot
  cases hx : x.slot with
  | none => rw [hx] at h; simpa using h
  | some i =>
    rw [hx] at h
    by_cases hij : i = j
    · subst hij
      rw [if_pos rfl] at h
      obtain ⟨xs, hp, h1, h2, h3⟩ := slotLaw_of_lent h (by omega)
      have hheld : slotSamples pool i = xs := by
        unfold slotSamples; rw [hp]
      cases keepsSlot m x with
      | true =>
        simp only [if_true, holdSlot, hheld, Fin.getElem_fin, Vector.getElem_set_self]
        exact ⟨by omega, by omega, h3⟩
      | false =>
        simp only [Bool.false_eq_true, if_false, Fin.getElem_fin, Vector.getElem_set_self]
        exact ⟨by omega, by simp [h2]⟩
    · have hne : ¬ some i = some j := fun e => hij (Option.some.inj e)
      have hv : i.val ≠ j.val := fun e => hij (Fin.ext e)
      rw [if_neg hne, Nat.add_zero] at h
      have hslot : ¬ (if keepsSlot m x = true then some i else none) = some j := by
        split
        · exact hne
        · exact (Option.some_ne_none j).symm
      rw [if_neg hslot, Nat.add_zero]
      simp only
      split <;> simpa [holdSlot, hv] using h

theorem State.slotsLawful_completeContext {s : State} (c : Fin 8) (n : ContextName) (hs : s.slotsLawful) :
    (s.completeContext c n).slotsLawful := by
  rcases s.completeContext_cases c n with ⟨x, hx, hg⟩ | ⟨-, e⟩
  · rw [s.completeContext_done c n x hx hg]
    refine State.slotsLawful_insertHit fun i => ?_
    have hlent := State.lentCount_of_channel (s := s) (t := s.modifyChannel c fun k => k.setCtx n none) c
      (fun d hd => s.modifyChannel_get_ne _ hd) i
    have hset := s.channels[c].lends_setCtx n none i
    rw [State.modifyChannel_get] at hlent
    rw [hx, lendsSlot_some] at hset
    rw [heldIn_cons]
    refine slotLaw_poolAfterCompletion ?_
    have hcount : (s.modifyChannel c fun k => k.setCtx n none).lentCount i +
        (if x.slot = some i then 1 else 0) = s.lentCount i := by
      have : lendsSlot none i = 0 := rfl
      omega
    show slotLaw s.pool[i] ((s.modifyChannel c fun k => k.setCtx n none).lentCount i + _) (s.heldCount i)
    rw [hcount]
    exact hs i
  · rw [e]; exact hs

theorem State.slotsLawful_takeSample {s : State} (c : Fin 8) (n : ContextName) (t : SampleTime)
    (y : Sample) (hs : s.slotsLawful) : (s.takeSample c n t y).slotsLawful := by
  intro i
  have hlent : (s.takeSample c n t y).lentCount i = s.lentCount i := by
    have hcount := State.lentCount_of_channel (s := s) (t := s.takeSample c n t y) c
      (fun d hd => by rw [State.takeSample_channels, if_neg hd]) i
    have hset := s.channels[c].lends_setCtx n ((s.channels[c].ctx n).map fun x => x.take t y) i
    rw [lendsSlot_map (f := fun x => x.take t y) fun _ => rfl] at hset
    rw [State.takeSample_channels, if_pos rfl] at hcount
    omega
  have hheld : (s.takeSample c n t y).heldCount i = s.heldCount i :=
    State.heldCount_congr (congrArg (·.hits) (s.takeSample_frame c n t y)) i
  show slotLaw _ _ _
  rw [hlent, hheld, State.takeSample_pool]
  split
  · exact hs i
  · exact slotLaw_feedSlot _ _ (hs i)

/-- The channel after an opening: the other context piled up, and the opened one with the slot of its request
(R26, R36). -/
theorem State.openContext_channel (s : State) (c : Fin 8) (n : ContextName) (x : Crossing) :
    ∃ z : OpenContext, z.slot = s.slotForOpening c ∧ (s.openContext c n x).channels[c] =
      (s.channels[c].setCtx (otherContext n)
        ((s.channels[c].ctx (otherContext n)).map OpenContext.pileUp)).setCtx n (some z) := by
  refine ⟨_, ?_, (s.openContext_spec c n x).2.2.1⟩
  rw [OpenContext.takeRing_sameRecord]
  rfl

/-- An opening context on a channel where it was FREE is lent a FREE slot, or none (R36, R37). -/
theorem State.slotsLawful_openContext {s : State} (c : Fin 8) (n : ContextName) (x : Crossing)
    (hfree : s.channels[c].ctx n = none) (hs : s.slotsLawful) : (s.openContext c n x).slotsLawful := by
  obtain ⟨hframe, hne, -, hpool⟩ := s.openContext_spec c n x
  intro i
  have hheld : (s.openContext c n x).heldCount i = s.heldCount i :=
    State.heldCount_congr (congrArg (·.hits) hframe) i
  have hlent : (s.openContext c n x).lentCount i =
      s.lentCount i + if s.slotForOpening c = some i then 1 else 0 := by
    obtain ⟨z, hz, hchan⟩ := s.openContext_channel c n x
    have hcount := State.lentCount_of_channel (s := s) (t := s.openContext c n x) c hne i
    rw [hchan] at hcount
    have hother := s.channels[c].lends_setCtx (otherContext n)
      ((s.channels[c].ctx (otherContext n)).map OpenContext.pileUp) i
    rw [lendsSlot_map (f := OpenContext.pileUp) fun _ => rfl] at hother
    have hset := (s.channels[c].setCtx (otherContext n)
      ((s.channels[c].ctx (otherContext n)).map OpenContext.pileUp)).lends_setCtx n (some z) i
    rw [Channel.ctx_setCtx_ne _ _ (otherContext_ne n).symm, hfree, lendsSlot_some, hz] at hset
    have : lendsSlot none i = 0 := rfl
    omega
  have hrequest : slotLaw (s.poolAfterRequest c)[i]
      (s.lentCount i + if s.slotForOpening c = some i then 1 else 0) (s.heldCount i) := by
    unfold State.poolAfterRequest
    cases hreq : s.slotForOpening c with
    | none => simpa using (State.slotsLawful_iff s).mp hs i
    | some j =>
      have hjfree : s.pool[j] = .free := by
        unfold State.slotForOpening at hreq
        split at hreq
        · cases hreq
        · exact (lowestFree_some hreq).1
      by_cases hij : j = i
      · subst hij
        have := hs j
        rw [hjfree] at this
        simp only [lendSlot, Fin.getElem_fin, Vector.getElem_set_self]
        exact ⟨by rw [this.1]; rfl, this.2, Nat.zero_le _⟩
      · have hv : j.val ≠ i.val := fun e => hij (Fin.ext e)
        simpa [lendSlot, hv, hij] using (State.slotsLawful_iff s).mp hs i
  show slotLaw _ _ _
  rw [hlent, hheld, hpool]
  exact slotLaw_feedSlots _ _ _ hrequest

theorem State.slotsLawful_actOnCrossing {s : State} (c : Fin 8) (x : Crossing) (hs : s.slotsLawful) :
    (s.actOnCrossing c x).slotsLawful := by
  unfold State.actOnCrossing
  split
  · exact State.slotsLawful_openContext c .a x ‹_› hs
  · exact State.slotsLawful_openContext c .b x ‹_› hs
  · rename_i a b ha hb
    obtain ⟨hframe, hne, hchan⟩ := s.mergeCrossing_spec c a b
    intro i
    have hcount := State.lentCount_of_channel (s := s) (t := s.mergeCrossing c a b) c hne i
    have hlends : (s.mergeCrossing c a b).channels[c].lends i = s.channels[c].lends i := by
      rw [hchan, Channel.lends, Channel.lends, ha, hb]
      simp only [lendsSlot_some]
      rfl
    have hlent : (s.mergeCrossing c a b).lentCount i = s.lentCount i := by omega
    show slotLaw _ _ _
    rw [hlent]
    exact hs i

/-- The stages of a code pair keep one holder for every slot. -/
theorem State.slotsLawful_handlePair {s : State} (c : Fin 8) (hi lo : BitVec 12) (hs : s.slotsLawful) :
    (s.handlePair c hi lo).slotsLawful := by
  refine State.handlePair_stages (P := State.slotsLawful) c (fun s f hf hs => ?_)
    (fun _ x hs => State.slotsLawful_actOnCrossing c x hs)
    (fun _ n t y hs => State.slotsLawful_takeSample c n t y hs)
    (fun _ n hs => State.slotsLawful_completeContext c n hs) hi lo hs
  refine State.slotsLawful_congr hs rfl (fun d n => ?_) fun _ => rfl
  rw [State.modifyChannel_channels]
  split
  · rename_i hd
    subst hd
    obtain ⟨-, ha, hb⟩ := hf s.channels[d]
    cases n
    · exact ha
    · exact hb
  · rfl

/-! ### Along a step -/

/-- Hits at the front of the store leave with their slots (R63, R68). -/
theorem State.slotsLawful_leaving {s t : State} (leaving : List Hit) (hs : s.slotsLawful)
    (hhits : s.hits = leaving ++ t.hits) (hpool : t.pool = returnSlots s.pool leaving)
    (hctx : ∀ d : Fin 8, ∀ n, t.channels[d].ctx n = s.channels[d].ctx n) : t.slotsLawful := by
  intro i
  show slotLaw _ _ (heldIn t.hits i)
  rw [hpool, State.lentCount_congr hctx i]
  refine slotLaw_returnSlots ?_
  rw [← hhits]
  exact hs i

theorem State.slotsLawful_testDrain {s : State} (hs : s.slotsLawful) : s.testDrain.slotsLawful := by
  rcases s.testDrain_cases with e | ⟨-, e⟩ <;> rw [e]
  · exact hs
  · refine State.slotsLawful_leaving s.hits hs (List.append_nil _).symm rfl fun d n => ?_
    show (s.mapChannels fun k => { k with disc := .below }).channels[d].ctx n = _
    rw [State.mapChannels_get]
    cases n <;> rfl

theorem exec_slotsLawful {c : Instr} {s t : State} (hc : resets c = false) (hidle : s.setupIdle)
    (hs : s.slotsLawful) (h : exec c s = .next t) : t.slotsLawful := by
  cases hpair : isCodePair c with
  | true =>
    rcases exec_isCodePair hpair h with rfl | ⟨k, hi, lo, rfl⟩
    · exact hs
    · exact State.slotsLawful_handlePair k hi lo hs
  | false =>
    have hctx := exec_ctx hc hpair h
    cases c with
    | resetStation | rstnAssert | resetRelease => cases hc
    | codePairArrival => cases hpair
    | hitExpiry =>
      cases h
      split
      · exact State.slotsLawful_leaving _ hs List.takeWhile_append_dropWhile.symm rfl fun _ _ => rfl
      · exact hs
    | fragmentBuild =>
      refine State.slotsLawful_congr hs (congrArg (·.pool) (exec_frame h)) hctx fun i => ?_
      rcases execFragmentBuild_cases h with rfl | ⟨d, rest, -, -, rfl⟩
      · rfl
      · have hhits : (s.build d rest).hits = s.markSelected d := State.chooseFrame_hits _
        rw [State.heldCount, hhits, State.markSelected, List.countP_map]
        refine List.countP_congr fun e _ => ?_
        simp only [Function.comp]
        split <;> exact Iff.rfl
    | drainReturn => cases h; exact State.slotsLawful_testDrain hs
    | start =>
      refine State.slotsLawful_congr hs (congrArg (·.pool) (exec_frame h)) hctx fun i => ?_
      rcases execStart_cases h with rfl | ⟨w, code, rfl⟩ | ⟨hm, rfl⟩
      · rfl
      · exact State.heldCount_congr (s.refuseHead_hits w code) i
      · rw [State.heldCount, State.heldCount, (hidle hm).2.1]; rfl
    | stop =>
      rcases execStop_cases h with rfl | ⟨w, code, rfl⟩ | ⟨-, rfl⟩
      · exact hs
      · rw [State.refuseHead_frame]; exact hs
      · exact State.slotsLawful_testDrain hs
    | _ =>
      exact State.slotsLawful_congr hs (congrArg (·.pool) (exec_frame h)) hctx
        (State.heldCount_congr (congrArg (·.hits) (exec_frame h)))

theorem State.slotsLawful_of_reset {s : State} (hch : s.channels = State.reset.channels)
    (hpool : s.pool = State.reset.pool) (hh : s.hits = []) : s.slotsLawful := by
  have hcount : ∀ d : Fin 8, ∀ i, s.channels[d].lends i = 0 := fun d i => by
    have hd : s.channels[d] = Channel.reset := by rw [hch]; simp [State.reset]
    rw [hd]; rfl
  intro i
  have hi : s.pool[i] = .free := by rw [hpool]; simp [State.reset]
  show slotLaw _ _ _
  rw [hi, State.lentCount_eq_sum, State.heldCount, hh]
  exact ⟨Finset.sum_eq_zero fun d _ => hcount d i, rfl⟩

/-- Settles O22, by the stages of a code pair and the hits that leave. -/
theorem slotsHaveOneHolder : Obligations.SlotsHaveOneHolder :=
  fun _ _ hidle hs h => step_leads (Q := fun u => u.setupIdle ∧ u.slotsLawful) (fun _ h => h.2)
    (fun _ _ h => h) (fun _ _ h => h) (fun _ _ _ => State.slotsLawful_of_reset rfl rfl rfl)
    (fun _ _ => State.slotsLawful_of_reset rfl rfl rfl)
    (fun _ _ _ hc hq => exec_slotsLawful hc hq.1 hq.2) ⟨hidle, hs⟩ h

end Sys2Proof.Machine

/-! PROOFS. The Call Queue's law along a step, and the idle SETUP (R72, R74 to R84, R19, R33, R70, R137, R141). -/

namespace Sys2Proof.Machine

/-! ### The law in the times of the calls -/

theorem State.callsLawful.apart {s : State} (h : s.callsLawful) :
    s.callTimes.Pairwise fun a b => within s.station.window a b = false := List.pairwise_map.mpr h.2.1

theorem State.callsLawful.uncovered {s : State} (h : s.callsLawful) :
    ∀ τ ∈ s.callTimes, ∀ d ∈ s.seeds, within s.station.window d.time τ = false := by
  intro τ hτ d hd
  obtain ⟨c, hc, rfl⟩ := List.mem_map.mp hτ
  exact h.2.2.2.1 c hc d hd

theorem State.callsLawful.drain {s : State} (h : s.callsLawful) (hm : s.mode = .drain) :
    ∀ c ∈ s.calls, c.isOnLine = true := h.2.2.2.2.1 hm

theorem State.callsLawful.setup {s : State} (h : s.callsLawful) (hm : s.mode = .setup) :
    s.calls = [] ∧ s.seeds = [] := h.2.2.2.2.2 hm

/-- The law, where the times of the calls are some of those before, and so are the times of the seeds. -/
theorem State.callsLawful_of_times {s t : State} (hs : s.callsLawful)
    (htimes : t.callTimes.Sublist s.callTimes) (hwindow : t.station.window = s.station.window)
    (hseeds : ∀ d ∈ t.seeds, ∃ e ∈ s.seeds, e.time = d.time) (honline : t.calls.countP Call.isOnLine ≤ 1)
    (hdrain : t.mode = .drain → ∀ c ∈ t.calls, c.isOnLine = true)
    (hsetup : t.mode = .setup → t.calls = [] ∧ t.seeds = []) : t.callsLawful := by
  refine ⟨?_, ?_, honline, fun c hc d hd => ?_, hdrain, hsetup⟩
  · have := htimes.length_le
    simp only [State.callTimes, List.length_map] at this
    exact this.trans hs.1
  · rw [hwindow]
    exact List.pairwise_map.mp (hs.apart.sublist htimes)
  · obtain ⟨e, he, hτ⟩ := hseeds d hd
    rw [hwindow, ← hτ]
    exact hs.uncovered _ (htimes.subset (List.mem_map_of_mem hc)) e he

theorem countP_isOnLine_eq_zero {calls : List Call} (h : ∀ c ∈ calls, c.isOnLine = false) :
    calls.countP Call.isOnLine = 0 := List.countP_eq_zero.mpr fun c hc => by rw [h c hc]; exact Bool.false_ne_true

/-- The law after a change of the calls that leaves no call ON_LINE: in DRAIN none may be left. -/
theorem State.callsLawful_offLine {s t : State} (hs : s.callsLawful)
    (htimes : t.callTimes.Sublist s.callTimes) (hwindow : t.station.window = s.station.window)
    (hseeds : t.seeds = s.seeds) (hmode : t.mode = s.mode) (hoff : ∀ c ∈ t.calls, c.isOnLine = false)
    (hdrain : s.mode = .drain → t.calls = []) : t.callsLawful := by
  refine State.callsLawful_of_times hs htimes hwindow (fun d hd => ⟨d, hseeds ▸ hd, rfl⟩)
    (by rw [countP_isOnLine_eq_zero hoff]; exact Nat.zero_le _) (fun hm c hc => ?_) fun hm => ?_
  · rw [hdrain (hmode ▸ hm)] at hc; cases hc
  · obtain ⟨hcalls, hlist⟩ := hs.setup (hmode ▸ hm)
    rw [State.callTimes, State.callTimes, hcalls] at htimes
    exact ⟨List.map_eq_nil_iff.mp (List.sublist_nil.mp htimes), hseeds.trans hlist⟩

theorem State.callsLawful_congr {s t : State} (hs : s.callsLawful) (hcalls : t.calls = s.calls)
    (hwindow : t.station.window = s.station.window) (hseeds : t.seeds = s.seeds) (hmode : t.mode = s.mode) :
    t.callsLawful := by
  unfold State.callsLawful at *
  rwa [hcalls, hwindow, hseeds, hmode]

/-! ### The ON_LINE call -/

/-- In DRAIN the lapse of the ON_LINE call leaves no call at all (R83). -/
theorem State.callsLawful.filter_drain {s : State} (hs : s.callsLawful) (hm : s.mode = .drain)
    {p : Call → Bool} (hp : ∀ c, p c = true → c.isOnLine = false) : s.calls.filter p = [] :=
  List.filter_eq_nil_iff.mpr fun c hc hpc => by
    have := hs.drain hm c hc
    rw [hp c hpc] at this
    cases this

theorem State.callsLawful_returnCall {s : State} (hs : s.callsLawful) : s.returnCall.callsLawful := by
  by_cases hm : s.mode = .drain
  · have hcalls : s.returnCall.calls = s.calls.filter fun c => !c.isOnLine :=
      (s.callBack_returnCall.2 hm).1
    have hnil : s.returnCall.calls = [] := hcalls.trans (hs.filter_drain hm fun c => by simp)
    refine State.callsLawful_offLine hs s.returnCall_callTimes (by simp) (by simp) (by simp)
      (fun c hc => ?_) fun _ => hnil
    rw [hnil] at hc; cases hc
  · have hcalls := (s.callBack_returnCall.1 hm).1
    refine State.callsLawful_offLine hs s.returnCall_callTimes (by simp) (by simp) (by simp)
      (fun c hc => ?_) fun h => absurd h hm
    rw [hcalls] at hc
    obtain ⟨x, -, rfl⟩ := List.mem_map.mp hc
    split
    · rfl
    · exact Bool.eq_false_iff.mpr ‹_›

theorem Call.afterDiscard_isOnLine {c d : Call} (h : c.afterDiscard = some d) : d.isOnLine = false := by
  unfold Call.afterDiscard at h
  split at h
  · split at h <;> cases h; rfl
  · cases h; exact Bool.eq_false_iff.mpr ‹_›

theorem State.callsLawful_discardCall {s : State} (hs : s.callsLawful) : s.discardCall.callsLawful := by
  by_cases hm : s.mode = .drain
  · have hnil : s.discardCall.calls = [] := by
      rw [State.discardCall, if_pos hm]
      exact hs.filter_drain hm fun c => by simp
    refine State.callsLawful_offLine hs s.discardCall_callTimes (by simp) (by simp) (by simp)
      (fun c hc => ?_) fun _ => hnil
    rw [hnil] at hc; cases hc
  · refine State.callsLawful_offLine hs s.discardCall_callTimes (by simp) (by simp) (by simp)
      (fun c hc => ?_) fun h => absurd h hm
    rw [State.discardCall, if_neg hm] at hc
    obtain ⟨x, -, hx⟩ := List.mem_filterMap.mp hc
    exact Call.afterDiscard_isOnLine hx

/-- Two calls of a lawful queue are never equal: a time is within W of itself. -/
theorem State.callsLawful.nodup {s : State} (hs : s.callsLawful) : s.calls.Nodup :=
  hs.2.1.imp fun hab e => by rw [e, within_self] at hab; cases hab

/-- The call offered goes ON_LINE alone, where none was ON_LINE (R78, R79). -/
theorem State.callsLawful_startFrame {s : State} (c : Call) (hm : s.mode = .run)
    (hoff : s.callOnLine = false) (hs : s.callsLawful) : (s.startFrame c).callsLawful := by
  have hnot : ∀ x ∈ s.calls, x.isOnLine = false := by
    intro x hx
    have := List.any_eq_false.mp hoff x hx
    simpa using this
  refine State.callsLawful_of_times hs (callTimes_map (fun x => ?_) s.calls) rfl
    (fun d hd => ⟨d, hd, rfl⟩) ?_ (fun h => ?_) fun h => ?_
  · split <;> rfl
  · have hcount : (s.startFrame c).calls.countP Call.isOnLine = s.calls.count c := by
      show (s.calls.map _).countP _ = _
      rw [List.countP_map, List.count]
      refine List.countP_congr fun x hx => ?_
      by_cases e : x = c
      · simp [e, Call.isOnLine]
      · simp [e, hnot x hx]
    rw [hcount]
    exact List.nodup_iff_count_le_one.mp hs.nodup c
  · exact absurd (hm.symm.trans h) (by decide)
  · exact absurd (hm.symm.trans h) (by decide)

/-! ### Candidates -/

/-- A WAITING call at a time that neither a call nor a listed seed covers joins a lawful queue with room
(R74, R76). -/
theorem State.callsLawful_append {s t : State} (hs : s.callsLawful) {n : SampleTime} {e : Nat}
    (hm : s.mode = .run) (hseeds : ∀ d ∈ s.seeds, within s.station.window d.time n = false)
    (hfar : ∀ c ∈ s.calls, within s.station.window c.time n = false) {l : List Call}
    (hl : l.Sublist s.calls) (hlen : l.length < Config.callQueueDepth)
    (ht : t = { s with calls := l ++ [newCall n e], counters := t.counters }) : t.callsLawful := by
  rw [ht]
  refine ⟨?_, ?_, ?_, fun c hc d hd => ?_, fun h => ?_, fun h => ?_⟩
  · show (l ++ [newCall n e]).length ≤ _
    rw [List.length_append, List.length_singleton]; exact hlen
  · refine List.pairwise_append.mpr ⟨hs.2.1.sublist hl, List.pairwise_singleton _ _, fun a ha b hb => ?_⟩
    rw [List.mem_singleton.mp hb]
    exact hfar a (hl.subset ha)
  · show (l ++ [newCall n e]).countP Call.isOnLine ≤ 1
    have hnew : [newCall n e].countP Call.isOnLine = 0 := rfl
    rw [List.countP_append, hnew]
    exact (hl.countP_le).trans hs.2.2.1
  · rcases List.mem_append.mp hc with hc | hc
    · exact hs.2.2.2.1 c (hl.subset hc) d hd
    · rw [List.mem_singleton.mp hc]; exact hseeds d hd
  · exact absurd (hm.symm.trans h) (by decide)
  · exact absurd (hm.symm.trans h) (by decide)

theorem State.callsLawful_placeCandidate {s : State} (n : SampleTime) (e : Nat) (hm : s.mode = .run)
    (hs : s.callsLawful) : (s.placeCandidate n e).callsLawful := by
  rcases s.placeCandidate_cases n e with ⟨-, p⟩ | ⟨hseeds, ⟨k, -, p⟩ | ⟨hfar, ⟨hl, p⟩ | ⟨hl, ⟨-, p⟩ |
    ⟨w, hw, ⟨-, p⟩ | ⟨-, p⟩⟩⟩⟩⟩ <;> rw [p]
  · exact hs
  · refine State.callsLawful_of_times hs (callTimes_map (fun c => ?_) s.calls) rfl
      (fun d hd => ⟨d, hd, rfl⟩) ?_ (fun h => absurd (hm.symm.trans h) (by decide))
      fun h => absurd (hm.symm.trans h) (by decide)
    · split <;> rfl
    · show (s.calls.map _).countP _ ≤ 1
      rw [List.countP_map]
      refine (List.countP_congr fun c _ => ?_).trans_le hs.2.2.1
      simp only [Function.comp]
      split <;> exact Iff.rfl
  · exact State.callsLawful_append hs hm hseeds hfar (List.Sublist.refl _) hl rfl
  · exact hs
  · refine State.callsLawful_append hs hm hseeds hfar List.erase_sublist ?_ rfl
    have hmem := List.mem_of_mem_filter (best_mem hw)
    have hpos := List.length_pos_of_mem hmem
    have := hs.1
    rw [List.length_erase_of_mem hmem]
    omega
  · exact hs

theorem State.callsLawful_insertHit {s : State} (h : Hit) (hs : s.callsLawful) :
    (s.insertHit h).callsLawful :=
  State.insertHit_keeps (P := State.callsLawful)
    (fun _ n e hm hs => State.callsLawful_placeCandidate n e hm hs) (fun _ _ _ hs => hs)
    (fun _ _ _ _ _ _ hs => hs) s h hs

/-! ### Delivery and the station states -/

theorem mem_raiseLost {ds : List Seed} {d : Seed} (h : d ∈ raiseLost ds) : ∃ e ∈ ds, e.time = d.time := by
  rcases List.eq_nil_or_concat ds with rfl | ⟨first, last, rfl⟩
  · cases h
  · rw [List.concat_eq_append] at h ⊢
    rw [raiseLost_append] at h
    rcases List.mem_append.mp h with h | h
    · exact ⟨d, List.mem_append_left _ h, rfl⟩
    · exact ⟨last, List.mem_append_right _ (List.mem_singleton_self _), by rw [List.mem_singleton.mp h]⟩

/-- What a delivery leaves of the Seed List in RUN and DRAIN (R119, R120). -/
theorem State.deliverToList_seeds (s : State) (d : Seed) :
    (s.deliverToList d).seeds =
      if s.seeds.length < Config.seedListDepth then s.seeds ++ [d] else raiseLost s.seeds := by
  rcases s.deliverToList_spec d with ⟨hl, e⟩ | ⟨hl, e⟩ <;> rw [e]
  · rw [if_pos hl]; rfl
  · rw [if_neg (not_lt.mpr hl)]; rfl

/-- A delivery leaves WAITING calls that the new seed does not cover (R81). -/
theorem State.callsLawful_deliver {s : State} (bits : BitVec 36) (hs : s.callsLawful) :
    (s.deliver bits).callsLawful := by
  cases ha : s.active with
  | false => rw [State.deliver_setup s bits ha]; exact hs
  | true =>
    have hcalls := State.deliver_calls s bits ha
    have hframe := s.deliver_frame bits
    have hmode : (s.deliver bits).mode = s.mode := congrArg (·.mode) hframe
    have hwindow : (s.deliver bits).station.window = s.station.window :=
      congrArg (·.station.window) hframe
    have hmem : ∀ c ∈ (s.deliver bits).calls, c ∈ s.calls ∧ c.isOnLine = false ∧
        within s.station.window c.time (rebuildTime s.now (frameTime bits)) = false := by
      intro c hc
      rw [hcalls] at hc
      simpa using hc
    have hseeds : (s.deliver bits).seeds = if s.seeds.length < Config.seedListDepth
        then s.seeds ++ [s.seedEntry bits s.callOnLine] else raiseLost s.seeds := by
      rw [State.deliver_active s bits ha, State.deliverToList_seeds]; rfl
    refine ⟨?_, ?_, ?_, fun c hc d hd => ?_, fun hm c hc => ?_, fun hm => ?_⟩
    · rw [hcalls]; exact (List.length_filter_le _ _).trans hs.1
    · rw [hwindow, hcalls]; exact hs.2.1.filter _
    · rw [countP_isOnLine_eq_zero fun c hc => (hmem c hc).2.1]; exact Nat.zero_le _
    · obtain ⟨hcs, -, hfar⟩ := hmem c hc
      rw [hwindow]
      rw [hseeds] at hd
      split at hd
      · rcases List.mem_append.mp hd with hd | hd
        · exact hs.2.2.2.1 c hcs d hd
        · rw [List.mem_singleton.mp hd, within_comm]; exact hfar
      · obtain ⟨e, he, hτ⟩ := mem_raiseLost hd
        rw [← hτ]; exact hs.2.2.2.1 c hcs e he
    · have := (hmem c hc).2.1
      rw [hs.drain (hmode ▸ hm) c (hmem c hc).1] at this
      cases this
    · exact absurd (hmode ▸ hm) (s.active_iff.mp ha)

/-- A station ready to return to SETUP has no call and no seed left (R158). -/
theorem State.drainDone_spec {s : State} (h : s.drainDone = true) :
    s.mode = .drain ∧ (∀ d : Fin 8, ∀ n, s.channels[d].ctx n = none) ∧ s.callOnLine = false ∧ s.seeds = [] ∧
      s.readout = [] := by
  simp only [State.drainDone, Bool.and_eq_true, beq_iff_eq, Bool.not_eq_true'] at h
  obtain ⟨⟨⟨⟨⟨hm, hfree⟩, hoff⟩, hseeds⟩, hreadout⟩, -⟩ := h
  refine ⟨hm, fun d n => ?_, hoff, hseeds, hreadout⟩
  have := List.all_eq_true.mp hfree s.channels[d] (Vector.mem_toList_iff.mpr (Vector.getElem_mem d.isLt))
  simp only [Channel.allFree, Bool.and_eq_true, Option.isNone_iff_eq_none] at this
  cases n
  · exact this.1
  · exact this.2

theorem State.drainDone_calls {s : State} (h : s.drainDone = true) (hs : s.callsLawful) : s.calls = [] := by
  obtain ⟨hm, -, hoff, -, -⟩ := State.drainDone_spec h
  rw [List.eq_nil_iff_forall_not_mem]
  intro c hc
  exact List.any_eq_false.mp hoff c hc (hs.drain hm c hc)

/-- With no call and no seed the law holds in every station state. -/
theorem State.callsLawful_of_empty {s : State} (hcalls : s.calls = []) (hseeds : s.seeds = []) :
    s.callsLawful := by
  unfold State.callsLawful
  rw [hcalls, hseeds]
  exact ⟨Nat.zero_le _, List.Pairwise.nil, Nat.zero_le _, fun _ h => (by cases h), fun _ _ h => (by cases h),
    fun _ => ⟨rfl, rfl⟩⟩

theorem State.callsLawful_testDrain {s : State} (hs : s.callsLawful) : s.testDrain.callsLawful := by
  rcases s.testDrain_cases with e | ⟨hd, e⟩ <;> rw [e]
  · exact hs
  · exact State.callsLawful_of_empty (s := s.returnToSetup) (show s.calls = [] from State.drainDone_calls hd hs)
      (State.drainDone_spec hd).2.2.2.1

/-- STOP leaves only an ON_LINE call (R83). -/
theorem State.callsLawful_withdrawn {s : State} (hs : s.callsLawful) :
    (s.enterMode .drain).withdrawCalls.callsLawful := by
  refine State.callsLawful_of_times hs (callTimes_filter _ _) rfl
    (fun d hd => ⟨d, hd, rfl⟩) ?_ (fun _ c hc => List.of_mem_filter hc) fun h => ?_
  · exact (List.filter_sublist.countP_le).trans hs.2.2.1
  · cases h

/-! ### Along a step -/

theorem exec_callsLawful {c : Instr} {s t : State} (hc : resets c = false) (hs : s.callsLawful)
    (h : exec c s = .next t) : t.callsLawful := by
  cases c with
  | resetStation | rstnAssert | resetRelease => cases hc
  | codePairArrival =>
    rcases exec_isCodePair rfl h with rfl | ⟨k, hi, lo, rfl⟩
    · exact hs
    · exact State.handlePair_keeps (P := State.callsLawful) (fun _ _ _ _ _ _ h => h)
        (fun _ h => State.callsLawful_insertHit h) _ _ _ _ hs
  | callLapse =>
    cases h
    split
    · rename_i hm
      refine State.callsLawful_of_times hs (callTimes_filter _ _) rfl (fun d hd => ⟨d, hd, rfl⟩)
        ((List.filter_sublist.countP_le).trans hs.2.2.1) (fun h => absurd (hm.symm.trans h) (by decide))
        fun h => absurd (hm.symm.trans h) (by decide)
    · exact hs
  | seedClosed | seedLateMark | seedStaleMark =>
    cases h
    refine State.callsLawful_of_times hs (List.Sublist.refl _) rfl (fun d hd => ?_) hs.2.2.1 hs.2.2.2.2.1
      fun hm => ?_
    · obtain ⟨e, he, rfl⟩ := List.mem_map.mp hd
      exact ⟨e, he, rfl⟩
    · obtain ⟨hcalls, hseeds⟩ := hs.setup hm
      exact ⟨hcalls, List.map_eq_nil_iff.mpr hseeds⟩
  | fragmentBuild =>
    rcases execFragmentBuild_cases h with rfl | ⟨d, rest, hd, hb, rfl⟩
    · exact hs
    · have hframe := execFragmentBuild_frame h
      have hcalls : (s.build d rest).calls = s.calls := congrArg (·.calls) hframe
      have hmode : (s.build d rest).mode = s.mode := congrArg (·.mode) hframe
      have hseeds : (s.build d rest).seeds = rest := State.chooseFrame_seeds _
      simp only [State.headBuildable, Bool.and_eq_true] at hb
      refine State.callsLawful_of_times hs (by rw [State.callTimes, hcalls]; exact List.Sublist.refl _)
        (congrArg (·.station.window) hframe) (fun e he => ⟨e, ?_, rfl⟩) (hcalls ▸ hs.2.2.1)
        (fun hm => hcalls ▸ hs.drain (hmode ▸ hm)) fun hm => ?_
      · rw [hd]; exact List.mem_cons_of_mem _ (hseeds ▸ he)
      · exact absurd (hmode ▸ hm) (s.active_iff.mp hb.1.1)
  | frameStart level =>
    cases h
    split
    · rename_i hstart
      simp only [State.mayStart, Bool.and_eq_true, beq_iff_eq, Bool.not_eq_true'] at hstart
      split
      · exact hs
      · exact State.callsLawful_startFrame _ hstart.1.1.1.1 hstart.2 hs
    · exact hs
  | startBitRecessive | lineStuck =>
    cases h
    split
    · exact State.callsLawful_returnCall hs
    · exact hs
  | arbitrationLost =>
    cases h
    split
    · split
      · exact State.callsLawful_returnCall hs
      · exact hs
    · exact hs
  | framesDiscarded =>
    cases h
    split
    · rename_i f _
      split
      · split
        · exact State.callsLawful_discardCall (s := s.markSettled f) hs
        · exact hs
      · exact hs
    · exact hs
  | seedAccepted =>
    rcases execSeedAccepted_cases h with rfl | ⟨f, -, rfl⟩
    · exact hs
    · exact State.callsLawful_deliver (s := s.markSettled f) _ hs
  | drainReturn => cases h; exact State.callsLawful_testDrain hs
  | set =>
    rcases execSet_cases h with rfl | ⟨w, code, rfl⟩ | ⟨hm, field, i, value, rfl⟩
    · exact hs
    · rw [State.refuseHead_frame]; exact hs
    · obtain ⟨hcalls, hseeds⟩ := hs.setup hm
      cases i <;> exact State.callsLawful_of_empty hcalls hseeds
  | start =>
    rcases execStart_cases h with rfl | ⟨w, code, rfl⟩ | ⟨-, rfl⟩
    · exact hs
    · rw [State.refuseHead_frame]; exact hs
    · exact State.callsLawful_of_empty rfl rfl
  | stop =>
    rcases execStop_cases h with rfl | ⟨w, code, rfl⟩ | ⟨-, rfl⟩
    · exact hs
    · rw [State.refuseHead_frame]; exact hs
    · exact State.callsLawful_testDrain (State.callsLawful_withdrawn (s := s.popCommand) hs)
  | _ =>
    exact State.callsLawful_congr hs (congrArg (·.calls) (exec_frame h))
      (congrArg (·.station.window) (exec_frame h)) (congrArg (·.seeds) (exec_frame h))
      (congrArg (·.mode) (exec_frame h))

/-- Settles O20, command by command, through the times of the calls. -/
theorem callQueueLawKept : Obligations.CallQueueLawKept :=
  fun _ _ hs h => step_leads (Q := State.callsLawful) (fun _ h => h) (fun _ _ h => h) (fun _ _ h => h)
    (fun _ _ _ => State.callsLawful_of_empty rfl rfl) (fun _ _ => State.callsLawful_of_empty rfl rfl)
    (fun _ _ _ hc => exec_callsLawful hc) hs h

end Sys2Proof.Machine

/-! PROOFS. The idle SETUP along a step: discriminators, contexts, store, calls, seeds and fragments (R19, R33,
R69, R70, R84, R137, R141). -/

namespace Sys2Proof.Machine

/-! ### A code pair where the Pulse Processor does not run -/

/-- In SETUP, and on a disabled channel, a code pair writes the ring, holds the discriminator in BELOW and
moves the trackers (R19). -/
theorem State.handlePair_idle (s : State) (c : Fin 8) (hi lo : BitVec 12)
    (h : s.mode = .setup ∨ s.channels[c].items.enable = false) :
    s.handlePair c hi lo = { s with channels := (s.handlePair c hi lo).channels } ∧
      (s.handlePair c hi lo).channels[c] =
        Channel.settleTrackers { s.channels[c].writeRing s.now (unifiedSample s.channels[c] hi lo) with
          disc := .below } (unifiedSample s.channels[c] hi lo).u hi lo := by
  have hoff : (s.ringWritten c hi lo).discRuns c = false := by
    unfold State.discRuns
    rw [State.ringWritten_channels, if_pos rfl]
    rcases h with hm | he
    · simp [State.active, show (s.ringWritten c hi lo).mode = s.mode from rfl, hm]
    · have he' : (s.channels[c].writeRing s.now (unifiedSample s.channels[c] hi lo)).items.enable = false := he
      rw [he', Bool.false_and]
  have hpulse : (s.ringWritten c hi lo).takePulse c (unifiedSample s.channels[c] hi lo) =
      (s.ringWritten c hi lo).modifyChannel c fun k => { k with disc := .below } :=
    if_neg (by rw [hoff]; exact Bool.false_ne_true)
  have hpair : s.handlePair c hi lo =
      ((s.ringWritten c hi lo).modifyChannel c fun k => { k with disc := .below }).modifyChannel c
        fun k => k.settleTrackers (unifiedSample s.channels[c] hi lo).u hi lo := by
    rw [← hpulse]; rfl
  refine ⟨by rw [hpair]; rfl, ?_⟩
  rw [hpair, State.modifyChannel_get, State.modifyChannel_get, State.ringWritten_channels, if_pos rfl]

/-! ### What an idle channel is -/

/-- The channel takes part in nothing (R19, R33). -/
def Channel.idle (k : Channel) : Prop := k.disc = .below ∧ k.ctxA = none ∧ k.ctxB = none

theorem State.setupIdle_of_ne_setup {s : State} (h : s.mode ≠ .setup) : s.setupIdle := fun hm => absurd hm h

theorem State.handlePair_idle_channel {s : State} (c : Fin 8) (hi lo : BitVec 12)
    (hm : s.mode = .setup) (hs : ∀ d : Fin 8, s.channels[d].idle) (d : Fin 8) :
    (s.handlePair c hi lo).channels[d].idle := by
  by_cases hd : d = c
  · subst hd
    obtain ⟨-, ha, hb⟩ := hs d
    rw [(s.handlePair_idle d hi lo (Or.inl hm)).2, Channel.settleTrackers_frame]
    exact ⟨rfl, ha, hb⟩
  · rw [(s.handlePair_channels c hi lo).1 d hd]; exact hs d

theorem State.setupIdle_handlePair {s : State} (c : Fin 8) (hi lo : BitVec 12) (hm : s.mode = .setup)
    (hs : s.setupIdle) : (s.handlePair c hi lo).setupIdle := by
  obtain ⟨hidle, hrest⟩ := hs hm
  have hframe := (s.handlePair_idle c hi lo (Or.inl hm)).1
  refine fun _ => ⟨fun d => State.handlePair_idle_channel c hi lo hm hidle d, ?_⟩
  rw [hframe]
  exact hrest

/-- The return from DRAIN leaves nothing under way (R158, R159). -/
theorem State.setupIdle_testDrain {s : State} (hcalls : s.callsLawful) (hs : s.setupIdle) :
    s.testDrain.setupIdle := by
  rcases s.testDrain_cases with e | ⟨hd, e⟩ <;> rw [e]
  · exact hs
  · obtain ⟨-, hfree, -, hseeds, hreadout⟩ := State.drainDone_spec hd
    refine fun _ => ⟨fun d => ?_, rfl, rfl, ?_, hseeds, hreadout⟩
    · show (s.mapChannels fun k => { k with disc := .below }).channels[d].idle
      rw [State.mapChannels_get]
      exact ⟨rfl, hfree d .a, hfree d .b⟩
    · show s.calls = []
      exact State.drainDone_calls hd hcalls

/-! ### Along a step -/

theorem State.sendWord_readout_nil {s : State} (w : Word) (h : s.readout = []) :
    (s.sendWord w).readout = [] := by
  have hend : ∀ u : State, u.readout = [] → u.endFrame.readout = [] := fun u hu => by
    rw [State.endFrame_readout, hu]
  unfold State.sendWord
  split
  · exact h
  · exact hend _ h
  · unfold State.sendResponseWord
    split
    · exact hend _ h
    · split
      · exact h
      · exact hend _ h
  · unfold State.sendFragmentWord
    rw [h]
    exact hend _ h

/-- A SET leaves every discriminator (R169). -/
theorem State.setItem_disc (s : State) (field : BitVec 4) (i : Item) (value : BitVec 18) (d : Fin 8) :
    (s.setItem field i value).channels[d].disc = s.channels[d].disc := by
  cases i with
  | station j => rfl
  | channel j =>
    show (s.writeChannelItem field j _).channels[d].disc = _
    rw [State.writeChannelItem_get]
    split
    · rw [Channel.writeItem_frame]
    · rfl

/-- In SETUP no command but START sets anything going: the store, the calls, the seeds and the fragments stay
empty, and so does the mark. -/
theorem exec_setup_empty {c : Instr} {s t : State} (hc : resets c = false) (hpair : isCodePair c = false)
    (hm : s.mode = .setup) (hs : s.setupIdle) (h : exec c s = .next t) :
    t.hits = [] ∧ t.calls = [] ∧ t.seeds = [] := by
  obtain ⟨-, hhits, -, hcalls, hseeds, -⟩ := hs hm
  refine ⟨?_, ?_, ?_⟩
  · rcases exec_hits hc hpair h with hsuf | ⟨d, e⟩
    · rw [hhits] at hsuf; exact List.suffix_nil.mp hsuf
    · rw [e, State.markSelected, hhits, List.map_nil]
  · have := exec_callTimes hc hpair h
    rw [State.callTimes, State.callTimes, hcalls] at this
    exact List.map_eq_nil_iff.mp (List.sublist_nil.mp this)
  · rcases exec_seeds hc h with e | ⟨m, -, e⟩ | ⟨-, d, e⟩ | ⟨-, e⟩ | ⟨-, hrun, -⟩
    · rw [e, hseeds]
    · rw [e, hseeds, List.map_nil]
    · rw [hseeds] at e; cases e
    · exact e
    · exact absurd hm hrun

theorem exec_setupIdle {c : Instr} {s t : State} (hc : resets c = false) (hcalls : s.callsLawful)
    (hs : s.setupIdle) (h : exec c s = .next t) : t.setupIdle := by
  cases hpair : isCodePair c with
  | true =>
    rcases exec_isCodePair hpair h with rfl | ⟨k, hi, lo, rfl⟩
    · exact hs
    · by_cases hm : s.mode = .setup
      · exact State.setupIdle_handlePair k hi lo hm hs
      · refine State.setupIdle_of_ne_setup ?_
        rw [congrArg (·.mode) (s.handlePair_frame k hi lo)]; exact hm
  | false =>
    have hctx := exec_ctx hc hpair h
    have hkept : t.mode = s.mode → (s.mode = .setup → (∀ d : Fin 8, t.channels[d].disc = s.channels[d].disc) ∧
        (t.evictMark = s.evictMark ∨ t.evictMark = none) ∧ (s.readout = [] → t.readout = [])) →
        t.setupIdle := by
      intro hmode hrest hm
      rw [hmode] at hm
      obtain ⟨hidle, -, hmark, -, -, hreadout⟩ := hs hm
      obtain ⟨hdisc, hmark', hreadout'⟩ := hrest hm
      obtain ⟨e1, e2, e3⟩ := exec_setup_empty hc hpair hm hs h
      refine ⟨fun d => ⟨(hdisc d).trans (hidle d).1, ?_, ?_⟩, e1, ?_, e2, e3, hreadout' hreadout⟩
      · exact (hctx d .a).trans (hidle d).2.1
      · exact (hctx d .b).trans (hidle d).2.2
      · rcases hmark' with e | e
        · rw [e, hmark]
        · exact e
    cases c with
    | resetStation | rstnAssert | resetRelease => cases hc
    | codePairArrival => cases hpair
    | drainReturn => cases h; exact State.setupIdle_testDrain hcalls hs
    | evictMarkWithdrawal =>
      refine hkept (congrArg (·.mode) (exec_frame h)) fun _ => ⟨fun d => ?_, ?_, fun e => ?_⟩
      · rw [congrArg (·.channels) (exec_frame h)]
      · cases h
        split
        · exact Or.inr rfl
        · exact Or.inl rfl
      · rw [congrArg (·.readout) (exec_frame h)]; exact e
    | fragmentBuild =>
      rcases execFragmentBuild_cases h with rfl | ⟨d, rest, -, hb, rfl⟩
      · exact hs
      · simp only [State.headBuildable, Bool.and_eq_true] at hb
        refine State.setupIdle_of_ne_setup ?_
        rw [congrArg (·.mode) (execFragmentBuild_frame h)]
        exact s.active_iff.mp hb.1.1
    | linkWordSent =>
      rcases execLinkWordSent_cases h with rfl | ⟨-, rfl⟩
      · exact hs
      · have hframe := execLinkWordSent_frame h
        refine hkept (congrArg (·.mode) hframe) fun _ => ⟨fun d => ?_, ?_, fun e => ?_⟩
        · rw [congrArg (·.channels) hframe]
        · exact Or.inl (congrArg (·.evictMark) hframe)
        · exact State.sendWord_readout_nil _ (by rw [State.chooseFrame_readout, e])
    | set =>
      rcases execSet_cases h with rfl | ⟨w, code, rfl⟩ | ⟨-, field, i, value, rfl⟩
      · exact hs
      · rw [State.refuseHead_frame]; exact hs
      · have hframe := execSet_frame h
        exact hkept (congrArg (·.mode) hframe) fun _ =>
          ⟨fun d => State.setItem_disc _ _ _ _ d, Or.inl (congrArg (·.evictMark) hframe),
            fun e => (congrArg (·.readout) hframe).trans e⟩
    | start =>
      rcases execStart_cases h with rfl | ⟨w, code, rfl⟩ | ⟨-, rfl⟩
      · exact hs
      · rw [State.refuseHead_frame]; exact hs
      · exact State.setupIdle_of_ne_setup (by decide : StationState.run ≠ .setup)
    | stop =>
      rcases execStop_cases h with rfl | ⟨w, code, rfl⟩ | ⟨-, rfl⟩
      · exact hs
      · rw [State.refuseHead_frame]; exact hs
      · exact State.setupIdle_testDrain (State.callsLawful_withdrawn (s := s.popCommand) hcalls)
          (State.setupIdle_of_ne_setup (by decide : StationState.drain ≠ .setup))
    | _ =>
      exact hkept (congrArg (·.mode) (exec_frame h)) fun _ =>
        ⟨fun d => (congrArg (fun u : State => u.channels[d].disc) (exec_frame h) :),
          Or.inl (congrArg (·.evictMark) (exec_frame h)),
          fun e => (congrArg (·.readout) (exec_frame h)).trans e⟩

theorem State.setupIdle_of_reset {s : State} (hch : s.channels = State.reset.channels)
    (hrest : s.hits = [] ∧ s.evictMark = none ∧ s.calls = [] ∧ s.seeds = [] ∧ s.readout = []) :
    s.setupIdle := by
  refine fun _ => ⟨fun d => ?_, hrest⟩
  have hd : s.channels[d] = Channel.reset := by rw [hch]; simp [State.reset]
  rw [hd]
  exact ⟨rfl, rfl, rfl⟩

/-- Settles O21: in SETUP nothing is set going, and the return from DRAIN finds nothing under way. -/
theorem setupStaysIdle : Obligations.SetupStaysIdle :=
  fun _ _ hcalls hs h => step_leads (Q := fun u => u.callsLawful ∧ u.setupIdle) (fun _ h => h.2)
    (fun _ _ h => h) (fun _ _ h => h)
    (fun _ _ _ => State.setupIdle_of_reset rfl ⟨rfl, rfl, rfl, rfl, rfl⟩)
    (fun _ _ => State.setupIdle_of_reset rfl ⟨rfl, rfl, rfl, rfl, rfl⟩)
    (fun _ _ _ hc hq => exec_setupIdle hc hq.1 hq.2) ⟨hcalls, hs⟩ h

end Sys2Proof.Machine

/-! PROOFS. The balances of calls and of seeds along a step, while no counter has saturated (R88, R123, R173). -/

namespace Sys2Proof.Machine

/-! ### Exact counting -/

/-- Between `s` and `t` every counter that has not saturated has counted exactly the events of `δ`. -/
def State.countsExactly (s t : State) (δ : Counter → Nat) : Prop :=
  ∀ k, t.counter k < Config.counterMax → t.counter k = s.counter k + δ k

/-- The events of one counter. -/
def events (k : Counter) (n : Nat) : Counter → Nat := fun j => if j = k then n else 0

theorem State.countsExactly_refl {s t : State} (h : t.counters = s.counters) :
    s.countsExactly t fun _ => 0 := fun k _ => State.counter_congr h k

theorem State.countsExactly_count {s t : State} {δ : Counter → Nat} (h : s.countsExactly t δ) (k : Counter)
    (n : Nat) : s.countsExactly (t.count k n) fun j => δ j + events k n j := by
  intro j hj
  rw [State.count_counter] at hj ⊢
  unfold events
  split at hj
  · rename_i e
    subst e
    have hlt : t.counter j + n < Config.counterMax := by unfold satAdd at hj; omega
    have := h j (by omega)
    rw [satAdd, min_eq_left (by omega)]
    simp only [if_true]
    omega
  · rename_i e
    simp only [e, if_false]
    exact h j hj

/-! ### The balances -/

/-- Both balances hold, unless a counter has saturated (R88, R123). -/
def State.balanced (s : State) : Prop := s.balancesUnsaturated → s.callsBalance ∧ s.seedsBalance

/-- Calls and seeds that come and go with their events keep the balances. -/
theorem State.balanced_of_events {s t : State} {δ : Counter → Nat} (hs : s.balanced)
    (hδ : s.countsExactly t δ)
    (hcalls : δ .callsMade + s.calls.length =
      δ .callsWon + δ .callsMerged + δ .callsLapsed + δ .callsAbandoned + δ .callsDisplaced + t.calls.length)
    (hseeds : δ .seedsHeard + s.seeds.length = δ .fragmentsBuilt + δ .seedsLost + t.seeds.length) :
    t.balanced := by
  intro hunsat
  have hexact : ∀ k, t.counter k = s.counter k + δ k := fun k => hδ k (hunsat k)
  obtain ⟨hc, hd⟩ := hs fun k => by have := hunsat k; have := hexact k; omega
  unfold State.callsBalance State.seedsBalance at *
  simp only [hexact]
  constructor <;> omega

theorem State.balanced_congr {s t : State} (hs : s.balanced) (h1 : t.counters = s.counters)
    (h2 : t.calls.length = s.calls.length) (h3 : t.seeds.length = s.seeds.length) : t.balanced :=
  State.balanced_of_events hs (State.countsExactly_refl h1) (by omega) (by omega)

/-- The counters that enter neither balance. -/
def asideCounter : Counter → Bool
  | .callsDropped | .objectionsRaised | .framesDiscarded | .hitsEvicted | .hitsExpiredUnselected => true
  | .holdSamples | .cmdOverruns | .tzIgnored | .lineStuckEvents => true
  | _ => false

theorem events_aside {k j : Counter} (hk : asideCounter k = true) (hj : asideCounter j = false) (n : Nat) :
    events k n j = 0 := if_neg fun e => by rw [e, hk] at hj; cases hj

theorem State.balanced_count_aside {s : State} {k : Counter} (hk : asideCounter k = true) (n : Nat)
    (hs : s.balanced) : (s.count k n).balanced := by
  refine State.balanced_of_events hs (State.countsExactly_count (State.countsExactly_refl rfl) k n) ?_ ?_
  · simp only [events_aside hk (show asideCounter .callsMade = false from rfl),
      events_aside hk (show asideCounter .callsWon = false from rfl),
      events_aside hk (show asideCounter .callsMerged = false from rfl),
      events_aside hk (show asideCounter .callsLapsed = false from rfl),
      events_aside hk (show asideCounter .callsAbandoned = false from rfl),
      events_aside hk (show asideCounter .callsDisplaced = false from rfl), State.count_calls, Nat.zero_add]
  · simp only [events_aside hk (show asideCounter .seedsHeard = false from rfl),
      events_aside hk (show asideCounter .fragmentsBuilt = false from rfl),
      events_aside hk (show asideCounter .seedsLost = false from rfl), State.count_seeds, Nat.zero_add]

/-- Calls that leave, each with an event of `k`, which is one of the five ways to leave (R88). -/
theorem State.balanced_leave {s : State} {k : Counter} {calls : List Call} {n : Nat}
    (hk : k = .callsWon ∨ k = .callsMerged ∨ k = .callsLapsed ∨ k = .callsAbandoned ∨ k = .callsDisplaced)
    (hn : calls.length + n = s.calls.length) (hs : s.balanced) :
    (State.count { s with calls := calls } k n).balanced := by
  refine State.balanced_of_events hs
    (State.countsExactly_count (State.countsExactly_refl (t := { s with calls := calls }) rfl) k n) ?_ ?_
  · rcases hk with rfl | rfl | rfl | rfl | rfl <;>
      simp [events, State.count_calls, ← hn] <;> omega
  · rcases hk with rfl | rfl | rfl | rfl | rfl <;> simp [events]

theorem length_filter_add_countP (p : Call → Bool) (calls : List Call) :
    (calls.filter fun c => !p c).length + calls.countP p = calls.length := by
  rw [← List.countP_eq_length_filter, Nat.add_comm]
  have := List.length_eq_countP_add_countP p (l := calls)
  simpa using this.symm

/-! ### The ways of a call -/

theorem State.balanced_lapseOnLine {s : State} (hs : s.balanced) : s.lapseOnLine.balanced :=
  State.balanced_leave (Or.inr (Or.inr (Or.inl rfl))) (length_filter_add_countP _ _) hs

theorem State.balanced_returnCall {s : State} (hs : s.balanced) : s.returnCall.balanced := by
  unfold State.returnCall
  split
  · exact State.balanced_lapseOnLine hs
  · exact State.balanced_congr hs rfl (List.length_map ..) rfl

/-- Every discard by objection gives the call back or counts it abandoned (R80). -/
theorem length_filterMap_afterDiscard (calls : List Call) :
    (calls.filterMap Call.afterDiscard).length +
      calls.countP (fun c => c.isOnLine && !decide (c.retry < 3)) = calls.length := by
  induction calls with
  | nil => rfl
  | cons c cs ih =>
    rw [List.filterMap_cons, List.countP_cons, List.length_cons]
    by_cases hon : c.isOnLine = true
    · by_cases hr : c.retry < 3
      · have e : c.afterDiscard = some { c.returned with retry := c.retry + 1 } := by
          rw [Call.afterDiscard, if_pos hon, if_pos hr]
        simp only [e, hr, decide_true, Bool.not_true, Bool.and_false, List.length_cons, Bool.false_eq_true,
          if_false]
        omega
      · have e : c.afterDiscard = none := by rw [Call.afterDiscard, if_pos hon, if_neg hr]
        simp only [e, hon, hr, decide_false, Bool.not_false, Bool.and_true, if_true]
        omega
    · have e : c.afterDiscard = some c := by rw [Call.afterDiscard, if_neg hon]
      simp only [e, hon, Bool.false_and, Bool.false_eq_true, if_false, List.length_cons]
      omega

theorem State.balanced_discardCall {s : State} (hs : s.balanced) : s.discardCall.balanced := by
  unfold State.discardCall
  split
  · exact State.balanced_lapseOnLine hs
  · exact State.balanced_leave (Or.inr (Or.inr (Or.inr (Or.inl rfl)))) (length_filterMap_afterDiscard _) hs

/-- A call made is a call more in the queue (R76). -/
theorem State.balanced_createCall {s : State} (n : SampleTime) (e : Nat) (hs : s.balanced) :
    (s.createCall n e).balanced := by
  refine State.balanced_of_events hs (State.countsExactly_count
    (State.countsExactly_refl (t := { s with calls := s.calls ++ [newCall n e] }) rfl) .callsMade 1) ?_ ?_
  · simp [events, State.createCall]; omega
  · simp [events, State.createCall]

theorem State.balanced_placeCandidate {s : State} (n : SampleTime) (e : Nat) (hs : s.balanced) :
    (s.placeCandidate n e).balanced := by
  rcases s.placeCandidate_cases n e with ⟨-, p⟩ | ⟨-, ⟨k, -, p⟩ | ⟨-, ⟨-, p⟩ | ⟨-, ⟨-, p⟩ |
    ⟨w, hw, ⟨-, p⟩ | ⟨-, p⟩⟩⟩⟩⟩ <;> rw [p]
  · exact hs
  · exact State.balanced_congr hs rfl (List.length_map ..) rfl
  · exact State.balanced_createCall n e hs
  · exact State.balanced_count_aside rfl 1 hs
  · have hmem := List.mem_of_mem_filter (best_mem hw)
    have hpos := List.length_pos_of_mem hmem
    refine State.balanced_createCall n e (State.balanced_leave (by simp) ?_ hs)
    rw [List.length_erase_of_mem hmem]
    omega
  · exact State.balanced_count_aside rfl 1 hs

theorem State.balanced_insertHit {s : State} (h : Hit) (hs : s.balanced) : (s.insertHit h).balanced :=
  State.insertHit_keeps (P := State.balanced) (fun _ n e _ hs => State.balanced_placeCandidate n e hs)
    (fun _ _ _ hs => State.balanced_congr hs rfl rfl rfl)
    (fun _ _ _ _ _ _ hs => State.balanced_count_aside rfl 1 (State.balanced_congr hs rfl rfl rfl)) s h hs

/-- A delivery: the ON_LINE call won, covered calls merged, the seed listed or lost (R81, R119, R120). -/
theorem State.balanced_deliver {s : State} (bits : BitVec 36) (hs : s.balanced) :
    (s.deliver bits).balanced := by
  cases ha : s.active with
  | false => rw [State.deliver_setup s bits ha]; exact hs
  | true =>
    rw [State.deliver_active s bits ha]
    generalize rebuildTime s.now (frameTime bits) = τ
    generalize s.seedEntry bits s.callOnLine = d
    have hcount : (s.calls.filter fun c => !c.isOnLine && !within s.station.window c.time τ).length +
        (s.calls.countP Call.isOnLine +
          s.calls.countP fun c => !c.isOnLine && within s.station.window c.time τ) = s.calls.length := by
      induction s.calls with
      | nil => rfl
      | cons c cs ih =>
        simp only [List.filter_cons, List.countP_cons, List.length_cons]
        cases c.isOnLine <;> cases within s.station.window c.time τ <;>
          simp only [Bool.not_true, Bool.not_false, Bool.and_true, Bool.and_false,
            Bool.false_eq_true, if_true, if_false, List.length_cons] <;> omega
    have hdelta := State.countsExactly_count (State.countsExactly_count (State.countsExactly_count
      (State.countsExactly_refl (s := s) (t := { s with
        calls := s.calls.filter fun c => !c.isOnLine && !within s.station.window c.time τ }) rfl)
      .callsWon (s.calls.countP Call.isOnLine)) .callsMerged
      (s.calls.countP fun c => !c.isOnLine && within s.station.window c.time τ)) .seedsHeard 1
    rcases State.deliverToList_spec (s.deliverToCalls τ) d with ⟨-, e⟩ | ⟨-, e⟩
    · rw [e]
      refine State.balanced_of_events hs hdelta ?_ ?_
      · simp [events, State.deliverToCalls]; omega
      · simp [events, State.deliverToCalls]; omega
    · rw [e]
      refine State.balanced_of_events hs (State.countsExactly_count hdelta .seedsLost 1) ?_ ?_
      · simp [events, State.deliverToCalls]; omega
      · simp [events, State.deliverToCalls]

/-- A build takes the head's seed to the fragments (R123, R134). -/
theorem State.balanced_build {s : State} {d : Seed} {rest : List Seed} (hd : s.seeds = d :: rest)
    (hs : s.balanced) : (s.build d rest).balanced := by
  have hcounters : (s.build d rest).counters = (s.count .fragmentsBuilt 1).counters :=
    State.chooseFrame_counters _
  have hcalls : (s.build d rest).calls = s.calls := State.chooseFrame_calls _
  have hseeds : (s.build d rest).seeds = rest := State.chooseFrame_seeds _
  refine State.balanced_of_events (δ := fun j => 0 + events .fragmentsBuilt 1 j) hs (fun k hk => ?_) ?_ ?_
  · have := State.countsExactly_count (State.countsExactly_refl (s := s) rfl) .fragmentsBuilt 1 k
    rw [State.counter_congr hcounters] at hk ⊢
    exact this hk
  · simp [events, hcalls]
  · simp [events, hseeds, hd]; omega

theorem State.balanced_testDrain {s : State} (hs : s.balanced) : s.testDrain.balanced := by
  rcases s.testDrain_cases with e | ⟨-, e⟩ <;> rw [e]
  · exact hs
  · exact State.balanced_count_aside rfl _ (State.balanced_congr hs rfl rfl rfl)

/-! ### Along a step -/

theorem exec_balanced {c : Instr} {s t : State} (hc : resets c = false) (hclear : c ≠ .clearCounters)
    (hcalls : s.callsLawful) (hs : s.balanced) (h : exec c s = .next t) : t.balanced := by
  cases c with
  | resetStation | rstnAssert | resetRelease => cases hc
  | clearCounters => exact absurd rfl hclear
  | codePairArrival =>
    rcases exec_isCodePair rfl h with rfl | ⟨k, hi, lo, rfl⟩
    · exact hs
    · exact State.handlePair_keeps (P := State.balanced) (fun _ _ _ _ _ _ h => h)
        (fun _ h => State.balanced_insertHit h) _ _ _ _ hs
  | timebaseAdvance =>
    cases h
    split
    · exact hs
    · exact State.balanced_count_aside rfl _ (State.balanced_congr hs rfl rfl rfl)
  | tzSample tz =>
    cases h
    split
    · exact hs
    · split
      · exact State.balanced_count_aside rfl _ (State.balanced_congr hs rfl rfl rfl)
      · unfold State.honourTz
        split <;> exact hs
  | hitExpiry =>
    cases h
    split
    · exact State.balanced_count_aside rfl _ (State.balanced_congr hs rfl rfl rfl)
    · exact hs
  | callLapse =>
    cases h
    split
    · exact State.balanced_leave (by simp) (length_filter_add_countP _ _) hs
    · exact hs
  | seedClosed | seedLateMark | seedStaleMark =>
    cases h
    exact State.balanced_congr hs rfl rfl (List.length_map ..)
  | fragmentBuild =>
    rcases execFragmentBuild_cases h with rfl | ⟨d, rest, hd, -, rfl⟩
    · exact hs
    · exact State.balanced_build hd hs
  | frameStart level =>
    refine State.balanced_congr hs (congrArg (·.counters) (exec_frame h)) ?_
      (congrArg (·.seeds.length) (exec_frame h))
    cases h
    split
    · split
      · rfl
      · exact List.length_map ..
    · rfl
  | startBitRecessive =>
    cases h
    split
    · exact State.balanced_returnCall hs
    · exact hs
  | arbitrationLost =>
    cases h
    split
    · split
      · exact State.balanced_returnCall hs
      · exact hs
    · exact hs
  | lineStuck =>
    cases h
    split
    · exact State.balanced_count_aside rfl _ (State.balanced_returnCall hs)
    · exact hs
  | objectionRaised =>
    cases h
    split
    · split
      · exact State.balanced_count_aside rfl _ (State.balanced_congr hs rfl rfl rfl)
      · exact hs
    · exact hs
  | framesDiscarded =>
    cases h
    split
    · rename_i f _
      split
      · refine State.balanced_count_aside rfl _ ?_
        split
        · exact State.balanced_discardCall (s := s.markSettled f) hs
        · exact hs
      · exact hs
    · exact hs
  | seedAccepted =>
    rcases execSeedAccepted_cases h with rfl | ⟨f, -, rfl⟩
    · exact hs
    · exact State.balanced_deliver (s := s.markSettled f) _ hs
  | drainReturn => cases h; exact State.balanced_testDrain hs
  | commandWordArrival w =>
    cases h
    split
    · exact hs
    · split
      · exact hs
      · exact State.balanced_count_aside rfl _ hs
  | start =>
    rcases execStart_cases h with rfl | ⟨w, code, rfl⟩ | ⟨hm, rfl⟩
    · exact hs
    · rw [State.refuseHead_frame]; exact hs
    · obtain ⟨e1, e2⟩ := hcalls.setup hm
      exact State.balanced_congr hs rfl (by rw [e1]; rfl) (by rw [e2]; rfl)
  | stop =>
    rcases execStop_cases h with rfl | ⟨w, code, rfl⟩ | ⟨-, rfl⟩
    · exact hs
    · rw [State.refuseHead_frame]; exact hs
    · refine State.balanced_testDrain (State.balanced_leave (s := s.popCommand.enterMode .drain) (by simp) ?_ hs)
      have := length_filter_add_countP (fun c => !c.isOnLine) s.calls
      simpa using this
  | _ =>
    exact State.balanced_congr hs (congrArg (·.counters) (exec_frame h))
      (congrArg (·.calls.length) (exec_frame h)) (congrArg (·.seeds.length) (exec_frame h))

/-- Reset, entered or left, has no call, no seed and every counter at 0. -/
theorem State.balanced_of_reset {s : State} (h1 : s.counters = State.reset.counters) (h2 : s.calls = [])
    (h3 : s.seeds = []) : s.balanced := by
  have hzero : ∀ k, s.counter k = 0 := fun k => by
    rw [State.counter_congr h1]; simp [State.counter, State.reset]
  intro _
  unfold State.callsBalance State.seedsBalance
  simp [hzero, h2, h3]

/-- The balances along a command taken from the queue. -/
theorem exec_balanced_or_resets {c : Instr} {s t : State} (hclear : c ≠ .clearCounters)
    (hcalls : s.callsLawful) (hs : s.balanced) (h : exec c s = .next t) : t.balanced := by
  cases hr : resets c with
  | false => exact exec_balanced hr hclear hcalls hs h
  | true =>
    rcases exec_resets hr h with rfl | ⟨b, n, rfl⟩ | ⟨straps, rfl⟩ | rfl
    · exact hs
    · exact State.balanced_of_reset rfl rfl rfl
    · exact State.balanced_of_reset rfl rfl rfl
    · exact State.balanced_congr hs rfl rfl rfl

/-- Settles O26: each event of a balance comes with its call or its seed. -/
theorem countersBalance : Obligations.CountersBalance := by
  intro s t hcalls hcb hsb hclear h hunsat
  have hs : s.balanced := fun _ => ⟨hcb, hsb⟩
  suffices ht : t.balanced from ht hunsat
  rcases step_cases h with rfl | ⟨c, rest, hp, hc⟩
  · exact hs
  · exact exec_balanced_or_resets (s := { s with pending := rest }) (fun e => hclear (by rw [hp, e]; rfl))
      (State.callsLawful_congr hcalls rfl rfl rfl rfl) (State.balanced_congr hs rfl rfl rfl) hc

end Sys2Proof.Machine

/-! PROOFS. Counters, configuration items and pedestal trackers stay in their ranges along a step (R12, R168,
R173). -/

namespace Sys2Proof.Machine

/-! ### Counters -/

theorem State.countersInRange_congr {s t : State} (hs : s.countersInRange) (h1 : t.counters = s.counters)
    (h2 : t.hitCounts = s.hitCounts) : t.countersInRange := by
  unfold State.countersInRange at *
  simp only [State.counter_congr h1, h2]
  exact hs

theorem State.countersInRange_count {s : State} (k : Counter) (n : Nat) (hs : s.countersInRange) :
    (s.count k n).countersInRange := by
  refine ⟨fun j => ?_, hs.2⟩
  rw [State.count_counter]
  split
  · exact satAdd_le _ _
  · exact hs.1 j

theorem State.countersInRange_countHit {s : State} (c : Fin 8) (hs : s.countersInRange) :
    (s.countHit c).countersInRange := by
  refine ⟨hs.1, fun d => ?_⟩
  show (s.hitCounts.set c (satAdd s.hitCounts[c] 1))[(d : Nat)] ≤ _
  rw [Vector.getElem_set]
  split
  · exact satAdd_le _ _
  · exact hs.2 d

theorem State.countersInRange_zero {s : State} (h1 : s.counters = State.reset.counters)
    (h2 : s.hitCounts = State.reset.hitCounts) : s.countersInRange := by
  constructor
  · intro k; rw [State.counter_congr h1]; simp [State.counter, State.reset]
  · intro c; rw [h2]; simp [State.reset]

theorem State.countersInRange_returnCall {s : State} (hs : s.countersInRange) :
    s.returnCall.countersInRange := by
  unfold State.returnCall
  split
  · exact State.countersInRange_count _ _ hs
  · exact hs

theorem State.countersInRange_discardCall {s : State} (hs : s.countersInRange) :
    s.discardCall.countersInRange := by
  unfold State.discardCall
  split <;> exact State.countersInRange_count _ _ hs

theorem State.countersInRange_placeCandidate {s : State} (n : SampleTime) (e : Nat)
    (hs : s.countersInRange) : (s.placeCandidate n e).countersInRange := by
  rcases s.placeCandidate_cases n e with ⟨-, p⟩ | ⟨-, ⟨k, -, p⟩ | ⟨-, ⟨-, p⟩ | ⟨-, ⟨-, p⟩ |
    ⟨w, -, ⟨-, p⟩ | ⟨-, p⟩⟩⟩⟩⟩ <;> rw [p]
  · exact hs
  · exact hs
  · exact State.countersInRange_count _ _ hs
  · exact State.countersInRange_count _ _ hs
  · exact State.countersInRange_count _ _ (State.countersInRange_count _ _ hs)
  · exact State.countersInRange_count _ _ hs

theorem State.countersInRange_insertHit {s : State} (h : Hit) (hs : s.countersInRange) :
    (s.insertHit h).countersInRange :=
  State.insertHit_keeps (P := State.countersInRange)
    (fun _ n e _ hs => State.countersInRange_placeCandidate n e hs) (fun _ _ _ hs => hs)
    (fun _ _ _ _ _ _ hs => State.countersInRange_count _ _ hs) s h hs

theorem State.countersInRange_handlePair {s : State} (c : Fin 8) (hi lo : BitVec 12)
    (hs : s.countersInRange) : (s.handlePair c hi lo).countersInRange := by
  refine State.handlePair_stages c (fun _ _ _ h => h) (fun s x h => ?_) (fun s n t y h => ?_)
    (fun s n h => ?_) hi lo hs
  · rw [(State.actOnCrossing_frame s c x).1]; exact h
  · rw [State.takeSample_frame]; exact h
  · rcases State.completeContext_cases s c n with ⟨x, hx, hg⟩ | ⟨-, e⟩
    · rw [State.completeContext_done s c n x hx hg]
      exact State.countersInRange_insertHit _ (State.countersInRange_countHit c h)
    · rw [e]; exact h

theorem State.countersInRange_deliver {s : State} (bits : BitVec 36) (hs : s.countersInRange) :
    (s.deliver bits).countersInRange := by
  cases ha : s.active with
  | false => rw [State.deliver_setup s bits ha]; exact hs
  | true =>
    rw [State.deliver_active s bits ha]
    have hcalls : (s.deliverToCalls (rebuildTime s.now (frameTime bits))).countersInRange :=
      State.countersInRange_count _ _ (State.countersInRange_count _ _ hs)
    rcases State.deliverToList_spec (s.deliverToCalls (rebuildTime s.now (frameTime bits)))
      (s.seedEntry bits s.callOnLine) with ⟨-, e⟩ | ⟨-, e⟩ <;> rw [e]
    · exact State.countersInRange_count .seedsHeard 1 hcalls
    · exact State.countersInRange_count .seedsLost 1 (State.countersInRange_count .seedsHeard 1 hcalls)

theorem State.countersInRange_testDrain {s : State} (hs : s.countersInRange) :
    s.testDrain.countersInRange := by
  rcases s.testDrain_cases with e | ⟨-, e⟩ <;> rw [e]
  · exact hs
  · exact State.countersInRange_count _ _ hs

theorem exec_countersInRange {c : Instr} {s t : State} (hc : resets c = false) (hs : s.countersInRange)
    (h : exec c s = .next t) : t.countersInRange := by
  cases c with
  | resetStation | rstnAssert | resetRelease => cases hc
  | codePairArrival =>
    rcases exec_isCodePair rfl h with rfl | ⟨k, hi, lo, rfl⟩
    · exact hs
    · exact State.countersInRange_handlePair k hi lo hs
  | timebaseAdvance =>
    cases h
    split
    · exact hs
    · exact State.countersInRange_count _ _ hs
  | tzSample tz =>
    cases h
    split
    · exact hs
    · split
      · exact State.countersInRange_count _ _ hs
      · unfold State.honourTz
        split <;> exact hs
  | hitExpiry | callLapse =>
    cases h
    split
    · exact State.countersInRange_count _ _ hs
    · exact hs
  | fragmentBuild =>
    rcases execFragmentBuild_cases h with rfl | ⟨d, rest, -, -, rfl⟩
    · exact hs
    · exact State.countersInRange_congr (State.countersInRange_count .fragmentsBuilt 1 hs)
        (State.chooseFrame_counters _) (congrArg (·.hitCounts) (exec_frame h))
  | startBitRecessive =>
    cases h
    split
    · exact State.countersInRange_returnCall hs
    · exact hs
  | arbitrationLost =>
    cases h
    split
    · split
      · exact State.countersInRange_returnCall hs
      · exact hs
    · exact hs
  | lineStuck =>
    cases h
    split
    · exact State.countersInRange_count _ _ (State.countersInRange_returnCall hs)
    · exact hs
  | objectionRaised =>
    cases h
    split
    · split
      · exact State.countersInRange_count _ _ hs
      · exact hs
    · exact hs
  | framesDiscarded =>
    cases h
    split
    · rename_i f _
      split
      · refine State.countersInRange_count _ _ ?_
        split
        · exact State.countersInRange_discardCall (s := s.markSettled f) hs
        · exact hs
      · exact hs
    · exact hs
  | seedAccepted =>
    rcases execSeedAccepted_cases h with rfl | ⟨f, -, rfl⟩
    · exact hs
    · exact State.countersInRange_deliver (s := s.markSettled f) _ hs
  | drainReturn => cases h; exact State.countersInRange_testDrain hs
  | commandWordArrival w =>
    cases h
    split
    · exact hs
    · split
      · exact hs
      · exact State.countersInRange_count _ _ hs
  | stop =>
    rcases execStop_cases h with rfl | ⟨w, code, rfl⟩ | ⟨-, rfl⟩
    · exact hs
    · rw [State.refuseHead_frame]; exact hs
    · exact State.countersInRange_testDrain
        (State.countersInRange_count (s := { s.popCommand.enterMode .drain with
          calls := s.calls.filter Call.isOnLine }) _ _ hs)
  | clearCounters =>
    cases h
    split
    · exact hs
    · exact State.countersInRange_zero rfl rfl
  | _ =>
    exact State.countersInRange_congr hs (congrArg (·.counters) (exec_frame h))
      (congrArg (·.hitCounts) (exec_frame h))

/-! ### Items -/

theorem ChannelItems.inRange_write {x : ChannelItems} (hx : x.inRange) (i : ChannelItem) (v : Nat) :
    (x.write i (clampItem (.channel i) v)).inRange := by
  unfold ChannelItems.inRange at *
  cases i <;>
    simp only [ChannelItems.write, clampItem, itemLeast, itemGreatest, channelItemLeast,
      channelItemGreatest] <;> omega

theorem StationItems.inRange_write {x : StationItems} (hx : x.inRange) (i : StationItem) (v : Nat) :
    (x.write i (clampItem (.station i) v)).inRange := by
  unfold StationItems.inRange at *
  cases i <;>
    simp only [StationItems.write, clampItem, itemLeast, itemGreatest, stationItemLeast,
      stationItemGreatest] <;> omega

theorem StationItems.inRange_start {x : StationItems} (hx : x.inRange) :
    StationItems.inRange { x with horizon := startHorizon x, lowMark := startLowMark x } := by
  unfold StationItems.inRange startHorizon startLowMark at *
  simp only
  omega

theorem Channel.writeItem_items (k : Channel) (i : ChannelItem) (v : Nat) :
    (k.writeItem i v).items = k.items.write i v := by rw [Channel.writeItem_frame]

theorem State.itemsInRange_congr {s t : State} (hs : s.itemsInRange)
    (h1 : ∀ c : Fin 8, t.channels[c].items = s.channels[c].items) (h2 : t.station = s.station) :
    t.itemsInRange := by
  unfold State.itemsInRange
  simp only [h1, h2]
  exact hs

theorem State.itemsInRange_setItem {s : State} (field : BitVec 4) (i : Item) (value : BitVec 18)
    (hs : s.itemsInRange) : (s.setItem field i value).itemsInRange := by
  cases i with
  | station j => exact ⟨hs.1, StationItems.inRange_write hs.2 j _⟩
  | channel j =>
    refine ⟨fun d => ?_, hs.2⟩
    show (s.writeChannelItem field j _).channels[d].items.inRange
    rw [State.writeChannelItem_get]
    split
    · rw [Channel.writeItem_items]
      exact ChannelItems.inRange_write (hs.1 d) j _
    · exact hs.1 d

/-- A code pair leaves every channel's items. -/
theorem State.handlePair_channels_items (s : State) (c : Fin 8) (hi lo : BitVec 12) (d : Fin 8) :
    (s.handlePair c hi lo).channels[d].items = s.channels[d].items := by
  by_cases hd : d = c
  · rw [hd, State.handlePair_items]
  · rw [(State.handlePair_channels s c hi lo).1 d hd]

/-- The return from DRAIN makes every discriminator BELOW and touches no channel further (R159). -/
theorem State.returnToSetup_channels (s : State) (d : Fin 8) :
    s.returnToSetup.channels[d] = { s.channels[d] with disc := .below } :=
  State.mapChannels_get s d fun k => { k with disc := .below }

theorem State.testDrain_channels_items (s : State) (d : Fin 8) :
    s.testDrain.channels[d].items = s.channels[d].items := by
  rcases s.testDrain_cases with e | ⟨-, e⟩ <;> rw [e]
  rw [State.returnToSetup_channels]

theorem exec_itemsInRange {c : Instr} {s t : State} (hc : resets c = false) (hs : s.itemsInRange)
    (h : exec c s = .next t) : t.itemsInRange := by
  cases c with
  | resetStation | rstnAssert | resetRelease => cases hc
  | codePairArrival =>
    rcases exec_isCodePair rfl h with rfl | ⟨k, hi, lo, rfl⟩
    · exact hs
    · exact State.itemsInRange_congr hs (State.handlePair_channels_items s k hi lo)
        (congrArg (·.station) (exec_frame h))
  | drainReturn =>
    cases h
    exact State.itemsInRange_congr hs s.testDrain_channels_items (congrArg (·.station) s.testDrain_frame)
  | stop =>
    rcases execStop_cases h with rfl | ⟨w, code, rfl⟩ | ⟨-, rfl⟩
    · exact hs
    · rw [State.refuseHead_frame]; exact hs
    · exact State.itemsInRange_congr hs (State.testDrain_channels_items _)
        (congrArg (·.station) (exec_frame h))
  | set =>
    rcases execSet_cases h with rfl | ⟨w, code, rfl⟩ | ⟨-, field, i, value, rfl⟩
    · exact hs
    · rw [State.refuseHead_frame]; exact hs
    · exact State.itemsInRange_setItem field i value hs
  | start =>
    rcases execStart_cases h with rfl | ⟨w, code, rfl⟩ | ⟨-, rfl⟩
    · exact hs
    · rw [State.refuseHead_frame]; exact hs
    · exact ⟨hs.1, StationItems.inRange_start hs.2⟩
  | _ =>
    exact State.itemsInRange_congr hs (fun d => congrArg (·.channels[d].items) (exec_frame h))
      (congrArg (·.station) (exec_frame h))

theorem ChannelItems.inRange_reset : ChannelItems.reset.inRange := by
  unfold ChannelItems.inRange
  decide

theorem State.itemsInRange_of_reset {s : State} (h1 : s.channels = State.reset.channels)
    (h2 : s.station = State.reset.station) : s.itemsInRange := by
  constructor
  · intro c
    rw [h1]
    simp only [State.reset, Fin.getElem_fin, Vector.getElem_replicate]
    exact ChannelItems.inRange_reset
  · rw [h2]
    unfold StationItems.inRange
    decide

/-! ### Trackers -/

/-- A tracker never moves past the reading (R12). -/
theorem trackToward_between {shift : Nat} (p x : Int) (hs : 1 ≤ shift) :
    min p x ≤ trackToward shift p x ∧ trackToward shift p x ≤ max p x := by
  obtain ⟨n, rfl⟩ : ∃ n, shift = n + 1 := ⟨shift - 1, by omega⟩
  have hpos : (1 : Int) ≤ 2 ^ n := one_le_pow₀ (by norm_num)
  have hdouble : (2 : Int) ^ (n + 1) = 2 * 2 ^ n := by ring
  unfold trackToward
  rw [Nat.add_sub_cancel, hdouble]
  generalize (2 : Int) ^ n = r at hpos ⊢
  rcases le_total p x with h | h
  · have hlow : 0 ≤ (x - p + r) / (2 * r) := Int.ediv_nonneg (by omega) (by omega)
    have hhigh : (x - p + r) / (2 * r) < x - p + 1 :=
      Int.ediv_lt_of_lt_mul (by omega) (by nlinarith)
    omega
  · have hlow : x - p ≤ (x - p + r) / (2 * r) := (Int.le_ediv_iff_mul_le (by omega)).mpr (by nlinarith)
    have hhigh : (x - p + r) / (2 * r) < 1 := Int.ediv_lt_of_lt_mul (by omega) (by omega)
    omega

/-- Both trackers of a channel lie in 0..16380 qc (R12). -/
def Channel.trackersInRange (k : Channel) : Prop :=
  0 ≤ k.trackHi ∧ k.trackHi ≤ 16380 ∧ 0 ≤ k.trackLo ∧ k.trackLo ≤ 16380

theorem State.trackersInRange_iff (s : State) :
    s.trackersInRange ↔ ∀ c : Fin 8, s.channels[c].trackersInRange := Iff.rfl

theorem trackToward_inRange {shift : Nat} {p : Int} (code : BitVec 12) (hs : 1 ≤ shift) (h0 : 0 ≤ p)
    (h1 : p ≤ 16380) :
    0 ≤ trackToward shift p (4 * (code.toNat : Int)) ∧ trackToward shift p (4 * (code.toNat : Int)) ≤ 16380 := by
  have hcode : code.toNat < 2 ^ 12 := code.isLt
  have := trackToward_between p (4 * (code.toNat : Int)) hs
  omega

theorem Channel.trackersInRange_settleTrackers {k : Channel} (u : Int) (hi lo : BitVec 12)
    (hi' : k.items.inRange) (hk : k.trackersInRange) : (k.settleTrackers u hi lo).trackersInRange := by
  obtain ⟨-, -, hshift, -⟩ := hi'
  obtain ⟨h1, h2, h3, h4⟩ := hk
  unfold Channel.settleTrackers
  split
  · obtain ⟨a, b⟩ := trackToward_inRange hi (by omega : 1 ≤ k.items.trackShift) h1 h2
    obtain ⟨c, d⟩ := trackToward_inRange lo (by omega : 1 ≤ k.items.trackShift) h3 h4
    exact ⟨a, b, c, d⟩
  · exact ⟨h1, h2, h3, h4⟩

/-- A written item loads a tracker with a setting in its range, or leaves it (R13, R14). -/
theorem Channel.trackersInRange_writeItem {k : Channel} (i : ChannelItem) (v : Nat)
    (hi : (k.items.write i v).inRange) (hk : k.trackersInRange) :
    (k.writeItem i v).trackersInRange := by
  obtain ⟨hhi, hlo, -⟩ := hi
  obtain ⟨h1, h2, h3, h4⟩ := hk
  unfold Channel.writeItem Channel.loadTrackers
  split
  · exact ⟨Int.natCast_nonneg _, Int.ofNat_le.mpr hhi, h3, h4⟩
  · exact ⟨h1, h2, Int.natCast_nonneg _, Int.ofNat_le.mpr hlo⟩
  · split
    · exact ⟨Int.natCast_nonneg _, Int.ofNat_le.mpr hhi, Int.natCast_nonneg _, Int.ofNat_le.mpr hlo⟩
    · exact ⟨h1, h2, h3, h4⟩
  · exact ⟨h1, h2, h3, h4⟩

theorem State.trackersInRange_handlePair {s : State} (c : Fin 8) (hi lo : BitVec 12)
    (hi' : s.itemsInRange) (hs : s.trackersInRange) : (s.handlePair c hi lo).trackersInRange := by
  obtain ⟨hne, hc⟩ := State.handlePair_channels s c hi lo
  rw [State.trackersInRange_iff] at hs ⊢
  intro d
  by_cases hd : d = c
  · subst hd
    rw [hc]
    exact Channel.trackersInRange_settleTrackers _ hi lo (hi'.1 d) (hs d)
  · rw [hne d hd]; exact hs d

theorem State.trackersInRange_setItem {s : State} (field : BitVec 4) (i : Item) (value : BitVec 18)
    (hi : s.itemsInRange) (hs : s.trackersInRange) : (s.setItem field i value).trackersInRange := by
  cases i with
  | station j => exact hs
  | channel j =>
    rw [State.trackersInRange_iff] at hs ⊢
    intro d
    show (s.writeChannelItem field j _).channels[d].trackersInRange
    rw [State.writeChannelItem_get]
    split
    · exact Channel.trackersInRange_writeItem j _ (ChannelItems.inRange_write (hi.1 d) j _) (hs d)
    · exact hs d

theorem State.trackersInRange_testDrain {s : State} (hs : s.trackersInRange) :
    s.testDrain.trackersInRange := by
  rcases s.testDrain_cases with e | ⟨-, e⟩ <;> rw [e]
  · exact hs
  · intro d
    rw [State.returnToSetup_channels]
    exact hs d

theorem exec_trackersInRange {c : Instr} {s t : State} (hc : resets c = false) (hi : s.itemsInRange)
    (hs : s.trackersInRange) (h : exec c s = .next t) : t.trackersInRange := by
  cases c with
  | resetStation | rstnAssert | resetRelease => cases hc
  | codePairArrival =>
    rcases exec_isCodePair rfl h with rfl | ⟨k, hi', lo, rfl⟩
    · exact hs
    · exact State.trackersInRange_handlePair k hi' lo hi hs
  | drainReturn => cases h; exact State.trackersInRange_testDrain hs
  | stop =>
    rcases execStop_cases h with rfl | ⟨w, code, rfl⟩ | ⟨-, rfl⟩
    · exact hs
    · rw [State.refuseHead_frame]; exact hs
    · exact State.trackersInRange_testDrain (s := (s.popCommand.enterMode .drain).withdrawCalls) hs
  | set =>
    rcases execSet_cases h with rfl | ⟨w, code, rfl⟩ | ⟨-, field, i, value, rfl⟩
    · exact hs
    · rw [State.refuseHead_frame]; exact hs
    · exact State.trackersInRange_setItem (s := s.popCommand) field i value hi hs
  | _ =>
    have hch : t.channels = s.channels := congrArg (·.channels) (exec_frame h)
    unfold State.trackersInRange
    rw [hch]
    exact hs

theorem State.trackersInRange_of_reset {s : State} (h : s.channels = State.reset.channels) :
    s.trackersInRange := by
  intro c
  rw [h]
  simp [State.reset, Channel.reset]

/-- Settles O17: counters saturate, items are clamped, and a tracker moves between itself and a reading. -/
theorem valuesStayInRange : Obligations.ValuesStayInRange := by
  intro s t h1 h2 h3 h
  refine step_leads (Q := fun s => s.countersInRange ∧ s.itemsInRange ∧ s.trackersInRange)
    (P := fun s => s.countersInRange ∧ s.itemsInRange ∧ s.trackersInRange) (fun _ h => h) (fun _ _ h => h)
    (fun _ _ h => h) (fun _ _ _ => ?_) (fun _ _ => ?_) (fun c s t hc hs h => ?_) ⟨h1, h2, h3⟩ h
  · exact ⟨State.countersInRange_zero rfl rfl, State.itemsInRange_of_reset rfl rfl,
      State.trackersInRange_of_reset rfl⟩
  · exact ⟨State.countersInRange_zero rfl rfl, State.itemsInRange_of_reset rfl rfl,
      State.trackersInRange_of_reset rfl⟩
  · obtain ⟨h1, h2, h3⟩ := hs
    exact ⟨exec_countersInRange hc h1 h, exec_itemsInRange hc h2 h, exec_trackersInRange hc h2 h3 h⟩

end Sys2Proof.Machine

/-! PROOFS. The link's law along a step (R148 to R151). -/

namespace Sys2Proof.Machine

/-- The link's law without what it says of an idle link: what a choice needs to restore the law (R149). -/
def State.linkSound (s : State) : Prop :=
  (∀ f ∈ s.readout, f ≠ []) ∧ (s.mode = .setup → s.readout = []) ∧
    (s.link.sending ≠ .nothing → (s.link.startOwed = true ↔ s.link.sending = .startWord)) ∧
    (∀ k, s.link.sending = .response k → k < s.link.response.length) ∧
    ∀ k, s.link.sending = .fragment k → s.readout ≠ []

theorem State.linkLawful.sound {s : State} (h : s.linkLawful) : s.linkSound := by
  obtain ⟨h1, h2, h3, h4, h5, -⟩ := h
  exact ⟨h1, h2, fun _ => h3, h4, h5⟩

/-- The choice makes the law of what is sound (R149). -/
theorem State.linkLawful_chooseFrame {s : State} (h : s.linkSound) : s.chooseFrame.linkLawful := by
  obtain ⟨h1, h2, h3, h4, h5⟩ := h
  unfold State.chooseFrame
  split
  · exact ⟨h1, h2, h3 ‹_›, h4, h5, fun e => absurd e ‹_›⟩
  · split
    · exact ⟨h1, h2, by simp [*], nofun, nofun, nofun⟩
    · split
      · exact ⟨h1, h2, by simp [*], fun k e => by cases e; exact List.length_pos_iff.mpr ‹_›, nofun, nofun⟩
      · split
        · exact ⟨h1, h2, by simp [*], nofun, fun _ _ => (‹_ ∧ _› : _ ∧ _).2, nofun⟩
        · rename_i hsend hstart hresp hfrag
          simp only [ne_eq, not_not] at hsend hresp
          refine ⟨h1, h2, by simp [*], h4, h5, fun _ => ⟨hresp, ?_⟩⟩
          cases hp : s.link.paused with
          | true => exact Or.inl rfl
          | false => exact Or.inr (by_contra fun hr => hfrag ⟨hp, hr⟩)

theorem State.linkLawful_congr {s t : State} (h : s.linkLawful) (hlink : t.link = s.link)
    (hreadout : t.readout = s.readout) (hmode : t.mode = s.mode) : t.linkLawful := by
  unfold State.linkLawful at *
  rwa [hlink, hreadout, hmode]

/-- A lawful link that has nothing in transmission is idle for want of work: its choice changes nothing. -/
theorem State.chooseFrame_of_linkLawful {s : State} (h : s.linkLawful) : s.chooseFrame = s := by
  obtain ⟨-, -, h3, -, -, h6⟩ := h
  unfold State.chooseFrame
  split
  · rfl
  · rename_i hsend
    simp only [ne_eq, not_not] at hsend
    obtain ⟨hresp, hidle⟩ := h6 hsend
    rw [if_neg (by rw [h3, hsend]; exact nofun), if_neg (by simp [hresp]), if_neg]
    rintro ⟨hp, hr⟩
    rcases hidle with hp' | hr'
    · rw [hp] at hp'; cases hp'
    · exact hr hr'

/-- After a frame's end the link is lawful, whatever it has sent (R149). -/
theorem State.linkLawful_endFrame {s : State} (h1 : ∀ f ∈ s.readout, f ≠ [])
    (h2 : s.mode = .setup → s.readout = []) : s.endFrame.linkLawful :=
  State.linkLawful_chooseFrame (s := { s with link.sending := .nothing })
    ⟨h1, h2, fun e => absurd rfl e, nofun, nofun⟩

theorem State.linkLawful_respond {s : State} (frame : List Word) (hempty : s.link.response = [])
    (h : s.linkLawful) : (s.respond frame).linkLawful := by
  obtain ⟨h1, h2, h3, h4, h5⟩ := h.sound
  refine State.linkLawful_chooseFrame ⟨h1, h2, h3, fun k e => ?_, h5⟩
  have := h4 k e
  rw [hempty] at this
  exact absurd this (Nat.not_lt_zero k)

theorem State.bufferEmpty_iff (s : State) : s.bufferEmpty = true ↔ s.link.response = [] := by
  unfold State.bufferEmpty
  exact beq_iff_eq

theorem State.linkLawful_refuseHead {s : State} (w : Word) (code : RefusalCode) (h : s.linkLawful) :
    (s.refuseHead w code).linkLawful := by
  unfold State.refuseHead
  split
  · exact State.linkLawful_respond (s := s.popCommand) _ ((State.bufferEmpty_iff s).mp ‹_›) h
  · exact h

theorem State.linkLawful_sendResponseWord {s : State} (k : Nat) (hk : s.link.sending = .response k)
    (h : s.linkLawful) : (s.sendResponseWord k).linkLawful := by
  have hall := h
  obtain ⟨h1, h2, h3, h4, h5, h6⟩ := h
  unfold State.sendResponseWord
  split
  · exact State.linkLawful_endFrame h1 h2
  · split
    · refine ⟨h1, h2, ?_, fun j e => by cases e; assumption, nofun, nofun⟩
      show s.link.startOwed = true ↔ _
      rw [h3, hk]
      exact ⟨nofun, nofun⟩
    · exact State.linkLawful_endFrame h1 h2

theorem State.linkLawful_sendFragmentWord {s : State} (k : Nat) (hk : s.link.sending = .fragment k)
    (h : s.linkLawful) : (s.sendFragmentWord k).linkLawful := by
  obtain ⟨h1, h2, h3, h4, h5, h6⟩ := h
  have hactive : s.mode ≠ .setup := fun e => h5 k hk (h2 e)
  unfold State.sendFragmentWord
  split
  · exact State.linkLawful_endFrame h1 h2
  · rename_i rest hr
    exact State.linkLawful_endFrame (s := { s with readout := rest })
      (fun f hf => h1 f (by rw [hr]; exact List.mem_cons_of_mem _ hf)) fun e => absurd e hactive
  · rename_i w rest hr
    exact State.linkLawful_endFrame (s := State.judgeQueueHold { s.show w (k == 0) with readout := rest })
      (fun f hf => h1 f (by rw [hr]; exact List.mem_cons_of_mem _ hf)) fun e => absurd e hactive
  · rename_i w v ws rest hr
    refine ⟨fun f hf => ?_, fun e => absurd e hactive, ?_, nofun, fun _ _ => List.cons_ne_nil _ _, nofun⟩
    · rcases List.mem_cons.mp hf with rfl | hf
      · exact List.cons_ne_nil _ _
      · exact h1 f (by rw [hr]; exact List.mem_cons_of_mem _ hf)
    · show s.link.startOwed = true ↔ _
      rw [h3, hk]
      exact ⟨nofun, nofun⟩

theorem State.linkLawful_sendWord {s : State} (w : Word) (h : s.linkLawful) :
    (s.sendWord w).linkLawful := by
  unfold State.sendWord
  split
  · exact h
  · obtain ⟨h1, h2, -⟩ := h
    exact State.linkLawful_endFrame (s := { s.show w true with link.startOwed := false }) h1 h2
  · exact State.linkLawful_sendResponseWord _ ‹_› h
  · exact State.linkLawful_sendFragmentWord _ ‹_› h

theorem State.linkLawful_build {s : State} (d : Seed) (rest : List Seed) (hm : s.mode ≠ .setup)
    (h : s.linkLawful) : (s.build d rest).linkLawful := by
  obtain ⟨h1, -, h3, h4, -⟩ := h.sound
  refine State.linkLawful_chooseFrame ⟨fun f hf => ?_, fun e => absurd e hm, h3, h4, fun _ _ => ?_⟩
  · rcases List.mem_append.mp hf with hf | hf
    · exact h1 f hf
    · rw [List.mem_singleton.mp hf]
      exact List.cons_ne_nil _ _
  · exact List.append_ne_nil_of_right_ne_nil _ (List.cons_ne_nil _ _)

theorem State.linkLawful_testDrain {s : State} (h : s.linkLawful) : s.testDrain.linkLawful := by
  rcases s.testDrain_cases with e | ⟨hd, e⟩ <;> rw [e]
  · exact h
  · obtain ⟨-, -, -, -, hr⟩ := State.drainDone_spec hd
    obtain ⟨h1, -, h3⟩ := h
    exact ⟨h1, fun _ => hr, h3⟩

theorem State.linkLawful_startRun {s : State} (hm : s.mode = .setup) (h : s.linkLawful) :
    s.startRun.linkLawful := by
  obtain ⟨-, h2, h3, h4, h5, h6⟩ := h
  exact ⟨nofun, fun _ => rfl, h3, h4, fun k e => absurd (h2 hm) (h5 k e), fun e => ⟨(h6 e).1, Or.inr rfl⟩⟩

theorem exec_linkLawful {c : Instr} {s t : State} (hc : resets c = false) (hs : s.linkLawful)
    (h : exec c s = .next t) : t.linkLawful := by
  cases c with
  | resetStation | rstnAssert | resetRelease => cases hc
  | fragmentBuild =>
    rcases execFragmentBuild_cases h with rfl | ⟨d, rest, -, hb, rfl⟩
    · exact hs
    · simp only [State.headBuildable, Bool.and_eq_true] at hb
      exact State.linkLawful_build d rest ((State.active_iff s).mp hb.1.1) hs
  | linkWordSent =>
    rcases execLinkWordSent_cases h with rfl | ⟨-, rfl⟩
    · exact hs
    · exact State.linkLawful_sendWord _ (State.linkLawful_chooseFrame hs.sound)
  | drainReturn => cases h; exact State.linkLawful_testDrain hs
  | set =>
    rcases execSet_cases h with rfl | ⟨w, code, rfl⟩ | ⟨-, field, i, value, rfl⟩
    · exact hs
    · exact State.linkLawful_refuseHead w code hs
    · cases i <;> exact hs
  | readItem =>
    cases h
    split
    · exact hs
    · split
      · exact State.linkLawful_refuseHead _ _ hs
      · split
        · exact State.linkLawful_respond (s := s.popCommand) _ ((State.bufferEmpty_iff s).mp ‹_›) hs
        · exact hs
      · exact hs
  | readStatus level =>
    cases h
    split
    · exact hs
    · split
      · exact State.linkLawful_respond (s := s.popCommand) _ ((State.bufferEmpty_iff s).mp ‹_›) hs
      · exact hs
  | unknownCommand =>
    cases h
    split
    · exact hs
    · split
      · exact State.linkLawful_refuseHead _ _ hs
      · exact hs
  | start =>
    rcases execStart_cases h with rfl | ⟨w, code, rfl⟩ | ⟨hm, rfl⟩
    · exact hs
    · exact State.linkLawful_refuseHead w code hs
    · exact State.linkLawful_startRun (s := s.popCommand) hm hs
  | stop =>
    rcases execStop_cases h with rfl | ⟨w, code, rfl⟩ | ⟨hm, rfl⟩
    · exact hs
    · exact State.linkLawful_refuseHead w code hs
    · obtain ⟨h1, -, h3⟩ := hs
      exact State.linkLawful_testDrain (s := (s.popCommand.enterMode .drain).withdrawCalls)
        ⟨h1, nofun, h3⟩
  | linkPause =>
    cases h
    split
    · exact hs
    · obtain ⟨h1, h2, h3, h4, h5, h6⟩ := hs
      exact ⟨h1, h2, h3, h4, h5, fun e => ⟨(h6 e).1, Or.inl rfl⟩⟩
  | linkResume =>
    cases h
    split
    · exact hs
    · exact State.linkLawful_chooseFrame (s := { s.popCommand with link.paused := false }) hs.sound
  | _ =>
    exact State.linkLawful_congr hs (congrArg (·.link) (exec_frame h)) (congrArg (·.readout) (exec_frame h))
      (congrArg (·.mode) (exec_frame h))

/-- Settles O24: every change of what may be sent ends in the link's choice. -/
theorem linkNeverIdlesWithWork : Obligations.LinkNeverIdlesWithWork := by
  intro s t hs h
  refine step_leads (Q := State.linkLawful) (fun _ h => h) (fun _ _ h => h) (fun _ _ h => h)
    (fun _ _ _ => ?_) (fun _ _ => ?_) (fun _ _ _ hc => exec_linkLawful hc) hs h
  · exact ⟨nofun, fun _ => rfl, ⟨nofun, nofun⟩, nofun, nofun, fun _ => ⟨rfl, Or.inr rfl⟩⟩
  · exact ⟨nofun, fun _ => rfl, ⟨fun _ => rfl, fun _ => rfl⟩, nofun, nofun, nofun⟩

end Sys2Proof.Machine

/-! PROOFS. The station in reset: what it holds, that no command but three does anything there, its entry and
its release (R160, R161). -/

namespace Sys2Proof.Machine

/-! ### In reset -/

/-- A command that has a meaning in reset: a CCLK edge, or the entry and the release (R160, R161). -/
def actsInReset : Instr → Bool
  | .timebaseAdvance _ _ | .rstnAssert | .resetRelease _ => true
  | _ => false

theorem exec_enterReset {c : Instr} (hc : actsInReset c = false) (hwf : c.wf = true) (s : State) (b : Bool)
    (n : Nat) : exec c (s.enterReset b n) = .next (s.enterReset b n) := by
  cases c with
  | timebaseAdvance | rstnAssert | resetRelease => cases hc
  | codePairArrival channel hi lo => exact dif_pos (of_decide_eq_true hwf)
  | _ => rfl

theorem State.blankInReset.exec_eq {s : State} (hs : s.blankInReset) (hr : s.inReset = true) {c : Instr}
    (hc : actsInReset c = false) (hwf : c.wf = true) : exec c s = .next s := by
  have h := exec_enterReset hc hwf s s.rstn s.resetEdges
  rwa [← hs hr] at h

theorem exec_timebaseAdvance_inReset {s : State} (hr : s.inReset = true) (a b : Bool) :
    exec (.timebaseAdvance a b) s = .next { s with resetEdges := s.resetEdges - 1 } :=
  congrArg Host.Outcome.next (if_pos hr)

/-- Settles O5, through the state that reset enters. -/
theorem inResetNothingHappens : Obligations.InResetNothingHappens := by
  intro s hs hr
  refine ⟨exec_timebaseAdvance_inReset hr, fun c hwf h1 h2 h3 => hs.exec_eq hr ?_ hwf⟩
  cases c with
  | timebaseAdvance a b => exact absurd rfl (h3 a b)
  | rstnAssert => exact absurd rfl h1
  | resetRelease straps => exact absurd rfl (h2 straps)
  | _ => rfl

/-! ### The laws of reset -/

theorem exec_next_wf {c : Instr} {s t : State} (h : exec c s = .next t) : c.wf = true := by
  cases c with
  | codePairArrival channel hi lo =>
    refine decide_eq_true (by_contra fun hn => ?_)
    rw [show exec (.codePairArrival channel hi lo) s = .fault .noSuchChannel from dif_neg hn] at h
    cases h
  | _ => rfl

/-- Outside reset a command that does not enter it leaves the pins and the edge count of reset. -/
theorem exec_resetPins {c : Instr} {s t : State} (hc : resets c = false) (hr : s.inReset = false)
    (h : exec c s = .next t) : t.inReset = false ∧ t.rstn = s.rstn ∧ t.resetEdges = s.resetEdges := by
  cases c with
  | resetStation | rstnAssert | resetRelease => cases hc
  | timebaseAdvance a b =>
    have ht : t = s.advance a b := by
      cases h
      exact if_neg (by rw [hr]; exact Bool.false_ne_true)
    rw [ht]
    exact ⟨hr, rfl, rfl⟩
  | _ =>
    have hf := exec_frame h
    exact ⟨(congrArg (·.inReset) hf).trans hr, congrArg (·.rstn) hf, congrArg (·.resetEdges) hf⟩

/-- Both laws of reset hold of every entry to it with at most 8 edges to come. -/
theorem State.resetLaws_enterReset (s : State) (b : Bool) {n : Nat} (hn : n ≤ Config.resetEdges) :
    (s.enterReset b n).blankInReset ∧ (s.enterReset b n).edgesLawful :=
  ⟨fun _ => rfl, hn, nofun⟩

theorem State.resetLaws_of_outside {s : State} (h : s.inReset = false) (hn : s.resetEdges = 0)
    (hp : s.rstn = false) : s.blankInReset ∧ s.edgesLawful :=
  ⟨fun e => (Bool.false_ne_true (h.symm.trans e)).elim, hn ▸ Nat.zero_le _, fun _ => ⟨hn, hp⟩⟩

theorem exec_resetLaws {c : Instr} {s t : State} (hb : s.blankInReset) (he : s.edgesLawful)
    (h : exec c s = .next t) : t.blankInReset ∧ t.edgesLawful := by
  have hinside : ∀ {b : Bool} {p : Prop}, b = true → b = false → p := fun h1 h2 =>
    (Bool.false_ne_true (h2.symm.trans h1)).elim
  cases hr : resets c with
  | true =>
    cases c with
    | rstnAssert => cases h; exact State.resetLaws_enterReset s true he.1
    | resetStation =>
      rcases execResetStation_cases h with rfl | ⟨-, rfl⟩
      · exact ⟨hb, he⟩
      · exact State.resetLaws_enterReset s false le_rfl
    | resetRelease straps =>
      rcases execResetRelease_cases h with ⟨-, rfl⟩ | ⟨-, -, rfl⟩ | ⟨hin, -, rfl⟩
      · exact ⟨hb, he⟩
      · exact State.resetLaws_of_outside rfl rfl rfl
      · exact ⟨fun _ => congrArg (fun u : State => { u with rstn := false }) (hb hin), he.1, hinside hin⟩
    | _ => cases hr
  | false =>
    cases hin : s.inReset with
    | false =>
      obtain ⟨h1, h2, h3⟩ := exec_resetPins hr hin h
      obtain ⟨h4, h5⟩ := he.2 hin
      exact State.resetLaws_of_outside h1 (h3.trans h4) (h2.trans h5)
    | true =>
      cases ha : actsInReset c with
      | false =>
        rw [hb.exec_eq hin ha (exec_next_wf h)] at h
        cases h
        exact ⟨hb, he⟩
      | true =>
        cases c with
        | timebaseAdvance a b =>
          rw [exec_timebaseAdvance_inReset hin a b] at h
          cases h
          exact ⟨fun _ => congrArg (fun u : State => { u with resetEdges := s.resetEdges - 1 }) (hb hin),
            le_trans (Nat.sub_le _ _) he.1, hinside hin⟩
        | rstnAssert | resetRelease => cases hr
        | _ => cases ha

/-- Settles O25, through the state that reset enters and the commands that act there. -/
theorem resetStaysBlank : Obligations.ResetStaysBlank := by
  intro s t hb he h
  rcases step_cases h with rfl | ⟨c, rest, -, hc⟩
  · exact ⟨hb, he⟩
  · refine exec_resetLaws (s := { s with pending := rest }) (fun hr => ?_) he hc
    exact congrArg (fun u : State => { u with pending := rest }) (hb hr)

/-! ### Entry and release -/

/-- The command word at the head of the Command Queue, outside reset (R166). -/
theorem State.headWord_eq {s : State} {w : Word} {ws : List Word} (hr : s.inReset = false)
    (hw : s.commands = w :: ws) : s.headWord = some w := by
  rw [State.headWord, hr, hw]
  rfl

theorem State.headOfKind_eq {s : State} {w : Word} {ws : List Word} {c : CommandWord}
    (hr : s.inReset = false) (hw : s.commands = w :: ws) (hd : decodeCommand w = some c) {k : CommandKind}
    (hk : c.kind = k) : s.headOfKind k = some (w, c) := by
  rw [State.headOfKind, State.headCommand, State.headWord_eq hr hw]
  simp [hd, hk]

/-- Settles O12, by the two entries to reset. -/
theorem resetsDiscardWorkInFlight : Obligations.ResetsDiscardWorkInFlight := by
  intro s
  refine ⟨⟨_, rfl, rfl, rfl, rfl⟩, fun w ws c hr hw hd hk => ?_, ?_⟩
  · refine ⟨s.enterReset false 8, ?_, rfl, rfl, rfl⟩
    show execResetStation s = _
    rw [execResetStation, State.headOfKind_eq hr hw hd hk]
  · rintro rstn edges t rfl
    refine ⟨rfl, rfl, rfl, rfl, rfl, rfl, rfl, rfl, rfl, rfl, fun c => ?_, fun k => ?_, rfl, rfl⟩
    · simp [State.enterReset, State.reset, Channel.reset]
    · simp [State.counter, State.enterReset, State.reset]

/-- Settles O13, by the branches of the release. -/
theorem releaseGivesResetState : Obligations.ReleaseGivesResetState := by
  intro s straps
  refine ⟨fun hr => ?_, fun hr he => ?_, fun hr he => ?_⟩
  · exact congrArg Host.Outcome.next (if_neg (by rw [hr]; exact Bool.false_ne_true))
  · exact congrArg Host.Outcome.next ((if_pos hr).trans (if_neg he))
  · refine ⟨s.release straps, congrArg Host.Outcome.next ((if_pos hr).trans (if_pos he)), rfl, rfl, rfl, rfl,
      rfl, rfl, fun c => ?_, rfl, rfl, rfl, rfl, rfl, rfl, rfl, rfl, rfl, rfl, rfl, rfl, rfl, rfl, rfl, rfl,
      fun k => ?_, fun c => ?_, rfl, rfl, rfl, fun channel hi lo hch => dif_pos hch⟩
    · simp [State.release, State.reset]
      rfl
    · simp [State.counter, State.release, State.reset]
    · simp [State.release, State.reset]

/-- Settles O14: in the state after reset the collections are empty and every field reads its default. -/
theorem lawsHoldAfterReset : Obligations.LawsHoldAfterReset := by
  refine ⟨⟨rfl, rfl⟩, by unfold State.depthsKept; decide, State.countersInRange_zero rfl rfl, State.itemsInRange_of_reset rfl rfl,
    State.trackersInRange_of_reset rfl, State.pileupsLawful_of_reset rfl rfl,
    State.callsLawful_of_empty rfl rfl, ?_, State.slotsLawful_of_reset rfl rfl rfl,
    ⟨by decide, trivial, nofun⟩, ⟨nofun, fun _ => rfl, ⟨fun _ => rfl, fun _ => rfl⟩, nofun, nofun, nofun⟩,
    nofun, ⟨by decide, fun _ => ⟨rfl, rfl⟩⟩, ?_, ?_, List.isChain_nil,
    State.causesLawful_of_setup rfl rfl rfl rfl rfl⟩
  · refine fun _ => ⟨fun c => ?_, rfl, rfl, rfl, rfl, rfl⟩
    simp [State.reset, Channel.reset]
  · simp [State.callsBalance, State.counter, State.reset]
  · simp [State.seedsBalance, State.counter, State.reset]

end Sys2Proof.Machine

/-! PROOFS. No operation of the block looks at the queue of commands (95, what each step holds). -/

namespace Sys2Proof.Machine

/-- The state with another queue of waiting commands. -/
def State.withQueue (s : State) (q : List Instr) : State := { s with pending := q }

section Queue

variable (s : State) (q : List Instr)

/-! ### Shared operations -/

theorem State.count_withQueue (k : Counter) (n : Nat) :
    (s.withQueue q).count k n = (s.count k n).withQueue q := rfl

theorem State.chooseFrame_withQueue : (s.withQueue q).chooseFrame = s.chooseFrame.withQueue q := by
  unfold State.chooseFrame
  simp only [apply_ite (State.withQueue · q)]
  rfl

theorem State.endFrame_withQueue : (s.withQueue q).endFrame = s.endFrame.withQueue q :=
  State.chooseFrame_withQueue { s with link.sending := .nothing } q

theorem State.respond_withQueue (frame : List Word) :
    (s.withQueue q).respond frame = (s.respond frame).withQueue q :=
  State.chooseFrame_withQueue { s with link.response := frame } q

theorem State.refuseHead_withQueue (w : Word) (code : RefusalCode) :
    (s.withQueue q).refuseHead w code = (s.refuseHead w code).withQueue q := by
  unfold State.refuseHead
  rw [apply_ite (State.withQueue · q), ← State.respond_withQueue]
  rfl

theorem State.returnCall_withQueue : (s.withQueue q).returnCall = s.returnCall.withQueue q := by
  unfold State.returnCall
  rw [apply_ite (State.withQueue · q)]
  rfl

theorem State.discardCall_withQueue : (s.withQueue q).discardCall = s.discardCall.withQueue q := by
  unfold State.discardCall
  rw [apply_ite (State.withQueue · q)]
  rfl

theorem State.testDrain_withQueue : (s.withQueue q).testDrain = s.testDrain.withQueue q := by
  unfold State.testDrain
  rw [apply_ite (State.withQueue · q)]
  rfl

theorem State.deliverToList_withQueue (d : Seed) :
    (s.withQueue q).deliverToList d = (s.deliverToList d).withQueue q := by
  unfold State.deliverToList
  rw [apply_ite (State.withQueue · q)]
  rfl

theorem State.deliver_withQueue (bits : BitVec 36) :
    (s.withQueue q).deliver bits = (s.deliver bits).withQueue q := by
  unfold State.deliver
  rw [apply_ite (State.withQueue · q), ← State.deliverToList_withQueue]
  rfl

theorem State.sendResponseWord_withQueue (k : Nat) :
    (s.withQueue q).sendResponseWord k = (s.sendResponseWord k).withQueue q := by
  unfold State.sendResponseWord
  rw [show (s.withQueue q).link = s.link from rfl]
  cases s.link.response[k]? with
  | none => exact State.endFrame_withQueue { s with link.response := [] } q
  | some w =>
    simp only [apply_ite (State.withQueue · q), ← State.endFrame_withQueue]
    rfl

theorem State.sendFragmentWord_withQueue (k : Nat) :
    (s.withQueue q).sendFragmentWord k = (s.sendFragmentWord k).withQueue q := by
  unfold State.sendFragmentWord
  rw [show (s.withQueue q).readout = s.readout from rfl]
  match s.readout with
  | [] => exact State.endFrame_withQueue s q
  | [] :: rest => exact State.endFrame_withQueue { s with readout := rest } q
  | [w] :: rest =>
    exact State.endFrame_withQueue (State.judgeQueueHold { s.show w (k == 0) with readout := rest }) q
  | (w :: v :: ws) :: rest => rfl

theorem State.sendWord_withQueue (w : Word) :
    (s.withQueue q).sendWord w = (s.sendWord w).withQueue q := by
  unfold State.sendWord
  rw [show (s.withQueue q).link = s.link from rfl]
  cases s.link.sending with
  | nothing => rfl
  | startWord => exact State.endFrame_withQueue { s.show w true with link.startOwed := false } q
  | response k => exact State.sendResponseWord_withQueue s q k
  | fragment k => exact State.sendFragmentWord_withQueue s q k

theorem State.build_withQueue (d : Seed) (rest : List Seed) :
    (s.withQueue q).build d rest = (s.build d rest).withQueue q := by
  unfold State.build
  rw [← State.chooseFrame_withQueue]
  rfl

/-! ### A code pair -/

theorem State.displaceOrDrop_withQueue (n : SampleTime) (e : Nat) :
    (s.withQueue q).displaceOrDrop n e = (s.displaceOrDrop n e).withQueue q := by
  unfold State.displaceOrDrop
  rw [show (s.withQueue q).calls = s.calls from rfl]
  cases best weakerCall (s.calls.filter fun c => !c.isOnLine) with
  | none => rfl
  | some w =>
    simp only [apply_ite (State.withQueue · q)]
    rfl

theorem State.placeCandidate_withQueue (n : SampleTime) (e : Nat) :
    (s.withQueue q).placeCandidate n e = (s.placeCandidate n e).withQueue q := by
  unfold State.placeCandidate
  rw [State.displaceOrDrop_withQueue, apply_ite (State.withQueue · q),
    show (s.withQueue q).calls = s.calls from rfl,
    show (s.withQueue q).station = s.station from rfl]
  cases best (nearerCall n) (s.calls.filter fun c => within s.station.window c.time n) with
  | some c => rfl
  | none =>
    simp only [apply_ite (State.withQueue · q)]
    rfl

theorem State.evaluate_withQueue (n : SampleTime) :
    (s.withQueue q).evaluate n = (s.evaluate n).withQueue q := by
  unfold State.evaluate
  simp only [State.placeCandidate_withQueue, apply_ite (State.withQueue · q)]
  rfl

theorem State.insertHit_withQueue (h : Hit) :
    (s.withQueue q).insertHit h = (s.insertHit h).withQueue q := by
  unfold State.insertHit
  rw [show (s.withQueue q).hits = s.hits from rfl]
  cases placeHit h s.hits with
  | nil => rfl
  | cons e rest =>
    simp only [apply_ite (State.withQueue · q), ← State.evaluate_withQueue]
    rfl

theorem State.completeContext_withQueue (c : Fin 8) (n : ContextName) :
    (s.withQueue q).completeContext c n = (s.completeContext c n).withQueue q := by
  unfold State.completeContext
  rw [show (s.withQueue q).channels = s.channels from rfl]
  cases s.channels[c].ctx n with
  | none => rfl
  | some x =>
    simp only [apply_ite (State.withQueue · q), ← State.insertHit_withQueue]
    rfl

theorem State.takeSample_withQueue (c : Fin 8) (n : ContextName) (t : SampleTime) (y : Sample) :
    (s.withQueue q).takeSample c n t y = (s.takeSample c n t y).withQueue q := by
  unfold State.takeSample
  rw [show (s.withQueue q).channels = s.channels from rfl]
  cases s.channels[c].ctx n <;> rfl

theorem State.takeFromRing_withQueue (c : Fin 8) (n : ContextName) (first : SampleTime) :
    (s.withQueue q).takeFromRing c n first = (s.takeFromRing c n first).withQueue q :=
  List.foldl_hom (State.withQueue · q) fun u i =>
    State.takeSample_withQueue u q c n (first + BitVec.ofNat 28 i) _

theorem State.openContext_withQueue (c : Fin 8) (n : ContextName) (x : Crossing) :
    (s.withQueue q).openContext c n x = (s.openContext c n x).withQueue q := by
  unfold State.openContext
  rw [← State.takeFromRing_withQueue]
  rfl

theorem State.actOnCrossing_withQueue (c : Fin 8) (x : Crossing) :
    (s.withQueue q).actOnCrossing c x = (s.actOnCrossing c x).withQueue q := by
  unfold State.actOnCrossing
  rw [show (s.withQueue q).channels = s.channels from rfl]
  cases s.channels[c].ctxA with
  | none => exact State.openContext_withQueue s q c .a x
  | some a =>
    cases s.channels[c].ctxB with
    | none => exact State.openContext_withQueue s q c .b x
    | some b => rfl

theorem State.afterCrossing_withQueue (c : Fin 8) (y : Sample) :
    (s.withQueue q).afterCrossing c y = (s.afterCrossing c y).withQueue q := by
  unfold State.afterCrossing
  rw [show (s.withQueue q).declared c y = s.declared c y from rfl]
  cases (s.declared c y).2 with
  | none => rfl
  | some x =>
    simp only [apply_ite (State.withQueue · q), ← State.actOnCrossing_withQueue]
    rfl

theorem State.processSample_withQueue (c : Fin 8) (y : Sample) :
    (s.withQueue q).processSample c y = (s.processSample c y).withQueue q := by
  rw [State.processSample_eq, State.processSample_eq]
  unfold State.afterTaking
  rw [State.afterCrossing_withQueue, State.takeSample_withQueue, State.takeSample_withQueue,
    State.completeContext_withQueue, State.completeContext_withQueue]
  rfl

theorem State.takePulse_withQueue (c : Fin 8) (y : Sample) :
    (s.withQueue q).takePulse c y = (s.takePulse c y).withQueue q := by
  unfold State.takePulse
  rw [State.processSample_withQueue, apply_ite (State.withQueue · q)]
  rfl

theorem State.handlePair_withQueue (c : Fin 8) (hi lo : BitVec 12) :
    (s.withQueue q).handlePair c hi lo = (s.handlePair c hi lo).withQueue q := by
  have h := State.takePulse_withQueue
    (s.modifyChannel c fun k => k.writeRing s.now (unifiedSample s.channels[c] hi lo)) q c
    (unifiedSample s.channels[c] hi lo)
  exact congrArg (fun u : State =>
    u.modifyChannel c fun k => k.settleTrackers (unifiedSample s.channels[c] hi lo).u hi lo) h

theorem State.headOfKind_withQueue (k : CommandKind) :
    (s.withQueue q).headOfKind k = s.headOfKind k := rfl

end Queue

/-! ### Commands -/

theorem exec_withQueue {c : Instr} {s t : State} (q : List Instr) (h : exec c s = .next t) :
    exec c (s.withQueue q) = .next (t.withQueue q) := by
  cases c with
  | codePairArrival n hi lo =>
    have hn : n < 8 := of_decide_eq_true (exec_next_wf h)
    have he : ∀ u : State, exec (.codePairArrival n hi lo) u =
        .next (if u.inReset || u.awaitsEdge then u else u.handlePair ⟨n, hn⟩ hi lo) := fun _ => dif_pos hn
    rw [he] at h ⊢
    cases h
    rw [State.handlePair_withQueue, apply_ite (State.withQueue · q)]
    rfl
  | timebaseAdvance | hitExpiry | evictMarkWithdrawal | callLapse | startBitHeard | lineIdle
  | stuckRelease | commandWordArrival =>
    cases h
    refine congrArg Host.Outcome.next ?_
    simp only [apply_ite (State.withQueue · q)]
    rfl
  | tzSample tz =>
    cases h
    refine congrArg Host.Outcome.next ?_
    simp only [State.honourTz, apply_ite (State.withQueue · q)]
    rfl
  | seedClosed | seedLateMark | seedStaleMark | rstnAssert => cases h; rfl
  | fragmentBuild =>
    cases h
    refine congrArg Host.Outcome.next ?_
    rw [show (s.withQueue q).seeds = s.seeds from rfl]
    cases s.seeds with
    | nil => rfl
    | cons d rest =>
      simp only [State.build_withQueue, apply_ite (State.withQueue · q)]
      rfl
  | frameStart level =>
    cases h
    refine congrArg Host.Outcome.next ?_
    rw [show (s.withQueue q).offeredCall = s.offeredCall from rfl]
    cases s.offeredCall with
    | none =>
      simp only [apply_ite (State.withQueue · q)]
      rfl
    | some c =>
      simp only [apply_ite (State.withQueue · q)]
      rfl
  | startBitRecessive | lineStuck =>
    cases h
    refine congrArg Host.Outcome.next ?_
    simp only [State.returnCall_withQueue, apply_ite (State.withQueue · q)]
    rfl
  | arbitrationLost | objectionRaised | frameGapEnd | dominantGapBit =>
    cases h
    refine congrArg Host.Outcome.next ?_
    rw [show (s.withQueue q).line = s.line from rfl]
    cases s.line.frame? with
    | none => rfl
    | some f =>
      simp only [State.returnCall_withQueue, apply_ite (State.withQueue · q)]
      rfl
  | framesDiscarded =>
    cases h
    refine congrArg Host.Outcome.next ?_
    rw [show (s.withQueue q).line = s.line from rfl]
    cases s.line.frame? with
    | none => rfl
    | some f =>
      have hd := State.discardCall_withQueue (s.markSettled f) q
      simp only [apply_ite (State.withQueue · q), ← State.count_withQueue, ← hd]
      rfl
  | seedAccepted =>
    cases h
    refine congrArg Host.Outcome.next ?_
    rw [show (s.withQueue q).line = s.line from rfl]
    cases s.line.frame? with
    | none => rfl
    | some f =>
      simp only [apply_ite (State.withQueue · q), ← State.deliver_withQueue]
      rfl
  | linkWordSent =>
    cases h
    refine congrArg Host.Outcome.next ?_
    simp only [State.chooseFrame_withQueue, State.sendWord_withQueue, apply_ite (State.withQueue · q)]
    rfl
  | drainReturn => cases h; exact congrArg Host.Outcome.next (State.testDrain_withQueue s q)
  | set =>
    cases h
    refine congrArg Host.Outcome.next ?_
    rw [State.headOfKind_withQueue]
    cases s.headOfKind .set with
    | none => rfl
    | some p =>
      simp only [show (s.withQueue q).mode = s.mode from rfl, State.refuseHead_withQueue]
      cases refuseSet s.mode p.2 with
      | some code => rfl
      | none =>
        cases itemOfCode p.2.item with
        | none => rfl
        | some i => cases i <;> rfl
  | readItem =>
    cases h
    refine congrArg Host.Outcome.next ?_
    rw [State.headOfKind_withQueue]
    cases s.headOfKind .readItem with
    | none => rfl
    | some p =>
      simp only [State.refuseHead_withQueue]
      cases refuseRead p.2 with
      | some code => rfl
      | none =>
        cases itemOfCode p.2.item with
        | none => rfl
        | some i =>
          simp only [apply_ite (State.withQueue · q), ← State.respond_withQueue]
          rfl
  | start =>
    cases h
    refine congrArg Host.Outcome.next ?_
    rw [State.headOfKind_withQueue]
    cases s.headOfKind .start with
    | none => rfl
    | some p =>
      simp only [show (s.withQueue q).mode = s.mode from rfl, State.refuseHead_withQueue]
      cases refuseState s.mode .setup <;> rfl
  | stop =>
    cases h
    refine congrArg Host.Outcome.next ?_
    rw [State.headOfKind_withQueue]
    cases s.headOfKind .stop with
    | none => rfl
    | some p =>
      simp only [show (s.withQueue q).mode = s.mode from rfl, State.refuseHead_withQueue]
      cases refuseState s.mode .run with
      | some code => rfl
      | none => exact State.testDrain_withQueue (s.popCommand.enterMode .drain).withdrawCalls q
  | readStatus level =>
    cases h
    refine congrArg Host.Outcome.next ?_
    rw [State.headOfKind_withQueue]
    cases s.headOfKind .readStatus with
    | none => rfl
    | some p =>
      simp only [apply_ite (State.withQueue · q), ← State.respond_withQueue]
      rfl
  | clearCounters =>
    cases h
    refine congrArg Host.Outcome.next ?_
    rw [State.headOfKind_withQueue]
    cases s.headOfKind .clearCounters <;> rfl
  | linkPause =>
    cases h
    refine congrArg Host.Outcome.next ?_
    rw [State.headOfKind_withQueue]
    cases s.headOfKind .linkPause <;> rfl
  | linkResume =>
    cases h
    refine congrArg Host.Outcome.next ?_
    rw [State.headOfKind_withQueue]
    cases s.headOfKind .linkResume with
    | none => rfl
    | some p => exact State.chooseFrame_withQueue { s.popCommand with link.paused := false } q
  | resetStation =>
    cases h
    refine congrArg Host.Outcome.next ?_
    rw [State.headOfKind_withQueue]
    cases s.headOfKind .resetStation <;> rfl
  | resetRelease straps =>
    cases h
    refine congrArg Host.Outcome.next ?_
    simp only [apply_ite (State.withQueue · q)]
    rfl
  | unknownCommand =>
    cases h
    refine congrArg Host.Outcome.next ?_
    rw [show (s.withQueue q).headWord = s.headWord from rfl]
    cases s.headWord with
    | none => rfl
    | some w =>
      simp only [State.refuseHead_withQueue, apply_ite (State.withQueue · q)]

theorem exec_pending {c : Instr} {s t : State} (h : exec c s = .next t) : t.pending = s.pending := by
  cases hr : resets c with
  | true =>
    rcases exec_resets hr h with rfl | ⟨b, n, rfl⟩ | ⟨straps, rfl⟩ | rfl <;> rfl
  | false =>
    cases c with
    | resetStation | rstnAssert | resetRelease => cases hr
    | _ => exact congrArg (·.pending) (exec_frame h)

/-- Settles O2, command by command. -/
theorem commandsIgnoreQueue : Obligations.CommandsIgnoreQueue :=
  fun _ _ _ h => ⟨exec_pending h, fun q => exec_withQueue q h⟩

/-- Settles O3: only the channel number of a code pair can lead to a fault. -/
theorem wellFormedCommandsComplete : Obligations.WellFormedCommandsComplete := by
  refine ⟨fun c s hwf => ?_, fun channel hi lo s h => dif_neg (Nat.not_lt.mpr h)⟩
  cases c with
  | codePairArrival n hi lo => exact ⟨_, dif_pos (of_decide_eq_true hwf)⟩
  | _ => exact ⟨_, rfl⟩

end Sys2Proof.Machine

/-! PROOFS. Own steps that are not due change nothing (log 2), and the steps of ageing, of TZ, of the line view
and of the Command Port with one outcome. -/

namespace Sys2Proof.Machine

/-! ### Steps that are not due -/

theorem State.refuseHead_full {s : State} (h : s.bufferEmpty = false) (w : Word) (code : RefusalCode) :
    s.refuseHead w code = s := if_neg (by rw [h]; exact Bool.false_ne_true)

theorem State.expireHits_of_fresh {s : State} (hcount : s.countersInRange)
    (h : s.hits.head?.any s.expired = false) : s.expireHits = s := by
  have hrun : s.hits.takeWhile s.expired = [] ∧ s.hits.dropWhile s.expired = s.hits := by
    cases hh : s.hits with
    | nil => exact ⟨rfl, rfl⟩
    | cons x xs =>
      rw [hh] at h
      simp only [List.head?_cons, Option.any_some] at h
      simp [h]
  unfold State.expireHits
  simp only [hrun.1, hrun.2]
  exact State.count_zero s _ (hcount.1 _)

theorem State.lapseCalls_of_fresh {s : State} (hcount : s.countersInRange)
    (h : s.calls.any s.lapses = false) : s.lapseCalls = s := by
  rw [List.any_eq_false] at h
  unfold State.lapseCalls
  rw [List.filter_eq_self.mpr fun c hc => by simp [h c hc], List.countP_eq_zero.mpr h]
  exact State.count_zero s _ (hcount.1 _)

/-- Marks that no listed seed newly takes leave the list as it is. -/
theorem map_marks_eq_self {seeds : List Seed} {m : Seed → Seed} (h : ∀ d ∈ seeds, m d = d) :
    seeds.map m = seeds := (List.map_congr_left h).trans (List.map_id seeds)

theorem Seed.closed_or {d : Seed} {b : Bool} (h : (!d.closed && b) = false) :
    { d with closed := d.closed || b } = d := by
  have : (d.closed || b) = d.closed := by cases hc : d.closed <;> simp_all
  rw [this]

theorem Seed.late_or {d : Seed} {b : Bool} (h : (!d.late && b) = false) :
    { d with late := d.late || b } = d := by
  have : (d.late || b) = d.late := by cases hc : d.late <;> simp_all
  rw [this]

theorem Seed.stale_or {d : Seed} {b : Bool} (h : (!d.stale && b) = false) :
    { d with stale := d.stale || b } = d := by
  have : (d.stale || b) = d.stale := by cases hc : d.stale <;> simp_all
  rw [this]

theorem exec_of_not_due {c : Instr} {s : State} (hcount : s.countersInRange) (hown : isOwnStep c = true)
    (hdue : s.due c = false) : exec c s = .next s := by
  have hne : ∀ {b : Bool}, b = false → ¬ b = true := fun h => by rw [h]; exact Bool.false_ne_true
  cases c with
  | codePairArrival | timebaseAdvance | tzSample | linkWordSent | commandWordArrival | rstnAssert
  | resetRelease => cases hown
  | hitExpiry =>
    refine congrArg Host.Outcome.next ?_
    cases ha : s.active with
    | false => rfl
    | true =>
      simp only [State.due, ha, Bool.true_and] at hdue
      exact State.expireHits_of_fresh hcount hdue
  | callLapse =>
    refine congrArg Host.Outcome.next ?_
    split
    · rename_i hm
      simp only [State.due, hm, beq_self_eq_true, Bool.true_and] at hdue
      exact State.lapseCalls_of_fresh hcount hdue
    · rfl
  | evictMarkWithdrawal | startBitHeard | startBitRecessive | lineIdle | lineStuck | stuckRelease
  | drainReturn => exact congrArg Host.Outcome.next (if_neg (hne hdue))
  | seedClosed =>
    have h := map_marks_eq_self fun d hd => Seed.closed_or (Bool.eq_false_iff.mpr (List.any_eq_false.mp hdue d hd))
    exact congrArg (fun l => Host.Outcome.next { s with seeds := l }) h
  | seedLateMark =>
    have h := map_marks_eq_self fun d hd => Seed.late_or (Bool.eq_false_iff.mpr (List.any_eq_false.mp hdue d hd))
    exact congrArg (fun l => Host.Outcome.next { s with seeds := l }) h
  | seedStaleMark =>
    have h := map_marks_eq_self fun d hd => Seed.stale_or (Bool.eq_false_iff.mpr (List.any_eq_false.mp hdue d hd))
    exact congrArg (fun l => Host.Outcome.next { s with seeds := l }) h
  | fragmentBuild =>
    refine congrArg Host.Outcome.next ?_
    simp only [State.due] at hdue
    cases hs : s.seeds with
    | nil => rfl
    | cons d rest =>
      rw [hs] at hdue
      exact if_neg (hne hdue)
  | frameStart level =>
    refine congrArg Host.Outcome.next ?_
    simp only [State.due] at hdue
    cases ho : s.offeredCall with
    | none => exact ite_self s
    | some c =>
      rw [ho, Option.isSome_some, Bool.and_true] at hdue
      exact if_neg (hne hdue)
  | arbitrationLost | objectionRaised | framesDiscarded | seedAccepted | frameGapEnd | dominantGapBit =>
    refine congrArg Host.Outcome.next ?_
    simp only [State.due] at hdue
    cases hf : s.line.frame? with
    | none => rfl
    | some f =>
      rw [hf] at hdue
      exact if_neg (hne hdue)
  | set =>
    refine congrArg Host.Outcome.next ?_
    simp only [State.due] at hdue
    cases hh : s.headOfKind .set with
    | none => rfl
    | some p =>
      rw [hh, Option.any_some, Bool.or_eq_false_iff] at hdue
      cases hr : refuseSet s.mode p.2 with
      | none => rw [hr] at hdue; cases hdue.1
      | some code => simp only [hr]; exact State.refuseHead_full hdue.2 _ _
  | readItem =>
    refine congrArg Host.Outcome.next ?_
    simp only [State.due] at hdue
    cases hh : s.headOfKind .readItem with
    | none => rfl
    | some p =>
      rw [hh, Option.isSome_some, Bool.true_and] at hdue
      cases hr : refuseRead p.2 with
      | some code => simp only [hr]; exact State.refuseHead_full hdue _ _
      | none =>
        simp only [hr]
        cases itemOfCode p.2.item with
        | none => rfl
        | some i => exact if_neg (hne hdue)
  | start =>
    refine congrArg Host.Outcome.next ?_
    simp only [State.due] at hdue
    cases hh : s.headOfKind .start with
    | none => rfl
    | some p =>
      rw [hh, Option.isSome_some, Bool.true_and, Bool.or_eq_false_iff] at hdue
      simp only [refuseState, if_neg (ne_of_beq_false hdue.1)]
      exact State.refuseHead_full hdue.2 _ _
  | stop =>
    refine congrArg Host.Outcome.next ?_
    simp only [State.due] at hdue
    cases hh : s.headOfKind .stop with
    | none => rfl
    | some p =>
      rw [hh, Option.isSome_some, Bool.true_and, Bool.or_eq_false_iff] at hdue
      simp only [refuseState, if_neg (ne_of_beq_false hdue.1)]
      exact State.refuseHead_full hdue.2 _ _
  | readStatus level =>
    refine congrArg Host.Outcome.next ?_
    simp only [State.due] at hdue
    cases hh : s.headOfKind .readStatus with
    | none => rfl
    | some p =>
      rw [hh, Option.isSome_some, Bool.true_and] at hdue
      exact if_neg (hne hdue)
  | clearCounters | linkPause | linkResume | resetStation =>
    refine congrArg Host.Outcome.next ?_
    simp only [State.due, Option.isSome_eq_false_iff, Option.isNone_iff_eq_none] at hdue
    rw [hdue]
  | unknownCommand =>
    refine congrArg Host.Outcome.next ?_
    simp only [State.due] at hdue
    cases hw : s.headWord with
    | none => rfl
    | some w =>
      rw [hw, Option.any_some, Bool.and_eq_false_iff] at hdue
      dsimp only
      split
      · rename_i hk
        exact State.refuseHead_full (hdue.resolve_left (hne · hk)) _ _
      · rfl

/-- Settles O4, command by command. -/
theorem stepsNotDueChangeNothing : Obligations.StepsNotDueChangeNothing :=
  fun _ _ hcount hown hdue => exec_of_not_due hcount hown hdue

end Sys2Proof.Machine

/-! PROOFS. The steps of ageing, of the timebase and of TZ (R60, R63, R82, R124, R146, R163, R164). -/

namespace Sys2Proof.Machine

theorem State.active_of_ne {s : State} (h : s.mode ≠ .setup) : s.active = true := (State.active_iff s).mpr h

theorem State.active_of_setup {s : State} (h : s.mode = .setup) : s.active = false := by
  unfold State.active
  rw [h]
  rfl

/-- A state with the counters of a count has counted (R173). -/
theorem State.counted_of_count {s t : State} {k : Counter} {n m : Nat}
    (h : t.counters = (s.count k m).counters) (hn : m = n) : s.counted t k n := by
  subst hn
  obtain ⟨h1, h2⟩ := State.counted_count s k m
  exact ⟨(State.counter_congr h k).trans h1, fun j hj => (State.counter_congr h j).trans (h2 j hj)⟩

/-! ### Ageing -/

theorem olderThan_iff (limit : Nat) (now t : SampleTime) :
    olderThan limit now t = true ↔ (limit : Int) < timeDiff now t := decide_eq_true_iff

/-- Settles O41: the run that leaves is the longest expired one at the front. -/
theorem hitsAndMarkExpire : Obligations.HitsAndMarkExpire := by
  refine ⟨fun s hm => ?_, fun s m hm he => ?_⟩
  · refine ⟨s.expireHits, s.hits.takeWhile s.expired,
      congrArg Host.Outcome.next (if_pos (State.active_of_ne hm)),
      (List.takeWhile_append_dropWhile).symm, fun h hh => ?_, fun h hh => ?_, State.counted_count _ _ _,
      fun i => returnSlots_get _ i _, rfl⟩
    · exact (olderThan_iff _ _ _).mp (List.mem_takeWhile_imp (p := s.expired) hh)
    · have hfirst := List.head?_dropWhile_not s.expired s.hits
      rw [show s.hits.dropWhile s.expired = s.expireHits.hits from rfl, hh] at hfirst
      exact not_lt.mp fun hlt => by
        have := (olderThan_iff _ _ _).mpr hlt
        simp_all [State.expired]
  · have hexp : s.markExpired = olderThan s.hEff s.now m := by rw [State.markExpired, he]; rfl
    have hdo : exec .evictMarkWithdrawal s =
        .next (if olderThan s.hEff s.now m = true then { s with evictMark := none } else s) := by
      show Host.Outcome.next (if s.active && s.markExpired then { s with evictMark := none } else s) = _
      rw [State.active_of_ne hm, hexp, Bool.true_and]
    refine ⟨_, hdo, fun h => if_pos ((olderThan_iff _ _ _).mpr h), fun h => if_neg ?_⟩
    rw [olderThan_iff]
    exact not_lt.mpr h

theorem State.lapses_eq (s : State) (c : Call) :
    (!s.lapses c) =
      decide (c.state ≠ .waiting ∨ timeDiff s.now c.time ≤ (s.station.callDeadline : Int)) := by
  rw [State.lapses, Call.isOnLine_eq, olderThan]
  by_cases h1 : c.state = .waiting <;> by_cases h2 : timeDiff s.now c.time ≤ s.station.callDeadline <;>
    simp [h1, h2, not_lt.mpr, not_le.mp]

/-- What a filter drops is what it does not keep. -/
theorem countP_eq_length_sub_filter (p : Call → Bool) (calls : List Call) :
    calls.countP p = calls.length - (calls.filter fun c => !p c).length := by
  have := length_filter_add_countP p calls
  omega

/-- Settles O42: a call stays exactly if it does not lapse. -/
theorem oldCallsLapse : Obligations.OldCallsLapse := by
  intro s hm
  have hcalls : (s.calls.filter fun c => !s.lapses c) = s.calls.filter (fun c =>
      decide (c.state ≠ .waiting ∨ timeDiff s.now c.time ≤ (s.station.callDeadline : Int))) :=
    List.filter_congr fun c _ => s.lapses_eq c
  refine ⟨s.lapseCalls, congrArg Host.Outcome.next (if_pos hm), hcalls,
    State.counted_of_count rfl (countP_eq_length_sub_filter s.lapses s.calls), rfl⟩

/-- Settles O43, by the conditions of the three marks. -/
theorem seedMarksAreSet : Obligations.SeedMarksAreSet := by
  rintro s w g rfl rfl
  exact ⟨rfl, rfl, rfl⟩

/-! ### The edge and TZ -/

/-- Settles O37, through the equation of the edge outside reset. -/
theorem edgeAdvancesTimebase : Obligations.EdgeAdvancesTimebase := by
  intro s seedLevel holdLevel hr _
  refine ⟨s.advance seedLevel holdLevel, congrArg Host.Outcome.next (if_neg (by rw [hr]; exact Bool.false_ne_true)),
    fun h => ?_, fun h => if_pos h, ?_, fun h => ?_, fun h => ?_, rfl, rfl, rfl⟩
  · show (if s.edgeTz = .zeroed then (0 : SampleTime) else s.now + 1).toNat = _
    rw [if_neg h, BitVec.toNat_add]
    rfl
  · have hdue : s.holdSampleDue holdLevel = true ↔ s.mode = .run ∧ s.edgeTz ≠ .zeroed ∧
        (if s.station.solo then s.hold.drive else holdLevel) = true := by
      simp only [State.holdSampleDue, State.holdObserved, Bool.and_eq_true, beq_iff_eq, bne_iff_ne, and_assoc]
    exact State.counted_of_count (m := if s.holdSampleDue holdLevel then 1 else 0) rfl (by simp only [hdue])
  · show (s.tzSeen && s.edgeTz != .unsampled) = false
    rw [h, bne_self_eq_false, Bool.and_false]
  · show (s.tzSeen && s.edgeTz != .unsampled) = s.tzSeen
    rw [bne_iff_ne.mpr h, Bool.and_true]

/-- Settles O40, by the station state. -/
theorem tzHonouredOrIgnored : Obligations.TzHonouredOrIgnored := by
  intro s tz hr _
  have hdo : exec (.tzSample tz) s = .next (if s.active then s.ignoreTz tz else s.honourTz tz) :=
    congrArg Host.Outcome.next (if_neg (by rw [hr]; exact Bool.false_ne_true))
  by_cases hm : s.mode = .setup
  · refine ⟨s.honourTz tz, ?_, ?_, fun _ h => ?_, fun _ h => ?_, fun h => absurd hm h⟩
    · rw [hdo, State.active_of_setup hm, if_neg Bool.false_ne_true]
    · cases tz <;> rfl
    · subst h; exact ⟨rfl, rfl, rfl, rfl, rfl, rfl⟩
    · subst h; rfl
  · refine ⟨s.ignoreTz tz, ?_, rfl, fun h => absurd h hm, fun h => absurd h hm, fun _ => ⟨rfl, ?_⟩⟩
    · rw [hdo, State.active_of_ne hm, if_pos rfl]
    · exact State.counted_of_count (m := if tz && !s.tzSeen then 1 else 0) rfl
        (by simp only [Bool.and_eq_true, Bool.not_eq_true'])

end Sys2Proof.Machine

/-! PROOFS. The line at bit boundaries and bit centres, and the moves of the line view (R89 to R108). -/

namespace Sys2Proof.Machine

/-! ### A bit boundary -/

theorem Line.atBoundary_toIdle {l : Line} (h : l.toIdle = true) :
    l.atBoundary =
      { l with view := .idle, ownFrame := none, drive := false, bitRead := none, toIdle := false } := if_pos h

theorem Line.atBoundary_frame {l : Line} {f : Frame} (h : l.toIdle = false) (hv : l.view = .frame f) :
    l.atBoundary = { l with
      view := .frame f.nextPosition
      drive := f.nextPosition.driveBit l.ownFrame
      bitRead := none } := by
  rw [Line.atBoundary, h, if_neg Bool.false_ne_true, hv]

theorem Line.atBoundary_other {l : Line} (h : l.toIdle = false) (hv : ∀ f, l.view ≠ .frame f) :
    l.atBoundary = { l with drive := false, bitRead := none } := by
  rw [Line.atBoundary, h, if_neg Bool.false_ne_true]
  split
  · exact absurd ‹_› (hv _)
  · rfl

theorem Line.atBoundary_bitRead (l : Line) : l.atBoundary.bitRead = none := by
  unfold Line.atBoundary
  split
  · rfl
  · split <;> rfl

/-- A frame drives its own bits: a CALLER at 1 to 16, a WINNER at 17 to 36 (R96, R99, R102). -/
theorem Frame.driveBit_iff (f : Frame) (own : Option (BitVec 36)) :
    f.driveBit own = true ↔ ∃ bits, own = some bits ∧
      (f.role = .caller ∧ 1 ≤ f.position ∧ f.position ≤ 16 ∨
        f.role = .winner ∧ 17 ≤ f.position ∧ f.position ≤ 36) ∧
      bits.getLsbD (36 - f.position) = true := by
  unfold Frame.driveBit frameBit
  cases f.role <;> cases own <;> simp

/-! ### A bit centre -/

theorem Frame.readbackDiffers_iff (f : Frame) (own : Option (BitVec 36)) (b : Bool) :
    f.readbackDiffers own b = true ↔ f.role = .winner ∧ 17 ≤ f.position ∧ f.position ≤ 36 ∧
      ∃ bits, own = some bits ∧ bits.getLsbD (36 - f.position) ≠ b := by
  unfold Frame.readbackDiffers frameBit
  cases f.role <;> cases own <;> simp [and_assoc]

theorem LineView.read_other {v : LineView} (hv : ∀ f, v ≠ .frame f) (own : Option (BitVec 36)) (b : Bool) :
    v.read own b = v := by
  cases v with
  | frame f => exact absurd rfl (hv f)
  | _ => rfl

/-- Settles O39: the three kinds of sample, and at a boundary and a centre the kinds of view. -/
theorem lineMovesAtBits : Obligations.LineMovesAtBits := by
  intro s seedLevel holdLevel hr
  refine ⟨s.advance seedLevel holdLevel, exec_timebaseAdvance s seedLevel holdLevel hr, ?_⟩
  rw [State.advance_now, State.advance_line]
  generalize s.nextNow = now
  refine ⟨fun hb => ?_, fun hb hi => ?_, fun hb hi hv => ?_, fun f hb hi hv => ?_, fun level hc hl => ?_,
    fun h0 h4 => Line.atSample_between _ _ h0 h4⟩
  · rw [Line.atSample_boundary _ _ hb]
    exact Line.atBoundary_bitRead _
  · rw [Line.atSample_boundary _ _ hb]
    exact Line.atBoundary_toIdle hi
  · rw [Line.atSample_boundary _ _ hb]
    exact Line.atBoundary_other hi hv
  · rw [Line.atSample_boundary _ _ hb, Line.atBoundary_frame hi hv]
    exact ⟨f.nextPosition, rfl, rfl, rfl, rfl, Frame.driveBit_iff _ _⟩
  · have hlevel : s.seedObserved seedLevel = level := hl.symm
    rw [Line.atSample_centre _ _ hc, hlevel]
    refine ⟨rfl, rfl, rfl, rfl, fun hv => LineView.read_other hv _ _, fun f hv => ?_⟩
    refine ⟨f.read s.line.ownFrame level, congrArg (LineView.read · s.line.ownFrame level) hv, rfl,
      fun h => if_pos h, fun h => if_neg h, ?_, fun h => if_pos h, fun h => if_neg h, fun h => if_pos h,
      fun h => if_neg h⟩
    rw [← Frame.readbackDiffers_iff]
    exact Bool.or_eq_true_iff

/-! ### The steps of the line view -/

theorem Line.frame?_eq {l : Line} {f : Frame} (h : l.view = .frame f) : l.frame? = some f := by
  rw [Line.frame?, h]

/-- Settles O50, by the conditions of the five moves. -/
theorem lineViewMoves : Obligations.LineViewMoves := by
  refine ⟨fun s f hv hp hb hi => ?_, fun s f hv hp hb => ?_, fun s hv hb hrun hi => ?_, fun s hv hb hrun => ?_,
    fun s hv hb => ?_⟩
  · show execFrameGapEnd s = _
    rw [execFrameGapEnd, Line.frame?_eq hv]
    exact congrArg Host.Outcome.next (if_pos (by simp [Frame.gapEnds, hp, hb, hi]))
  · show execDominantGapBit s = _
    rw [execDominantGapBit, Line.frame?_eq hv]
    exact congrArg Host.Outcome.next (if_pos (by simp [Frame.gapDominant, hp, hb]))
  · exact congrArg Host.Outcome.next (if_pos (by simp [State.lineIdleDue, hv, hb, hrun, hi]))
  · have hdue : s.lineStuckDue = true := by simp [State.lineStuckDue, hv, hb, hrun]
    refine ⟨_, s.returnCall, congrArg Host.Outcome.next (if_pos hdue), s.callBack_returnCall,
      State.counted_of_count (m := 1) rfl rfl, s.returnCall_frame, rfl⟩
  · exact congrArg Host.Outcome.next (if_pos (by simp [State.stuckReleaseDue, hv, hb]))

/-- Settles O47, by the conditions of the three steps. -/
theorem framesAreJoinedOrLost : Obligations.FramesAreJoinedOrLost := by
  refine ⟨fun s f hv hb hf => ?_, fun s hv hb hd ho => ?_, fun s f bits hv hr h1 h16 ho hbit hb => ?_⟩
  · subst hf
    exact congrArg Host.Outcome.next (if_pos (by simp [State.startBitDue, hv, hb]))
  · refine ⟨{ s.returnCall with line.ownFrame := none },
      congrArg Host.Outcome.next (if_pos (by simp [State.startLostDue, hv, hb, hd, ho])),
      s.callBack_returnCall, ?_⟩
    rw [State.returnCall_frame]
  · have hloses : f.losesHere s.line = true := by
      simp [Frame.losesHere, hr, h1, h16, hb, ho, frameBit, hbit]
    have hdo : exec .arbitrationLost s = .next { s.returnCall with
        line := { s.line with view := .frame { f with role := .listener }, ownFrame := none } } := by
      show execArbitrationLost s = _
      rw [execArbitrationLost, Line.frame?_eq hv]
      exact congrArg Host.Outcome.next (if_pos hloses)
    refine ⟨_, hdo, s.callBack_returnCall, ?_⟩
    rw [State.returnCall_frame]

/-! ### Starting a frame -/

theorem timeDiff_neg_of_pos {a b : SampleTime} (h : 0 < timeDiff a b) : timeDiff b a < 0 := by
  unfold timeDiff at *
  have hneg : b - a = -(a - b) := (neg_sub a b).symm
  rw [hneg, BitVec.toInt_neg_of_ne_intMin]
  · omega
  · intro e
    rw [e] at h
    exact absurd h (by decide)

/-- Of a call that is the stronger, by energy or by an earlier time, the preference is strict (R78). -/
theorem strongerCall_of_stronger {c k : Call}
    (h : k.energy < c.energy ∨ k.energy = c.energy ∧ 0 < timeDiff k.time c.time) :
    strongerCall c k = true ∧ strongerCall k c = false := by
  unfold strongerCall
  rcases h with h | ⟨h, hlate⟩
  · simp [h, h.not_gt, h.ne]
  · have hearly := timeDiff_neg_of_pos hlate
    simp [h, hearly, hlate.le]

theorem filter_isOnLine_of_waiting {calls : List Call} (h : ∀ k ∈ calls, k.state = .waiting) :
    calls.filter (fun k => !k.isOnLine) = calls :=
  List.filter_eq_self.mpr fun k hk => by simp [Call.isOnLine_eq, h k hk]

/-- The preference for a call leaves no doubt: a call that beats all others is the one chosen. -/
theorem best_of_forall_better {α : Type} {better : α → α → Bool} {l : List α} {c : α} (hc : c ∈ l)
    (hirrefl : better c c = false) (hbest : ∀ k ∈ l, k ≠ c → better c k = true ∧ better k c = false) :
    best better l = some c := by
  have hkeep : ∀ as : List α, (∀ k ∈ as, k ∈ l) →
      as.foldl (fun m b => if better b m then b else m) c = c := by
    intro as
    induction as with
    | nil => exact fun _ => rfl
    | cons a as ih =>
      intro has
      have hc' : better a c = false := by
        by_cases h : a = c
        · rw [h]; exact hirrefl
        · exact (hbest a (has a List.mem_cons_self) h).2
      rw [List.foldl_cons, hc', if_neg Bool.false_ne_true]
      exact ih fun k hk => has k (List.mem_cons_of_mem _ hk)
  have hreach : ∀ as : List α, (∀ k ∈ as, k ∈ l) → ∀ m, m ∈ l → (m = c ∨ c ∈ as) →
      as.foldl (fun m b => if better b m then b else m) m = c := by
    intro as
    induction as with
    | nil =>
      intro _ m _ h
      rcases h with rfl | h
      · rfl
      · cases h
    | cons a as ih =>
      intro has m hm h
      rcases h with rfl | h
      · exact hkeep _ has
      · rw [List.foldl_cons]
        have hsub : ∀ k ∈ as, k ∈ l := fun k hk => has k (List.mem_cons_of_mem _ hk)
        rcases List.mem_cons.mp h with rfl | h
        · refine ih hsub _ (by split <;> assumption) (Or.inl ?_)
          split
          · rfl
          · rename_i hn
            by_contra hne
            exact hn (hbest m hm hne).1
        · refine ih hsub _ ?_ (Or.inr h)
          split
          · exact has a List.mem_cons_self
          · exact hm
  cases l with
  | nil => cases hc
  | cons a as =>
    refine congrArg some (hreach as (fun k hk => List.mem_cons_of_mem _ hk) a List.mem_cons_self ?_)
    rcases List.mem_cons.mp hc with rfl | h
    · exact Or.inl rfl
    · exact Or.inr h

/-- Settles O46: the call that beats every other is the one offered. -/
theorem strongestCallStartsFrame : Obligations.StrongestCallStartsFrame := by
  intro s level c hm hb hv hhold hwait hc hbest
  have hmay : s.mayStart level = true := by
    have hoff : s.callOnLine = false :=
      List.any_eq_false.mpr fun k hk => by simp [Call.isOnLine_eq, hwait k hk]
    simp [State.mayStart, hm, (isBoundary_iff _).mpr hb, hv, State.holdObserved, hhold, hoff]
  have hoffer : s.offeredCall = some c := by
    unfold State.offeredCall
    rw [filter_isOnLine_of_waiting hwait]
    refine best_of_forall_better hc (by simp [strongerCall, timeDiff_self]) fun k hk hne => ?_
    exact strongerCall_of_stronger (hbest k hk hne)
  show execFrameStart level s = _
  rw [execFrameStart, hmay, hoffer]
  rfl

end Sys2Proof.Machine

/-! PROOFS. Objection, discard and acceptance of a frame (R80, R81, R83, R103 to R105, R117 to R121). -/

namespace Sys2Proof.Machine

theorem Call.isOnLine_funext : Call.isOnLine = fun c => decide (c.state ≠ .waiting) :=
  funext Call.isOnLine_eq

theorem Call.not_isOnLine (c : Call) : (!c.isOnLine) = decide (c.state = .waiting) := by
  simp [Call.isOnLine_eq]

/-! ### Objection -/

theorem exec_objectionRaised_due {s : State} {f : Frame} (hv : s.line.view = .frame f)
    (h : s.objects f = true) :
    exec .objectionRaised s = .next (State.count { s with line.drive := true } .objectionsRaised 1) := by
  show execObjectionRaised s = _
  rw [execObjectionRaised, Line.frame?_eq hv]
  exact congrArg Host.Outcome.next (if_pos h)

theorem State.objects_iff (s : State) (f : Frame) :
    s.objects f = true ↔ s.mode ≠ .setup ∧ s.now = f.base + 296 ∧ s.line.drive = false ∧
      (f.checkMismatch = true ∨ f.role = .winner ∧ f.readbackMismatch = true) := by
  simp [State.objects, State.active_iff, and_assoc]

theorem State.settles_iff (s : State) (f : Frame) (b : Bool) :
    s.settles f b = true ↔ s.now = f.base + 304 ∧ f.objection = some b ∧ f.settled = false := by
  simp [State.settles, and_assoc]

/-! ### Discard -/

theorem exec_framesDiscarded_due {s : State} {f : Frame} (hv : s.line.view = .frame f)
    (h : s.settles f true = true) :
    exec .framesDiscarded s = .next (State.count
      (if f.role = .winner then (s.markSettled f).discardCall else s.markSettled f) .framesDiscarded 1) := by
  show execFramesDiscarded s = _
  rw [execFramesDiscarded, Line.frame?_eq hv]
  exact congrArg Host.Outcome.next (if_pos h)

/-- What a discard leaves of the calls: ON_LINE calls return with their count raised, or leave (R80). -/
theorem filterMap_afterDiscard (calls : List Call) :
    calls.filterMap Call.afterDiscard =
      (calls.filter fun c => decide (c.state = .waiting ∨ c.retry < 3)).map (fun c =>
        if c.state = .waiting then c else { c with state := .waiting, retry := c.retry + 1 }) := by
  induction calls with
  | nil => rfl
  | cons c cs ih =>
    rw [List.filterMap_cons, List.filter_cons, Call.afterDiscard, Call.isOnLine_eq]
    by_cases hw : c.state = .waiting
    · simp [hw, ih]
    · by_cases hr : c.retry < 3
      · simp [hw, hr, ih, Call.returned]
      · simp [hw, hr, ih]

theorem State.lapseOnLine_counter (s : State) (k : Counter) :
    s.lapseOnLine.counter k =
      if k = .callsLapsed then satAdd (s.counter .callsLapsed) (s.calls.countP Call.isOnLine)
      else s.counter k := State.count_counter { s with calls := s.calls.filter fun c => !c.isOnLine } k _ _

/-- The discard of a winner's frame outside DRAIN (R80). -/
def State.returnOrAbandon (s : State) : State :=
  State.count { s with calls := s.calls.filterMap Call.afterDiscard } .callsAbandoned
    (s.calls.countP fun c => c.isOnLine && !decide (c.retry < 3))

theorem State.discardCall_eq (s : State) :
    s.discardCall = if s.mode = .drain then s.lapseOnLine else s.returnOrAbandon := rfl

theorem State.returnOrAbandon_counter (s : State) (k : Counter) :
    s.returnOrAbandon.counter k =
      if k = .callsAbandoned then
        satAdd (s.counter .callsAbandoned) (s.calls.length - s.returnOrAbandon.calls.length)
      else s.counter k := by
  have hlen : (s.calls.countP fun c => c.isOnLine && !decide (c.retry < 3)) =
      s.calls.length - (s.calls.filterMap Call.afterDiscard).length := by
    have := length_filterMap_afterDiscard s.calls
    omega
  show _ = if k = .callsAbandoned then
    satAdd (s.counter .callsAbandoned) (s.calls.length - (s.calls.filterMap Call.afterDiscard).length) else _
  rw [← hlen]
  exact State.count_counter { s with calls := s.calls.filterMap Call.afterDiscard } k _ _

/-- Settles O48: the objection, then the discard by role and station state. -/
theorem objectionsDiscardFrames : Obligations.ObjectionsDiscardFrames := by
  refine ⟨fun s f hv hm hn hd hmis => ?_, fun s f _ hv hn ho hset => ?_⟩
  · exact ⟨_, exec_objectionRaised_due hv ((State.objects_iff s f).mpr ⟨hm, hn, hd, hmis⟩),
      State.counted_of_count (m := 1) rfl rfl, rfl⟩
  · have hdo := exec_framesDiscarded_due hv ((State.settles_iff s f true).mpr ⟨hn, ho, hset⟩)
    have hsame : ∀ k, (s.markSettled f).counter k = s.counter k := fun _ => rfl
    by_cases hw : f.role = .winner
    · rw [if_pos hw, State.discardCall_eq, show (s.markSettled f).mode = s.mode from rfl] at hdo
      by_cases hm : s.mode = .drain
      · rw [if_pos hm] at hdo
        refine ⟨_, hdo, rfl, ?_, fun k h1 _ h3 => ?_, fun h => absurd hw h, fun _ h => absurd hm h,
          fun _ _ => ⟨List.filter_congr fun c _ => Call.not_isOnLine c, ?_, ?_⟩⟩
        · rw [State.count_counter_self, State.lapseOnLine_counter, if_neg nofun]
          rfl
        · rw [State.count_counter_ne _ h1, State.lapseOnLine_counter, if_neg h3, hsame]
        · rw [State.count_counter, if_neg nofun, State.lapseOnLine_counter, if_pos rfl,
            countP_eq_length_sub_filter]
          rfl
        · rw [State.count_counter, if_neg nofun, State.lapseOnLine_counter, if_neg nofun, hsame]
      · rw [if_neg hm] at hdo
        refine ⟨_, hdo, rfl, ?_, fun k h1 h2 _ => ?_, fun h => absurd hw h,
          fun _ _ => ⟨filterMap_afterDiscard s.calls, ?_, ?_⟩, fun _ h => absurd h hm⟩
        · rw [State.count_counter_self, State.returnOrAbandon_counter, if_neg nofun]
          rfl
        · rw [State.count_counter_ne _ h1, State.returnOrAbandon_counter, if_neg h2, hsame]
        · rw [State.count_counter, if_neg nofun, State.returnOrAbandon_counter, if_pos rfl]
          rfl
        · rw [State.count_counter, if_neg nofun, State.returnOrAbandon_counter, if_neg nofun, hsame]
    · rw [if_neg hw] at hdo
      refine ⟨_, hdo, rfl, ?_, fun k h1 _ _ => ?_, fun _ => ⟨rfl, ?_, ?_⟩, fun h => absurd h hw,
        fun h => absurd h hw⟩
      · exact State.count_counter_self _ _ _
      · exact State.count_counter_ne _ h1 _
      · exact State.count_counter_ne _ (by decide) _
      · exact State.count_counter_ne _ (by decide) _

/-! ### Acceptance -/

theorem exec_seedAccepted_due {s : State} {f : Frame} (hv : s.line.view = .frame f)
    (h : s.settles f false = true) : exec .seedAccepted s = .next ((s.markSettled f).deliver f.bits) := by
  show execSeedAccepted s = _
  rw [execSeedAccepted, Line.frame?_eq hv]
  exact congrArg Host.Outcome.next (if_pos h)

theorem State.deliverToList_counter (s : State) (d : Seed) (k : Counter) :
    (s.deliverToList d).counter k =
      if k = .seedsHeard then satAdd (s.counter k) 1
      else if k = .seedsLost ∧ Config.seedListDepth ≤ s.seeds.length then satAdd (s.counter k) 1
      else s.counter k := by
  rcases State.deliverToList_spec s d with ⟨hroom, e⟩ | ⟨hfull, e⟩
  · have hc : (s.deliverToList d).counters = (s.count .seedsHeard 1).counters := by rw [e]; rfl
    rw [State.counter_congr hc, State.count_counter]
    cases k <;> simp [Nat.not_le.mpr hroom]
  · have hc : (s.deliverToList d).counters = ((s.count .seedsHeard 1).count .seedsLost 1).counters := by
      rw [e]; rfl
    rw [State.counter_congr hc, State.count_counter, State.count_counter]
    cases k <;> simp [hfull]

/-- What a delivery counts: the call won, the calls merged, the seed heard, and lost at a full list (R81,
R119, R120). -/
theorem State.deliver_counter (s : State) (bits : BitVec 36) (h : s.active = true) (k : Counter) :
    (s.deliver bits).counter k =
      if k = .callsWon then satAdd (s.counter k) (s.calls.countP Call.isOnLine)
      else if k = .callsMerged then satAdd (s.counter k) (s.calls.countP fun c =>
        !c.isOnLine && within s.station.window c.time (rebuildTime s.now (frameTime bits)))
      else if k = .seedsHeard then satAdd (s.counter k) 1
      else if k = .seedsLost ∧ Config.seedListDepth ≤ s.seeds.length then satAdd (s.counter k) 1
      else s.counter k := by
  rw [State.deliver_active s bits h]
  obtain ⟨-, hcalls⟩ := State.deliverToCalls_spec s (rebuildTime s.now (frameTime bits))
  generalize s.seedEntry bits s.callOnLine = d
  generalize rebuildTime s.now (frameTime bits) = τ at hcalls ⊢
  rw [State.deliverToList_counter, hcalls, show (s.deliverToCalls τ).seeds = s.seeds from rfl]
  cases k <;> simp

theorem State.deliver_seedCounter (s : State) (bits : BitVec 36) (h : s.active = true) :
    (s.deliver bits).seedCounter = s.seedCounter + 1 := by
  rw [State.deliver_active s bits h]
  rcases State.deliverToList_spec (s.deliverToCalls (rebuildTime s.now (frameTime bits)))
    (s.seedEntry bits s.callOnLine) with ⟨-, e⟩ | ⟨-, e⟩ <;> rw [e] <;> rfl

theorem State.deliver_seeds (s : State) (bits : BitVec 36) (h : s.active = true) :
    (s.deliver bits).seeds =
      if s.seeds.length < Config.seedListDepth then s.seeds ++ [s.seedEntry bits s.callOnLine]
      else raiseLost s.seeds := by
  rw [State.deliver_active s bits h, State.deliverToList_seeds]
  rfl

/-- A delivery judges LIST_HOLD where the seed is appended, and leaves the hold causes at a full list (R143). -/
theorem State.deliver_hold (s : State) (bits : BitVec 36) (h : s.active = true) :
    (s.seeds.length < Config.seedListDepth →
      s.listHoldJudged (s.deliver bits) ∧ s.holdRecomputed (s.deliver bits) ∧
        (s.deliver bits).hold.queueHold = s.hold.queueHold) ∧
    (Config.seedListDepth ≤ s.seeds.length → (s.deliver bits).hold = s.hold) := by
  rw [State.deliver_active s bits h]
  have hseeds : (s.deliverToCalls (rebuildTime s.now (frameTime bits))).seeds = s.seeds := rfl
  rcases State.deliverToList_spec (s.deliverToCalls (rebuildTime s.now (frameTime bits)))
    (s.seedEntry bits s.callOnLine) with ⟨hroom, e⟩ | ⟨hfull, e⟩ <;> rw [hseeds] at * <;> rw [e]
  · refine ⟨fun _ => ⟨?_, ⟨rfl, rfl⟩, rfl⟩, fun hn => absurd hroom (Nat.not_lt.mpr hn)⟩
    unfold State.listHoldJudged
    rw [State.judgeListHold_listHold]
    have hnot : ∀ n m : Nat, (!decide (n ≤ m)) = decide (m < n) := fun n m => by
      rw [← decide_not]; exact decide_eq_decide.mpr Nat.not_le
    simp only [hnot]
    rfl
  · exact ⟨fun hn => absurd hn (Nat.not_lt.mpr hfull), fun _ => rfl⟩

/-- Settles O49, through what a delivery makes of each field. -/
theorem acceptedSeedIsDelivered : Obligations.AcceptedSeedIsDelivered := by
  intro s f hv hn ho hset
  have hdo := exec_seedAccepted_due hv ((State.settles_iff s f false).mpr ⟨hn, ho, hset⟩)
  refine ⟨_, hdo, State.deliver_line _ _, fun hm => ?_, fun hm τ hτ => ?_⟩
  · rw [State.deliver_setup _ _ (State.active_of_setup (s := s.markSettled f) hm)]
    rfl
  · have ha : (s.markSettled f).active = true := State.active_of_ne (s := s.markSettled f) hm
    have hcnt := State.deliver_counter (s.markSettled f) f.bits ha
    have hlist := State.deliver_seeds (s.markSettled f) f.bits ha
    obtain ⟨hroom, hfull⟩ := State.deliver_hold (s.markSettled f) f.bits ha
    refine ⟨?_, ?_, ?_, ?_, fun k h1 h2 h3 h4 => ?_, State.deliver_seedCounter _ _ ha, fun hl => ⟨?_, ?_, hroom hl⟩,
      fun first last hs hl => ⟨?_, ?_, hfull hl⟩, exec_frame hdo⟩
    · rw [State.deliver_calls _ _ ha, hτ]
      exact List.filter_congr fun c _ => by rw [Call.not_isOnLine]; rfl
    · rw [hcnt, if_pos rfl, Call.isOnLine_funext]
      rfl
    · rw [hcnt, if_neg nofun, if_pos rfl, hτ]
      simp only [Call.not_isOnLine]
      rfl
    · rw [hcnt, if_neg nofun, if_neg nofun, if_pos rfl]
      rfl
    · rw [hcnt, if_neg h1, if_neg h2, if_neg h3, if_neg fun h => h4 h.1]
      rfl
    · refine hlist.trans ((if_pos hl).trans ?_)
      subst hτ
      rw [State.callOnLine, Call.isOnLine_funext]
      rfl
    · rw [hcnt, if_neg nofun, if_neg nofun, if_neg nofun]
      exact if_neg (not_and_of_not_right _ (Nat.not_le.mpr hl))
    · refine hlist.trans ((if_neg (Nat.not_lt.mpr hl)).trans ?_)
      rw [show (s.markSettled f).seeds = first ++ [last] from hs]
      exact raiseLost_append first last
    · rw [hcnt, if_neg nofun, if_neg nofun, if_neg nofun, if_pos ⟨rfl, hl⟩]
      rfl

end Sys2Proof.Machine

/-! PROOFS. The output link word by word, the responses and refusals of the Command Port, and the fragment
sending it sets (R140, R148 to R151, R165 to R167, R170, R176, R184). -/

namespace Sys2Proof.Machine

/-! ### The link's choice as one equation -/

/-- A link that owes no start word while idle chooses a response or a fragment, or stays (R149). -/
theorem State.chooseFrame_eq {s : State} (h : s.link.sending = .nothing → s.link.startOwed = false) :
    s.chooseFrame = { s with link := { s.link with
      sending := if s.link.sending = .nothing then nextSending s.link.paused s.link.response s.readout
        else s.link.sending } } := by
  have hsend : s.chooseFrame.link.sending =
      if s.link.sending = .nothing then nextSending s.link.paused s.link.response s.readout
      else s.link.sending := by
    rw [State.chooseFrame_spec]
    by_cases hn : s.link.sending = .nothing
    · rw [if_neg (not_not.mpr hn), h hn, if_neg Bool.false_ne_true, if_pos hn]
    · rw [if_pos hn, if_neg hn]
  rw [State.chooseFrame_frame, hsend]

theorem State.endFrame_eq {s : State} (h : s.link.startOwed = false) :
    s.endFrame = { s with link := { s.link with
      sending := nextSending s.link.paused s.link.response s.readout } } :=
  State.chooseFrame_eq (s := { s with link.sending := .nothing }) fun _ => h

theorem State.linkLawful.startOwed_eq_false {s : State} (h : s.linkLawful)
    (hn : s.link.sending ≠ .startWord) : s.link.startOwed = false :=
  Bool.eq_false_iff.mpr fun e => hn (h.2.2.1.mp e)

theorem State.respond_eq {s : State} (h : s.linkLawful) {frame : List Word} (hf : frame ≠ []) :
    s.respond frame = { s with link := { s.link with
      response := frame
      sending := if s.link.sending = .nothing then .response 0 else s.link.sending } } := by
  refine (State.chooseFrame_eq (s := { s with link.response := frame }) fun hn =>
    h.startOwed_eq_false fun e => ?_).trans ?_
  · rw [show s.link.sending = .nothing from hn] at e; cases e
  · simp only [nextSending, if_pos hf]

/-! ### LINK_WORD_SENT -/

theorem exec_linkWordSent_eq {s : State} (h : s.linkLawful) (hr : s.inReset = false) :
    exec .linkWordSent s = .next (s.sendWord (startWord s.slot)) := by
  show execLinkWordSent s = _
  rw [execLinkWordSent, hr, State.chooseFrame_of_linkLawful h]
  rfl

theorem State.sendWord_startWord {s : State} (w : Word) (h : s.link.sending = .startWord) :
    s.sendWord w = { s with link :=
      { startOwed := false
        paused := s.link.paused
        sending := nextSending s.link.paused s.link.response s.readout
        response := s.link.response
        lastSent := some { word := w, mark := true } } } := by
  rw [State.sendWord, h]
  exact State.endFrame_eq (s := { s.show w true with link.startOwed := false }) rfl

theorem State.sendWord_response {s : State} (v : Word) {k : Nat} {w : Word} (h : s.linkLawful)
    (hk : s.link.sending = .response k) (hw : s.link.response[k]? = some w) :
    (k + 1 < s.link.response.length →
      s.sendWord v = { s with link := { s.link with
        sending := .response (k + 1)
        lastSent := some { word := w, mark := decide (k = 0) } } }) ∧
    (k + 1 = s.link.response.length →
      s.sendWord v = { s with link := { s.link with
        sending := nextSending s.link.paused [] s.readout
        response := []
        lastSent := some { word := w, mark := decide (k = 0) } } }) := by
  have howed : s.link.startOwed = false := h.startOwed_eq_false (by rw [hk]; exact nofun)
  rw [State.sendWord, hk]
  show (_ → s.sendResponseWord k = _) ∧ (_ → s.sendResponseWord k = _)
  rw [State.sendResponseWord, hw]
  constructor
  · intro hlt
    exact if_pos hlt
  · intro heq
    refine (if_neg (by omega)).trans ?_
    exact State.endFrame_eq (s := { s.show w (k == 0) with link.response := [] }) howed

/-- The fragment at the front after a word of it has gone (R139, R140). -/
def afterWord (ws : List Word) (rest : List (List Word)) : List (List Word) :=
  if ws = [] then rest else ws :: rest

theorem afterWord_occupancy (w : Word) (ws : List Word) (rest : List (List Word)) :
    ((afterWord ws rest).map List.length).sum + 1 = (((w :: ws) :: rest).map List.length).sum := by
  unfold afterWord
  split
  · rename_i h; subst h; simp [Nat.add_comm]
  · simp; omega

/-- The station with a fragment word gone from the queue, before QUEUE_HOLD is judged (R140). -/
def State.fragmentWordGone (s : State) (k : Nat) (w : Word) (ws : List Word) (rest : List (List Word)) :
    State :=
  { s with
    readout := afterWord ws rest
    link := { s.link with
      sending := if ws = [] then nextSending s.link.paused s.link.response rest else .fragment (k + 1)
      lastSent := some { word := w, mark := decide (k = 0) } } }

theorem State.sendWord_fragment {s : State} (v : Word) {k : Nat} {w : Word} {ws : List Word}
    {rest : List (List Word)} (h : s.linkLawful) (hk : s.link.sending = .fragment k)
    (hr : s.readout = (w :: ws) :: rest) :
    s.sendWord v = (s.fragmentWordGone k w ws rest).judgeQueueHold := by
  have howed : s.link.startOwed = false := h.startOwed_eq_false (by rw [hk]; exact nofun)
  rw [State.sendWord, hk]
  show s.sendFragmentWord k = _
  rw [State.sendFragmentWord, hr]
  cases ws with
  | nil =>
    exact State.endFrame_eq (s := State.judgeQueueHold { s.show w (k == 0) with readout := rest }) howed
  | cons u us => rfl

theorem not_decide_le (n m : Nat) : (!decide (n ≤ m)) = decide (m < n) := by
  rw [← decide_not]
  exact decide_eq_decide.mpr Nat.not_le

/-- A judgement of QUEUE_HOLD, read in the terms of the statements (R142). -/
theorem State.queueHoldJudged_judgeQueueHold {s u t : State} (h1 : u.hold = s.hold)
    (h2 : u.station = s.station) (hq : t.hold.queueHold = u.judgeQueueHold.hold.queueHold)
    (hocc : t.occupancy = u.occupancy) : s.queueHoldJudged t := by
  unfold State.queueHoldJudged
  rw [hq, hocc, State.judgeQueueHold_queueHold, h1, h2, not_decide_le]

/-- Settles O51, by the frame in transmission. -/
theorem linkSendsWordByWord : Obligations.LinkSendsWordByWord := by
  intro s h hr
  refine ⟨_, exec_linkWordSent_eq h hr, fun hn => ?_, fun hn => State.sendWord_startWord _ hn,
    fun k w hk hw => State.sendWord_response _ h hk hw, fun k w ws rest hk hro => ?_⟩
  · rw [State.sendWord, hn]
  · rw [State.sendWord_fragment _ h hk hro]
    refine ⟨rfl, ?_, rfl, State.queueHoldJudged_judgeQueueHold (u := s.fragmentWordGone k w ws rest) rfl rfl rfl
      (State.occupancy_congr rfl), ⟨rfl, rfl⟩, rfl, rfl⟩
    have := afterWord_occupancy w ws rest
    unfold State.occupancy
    rw [hro]
    exact this

/-! ### Responses and refusals -/

/-- A command word that leaves with a response: the response takes the buffer, and an idle link begins it (R149,
R151, R166). -/
theorem State.respond_popCommand {s : State} {w : Word} {ws : List Word} (h : s.linkLawful) (hw : s.commands = w :: ws) {frame : List Word}
    (hf : frame ≠ []) :
    s.popCommand.respond frame = { s with
      commands := ws
      link := { s.link with
        response := frame
        sending := if s.link.sending = .nothing then .response 0 else s.link.sending } } := by
  rw [State.respond_eq (s := s.popCommand) h hf, State.popCommand, hw]
  rfl

/-- A refused head leaves with its refusal frame where the buffer is empty, and else waits (R166, R167). -/
theorem State.refuses_of_refuseHead {s : State} {i : Instr} {w : Word} {ws : List Word}
    {code : RefusalCode} (h : s.linkLawful) (hw : s.commands = w :: ws)
    (hi : exec i s = .next (s.refuseHead w code)) : s.refuses i w ws code := by
  refine ⟨fun he => ?_, fun hn => ?_⟩
  · rw [hi, State.refuseHead, if_pos ((State.bufferEmpty_iff s).mpr he),
      State.respond_popCommand h hw (show refusalFrame code w ≠ [] from List.cons_ne_nil _ _)]
  · rw [hi, State.refuseHead_full (Bool.eq_false_iff.mpr fun e => hn ((State.bufferEmpty_iff s).mp e))]

theorem decodeCommand_eq_none {w : Word} (h : w.toNat / 2 ^ 28 = 0 ∨ 10 ≤ w.toNat / 2 ^ 28) :
    decodeCommand w = none := by
  have htop : (w.extractLsb' 28 4).toNat = w.toNat / 2 ^ 28 := by
    rw [extractLsb'_eq_ofNat, BitVec.toNat_ofNat, Nat.mod_mod, Nat.mod_eq_of_lt]
    have := w.isLt
    omega
  have hkind : kindOfCode (w.extractLsb' 28 4) = none := by
    have hall : ∀ n : Fin 16, n.val = 0 ∨ 10 ≤ n.val → kindOfCode (BitVec.ofFin n) = none := by decide
    exact hall (w.extractLsb' 28 4).toFin (by rw [← htop] at h; exact h)
  rw [decodeCommand, hkind]
  rfl

theorem itemOfCode_eq_none {k : BitVec 6} (h : 15 ≤ k.toNat ∧ k.toNat ≤ 31 ∨ 39 ≤ k.toNat) :
    itemOfCode k = none := by
  have hall : ∀ n : Fin 64, 15 ≤ n.val ∧ n.val ≤ 31 ∨ 39 ≤ n.val → itemOfCode (BitVec.ofFin n) = none := by
    decide
  exact hall k.toFin h

section Head

variable {s : State} {w : Word} {ws : List Word} {c : CommandWord}

theorem exec_set_refused (hr : s.inReset = false) (hw : s.commands = w :: ws)
    (hd : decodeCommand w = some c) (hk : c.kind = .set) {code : RefusalCode}
    (hcode : refuseSet s.mode c = some code) : exec .set s = .next (s.refuseHead w code) := by
  show execSet s = _
  rw [execSet, State.headOfKind_eq hr hw hd hk]
  simp only [hcode]

theorem exec_readItem_refused (hr : s.inReset = false) (hw : s.commands = w :: ws)
    (hd : decodeCommand w = some c) (hk : c.kind = .readItem) {code : RefusalCode}
    (hcode : refuseRead c = some code) : exec .readItem s = .next (s.refuseHead w code) := by
  show execReadItem s = _
  rw [execReadItem, State.headOfKind_eq hr hw hd hk]
  simp only [hcode]

theorem exec_start_refused (hr : s.inReset = false) (hw : s.commands = w :: ws)
    (hd : decodeCommand w = some c) (hk : c.kind = .start) (hm : s.mode ≠ .setup) :
    exec .start s = .next (s.refuseHead w .wrongState) := by
  show execStart s = _
  rw [execStart, State.headOfKind_eq hr hw hd hk]
  simp only [refuseState, if_neg hm]

theorem exec_stop_refused (hr : s.inReset = false) (hw : s.commands = w :: ws)
    (hd : decodeCommand w = some c) (hk : c.kind = .stop) (hm : s.mode ≠ .run) :
    exec .stop s = .next (s.refuseHead w .wrongState) := by
  show execStop s = _
  rw [execStop, State.headOfKind_eq hr hw hd hk]
  simp only [refuseState, if_neg hm]

/-- A read that passes its checks places its word where the buffer is empty, and else waits (R166, R170). -/
theorem exec_readItem_eq (hr : s.inReset = false) (hw : s.commands = w :: ws)
    (hd : decodeCommand w = some c) (hk : c.kind = .readItem) {i : Item}
    (hcode : refuseRead c = none) (hi : itemOfCode c.item = some i) :
    exec .readItem s = .next (if s.bufferEmpty then
      s.popCommand.respond [itemValueWord c.channel c.item (s.itemValue c.channel i)] else s) := by
  show execReadItem s = _
  rw [execReadItem, State.headOfKind_eq hr hw hd hk]
  simp only [hcode, hi]

theorem exec_readStatus_eq (hr : s.inReset = false) (hw : s.commands = w :: ws)
    (hd : decodeCommand w = some c) (hk : c.kind = .readStatus) (level : Bool) :
    exec (.readStatus level) s = .next (if s.bufferEmpty then
      s.popCommand.respond (statusFrame s level) else s) := by
  show execReadStatus level s = _
  rw [execReadStatus, State.headOfKind_eq hr hw hd hk]

end Head

/-- Settles O55, by the three reads. -/
theorem readsPlaceResponses : Obligations.ReadsPlaceResponses := by
  intro s w ws c h hr hw hd he
  have hbuf : s.bufferEmpty = true := (State.bufferEmpty_iff s).mpr he
  refine ⟨fun i d hk hi hch => ?_, fun i hk hi => ?_, fun level hk => ?_⟩
  · have hcode : refuseRead c = none := by
      have hgood : readChannelBad c.channel (.channel i) = false := by
        have := d.isLt
        exact decide_eq_false (by omega)
      simp [refuseRead, hi, hgood]
    have hnamed : namedChannel c.channel = d := Fin.ext (by
      have := d.isLt
      show c.channel.toNat % 8 = d.val
      omega)
    rw [exec_readItem_eq hr hw hd hk hcode hi, if_pos hbuf,
      State.respond_popCommand h hw (List.cons_ne_nil _ _), ← hnamed]
    rfl
  · have hcode : refuseRead c = none := by
      simp [refuseRead, hi, readChannelBad]
    rw [exec_readItem_eq hr hw hd hk hcode hi, if_pos hbuf,
      State.respond_popCommand h hw (List.cons_ne_nil _ _)]
    rfl
  · rw [exec_readStatus_eq hr hw hd hk, if_pos hbuf,
      State.respond_popCommand h hw (show statusFrame s level ≠ [] from List.cons_ne_nil _ _)]

/-- Settles O60: each check that fails names its refusal. -/
theorem badCommandsAreRefused : Obligations.BadCommandsAreRefused := by
  intro s w ws h hr hw
  refine ⟨fun hkind => ?_, fun c hd => ⟨fun code hcode hbad => ?_, fun i hi => ⟨fun hk h8 h14 => ?_, fun hk h8 => ?_,
    fun hk hch hm => ?_⟩, fun i hi hk hm => ?_, fun hk hm => ?_, fun hk hm => ?_,
    fun hfull => ⟨fun hk => ?_, fun hk level => ?_⟩⟩⟩
  · refine State.refuses_of_refuseHead h hw ?_
    show execUnknownCommand s = _
    rw [execUnknownCommand, State.headWord_eq hr hw]
    simp only [decodeCommand_eq_none hkind]
    rfl
  · have hnone : itemOfCode c.item = none := itemOfCode_eq_none (hcode ▸ hbad)
    exact ⟨fun hk => State.refuses_of_refuseHead h hw
        (exec_set_refused hr hw hd hk (by simp only [refuseSet, hnone])),
      fun hk => State.refuses_of_refuseHead h hw
        (exec_readItem_refused hr hw hd hk (by simp only [refuseRead, hnone]))⟩
  · refine State.refuses_of_refuseHead h hw (exec_set_refused hr hw hd hk ?_)
    simp [refuseSet, hi, setChannelBad, h8, h14]
  · refine State.refuses_of_refuseHead h hw (exec_readItem_refused hr hw hd hk ?_)
    simp [refuseRead, hi, readChannelBad, h8]
  · refine State.refuses_of_refuseHead h hw (exec_set_refused hr hw hd hk ?_)
    have hgood : setChannelBad c.channel (.channel i) = false := by
      simp only [setChannelBad, Bool.and_eq_false_iff, decide_eq_false_iff_not]
      omega
    simp [refuseSet, hi, hgood, hm]
  · refine State.refuses_of_refuseHead h hw (exec_set_refused hr hw hd hk ?_)
    simp [refuseSet, hi, setChannelBad, hm]
  · exact State.refuses_of_refuseHead h hw (exec_start_refused hr hw hd hk hm)
  · exact State.refuses_of_refuseHead h hw (exec_stop_refused hr hw hd hk hm)
  · have hbuf : ¬ s.bufferEmpty = true := fun e => hfull ((State.bufferEmpty_iff s).mp e)
    cases hcode : refuseRead c with
    | some code =>
      rw [exec_readItem_refused hr hw hd hk hcode, State.refuseHead_full (Bool.eq_false_iff.mpr hbuf)]
    | none =>
      cases hi : itemOfCode c.item with
      | none => simp [refuseRead, hi] at hcode
      | some i => rw [exec_readItem_eq hr hw hd hk hcode hi, if_neg hbuf]
  · have hbuf : ¬ s.bufferEmpty = true := fun e => hfull ((State.bufferEmpty_iff s).mp e)
    rw [exec_readStatus_eq hr hw hd hk, if_neg hbuf]

/-! ### The other commands with one outcome -/

/-- Settles O53, by the room in the queue. -/
theorem commandWordsQueue : Obligations.CommandWordsQueue := by
  intro s w hr
  have hout : ¬ s.inReset = true := by rw [hr]; exact Bool.false_ne_true
  refine ⟨fun h => congrArg Host.Outcome.next ((if_neg hout).trans (if_pos h)), fun h => ?_⟩
  exact ⟨s.count .cmdOverruns 1,
    congrArg Host.Outcome.next ((if_neg hout).trans (if_neg (Nat.not_lt.mpr h))), State.counted_count _ _ _, rfl⟩

/-- Settles O58, by the clear of all counters and flags. -/
theorem clearCountersClearsAll : Obligations.ClearCountersClearsAll := by
  intro s w ws c hr hw hd hk
  refine ⟨s.popCommand.clearCounts, ?_, fun k => ?_, fun d => ?_, rfl, ?_⟩
  · show execClearCounters s = _
    rw [execClearCounters, State.headOfKind_eq hr hw hd hk]
  · simp [State.counter, State.clearCounts]
  · simp [State.clearCounts]
  · rw [State.popCommand, hw]
    rfl

/-- Settles O59; the resumed link's choice is that of a lawful link with fragments allowed. -/
theorem pauseAndResume : Obligations.PauseAndResume := by
  intro s w ws c hr hw hd
  refine ⟨fun hk => ?_, fun hk h => ?_⟩
  · show execLinkPause s = _
    rw [execLinkPause, State.headOfKind_eq hr hw hd hk, State.popCommand, hw]
    rfl
  · show execLinkResume s = _
    rw [execLinkResume, State.headOfKind_eq hr hw hd hk]
    have hchoice := State.chooseFrame_eq (s := { s.popCommand with link.paused := false }) fun hn =>
      h.startOwed_eq_false fun e => by rw [show s.link.sending = .nothing from hn] at e; cases e
    have hnext : (if s.link.sending = .nothing then nextSending false s.link.response s.readout
        else s.link.sending) =
        if s.link.sending = .nothing ∧ s.readout ≠ [] then .fragment 0 else s.link.sending := by
      by_cases hn : s.link.sending = .nothing
      · have hresp : s.link.response = [] := (h.2.2.2.2.2 hn).1
        by_cases hro : s.readout = [] <;> simp [hn, hresp, hro, nextSending]
      · simp [hn]
    rw [← hnext]
    refine congrArg Host.Outcome.next (hchoice.trans ?_)
    rw [State.popCommand, hw]
    rfl

end Sys2Proof.Machine

/-! PROOFS. The build of the head's fragment and the fitting of its waveforms (R66, R125 to R134). -/

namespace Sys2Proof.Machine

/-! ### Waveforms -/

/-- Once one waveform has been left out, every one is (R128). -/
theorem fitWaveforms_stopped (pool : Vector Slot 32) (room : Nat) (hits : List Hit) :
    fitWaveforms pool room true hits =
      hits.map fun h => { hit := h, omitted := h.slot.isSome, samples := [] } := by
  induction hits with
  | nil => rfl
  | cons h hs ih =>
    rw [fitWaveforms, List.map_cons]
    cases hslot : h.slot with
    | none => simp only [ih, Option.isSome_none]
    | some i => simp only [Bool.true_or, if_true, ih, Option.isSome_some]

/-- Settles O45, by induction over the selection with the room that is left. -/
theorem waveformsFitInOrder : Obligations.WaveformsFitInOrder := by
  intro pool room hits len hlen
  induction hits generalizing room with
  | nil => exact ⟨[], [], rfl, rfl, Nat.zero_le _, nofun⟩
  | cons h hs ih =>
    cases hslot : h.slot with
    | none =>
      obtain ⟨before, after, e, hfit, hsum, hfirst⟩ := ih room
      have hzero : len h = 0 := by rw [hlen, hslot]; rfl
      refine ⟨h :: before, after, by rw [e]; rfl, ?_, ?_, fun x hx => ?_⟩
      · rw [fitWaveforms, hslot]
        simp only [hfit, List.map_cons, hslot, List.cons_append]
      · simpa [hzero] using hsum
      · simpa [hzero] using hfirst x hx
    | some i =>
      have hwave : len h = h.waveLength := by rw [hlen, hslot]; rfl
      by_cases hroom : room < h.waveLength
      · refine ⟨[], h :: hs, rfl, ?_, Nat.zero_le _, fun x hx => ?_⟩
        · rw [fitWaveforms, hslot]
          simp only [hroom, decide_true, Bool.or_true, if_true, fitWaveforms_stopped, List.map_nil,
            List.nil_append, List.map_cons, hslot, Option.isSome_some]
        · cases hx
          exact ⟨by rw [hslot]; rfl, by simpa using hroom⟩
      · obtain ⟨before, after, e, hfit, hsum, hfirst⟩ := ih (room - h.waveLength)
        refine ⟨h :: before, after, by rw [e]; rfl, ?_, ?_, fun x hx => ⟨(hfirst x hx).1, ?_⟩⟩
        · rw [fitWaveforms, hslot]
          simp only [hroom, decide_false, Bool.or_false, Bool.false_eq_true, if_false, hfit, List.map_cons,
            hslot, List.cons_append]
        · rw [List.map_cons, List.sum_cons, hwave]
          omega
        · have := (hfirst x hx).2
          rw [List.map_cons, List.sum_cons, hwave]
          omega

/-! ### The build -/

/-- A judgement of LIST_HOLD, read in the terms of the statements (R143). -/
theorem State.listHoldJudged_judgeListHold {s u t : State} (h1 : u.hold.listHold = s.hold.listHold)
    (hl : t.hold.listHold = u.judgeListHold.hold.listHold) (hseeds : t.seeds = u.seeds) :
    s.listHoldJudged t := by
  unfold State.listHoldJudged
  rw [hl, hseeds, State.judgeListHold_listHold, h1, not_decide_le]

/-- The station with the head's fragment written, its hits marked and the head gone, before the judgements
and the link's choice (R127). -/
def State.headWritten (s : State) (d : Seed) (rest : List Seed) : State :=
  { s with hits := s.markSelected d, readout := s.readout ++ [s.fragmentWords d], seeds := rest }

theorem State.build_eq {s : State} (h : s.linkLawful) (d : Seed) (rest : List Seed) :
    s.build d rest =
      { State.count (s.headWritten d rest).judgeQueueHold.judgeListHold .fragmentsBuilt 1 with
        link := { s.link with
          sending := if s.link.sending = .nothing then
            nextSending s.link.paused s.link.response (s.readout ++ [s.fragmentWords d])
          else s.link.sending } } :=
  State.chooseFrame_eq (s := State.count (s.headWritten d rest).judgeQueueHold.judgeListHold .fragmentsBuilt 1)
    fun hn => h.startOwed_eq_false fun e => by
      rw [show s.link.sending = .nothing from hn] at e
      cases e

theorem exec_fragmentBuild_due {s : State} {d : Seed} {rest : List Seed} (hs : s.seeds = d :: rest)
    (hb : s.headBuildable d = true) : exec .fragmentBuild s = .next (s.build d rest) := by
  show execFragmentBuild s = _
  rw [execFragmentBuild, hs]
  exact congrArg Host.Outcome.next (if_pos hb)

theorem State.fragmentLate_iff (s : State) (d : Seed) :
    s.fragmentLate d = true ↔ d.late = true ∨
      (s.hEff : Int) < timeDiff s.now (d.time - BitVec.ofNat 28 s.station.window) := by
  rw [State.fragmentLate, Bool.or_eq_true, State.windowStartOld, olderThan_iff]

theorem State.fragmentEvicted_iff (s : State) (d : Seed) :
    s.fragmentEvicted d = true ↔ ∃ m, s.evictMark = some m ∧
      (d.stale = true ∨ 0 ≤ timeDiff m (d.time - BitVec.ofNat 28 s.station.window)) := by
  simp [State.fragmentEvicted, Option.any_eq_true]

theorem State.markSelected_eq (s : State) (d : Seed) :
    s.markSelected d = s.hits.map fun h =>
      if d.stale = false ∧ within s.station.window h.crossing d.time = true then
        { h with selected := true } else h :=
  List.map_congr_left fun h _ => by simp [State.selects]

/-- Settles O44, through the equation of the build. -/
theorem buildWritesHeadFragment : Obligations.BuildWritesHeadFragment := by
  intro s d rest sel copies hl hm hs hclosed hsel hroom hcopies
  have hselection : s.selection d = sel := hsel.symm
  have hcopies' : s.copies d = copies := by rw [hcopies, ← hselection]; rfl
  have hfit : baseWords (s.selection d).length ≤ s.freeRoom := by rw [hselection]; exact hroom
  have hbuild : s.headBuildable d = true := by
    simp [State.headBuildable, State.active_of_ne hm, hclosed, hfit]
  refine ⟨_, s.fragmentWords d, s.fragmentLate d, s.fragmentEvicted d, exec_fragmentBuild_due hs hbuild, ?_⟩
  rw [State.build_eq hl]
  refine ⟨rfl, rfl, State.fragmentWords_length s d hfit, ?_, s.fragmentLate_iff d, s.fragmentEvicted_iff d,
    s.markSelected_eq d, State.counted_of_count (m := 1) rfl rfl,
    State.queueHoldJudged_judgeQueueHold (u := s.headWritten d rest) rfl rfl rfl (State.occupancy_congr rfl),
    State.listHoldJudged_judgeListHold (u := (s.headWritten d rest).judgeQueueHold) rfl rfl rfl, ⟨rfl, rfl⟩,
    rfl, rfl⟩
  rw [State.fragmentWords, hselection, hcopies', List.flatMap_def]

end Sys2Proof.Machine

/-! PROOFS. The commands that set items and change the station state: SET, START, STOP and the return from
DRAIN (R13, R14, R155 to R159, R169). -/

namespace Sys2Proof.Machine

/-! ### The return from DRAIN and STOP -/

theorem State.drainDone_of {s : State} (hm : s.mode = .drain)
    (hctx : ∀ c : Fin 8, s.channels[c].ctxA = none ∧ s.channels[c].ctxB = none)
    (hcalls : ∀ c ∈ s.calls, c.state = .waiting) (hseeds : s.seeds = []) (hreadout : s.readout = [])
    (hview : ∀ f, s.line.view ≠ .frame f) : s.drainDone = true := by
  have hfree : s.channels.toList.all Channel.allFree = true := by
    rw [List.all_eq_true]
    intro k hk
    obtain ⟨i, hi, rfl⟩ := List.mem_iff_getElem.mp hk
    have hi' : i < 8 := by simpa using hi
    obtain ⟨ha, hb⟩ := hctx ⟨i, hi'⟩
    rw [Fin.getElem_fin] at ha hb
    simp [Channel.allFree, ha, hb]
  have hoff : s.callOnLine = false :=
    List.any_eq_false.mpr fun k hk => by simp [Call.isOnLine_eq, hcalls k hk]
  have hline : s.line.inFrame = false := by
    unfold Line.inFrame
    split
    · exact absurd ‹_› (hview _)
    · rfl
  simp [State.drainDone, hm, hfree, hoff, hseeds, hreadout, hline]

/-- Entering a state other than RUN drives HOLD (R144). -/
theorem State.enterMode_hold (s : State) {m : StationState} (hm : m ≠ .run) :
    (s.enterMode m).hold = { s.hold with notRun := true, drive := true } := by
  have hnot : (m != .run) = true := bne_iff_ne.mpr hm
  show ({ s.hold with
    notRun := m != .run
    drive := s.inReset || m != .run || s.hold.queueHold || s.hold.listHold } : Hold) = _
  rw [hnot, Bool.or_true, Bool.true_or, Bool.true_or]

/-- Settles O52: the conditions of the return are met, and the return empties the store. -/
theorem drainReturnsToSetup : Obligations.DrainReturnsToSetup := by
  intro s hm hctx hcalls hseeds hreadout hview
  have hdone := State.drainDone_of hm hctx hcalls hseeds hreadout hview
  refine ⟨s.returnToSetup, congrArg Host.Outcome.next (if_pos hdone), rfl, ?_, rfl, rfl,
    State.counted_of_count (m := unselectedCount s.hits) rfl rfl, fun i => returnSlots_get _ i _,
    fun c => s.returnToSetup_channels c, rfl⟩
  exact State.enterMode_hold _ nofun

/-- Settles O57: the WAITING calls are withdrawn, and the return is tested at once. -/
theorem stopEntersDrain : Obligations.StopEntersDrain := by
  intro s w ws c hr hw hd hk hm
  refine ⟨_, (s.popCommand.enterMode .drain).withdrawCalls, ?_, rfl, ?_, ?_, ?_⟩
  · show execStop s = _
    rw [execStop, State.headOfKind_eq hr hw hd hk]
    simp only [refuseState, if_pos hm]
    rfl
  · exact List.filter_congr fun k _ => Call.isOnLine_eq k
  · refine State.counted_of_count (m := s.calls.countP fun c => !c.isOnLine) rfl ?_
    rw [countP_eq_length_sub_filter]
    simp only [Bool.not_not]
    rfl
  · have hhold : ((s.popCommand.enterMode .drain).withdrawCalls).hold =
        { s.hold with notRun := true, drive := true } := State.enterMode_hold s.popCommand nofun
    rw [← hhold, show ws = s.popCommand.commands by rw [State.popCommand, hw]; rfl]
    rfl

/-! ### START -/

theorem foldl_max_spec (l : List Nat) :
    ∀ a, a ≤ l.foldl max a ∧ (∀ x ∈ l, x ≤ l.foldl max a) ∧ (l.foldl max a = a ∨ l.foldl max a ∈ l) := by
  induction l with
  | nil => exact fun a => ⟨le_rfl, nofun, Or.inl rfl⟩
  | cons b bs ih =>
    intro a
    obtain ⟨h1, h2, h3⟩ := ih (max a b)
    rw [List.foldl_cons]
    refine ⟨by omega, fun x hx => ?_, ?_⟩
    · rcases List.mem_cons.mp hx with rfl | hx
      · omega
      · exact h2 x hx
    · rcases h3 with h3 | h3
      · rcases le_total a b with h | h
        · exact Or.inr (List.mem_cons.mpr (Or.inl (by omega)))
        · exact Or.inl (by omega)
      · exact Or.inr (List.mem_cons_of_mem _ h3)

theorem mem_enabled_iff (channels : Vector Channel 8) (k : Channel) :
    k ∈ channels.toList.filter (fun k => k.items.enable) ↔
      ∃ d : Fin 8, channels[d] = k ∧ k.items.enable = true := by
  rw [List.mem_filter]
  constructor
  · rintro ⟨hk, he⟩
    obtain ⟨i, hi, rfl⟩ := List.mem_iff_getElem.mp hk
    exact ⟨⟨i, by simpa using hi⟩, by simp, he⟩
  · rintro ⟨d, rfl, he⟩
    exact ⟨by simp, he⟩

theorem largestGate_none {channels : Vector Channel 8} (h : ∀ d : Fin 8, channels[d].items.enable = false) :
    largestGate channels = 4 := by
  refine if_pos (List.eq_nil_iff_forall_not_mem.mpr fun k hk => ?_)
  obtain ⟨d, rfl, he⟩ := (mem_enabled_iff channels k).mp hk
  rw [h d] at he
  cases he

/-- The largest gate width of an enabled channel is one of theirs, and none exceeds it (R155). -/
theorem largestGate_some {channels : Vector Channel 8} (h : ∃ d : Fin 8, channels[d].items.enable = true) :
    (∃ d : Fin 8, channels[d].items.enable = true ∧ channels[d].items.gateWidth = largestGate channels) ∧
      ∀ d : Fin 8, channels[d].items.enable = true → channels[d].items.gateWidth ≤ largestGate channels := by
  obtain ⟨d0, hd0⟩ := h
  have hmem : channels[d0] ∈ channels.toList.filter (fun k => k.items.enable) :=
    (mem_enabled_iff channels _).mpr ⟨d0, rfl, hd0⟩
  have heq : largestGate channels =
      ((channels.toList.filter fun k => k.items.enable).map fun k => k.items.gateWidth).foldl max 0 :=
    if_neg (List.ne_nil_of_mem hmem)
  obtain ⟨-, hle, hatt⟩ :=
    foldl_max_spec ((channels.toList.filter fun k => k.items.enable).map fun k => k.items.gateWidth) 0
  rw [← heq] at hle hatt
  have hbound : ∀ d : Fin 8, channels[d].items.enable = true →
      channels[d].items.gateWidth ≤ largestGate channels := fun d hd =>
    hle _ (List.mem_map_of_mem (f := fun k : Channel => k.items.gateWidth)
      ((mem_enabled_iff channels _).mpr ⟨d, rfl, hd⟩))
  refine ⟨?_, hbound⟩
  rcases hatt with hzero | hin
  · exact ⟨d0, hd0, by have := hbound d0 hd0; omega⟩
  · obtain ⟨k, hk, hwidth⟩ := List.mem_map.mp hin
    obtain ⟨d, rfl, hd⟩ := (mem_enabled_iff channels k).mp hk
    exact ⟨d, hd, hwidth⟩

theorem startAdjusts_eq (x : StationItems) :
    startAdjusts x = decide (startHorizon x ≠ x.horizon ∨ startLowMark x ≠ x.lowMark) := by
  rw [Bool.eq_iff_iff]
  simp [startAdjusts]

/-- Settles O56, through the values that START derives. -/
theorem startEntersRun : Obligations.StartEntersRun := by
  intro s w ws c hr hw hd hk hm
  have hdo : exec .start s = .next s.popCommand.startRun := by
    show execStart s = _
    rw [execStart, State.headOfKind_eq hr hw hd hk]
    simp only [refuseState, if_pos hm]
  refine ⟨_, startHorizon s.station, startLowMark s.station, hdo, rfl, rfl, ?_, largestGate_none,
    largestGate_some⟩
  have hhold : s.popCommand.startRun.hold =
      { notRun := false, queueHold := false, listHold := false, drive := false } := by
    show (Hold.mk _ _ _ (s.inReset || _ || _ || _)) = _
    rw [hr]
    rfl
  rw [← hhold, ← startAdjusts_eq, show ws = s.popCommand.commands by rw [State.popCommand, hw]; rfl]
  rfl

/-! ### SET -/

/-- A clamped item lies in its range (R169). -/
theorem clampItem_le (i : ChannelItem) (v : Nat) :
    clampItem (.channel i) v ≤ channelItemGreatest i := by
  have : channelItemLeast i ≤ channelItemGreatest i := by cases i <;> decide
  unfold clampItem itemLeast itemGreatest
  simp only
  omega

theorem Channel.readItem_writeItem (k : Channel) (i : ChannelItem) {v : Nat}
    (hv : v ≤ channelItemGreatest i) : (k.writeItem i v).readItem i = v := by
  cases i with
  | enable =>
    have : v ≤ 1 := hv
    show (v != 0).toNat = v
    interval_cases v <;> rfl
  | pedMode =>
    have : v ≤ 1 := hv
    rw [Channel.writeItem_frame]
    show pedModeNumber (pedModeOfNat v) = v
    interval_cases v <;> rfl
  | waveMode =>
    have : v ≤ 2 := hv
    show waveModeNumber (waveModeOfNat v) = v
    interval_cases v <;> rfl
  | _ => rfl

/-- What an item reads after a write is new for the written one, and under PED_MODE, which may load the
trackers, for the pedestals (R13, R14). -/
theorem Channel.readItem_writeItem_cases (k : Channel) (i j : ChannelItem) (v : Nat) :
    (k.writeItem i v).readItem j =
      if j = i ∨ i = .pedMode ∧ (j = .pedHi ∨ j = .pedLo) then (k.writeItem i v).readItem j
      else k.readItem j := by
  cases i with
  | pedMode =>
    rw [Channel.writeItem_frame]
    cases j <;> rfl
  | _ => cases j <;> rfl

theorem Channel.readItem_writeItem_ne (k : Channel) {i j : ChannelItem} (v : Nat) (hj : j ≠ i)
    (hped : i = .pedMode → j ≠ .pedHi ∧ j ≠ .pedLo) : (k.writeItem i v).readItem j = k.readItem j := by
  refine (k.readItem_writeItem_cases i j v).trans (if_neg ?_)
  rintro (rfl | ⟨hi, hpos | hpos⟩)
  · exact hj rfl
  · exact (hped hi).1 hpos
  · exact (hped hi).2 hpos

theorem Channel.writeItem_pedHi (k : Channel) (i : ChannelItem) (v : Nat) :
    (k.writeItem i v).items.pedHi = if i = .pedHi then v else k.items.pedHi := by
  rw [Channel.writeItem_items]
  cases i <;> rfl

theorem Channel.writeItem_pedLo (k : Channel) (i : ChannelItem) (v : Nat) :
    (k.writeItem i v).items.pedLo = if i = .pedLo then v else k.items.pedLo := by
  rw [Channel.writeItem_items]
  cases i <;> rfl

theorem pedModeOfNat_eq_fixed {v : Nat} (hv : v ≤ 1) : pedModeOfNat v = .fixed ↔ v = 1 := by
  interval_cases v <;> decide

/-- The trackers after a written item: the setting where it is theirs or PED_MODE is FIXED (R13, R14). -/
theorem Channel.writeItem_trackers (k : Channel) (i : ChannelItem) {v : Nat}
    (hv : v ≤ channelItemGreatest i) :
    (k.writeItem i v).trackHi = (if i = .pedHi then (v : Int)
      else if i = .pedMode ∧ v = 1 then (k.items.pedHi : Int) else k.trackHi) ∧
    (k.writeItem i v).trackLo = (if i = .pedLo then (v : Int)
      else if i = .pedMode ∧ v = 1 then (k.items.pedLo : Int) else k.trackLo) := by
  cases i with
  | pedMode =>
    have hfixed := pedModeOfNat_eq_fixed (show v ≤ 1 from hv)
    unfold Channel.writeItem Channel.loadTrackers
    simp only [ChannelItems.write, hfixed]
    split
    · simp [*]
    · simp [*]
  | _ => exact ⟨rfl, rfl⟩

theorem StationItems.read_write (x : StationItems) (i : StationItem) {v : Nat}
    (hv : v ≤ stationItemGreatest i) : (x.write i v).read i = v := by
  cases i with
  | solo =>
    have : v ≤ 1 := hv
    show (v != 0).toNat = v
    interval_cases v <;> rfl
  | _ => rfl

theorem StationItems.read_write_cases (x : StationItems) (i j : StationItem) (v : Nat) :
    (x.write i v).read j = if j = i then (x.write i v).read j else x.read j := by
  cases i <;> cases j <;> rfl

theorem StationItems.read_write_ne (x : StationItems) {i j : StationItem} (v : Nat) (hj : j ≠ i) :
    (x.write i v).read j = x.read j :=
  (x.read_write_cases i j v).trans (if_neg hj)

theorem bne_eq_decide_ne (a b : Nat) : (a != b) = decide (a ≠ b) := by
  rw [Bool.eq_iff_iff]
  simp

theorem exec_set_accepted {s : State} {w : Word} {ws : List Word} {c : CommandWord} {i : Item}
    (hr : s.inReset = false) (hw : s.commands = w :: ws) (hd : decodeCommand w = some c)
    (hk : c.kind = .set) (hm : s.mode = .setup) (hi : itemOfCode c.item = some i)
    (hch : setChannelBad c.channel i = false) :
    exec .set s = .next (s.popCommand.setItem c.channel i c.value) := by
  have hcode : refuseSet s.mode c = none := by simp [refuseSet, hi, hch, hm]
  show execSet s = _
  rw [execSet, State.headOfKind_eq hr hw hd hk]
  simp only [hcode, hi]

theorem State.setItem_channels (s : State) (field : BitVec 4) (i : ChannelItem) (value : BitVec 18)
    (d : Fin 8) :
    (s.setItem field (.channel i) value).channels[d] =
      if addresses field d then s.channels[d].writeItem i (clampItem (.channel i) value.toNat)
      else s.channels[d] := by
  show (s.writeChannelItem field i _).channels[d] = _
  rw [State.writeChannelItem_get]

/-- Settles O54: the written channel or station item by item, the others by the frame of the write. -/
theorem setWritesClampedValue : Obligations.SetWritesClampedValue := by
  intro s w ws c hr hw hd hk hm
  have hpop : s.popCommand.commands = ws := by rw [State.popCommand, hw]; rfl
  refine ⟨fun i v hi hch hv => ?_, fun i v hi hv => ?_⟩
  · have hgood : setChannelBad c.channel (.channel i) = false := by
      simp only [setChannelBad, Bool.and_eq_false_iff, decide_eq_false_iff_not]
      omega
    have hclamp : clampItem (.channel i) c.value.toNat = v := hv.symm
    have hle : v ≤ channelItemGreatest i := hclamp ▸ clampItem_le i _
    have hget : ∀ d : Fin 8, (s.popCommand.setItem c.channel (.channel i) c.value).channels[d] =
        if addresses c.channel d then s.channels[d].writeItem i v else s.channels[d] := fun d => by
      rw [State.setItem_channels, hclamp]
      rfl
    refine ⟨_, exec_set_accepted hr hw hd hk hm hi hgood, ?_, fun d => ⟨fun h1 h2 => ?_, fun h => ?_⟩⟩
    · rw [← bne_eq_decide_ne, ← hclamp, ← hpop]
      rfl
    · rw [hget, if_neg (mt (addresses_iff _ _).mp (not_or.mpr ⟨h1, h2⟩))]
    · rw [hget, if_pos ((addresses_iff _ _).mpr h)]
      obtain ⟨hhi, hlo⟩ := Channel.writeItem_trackers s.channels[d] i hle
      exact ⟨by rw [Channel.writeItem_items]; exact Channel.writeItem_frame _ i v,
        Channel.readItem_writeItem _ i hle,
        fun hp j hj => Channel.readItem_writeItem_ne _ v hj fun e => absurd e hp,
        fun hp j hj h1 h2 => Channel.readItem_writeItem_ne _ v hj fun _ => ⟨h1, h2⟩,
        Channel.writeItem_pedHi _ i v, Channel.writeItem_pedLo _ i v, hhi, hlo⟩
  · have hclamp : clampItem (.station i) c.value.toNat = v := hv.symm
    have hle : v ≤ stationItemGreatest i := by
      have : stationItemLeast i ≤ stationItemGreatest i := by cases i <;> decide
      omega
    have hstation : (s.popCommand.setItem c.channel (.station i) c.value).station = s.station.write i v := by
      rw [← hclamp]
      rfl
    refine ⟨_, exec_set_accepted hr hw hd hk hm hi rfl, ?_, ?_, fun j hj => ?_, fun h => if_pos h,
      fun h => if_neg h⟩
    · rw [← bne_eq_decide_ne, ← hclamp, ← hpop]
      rfl
    · rw [hstation]; exact StationItems.read_write _ i hle
    · rw [hstation]; exact StationItems.read_write_ne _ v hj

end Sys2Proof.Machine

/-! PROOFS. The words the block reads and writes bit by bit: command words, hit copies and the call frame
(R96, R97, R106, R180, R182, R183). -/

namespace Sys2Proof.Machine

/-! ### Command words -/

theorem kindOfCode_codeOfKind (k : CommandKind) : kindOfCode (codeOfKind k) = some k := by cases k <;> rfl

theorem codeOfKind_of_kindOfCode {x : BitVec 4} {k : CommandKind} (h : kindOfCode x = some k) :
    codeOfKind k = x := by
  have hall : ∀ n : Fin 16,
      ((kindOfCode (.ofFin n)).all fun k => codeOfKind k == .ofFin n) = true := by decide
  have := hall x.toFin
  rw [show BitVec.ofFin x.toFin = x from rfl, h] at this
  exact eq_of_beq this

theorem codeOfItem_of_itemOfCode {x : BitVec 6} {i : Item} (h : itemOfCode x = some i) :
    codeOfItem i = x := by
  have hall : ∀ n : Fin 64,
      ((itemOfCode (.ofFin n)).all fun i => codeOfItem i == .ofFin n) = true := by decide
  have := hall x.toFin
  rw [show BitVec.ofFin x.toFin = x from rfl, h] at this
  exact eq_of_beq this

theorem itemOfCode_codeOfItem (i : Item) : itemOfCode (codeOfItem i) = some i := by
  rcases i with i | i <;> cases i <;> rfl

/-- A command word as the sum of its fields at their bits (R183). -/
theorem encodeCommand_toNat (c : CommandWord) :
    (encodeCommand c).toNat = (codeOfKind c.kind).toNat * 2 ^ 28 + c.channel.toNat * 2 ^ 24 +
      c.item.toNat * 2 ^ 18 + c.value.toNat := by
  simp only [encodeCommand, toNat_append_eq_mul_add]
  omega

theorem decodeCommand_encodeCommand (c : CommandWord) : decodeCommand (encodeCommand c) = some c := by
  have hword := encodeCommand_toNat c
  have h1 := (codeOfKind c.kind).isLt
  have h2 := c.channel.isLt
  have h3 := c.item.isLt
  have h4 := c.value.isLt
  have hkind : (encodeCommand c).extractLsb' 28 4 = codeOfKind c.kind := by
    apply BitVec.eq_of_toNat_eq
    rw [extractLsb'_eq_ofNat, BitVec.toNat_ofNat, hword]
    omega
  have hchannel : (encodeCommand c).extractLsb' 24 4 = c.channel := by
    apply BitVec.eq_of_toNat_eq
    rw [extractLsb'_eq_ofNat, BitVec.toNat_ofNat, hword]
    omega
  have hitem : (encodeCommand c).extractLsb' 18 6 = c.item := by
    apply BitVec.eq_of_toNat_eq
    rw [extractLsb'_eq_ofNat, BitVec.toNat_ofNat, hword]
    omega
  have hvalue : (encodeCommand c).extractLsb' 0 18 = c.value := by
    apply BitVec.eq_of_toNat_eq
    rw [extractLsb'_eq_ofNat, BitVec.toNat_ofNat, hword]
    omega
  rw [decodeCommand, hkind, hchannel, hitem, hvalue, kindOfCode_codeOfKind]
  rfl

theorem encodeCommand_of_decodeCommand {w : Word} {c : CommandWord} (h : decodeCommand w = some c) :
    encodeCommand c = w := by
  rw [decodeCommand, Option.map_eq_some_iff] at h
  obtain ⟨k, hk, rfl⟩ := h
  apply BitVec.eq_of_toNat_eq
  rw [encodeCommand_toNat]
  simp only [codeOfKind_of_kindOfCode hk, extractLsb'_eq_ofNat, BitVec.toNat_ofNat]
  have := w.isLt
  omega

/-- Settles O6, by the fields of the word as numbers and the two tables of codes. -/
theorem commandWordRoundTrip : Obligations.CommandWordRoundTrip :=
  ⟨decodeCommand_encodeCommand, fun _ _ h => encodeCommand_of_decodeCommand h, itemOfCode_codeOfItem,
    fun _ _ h => codeOfItem_of_itemOfCode h⟩

/-! ### Hit copies -/

theorem toNat_ofInt_20 (u : Int) : ((BitVec.ofInt 20 u).toNat : Int) = u % 1048576 := by
  rw [BitVec.toNat_ofInt]
  omega

theorem hitFlagBits_toNat (f : HitFlags) :
    (hitFlagBits f).toNat = f.lowGain.toNat * 2 ^ 9 + f.sat.toNat * 2 ^ 8 + f.pileup.toNat * 2 ^ 7 +
      f.merged.toNat * 2 ^ 6 + f.coarseTime.toNat * 2 ^ 5 + f.qLow.toNat * 2 ^ 4 + f.qHigh.toNat * 2 ^ 3 +
      f.eHigh.toNat * 2 ^ 2 + f.waveLost.toNat * 2 + f.waveOmitted.toNat := by
  simp only [hitFlagBits, toNat_append_eq_mul_add, bit_toNat]
  omega

/-- The fourth word of a hit copy, read as signed: the peak above its offset (R180). -/
theorem peakWord_toInt {u : Int} {offset : Nat} (h1 : -524288 ≤ u) (h2 : u ≤ 524287) (h3 : offset ≤ 69) :
    (BitVec.ofInt 20 u ++ BitVec.ofNat 7 offset ++ 0#5).toInt = u * 2 ^ 12 + (offset : Int) * 2 ^ 5 := by
  have hpeak := toNat_ofInt_20 u
  have hoffset : (BitVec.ofNat 7 offset).toNat = offset := Nat.mod_eq_of_lt (by omega)
  rw [BitVec.toInt_eq_toNat_cond]
  simp only [toNat_append_eq_mul_add, hoffset, BitVec.reduceToNat]
  generalize (BitVec.ofInt 20 u).toNat = n at hpeak ⊢
  split <;> omega

theorem waveWord_toInt {u : Int} (h1 : -524288 ≤ u) (h2 : u ≤ 524287) : (waveWord u).toInt = u := by
  rw [waveWord, BitVec.toInt_signExtend_of_le (by omega), BitVec.toInt_ofInt]
  rw [Int.bmod_eq_of_le] <;> omega

/-- Settles O9, word by word. -/
theorem hitCopyLayout : Obligations.HitCopyLayout := by
  refine ⟨fun h f len hq he hp h1 h2 ho hl => ⟨_, _, _, _, rfl, rfl, ?_, ?_, peakWord_toInt h1 h2 ho⟩,
    fun c => rfl, fun u => waveWord_toInt⟩
  · simp only [toNat_append_eq_mul_add, BitVec.toNat_ofNat]
    omega
  · have hch := h.channel.isLt
    simp only [toNat_append_eq_mul_add, BitVec.toNat_ofNat, hitFlagBits_toNat]
    omega

/-! ### The call frame -/

theorem ownBody_toNat (slot : BitVec 4) {energy : Nat} (time : SampleTime) (h : energy ≤ 4095) :
    (ownBody slot energy time).toNat = energy * 2 ^ 20 + (15 - slot.toNat) * 2 ^ 16 + time.toNat % 65536 := by
  have hslot := slot.isLt
  have hrank : (rankOfSlot slot).toNat = 15 - slot.toNat := by
    rw [rankOfSlot, BitVec.toNat_sub]
    simp only [BitVec.reduceToNat]
    omega
  simp only [ownBody, toNat_append_eq_mul_add, BitVec.toNat_ofNat, hrank, BitVec.toNat_setWidth]
  omega

theorem frameBody_append (body : BitVec 32) (check : BitVec 4) : frameBody (body ++ check) = body := by
  apply BitVec.eq_of_toNat_eq
  rw [frameBody, extractLsb'_eq_ofNat, BitVec.toNat_ofNat, toNat_append_eq_mul_add]
  have h1 := body.isLt
  have h2 := check.isLt
  omega

theorem frameCheck_append (body : BitVec 32) (check : BitVec 4) : frameCheck (body ++ check) = check := by
  apply BitVec.eq_of_toNat_eq
  rw [frameCheck, extractLsb'_eq_ofNat, BitVec.toNat_ofNat, toNat_append_eq_mul_add]
  have h2 := check.isLt
  omega

/-- The bits of positions 1 to 32 are those of the body, the most significant first (R96). -/
theorem frameBit_append (body : BitVec 32) (check : BitVec 4) {i : Nat} (hi : i < 32) :
    frameBit (body ++ check) (i + 1) = body.getLsbD (31 - i) := by
  rw [frameBit, show 36 - (i + 1) = 4 + (31 - i) by omega, getLsbD_append_above]

/-- Counted from either end, a word has the same number of 1 bits. -/
theorem countP_range_rev (p : Nat → Bool) :
    (List.range 32).countP (fun i => p (31 - i)) = (List.range 32).countP p := by
  have hrev : (List.range 32).map (31 - ·) = (List.range 32).reverse := by decide
  calc (List.range 32).countP (fun i => p (31 - i))
      = ((List.range 32).map (31 - ·)).countP p := by rw [List.countP_map]; rfl
    _ = (List.range 32).countP p := by rw [hrev, List.countP_reverse]

theorem checkOf_toNat (body : BitVec 32) (check : BitVec 4) :
    (checkOf body).toNat =
      ((List.range 32).countP fun i => frameBit (body ++ check) (i + 1)) % 16 := by
  have hbits : (List.range 32).countP (fun i => frameBit (body ++ check) (i + 1)) =
      (List.range 32).countP fun i => body.getLsbD (31 - i) :=
    List.countP_congr fun i hi => by rw [frameBit_append body check (List.mem_range.mp hi)]
  rw [hbits, countP_range_rev fun i => body.getLsbD i]
  exact BitVec.toNat_ofNat _ _

theorem recordBit_getLsbD (bits : BitVec 36) {p j : Nat} (hj : j < 36) (b : Bool) :
    (recordBit bits p b).getLsbD j = (bits.getLsbD j || (b && decide (j = 36 - p))) := by
  unfold recordBit
  cases b with
  | false => simp
  | true =>
    simp only [if_true, BitVec.getLsbD_or, BitVec.getLsbD_shiftLeft, Bool.true_and, hj, decide_true]
    congr 1
    rw [Bool.eq_iff_iff]
    simp [BitVec.getLsbD_one]
    omega

/-- The first `n` positions read rebuild the upper `n` bits (R96). -/
theorem recordBits_getLsbD (bits : BitVec 36) {j : Nat} (hj : j < 36) :
    ∀ n, n ≤ 36 → ((List.range n).foldl (fun b i => recordBit b (i + 1) (frameBit bits (i + 1))) 0#36).getLsbD j =
      (bits.getLsbD j && decide (36 ≤ n + j)) := by
  intro n
  induction n with
  | zero =>
    intro _
    have : decide (36 ≤ 0 + j) = false := decide_eq_false (by omega)
    rw [this, Bool.and_false]
    exact BitVec.getLsbD_zero
  | succ n ih =>
    intro hn
    rw [List.range_succ, List.foldl_append, List.foldl_cons, List.foldl_nil, recordBit_getLsbD _ hj,
      ih (by omega)]
    by_cases he : j = 36 - (n + 1)
    · have h1 : ¬ 36 ≤ n + j := by omega
      have h2 : 36 ≤ n + 1 + j := by omega
      simp [frameBit, ← he, h1, h2]
    · have h1 : 36 ≤ n + j ↔ 36 ≤ n + 1 + j := by omega
      rw [decide_eq_false he, Bool.and_false, Bool.or_false, decide_eq_decide.mpr h1]

theorem rebuildTime_toNat (now : SampleTime) (field : BitVec 16) :
    (rebuildTime now field).toNat =
      (2 ^ 28 - (2 ^ 28 - field.toNat + now.toNat) % 2 ^ 28 % 65536 + now.toNat) % 2 ^ 28 := by
  have hf := field.isLt
  simp only [rebuildTime, BitVec.toNat_sub, BitVec.toNat_umod, BitVec.toNat_setWidth, BitVec.reduceToNat]
  rw [Nat.mod_eq_of_lt (show field.toNat < 2 ^ 28 by omega)]

/-- The rebuilt time is the latest with its time field, and the only recent one (R106). -/
theorem rebuildTime_spec (now : SampleTime) (field : BitVec 16) :
    (rebuildTime now field).setWidth 16 = field ∧ (now - rebuildTime now field).toNat < 65536 ∧
      ∀ τ : SampleTime, τ.setWidth 16 = field → (now - τ).toNat < 65536 → rebuildTime now field = τ := by
  have hr := rebuildTime_toNat now field
  have hf := field.isLt
  have hn := now.isLt
  refine ⟨BitVec.eq_of_toNat_eq ?_, ?_, fun τ hτ hnow => BitVec.eq_of_toNat_eq ?_⟩
  · rw [BitVec.toNat_setWidth, hr]
    omega
  · rw [BitVec.toNat_sub, hr]
    omega
  · have hfield := congrArg BitVec.toNat hτ
    rw [BitVec.toNat_setWidth] at hfield
    rw [BitVec.toNat_sub] at hnow
    have := τ.isLt
    omega

/-- Settles O11: the fields of the driven bits, the bits recorded one by one, and the rebuilt time. -/
theorem callFrameCarriesCall : Obligations.CallFrameCarriesCall := by
  refine ⟨fun slot energy time he => ?_, fun bits => ?_, rebuildTime_spec⟩
  · have hbody := ownBody_toNat slot time he
    have hslot := slot.isLt
    have hbits : (ownFrameBits slot energy time).toNat =
        (ownBody slot energy time).toNat * 2 ^ 4 + (checkOf (ownBody slot energy time)).toNat :=
      toNat_append_eq_mul_add _ _
    have hcheck := (checkOf (ownBody slot energy time)).isLt
    refine ⟨?_, ?_, ?_, ?_, ?_⟩
    · rw [frameEnergy, extractLsb'_eq_ofNat, BitVec.toNat_ofNat, hbits]
      omega
    · rw [frameRank, extractLsb'_eq_ofNat, BitVec.toNat_ofNat, hbits]
      omega
    · rw [frameTime, extractLsb'_eq_ofNat, BitVec.toNat_ofNat, hbits]
      omega
    · rw [ownFrameBits, frameCheck_append]
      exact checkOf_toNat _ _
    · rw [checkDiffers, ownFrameBits, frameBody_append, frameCheck_append, bne_self_eq_false]
  · refine BitVec.eq_of_getLsbD_eq fun j hj => ?_
    have h := recordBits_getLsbD bits hj 36 le_rfl
    simpa using h

end Sys2Proof.Machine

/-! PROOFS. The hit record, its place in the store, and the fate of the candidate it brings (specs 03, 04, 05). -/

namespace Sys2Proof.Machine

/-! ### The hit record -/

/-- The sub-sample correction is the floor of the interpolation quotient, below a sample (R45). -/
theorem subSample_fresh {threshold : Nat} {before after : Int} (h1 : before < threshold)
    (h2 : (threshold : Int) ≤ after) :
    subSample threshold (.fresh before after) ≤ 15 ∧
      (subSample threshold (.fresh before after) : Int) * (after - before) ≤ 16 * (after - threshold) ∧
      16 * (after - threshold) < ((subSample threshold (.fresh before after) : Int) + 1) * (after - before) := by
  have hd : 0 < after - before := by omega
  have hlow : 0 ≤ 16 * (after - threshold) / (after - before) := Int.ediv_nonneg (by omega) hd.le
  have hhigh : 16 * (after - threshold) / (after - before) < 16 := Int.ediv_lt_of_lt_mul hd (by omega)
  have hcast : (subSample threshold (.fresh before after) : Int) =
      16 * (after - threshold) / (after - before) := Int.toNat_of_nonneg hlow
  refine ⟨by omega, ?_, ?_⟩ <;> rw [hcast]
  · exact Int.ediv_mul_le _ hd.ne'
  · exact Int.lt_ediv_add_one_mul_self _ hd

/-- The rounded charge is the accumulator over 2^shift, to the nearest, a half toward plus infinity (R48). -/
theorem roundedCharge_spec (shift : Nat) (a : Int) :
    (shift = 0 → roundedCharge shift a = a) ∧
      (shift ≠ 0 → roundedCharge shift a * 2 ^ shift ≤ a + 2 ^ (shift - 1) ∧
        a + 2 ^ (shift - 1) < (roundedCharge shift a + 1) * 2 ^ shift) := by
  have hpos : (0 : Int) < 2 ^ shift := by positivity
  refine ⟨fun h => if_pos h, fun h => ?_⟩
  rw [roundedCharge, if_neg h]
  exact ⟨Int.ediv_mul_le _ hpos.ne', Int.lt_ediv_add_one_mul_self _ hpos⟩

theorem limitedCharge_spec (r : Int) :
    (r < 0 → limitedCharge r = 0) ∧ (65535 < r → limitedCharge r = 65535) ∧
      (0 ≤ r → r ≤ 65535 → (limitedCharge r : Int) = r) := by
  unfold limitedCharge
  refine ⟨fun h => if_pos h, fun h => ?_, fun h0 h1 => ?_⟩
  · rw [if_neg (by omega), if_pos h]
  · rw [if_neg (by omega), if_neg (by omega), Int.toNat_of_nonneg h0]

theorem limitedEnergy_eq_min (r : Nat) : limitedEnergy r = min r 65535 := by
  unfold limitedEnergy
  split <;> omega

/-- Settles O34, field by field. -/
theorem hitRecordArithmetic : Obligations.HitRecordArithmetic := by
  rintro c items pool x h rfl
  obtain ⟨hcharge0, hcharge⟩ := roundedCharge_spec items.scaleShift x.accumulator
  obtain ⟨hlow, hhigh, hmid⟩ := limitedCharge_spec (roundedCharge items.scaleShift x.accumulator)
  refine ⟨fun before after hk h1 h2 => ?_, fun hk => ?_, BitVec.sub_add_cancel _ _,
    ⟨roundedCharge items.scaleShift x.accumulator, hcharge0, hcharge, decide_eq_true_iff, decide_eq_true_iff,
      hlow, hhigh, hmid⟩,
    ⟨roundedEnergy items.calib (limitedCharge (roundedCharge items.scaleShift x.accumulator)), ?_, ?_,
      decide_eq_true_iff, limitedEnergy_eq_min _⟩,
    ⟨rfl, rfl, rfl, rfl, rfl, rfl, rfl, rfl, rfl, rfl, rfl, rfl⟩, fun hm => ?_, fun hm => ⟨fun hp => ?_, fun h1 h2 h3 => ?_⟩,
    fun hm => ?_, fun hs => ?_, fun i us hs hp => ?_⟩
  · obtain ⟨ha, hb, hc⟩ := subSample_fresh h1 h2
    simp only [formHit, hk]
    exact ⟨ha, hb, hc, rfl⟩
  · simp only [formHit, hk]
    exact ⟨rfl, rfl⟩
  · simp only [formHit, roundedEnergy]
    omega
  · simp only [formHit, roundedEnergy]
    omega
  · simp [formHit, hitSlot, keepsSlot, hm]
  · have hkeep : keepsSlot .onFlag x = true := by
      rcases hp with hp | hp | hp <;> simp [keepsSlot, hp]
    simp [formHit, hitSlot, hm, hkeep]
  · simp [formHit, hitSlot, keepsSlot, hm, h1, h2, h3]
  · simp [formHit, hitSlot, keepsSlot, hm]
  · have hs' : hitSlot items.waveMode x = none := hs
    simp only [formHit, hs']
  · have hs' : hitSlot items.waveMode x = some i := hs
    simp only [formHit, hs', slotSamples, hp]

/-! ### Insertion -/

/-- The counters an evaluation may move (R76, R77). -/
def callCounter : Counter → Bool
  | .callsMade | .callsDisplaced | .callsDropped => true
  | _ => false

theorem State.placeCandidate_counter (s : State) (n : SampleTime) (e : Nat) {k : Counter}
    (hk : callCounter k = false) : (s.placeCandidate n e).counter k = s.counter k := by
  have hcount : ∀ (u : State) (j : Counter) (m : Nat), callCounter j = true → (u.count j m).counter k = u.counter k :=
    fun u j m hj => State.count_counter_ne u (fun heq => by rw [heq, hj] at hk; cases hk) m
  rcases s.placeCandidate_cases n e with ⟨-, p⟩ | ⟨-, ⟨c, -, p⟩ | ⟨-, ⟨-, p⟩ | ⟨-, ⟨-, p⟩ |
    ⟨w, -, ⟨-, p⟩ | ⟨-, p⟩⟩⟩⟩⟩ <;> rw [p]
  · rfl
  · exact hcount { s with calls := s.calls ++ [newCall n e] } _ _ rfl
  · exact hcount s _ _ rfl
  · refine (hcount { (State.count { s with calls := s.calls.erase w } .callsDisplaced 1) with
      calls := s.calls.erase w ++ [newCall n e] } _ _ rfl).trans ?_
    exact hcount { s with calls := s.calls.erase w } _ _ rfl
  · exact hcount s _ _ rfl

theorem State.evaluate_counter (s : State) (n : SampleTime) {k : Counter} (hk : callCounter k = false) :
    (s.evaluate n).counter k = s.counter k := by
  rcases s.evaluate_cases n with e | ⟨-, e, -, -, h⟩
  · rw [e]
  · rw [h, State.placeCandidate_counter s n e hk]

theorem Hit.laterThan_iff (h : Hit) (t : FineTime) : h.laterThan t = true ↔ 0 < fineDiff h.time t :=
  decide_eq_true_iff

/-- Settles O35: the placement, the insertion with room, and the insertion that evicts. -/
theorem insertionPlacesAndEvicts : Obligations.InsertionPlacesAndEvicts := by
  refine ⟨fun h hits => ?_, ?_, ?_⟩
  · obtain ⟨before, after, e, hp, -, hafter, hlast⟩ := placeHit_spec h hits
    exact ⟨before, after, e, hp, fun x hx => (Hit.laterThan_iff x _).mp (hafter x hx),
      fun x hx => mt (Hit.laterThan_iff x _).mpr (by rw [hlast x hx]; exact Bool.false_ne_true)⟩
  · rintro s t h hroom rfl
    rcases State.insertHit_cases s h with ⟨-, e⟩ | ⟨hfull, -⟩
    · exact e
    · exact absurd hroom (Nat.not_lt.mpr hfull)
  · rintro s t h hfull rfl
    rcases State.insertHit_cases s h with ⟨hroom, -⟩ | ⟨-, e, rest, hp, hout⟩
    · exact absurd hfull (Nat.ne_of_lt hroom)
    · have hrest : rest.length = 256 := by
        have := placeHit_length h s.hits
        rw [hp, List.length_cons] at this
        omega
      have hevict : (s.evict e rest).counter .hitsEvicted = min (s.counter .hitsEvicted + 1) 4294967295 :=
        State.count_counter_self _ _ _
      refine ⟨e, rest, s.evict e rest, hp, rfl, hrest, State.counted_of_count (m := 1) rfl rfl, fun hm => ?_,
        fun m hm => ?_, fun i => returnSlot_get _ _ i, rfl, ?_⟩
      · show raiseEvictMark s.evictMark e.crossing = _
        rw [hm]; rfl
      · show raiseEvictMark s.evictMark e.crossing = _
        rw [hm]; rfl
      · have hlater : (∀ k ∈ s.hits, 0 < fineDiff k.time h.time) ↔ ∀ k ∈ s.hits, k.laterThan h.time = true :=
          forall₂_congr fun k _ => (Hit.laterThan_iff k _).symm
        rw [hlater]
        rcases hout with ⟨hi, he, -, hall⟩ | ⟨hi, -, hnot⟩
        · exact ⟨fun _ => ⟨he, hi⟩, fun hn => absurd hall hn, by rw [hi], by rw [hi]; exact hevict⟩
        · exact ⟨fun ha => absurd ha hnot, fun _ => hi, by rw [hi]; exact State.evaluate_frame _ _,
            by rw [hi, State.evaluate_counter _ _ rfl]; exact hevict⟩

/-! ### Evaluation -/

/-- Differences of times near a third add up without wrapping (section 6.2). -/
theorem timeDiff_sub {a b n : SampleTime} (ha : -65536 ≤ timeDiff a n ∧ timeDiff a n ≤ 65536)
    (hb : -65536 ≤ timeDiff b n ∧ timeDiff b n ≤ 65536) : timeDiff a b = timeDiff a n - timeDiff b n := by
  have hsub : a - b = (a - n) - (b - n) := (sub_sub_sub_cancel_right a b n).symm
  unfold timeDiff at *
  rw [hsub, BitVec.toInt_sub, Int.bmod_eq_of_le] <;> omega

theorem timeDiff_neg {a n : SampleTime} (h : -65536 ≤ timeDiff n a ∧ timeDiff n a ≤ 65536) :
    timeDiff a n = -timeDiff n a := by
  unfold timeDiff at *
  have hneg : a - n = -(n - a) := (neg_sub n a).symm
  rw [hneg, BitVec.toInt_neg_of_ne_intMin]
  intro e
  rw [e] at h
  exact absurd h (by decide)

theorem within_iff (w : Nat) (a b : SampleTime) :
    within w a b = true ↔ -(w : Int) ≤ timeDiff a b ∧ timeDiff a b ≤ w := by
  simp [within]

/-- Two different calls of the queue have different times (R72). -/
theorem State.callsLawful.time_ne {s : State} (h : s.callsLawful) {a b : Call} (ha : a ∈ s.calls)
    (hb : b ∈ s.calls) (hne : a ≠ b) : a.time ≠ b.time := by
  intro e
  have hsymm : Std.Symm fun x y : Call => within s.station.window x.time y.time = false :=
    ⟨fun x y hxy => by rwa [within_comm]⟩
  have hw := h.2.1.forall ha hb hne
  rw [e, within_self] at hw
  cases hw

theorem nearerCall_iff (n : SampleTime) (a b : Call) :
    nearerCall n a b = true ↔ (timeDiff a.time n).natAbs < (timeDiff b.time n).natAbs ∨
      (timeDiff a.time n).natAbs = (timeDiff b.time n).natAbs ∧ timeDiff a.time b.time < 0 := by
  simp [nearerCall]

theorem weakerCall_iff (a b : Call) :
    weakerCall a b = true ↔ a.energy < b.energy ∨ a.energy = b.energy ∧ timeDiff a.time b.time < 0 := by
  simp [weakerCall]

theorem timeDiff_eq_zero {a b : SampleTime} (h : timeDiff a b = 0) : a = b := by
  unfold timeDiff at h
  have : a - b = 0 := BitVec.eq_of_toInt_eq (by simpa using h)
  exact sub_eq_zero.mp this

/-- The call chosen for a raise is nearer than every other covering one (R75). -/
theorem State.callsLawful.nearest {s : State} (h : s.callsLawful) (hw : s.station.window ≤ 255)
    {n : SampleTime} {k : Call}
    (hk : best (nearerCall n) (s.calls.filter fun c => within s.station.window c.time n) = some k) :
    ∀ c ∈ s.calls, within s.station.window c.time n = true → c ≠ k →
      (timeDiff k.time n).natAbs < (timeDiff c.time n).natAbs ∨
        (timeDiff k.time n).natAbs = (timeDiff c.time n).natAbs ∧ 0 < timeDiff c.time k.time := by
  have hnear : ∀ c ∈ s.calls.filter (fun c => within s.station.window c.time n), c ∈ s.calls ∧
      -65536 ≤ timeDiff c.time n ∧ timeDiff c.time n ≤ 65536 := by
    intro c hc
    obtain ⟨hm, hin⟩ := List.mem_filter.mp hc
    obtain ⟨h1, h2⟩ := (within_iff _ _ _).mp hin
    exact ⟨hm, by omega, by omega⟩
  have hdiff : ∀ a ∈ s.calls.filter (fun c => within s.station.window c.time n),
      ∀ b ∈ s.calls.filter (fun c => within s.station.window c.time n),
      timeDiff a.time b.time = timeDiff a.time n - timeDiff b.time n :=
    fun a ha b hb => timeDiff_sub (hnear a ha).2 (hnear b hb).2
  have hopt := best_optimal hk
    (fun a ha b hb hab => by
      have htime := h.time_ne (hnear a ha).1 (hnear b hb).1 hab
      have h1 := hdiff a ha b hb
      have h2 := hdiff b hb a ha
      have h3 : timeDiff a.time b.time ≠ 0 := fun e => htime (timeDiff_eq_zero e)
      rw [nearerCall_iff, nearerCall_iff]
      omega)
    (fun a ha b hb c hc hab hbc => by
      have h1 := hdiff a ha b hb
      have h2 := hdiff b hb c hc
      have h3 := hdiff a ha c hc
      rw [nearerCall_iff] at *
      omega)
  intro c hc hin hne
  have hmem : c ∈ s.calls.filter fun c => within s.station.window c.time n := List.mem_filter.mpr ⟨hc, hin⟩
  have h1 := (nearerCall_iff n k c).mp (hopt c hmem hne)
  have h2 := hdiff k (best_mem hk) c hmem
  have h3 := hdiff c hmem k (best_mem hk)
  omega

/-- The call chosen to be displaced is weaker than every other WAITING one (R77). -/
theorem State.callsLawful.weakest {s : State} (h : s.callsLawful)
    (hage : ∀ c ∈ s.calls, 0 ≤ timeDiff s.now c.time ∧ timeDiff s.now c.time ≤ 65535) {w : Call}
    (hw : best weakerCall (s.calls.filter fun c => !c.isOnLine) = some w) :
    ∀ c ∈ s.calls, c.state = .waiting → c ≠ w →
      w.energy < c.energy ∨ w.energy = c.energy ∧ 0 < timeDiff c.time w.time := by
  have hdiff : ∀ a ∈ s.calls, ∀ b ∈ s.calls,
      timeDiff a.time b.time = timeDiff s.now b.time - timeDiff s.now a.time := by
    intro a ha b hb
    obtain ⟨h1, h2⟩ := hage a ha
    obtain ⟨h3, h4⟩ := hage b hb
    have ha' := timeDiff_neg (a := a.time) (n := s.now) ⟨by omega, by omega⟩
    have hb' := timeDiff_neg (a := b.time) (n := s.now) ⟨by omega, by omega⟩
    rw [timeDiff_sub (n := s.now) ⟨by omega, by omega⟩ ⟨by omega, by omega⟩]
    omega
  have hin : ∀ c ∈ s.calls.filter (fun c => !c.isOnLine), c ∈ s.calls := fun c hc => List.mem_of_mem_filter hc
  have hopt := best_optimal hw
    (fun a ha b hb hab => by
      have htime := h.time_ne (hin a ha) (hin b hb) hab
      have h1 := hdiff a (hin a ha) b (hin b hb)
      have h2 := hdiff b (hin b hb) a (hin a ha)
      have h3 : timeDiff a.time b.time ≠ 0 := fun e => htime (timeDiff_eq_zero e)
      rw [weakerCall_iff, weakerCall_iff]
      omega)
    (fun a ha b hb c hc hab hbc => by
      have h1 := hdiff a (hin a ha) b (hin b hb)
      have h2 := hdiff b (hin b hb) c (hin c hc)
      have h3 := hdiff a (hin a ha) c (hin c hc)
      rw [weakerCall_iff] at *
      omega)
  intro c hc hwait hne
  have hmem : c ∈ s.calls.filter fun c => !c.isOnLine :=
    List.mem_filter.mpr ⟨hc, by rw [Call.not_isOnLine]; exact decide_eq_true hwait⟩
  have h1 := (weakerCall_iff w c).mp (hopt c hmem hne)
  have h2 := hdiff w (hin w (best_mem hw)) c hc
  have h3 := hdiff c hc w (hin w (best_mem hw))
  omega

theorem State.evaluate_eq (s : State) (n : SampleTime) :
    s.evaluate n =
      if s.mode = .run ∧ s.station.seedThreshold ≤ seedEnergy (windowSum s.station.window n s.hits) then
        s.placeCandidate n (seedEnergy (windowSum s.station.window n s.hits))
      else s := rfl

/-- A full queue has a WAITING call to displace, since at most one is ON_LINE (R72). -/
theorem State.callsLawful.exists_waiting {s : State} (h : s.callsLawful) (hfull : s.calls.length = 4) :
    best weakerCall (s.calls.filter fun c => !c.isOnLine) ≠ none := by
  intro hnone
  have hcount := length_filter_add_countP Call.isOnLine s.calls
  rw [best_none.mp hnone, List.length_nil] at hcount
  have := h.2.2.1
  omega

/-- What placing a candidate does that no listed seed covers (R74 to R77). -/
theorem State.placeCandidate_spec {s : State} (h : s.callsLawful) (hw : s.station.window ≤ 255)
    (hage : ∀ c ∈ s.calls, 0 ≤ timeDiff s.now c.time ∧ timeDiff s.now c.time ≤ 65535) (n : SampleTime) (e : Nat)
    (hseeds : ∀ d ∈ s.seeds, within s.station.window d.time n = false) :
    ((∃ c ∈ s.calls, within s.station.window c.time n = true) →
      (s.placeCandidate n e).counters = s.counters ∧
      ∃ k ∈ s.calls, within s.station.window k.time n = true ∧
        (∀ c ∈ s.calls, within s.station.window c.time n = true → c ≠ k →
          (timeDiff k.time n).natAbs < (timeDiff c.time n).natAbs ∨
            (timeDiff k.time n).natAbs = (timeDiff c.time n).natAbs ∧ 0 < timeDiff c.time k.time) ∧
        (s.placeCandidate n e).calls =
          s.calls.map fun c => if c = k then { c with energy := max c.energy e } else c) ∧
    ((∀ c ∈ s.calls, within s.station.window c.time n = false) → s.calls.length < 4 →
      s.placeCandidate n e = s.createCall n e) ∧
    ((∀ c ∈ s.calls, within s.station.window c.time n = false) → s.calls.length = 4 →
      ∃ w ∈ s.calls, w.state = .waiting ∧
        (∀ c ∈ s.calls, c.state = .waiting → c ≠ w →
          w.energy < c.energy ∨ w.energy = c.energy ∧ 0 < timeDiff c.time w.time) ∧
        (w.energy < e → s.placeCandidate n e =
          State.createCall (State.count { s with calls := s.calls.erase w } .callsDisplaced 1) n e) ∧
        (e ≤ w.energy → s.placeCandidate n e = s.count .callsDropped 1)) := by
  have hclash : ∀ {p : Prop}, (∃ c ∈ s.calls, within s.station.window c.time n = true) →
      (∀ c ∈ s.calls, within s.station.window c.time n = false) → p := by
    rintro p ⟨c, hc, h1⟩ h2
    rw [h2 c hc] at h1
    cases h1
  rcases s.placeCandidate_cases n e with ⟨⟨d, hd, hin⟩, -⟩ | ⟨-, ⟨k, hk, p⟩ | ⟨hnone, hrest⟩⟩
  · rw [hseeds d hd] at hin
    cases hin
  · obtain ⟨hmem, hin⟩ := List.mem_filter.mp (best_mem hk)
    refine ⟨fun _ => ⟨by rw [p], k, hmem, hin, h.nearest hw hk, by rw [p]; rfl⟩,
      fun h2 => hclash ⟨k, hmem, hin⟩ h2, fun h2 => hclash ⟨k, hmem, hin⟩ h2⟩
  · refine ⟨fun h1 => hclash h1 hnone, fun _ hroom => ?_, fun _ hfull => ?_⟩
    · rcases hrest with ⟨-, p⟩ | ⟨hfull, -⟩
      · exact p
      · exact absurd hroom (Nat.not_lt.mpr hfull)
    · rcases hrest with ⟨hroom, -⟩ | ⟨-, ⟨hb, -⟩ | ⟨w, hb, hout⟩⟩
      · exact absurd hfull (Nat.ne_of_lt hroom)
      · exact absurd hb (h.exists_waiting hfull)
      · obtain ⟨hmem, hwait⟩ := List.mem_filter.mp (best_mem hb)
        rw [Call.not_isOnLine] at hwait
        refine ⟨w, hmem, of_decide_eq_true hwait, h.weakest hage hb, fun hlt => ?_, fun hle => ?_⟩
        · rcases hout with ⟨-, p⟩ | ⟨hle, -⟩
          · exact p
          · exact absurd hlt (Nat.not_lt.mpr hle)
        · rcases hout with ⟨hlt, -⟩ | ⟨-, p⟩
          · exact absurd hlt (Nat.not_lt.mpr hle)
          · exact p

/-- Settles O36: the candidate's fate by cover, room and strength. -/
theorem evaluationRaisesOrCreates : Obligations.EvaluationRaisesOrCreates := by
  rintro s t n e h hitems hage rfl rfl
  refine ⟨fun hout => ?_, fun hm hthr hseeds => ?_⟩
  · rw [State.evaluate_eq]
    split
    · rename_i hin
      rcases hout with hm | hlow | ⟨d, hd, hcover⟩
      · exact absurd hin.1 hm
      · exact absurd hin.2 (Nat.not_le.mpr hlow)
      · exact if_pos (List.any_eq_true.mpr ⟨d, hd, hcover⟩)
    · rfl
  · have hplace := (State.evaluate_eq s n).trans (if_pos ⟨hm, hthr⟩)
    obtain ⟨hraise, hcreate, hfull⟩ := State.placeCandidate_spec h hitems.2.2.2.2.1 hage n
      (seedEnergy (windowSum s.station.window n s.hits)) hseeds
    rw [hplace]
    refine ⟨State.placeCandidate_frame _ _ _, hraise, fun hno hroom => ?_, fun hno hl => ?_⟩
    · rw [hcreate hno hroom]
      exact ⟨rfl, State.counted_of_count (m := 1) rfl rfl⟩
    · obtain ⟨w, hmem, hwait, hweak, hdisplace, hdrop⟩ := hfull hno hl
      refine ⟨w, hmem, hwait, hweak, fun hlt => ?_, fun hle => ?_⟩
      · rw [hdisplace hlt]
        have herase : s.calls.erase w = s.calls.filter fun c => c ≠ w := by
          rw [h.nodup.erase_eq_filter]
          exact List.filter_congr fun c _ => by rw [Bool.eq_iff_iff]; simp
        generalize hu : State.count { s with calls := s.calls.erase w } .callsDisplaced 1 = u
        have hcounter : ∀ j, u.counter j = if j = .callsDisplaced then satAdd (s.counter .callsDisplaced) 1
            else s.counter j := fun j => by
          rw [← hu]
          exact State.count_counter { s with calls := s.calls.erase w } j _ 1
        have hcreated : ∀ j, (u.createCall n (seedEnergy (windowSum s.station.window n s.hits))).counter j =
            if j = .callsMade then satAdd (u.counter .callsMade) 1 else u.counter j := fun j =>
          State.count_counter { u with calls := _ } j _ 1
        refine ⟨?_, ?_, ?_, fun j h1 h2 => ?_⟩
        · rw [← herase, ← hu]
          rfl
        · rw [hcreated, if_neg nofun, hcounter, if_pos rfl]
          rfl
        · rw [hcreated, if_pos rfl, hcounter, if_neg nofun]
          rfl
        · rw [hcreated, if_neg h2, hcounter, if_neg h1]
      · rw [hdrop hle]
        exact ⟨rfl, State.counted_of_count (m := 1) rfl rfl⟩

end Sys2Proof.Machine

/-! PROOFS. The pedestal trackers and the discriminator under a code pair (R11, R12, R19 to R23). -/

namespace Sys2Proof.Machine

/-! ### The trackers -/

theorem Channel.isQuiet_iff (k : Channel) (u : Int) :
    k.isQuiet u = true ↔ k.items.pedMode = .track ∧ u < k.items.threshold ∧
      (k.items.enable = true → k.disc = .below ∧ k.ctxA = none ∧ k.ctxB = none) := by
  have hfree : k.allFree = true ↔ k.ctxA = none ∧ k.ctxB = none := by simp [Channel.allFree]
  unfold Channel.isQuiet
  cases he : k.items.enable <;> simp [hfree, and_assoc]

/-- The quiet decision moves both trackers or none (R11, R12). -/
theorem Channel.settleTrackers_trackers (k : Channel) (u : Int) (hi lo : BitVec 12) :
    (k.isQuiet u = true →
      (k.settleTrackers u hi lo).trackHi = trackToward k.items.trackShift k.trackHi (4 * (hi.toNat : Int)) ∧
      (k.settleTrackers u hi lo).trackLo = trackToward k.items.trackShift k.trackLo (4 * (lo.toNat : Int))) ∧
    (¬ k.isQuiet u = true →
      (k.settleTrackers u hi lo).trackHi = k.trackHi ∧ (k.settleTrackers u hi lo).trackLo = k.trackLo) := by
  unfold Channel.settleTrackers
  exact ⟨fun h => by rw [if_pos h]; exact ⟨rfl, rfl⟩, fun h => by rw [if_neg h]; exact ⟨rfl, rfl⟩⟩

/-- Settles O28: the quiet decision is made on the channel the Pulse Processor leaves. -/
theorem quietSamplesMoveTrackers : Obligations.QuietSamplesMoveTrackers := by
  refine ⟨fun s c hi lo hr ha => ⟨_, exec_codePairArrival_handled s c hi lo hr ha, ?_⟩,
    fun shift p x h => trackToward_between p x h⟩
  have hring := State.handlePair_ringAt s c hi lo s.now
  rw [if_pos rfl] at hring
  obtain ⟨-, hch⟩ := State.handlePair_channels s c hi lo
  rw [hring]
  generalize hu : (unifiedSample s.channels[c] hi lo).u = u at hch ⊢
  generalize hk : ({ s.channels[c].writeRing s.now (unifiedSample s.channels[c] hi lo) with
        disc := _
        ctxA := _
        ctxB := _ } : Channel) = k at hch
  have hitems : k.items = s.channels[c].items := by rw [← hk]; rfl
  have htrack : k.trackHi = s.channels[c].trackHi ∧ k.trackLo = s.channels[c].trackLo := by
    rw [← hk]; exact ⟨rfl, rfl⟩
  have hquiet : k.isQuiet u = true ↔ s.channels[c].items.pedMode = .track ∧ u < s.channels[c].items.threshold ∧
      (s.channels[c].items.enable = true → (s.handlePair c hi lo).channels[c].disc = .below ∧
        (s.handlePair c hi lo).channels[c].ctxA = none ∧ (s.handlePair c hi lo).channels[c].ctxB = none) := by
    rw [Channel.isQuiet_iff, hitems, hch, Channel.settleTrackers_frame]
  obtain ⟨hmove, hstay⟩ := Channel.settleTrackers_trackers k u hi lo
  rw [← hch, hitems, htrack.1, htrack.2] at hmove
  rw [← hch, htrack.1, htrack.2] at hstay
  refine ⟨fun h => hmove (hquiet.mpr h), fun h => hstay (mt hquiet.mp h), fun h => ?_⟩
  obtain ⟨hframe, hidle⟩ := State.handlePair_idle s c hi lo h
  refine ⟨hframe, ?_⟩
  rw [hidle, Channel.settleTrackers_frame]
  rfl

/-! ### The discriminator -/

theorem Channel.settleTrackers_disc (k : Channel) (u : Int) (hi lo : BitVec 12) :
    (k.settleTrackers u hi lo).disc = k.disc := by rw [Channel.settleTrackers_frame]

/-- Where the Pulse Processor runs, a code pair leaves the discriminator as the sample moves it (R18). -/
theorem State.handlePair_disc (s : State) (c : Fin 8) (hi lo : BitVec 12) (hm : s.mode ≠ .setup)
    (he : s.channels[c].items.enable = true) :
    (s.handlePair c hi lo).channels[c].disc =
      ((s.ringWritten c hi lo).channels[c].discriminate s.now (unifiedSample s.channels[c] hi lo).u).1 := by
  have h := State.processSample_channels (s.ringWritten c hi lo) c (unifiedSample s.channels[c] hi lo)
  rw [State.handlePair_active s c hi lo hm he, State.modifyChannel_get, Channel.settleTrackers_disc]
  generalize unifiedSample s.channels[c] hi lo = y at h ⊢
  rw [h.2.1]
  rfl

/-- The ring written at the present sample time still holds the sample before it. -/
theorem Channel.ringAt_writeRing_pred (k : Channel) (now : SampleTime) (y : Sample) :
    (k.writeRing now y).ringAt (now - 1) = k.ringAt (now - 1) := by
  rw [Channel.ringAt_writeRing, if_neg]
  have := now.isLt
  rw [BitVec.toNat_sub]
  simp only [BitVec.reduceToNat]
  omega

/-- Settles O29, state by state of the discriminator. -/
theorem discriminatorMoves : Obligations.DiscriminatorMoves := by
  intro s c hi lo hr ha hm he
  refine ⟨_, exec_codePairArrival_handled s c hi lo hr ha, ?_⟩
  rintro u thr hys hu rfl rfl
  rw [State.handlePair_ringAt, if_pos rfl] at hu
  rw [State.handlePair_disc s c hi lo hm he, State.ringWritten_channels, if_pos rfl, ← hu]
  have hpred := Channel.ringAt_writeRing_pred s.channels[c] s.now (unifiedSample s.channels[c] hi lo)
  generalize hk : s.channels[c].writeRing s.now (unifiedSample s.channels[c] hi lo) = k at hpred
  have hitems : k.items = s.channels[c].items := by rw [← hk]; rfl
  have hdisc : k.disc = s.channels[c].disc := by rw [← hk]; rfl
  unfold Channel.discriminate
  rw [hdisc]
  cases s.channels[c].disc with
  | below =>
    simp only [Channel.discBelow, hitems, hpred]
    by_cases h1 : u < s.channels[c].items.threshold
    · rw [if_pos h1, if_neg (by omega)]
    · by_cases h2 : (s.channels[c].ringAt (s.now - 1)).u < s.channels[c].items.threshold
      · rw [if_neg h1, if_pos h2, if_pos (And.intro (not_lt.mp h1) h2)]
        by_cases hp : s.channels[c].items.persist = 1
        · rw [if_pos hp, if_pos hp]
        · rw [if_neg hp, if_neg hp]
      · rw [if_neg h1, if_neg h2, if_neg fun h => h2 h.2]
  | pending candidate count m =>
    simp only [Channel.discPending, hitems]
    split
    · rfl
    · split <;> rfl
  | rising peak =>
    simp only [Channel.discRising, hitems]
    split
    · rfl
    · split <;> rfl
  | falling valley =>
    simp only [Channel.discFalling, hitems]
    split
    · rfl
    · split <;> rfl

end Sys2Proof.Machine

/-! PROOFS. The contexts of a channel under a code pair: crossings, samples taken, completions (R18, R24 to
R40, R43). -/

namespace Sys2Proof.Machine

/-! ### The slot request -/

theorem lowestFree_eq_some {pool : Vector Slot 32} {i : Fin 32} (hi : pool[i] = .free)
    (hlow : ∀ j : Fin 32, j < i → pool[j] ≠ .free) : lowestFree pool = some i := by
  cases h : lowestFree pool with
  | none => exact absurd hi (lowestFree_none h i)
  | some j =>
    obtain ⟨hj, hlowj⟩ := lowestFree_some h
    rcases lt_trichotomy i j with hlt | rfl | hlt
    · exact absurd hi (hlowj i hlt)
    · rfl
    · exact absurd hj (hlow j hlt)

theorem lowestFree_eq_none {pool : Vector Slot 32} (h : ∀ i : Fin 32, pool[i] ≠ .free) :
    lowestFree pool = none := by
  cases hl : lowestFree pool with
  | none => rfl
  | some i => exact absurd (lowestFree_some hl).1 (h i)

theorem feedSamples_get_ne {slot : Option (Fin 32)} {j : Fin 32} (h : slot ≠ some j) (us : List Int) :
    ∀ pool : Vector Slot 32, (us.foldl (fun p u => feedSlot p slot u) pool)[j] = pool[j] := by
  induction us with
  | nil => exact fun _ => rfl
  | cons u us ih => exact fun pool => (ih _).trans (feedSlot_get_ne pool u h)

/-- An opened context's slot after the samples `us` have been fed to it (R36 to R38). -/
theorem State.slotLent_opened (s : State) (c : Fin 8) {z : OpenContext} (us : List Int)
    (hslot : z.slot = s.slotForOpening c)
    (hlost : z.waveLost = (s.channels[c].items.waveMode != .never && (lowestFree s.pool).isNone)) :
    slotLent s.channels[c].items.waveMode s.pool
      (us.foldl (fun p u => feedSlot p z.slot u) (s.poolAfterRequest c)) z us := by
  have hnone : ∀ pool : Vector Slot 32, us.foldl (fun p u => feedSlot p none u) pool = pool := by
    induction us with
    | nil => exact fun _ => rfl
    | cons u us ih => exact fun pool => ih pool
  unfold State.poolAfterRequest slotLent
  rw [hslot, hlost]
  refine ⟨fun hm => ?_, fun hm hfull => ?_, fun i hm hi hlow => ?_⟩
  · have hs : s.slotForOpening c = none := if_pos hm
    rw [hs, hm]
    exact ⟨rfl, rfl, hnone _⟩
  · have hs : s.slotForOpening c = none := (if_neg hm).trans (lowestFree_eq_none hfull)
    rw [hs, lowestFree_eq_none hfull]
    exact ⟨rfl, by simpa using hm, hnone _⟩
  · have hl := lowestFree_eq_some hi hlow
    have hs : s.slotForOpening c = some i := (if_neg hm).trans hl
    rw [hs, hl]
    refine ⟨rfl, by simp, ?_, fun j hj => ?_⟩
    · have := feedSlots_samples i us (lendSlot s.pool i) [] (by simp [lendSlot]) (Nat.zero_le _)
      simpa using this
    · rw [feedSamples_get_ne (fun e => hj (Option.some.inj e).symm)]
      exact Vector.getElem_set_ne _ _ fun e => hj (Fin.ext e.symm)

/-! ### Acting on a crossing -/

/-- The samples that an opening context takes from the ring, as they enter its slot (R28). -/
theorem feedSlots_ringSpan (k : Channel) (slot : Option (Fin 32)) (first : SampleTime) (n : Nat)
    (pool : Vector Slot 32) :
    (List.range n).foldl (fun p i => feedSlot p slot (k.ringAt (first + BitVec.ofNat 28 i)).u) pool =
      ((k.ringSpan first n).map Sample.u).foldl (fun p u => feedSlot p slot u) pool := by
  unfold Channel.ringSpan
  rw [List.foldl_map, List.foldl_map]

/-- What an opening makes of the opened context, the other one and the pool (R26 to R29, R36). -/
theorem State.openContext_opened (s : State) (c : Fin 8) (n : ContextName) (x : Crossing) :
    (s.openContext c n x).channels[c].ctx (otherContext n) =
      (s.channels[c].ctx (otherContext n)).map OpenContext.pileUp ∧
    ∃ z, (s.openContext c n x).channels[c].ctx n = some z ∧ z.crossing = x.sample ∧ z.kind = x.kind ∧
      z.gateFirst = x.sample - BitVec.ofNat 28 s.channels[c].items.gatePre ∧
      z.gateLast = x.sample + BitVec.ofNat 28 s.channels[c].items.gateWidth - 1 ∧
      z.pileup = (if (s.channels[c].ctx (otherContext n)).isSome then 1 else 0) ∧
      z.pileupFlag = (s.channels[c].ctx (otherContext n)).isSome ∧ z.merged = false ∧
      z.hasTaken (s.channels[c].ringSpan z.gateFirst (s.now - z.gateFirst).toNat) ∧
      slotLent s.channels[c].items.waveMode s.pool (s.openContext c n x).pool z
        ((s.channels[c].ringSpan z.gateFirst (s.now - z.gateFirst).toNat).map Sample.u) := by
  obtain ⟨-, -, hch, hpool⟩ := State.openContext_spec s c n x
  rw [feedSlots_ringSpan] at hpool
  generalize hz0 : s.openedContext c x (s.channels[c].ctx (otherContext n)).isSome = z0 at hch hpool
  have hsame := OpenContext.takeRing_sameRecord s.channels[c] z0.gateFirst
    (List.range (s.now - z0.gateFirst).toNat) z0
  have htaken := OpenContext.takeRing_hasTaken s.channels[c] z0 (by rw [← hz0]; rfl) (by rw [← hz0]; rfl)
    (by rw [← hz0]; rfl) (by rw [← hz0]; rfl) (s.now - z0.gateFirst).toNat (s.now - z0.gateFirst).isLt.le
  generalize z0.takeRing s.channels[c] z0.gateFirst (List.range (s.now - z0.gateFirst).toNat) = z at *
  have hfirst : z.gateFirst = z0.gateFirst := by rw [hsame]
  have hslot : z.slot = z0.slot := by rw [hsame]
  refine ⟨?_, z, ?_, ?_, ?_, ?_, ?_, ?_, ?_, ?_, ?_, ?_⟩
  · rw [hch, Channel.ctx_setCtx_ne _ _ (otherContext_ne n), Channel.ctx_setCtx]
  · rw [hch, Channel.ctx_setCtx]
  · rw [hsame, ← hz0]; rfl
  · rw [hsame, ← hz0]; rfl
  · rw [hfirst, ← hz0]; rfl
  · rw [hsame, ← hz0]; rfl
  · rw [hsame, ← hz0]; rfl
  · rw [hsame, ← hz0]; rfl
  · rw [hsame, ← hz0]; rfl
  · rw [hfirst]; exact htaken
  · rw [hpool, hfirst, ← hslot]
    exact State.slotLent_opened s c _ (by rw [hslot, ← hz0]; rfl) (by rw [hsame, ← hz0]; rfl)

theorem State.actOnCrossing_opens {s : State} {c : Fin 8} (x : Crossing) {n : ContextName}
    (hfirst : n = .b → s.channels[c].ctxA.isSome = true) (hfree : s.channels[c].ctx n = none) :
    s.actOnCrossing c x = s.openContext c n x := by
  unfold State.actOnCrossing
  cases n with
  | a => rw [show s.channels[c].ctxA = none from hfree]
  | b =>
    obtain ⟨a, ha⟩ := Option.isSome_iff_exists.mp (hfirst rfl)
    rw [ha, show s.channels[c].ctxB = none from hfree]

theorem State.actOnCrossing_merges {s : State} {c : Fin 8} (x : Crossing) {a b : OpenContext}
    (ha : s.channels[c].ctxA = some a) (hb : s.channels[c].ctxB = some b) :
    s.actOnCrossing c x = s.mergeCrossing c a b := by
  unfold State.actOnCrossing
  rw [ha, hb]

/-! ### A context under a code pair -/

/-- The station in which no crossing is acted upon is the ring-written one; in RUN a declared crossing is
acted upon (R24). -/
theorem State.crossed_eq {s v w : State} {c : Fin 8} {hi lo : BitVec 12} (hm : s.mode ≠ .setup)
    (hv : v = s.ringWritten c hi lo)
    (hnone : (s.mode = .drain ∨ v.channels[c].declares s.now = none) → w = v)
    (hsome : ∀ x, s.mode = .run → v.channels[c].declares s.now = some x → w = v.actOnCrossing c x) :
    w = s.crossed c hi lo := by
  subst hv
  unfold State.crossed
  simp only
  cases hd : (s.ringWritten c hi lo).channels[c].declares s.now with
  | none => exact hnone (Or.inr hd)
  | some x =>
    by_cases hr : s.mode = .run
    · exact (hsome x hr hd).trans (if_pos hr).symm
    · have hdrain : s.mode = .drain := by
        cases hmode : s.mode with
        | setup => exact absurd hmode hm
        | run => exact absurd hmode hr
        | drain => rfl
      exact (hnone (Or.inl hdrain)).trans (if_neg hr).symm

/-- A context that the crossing leaves OPEN takes the sample, and is FREE at its last gate sample (R29,
R30). -/
theorem State.handlePair_ctx_cases (s : State) (c : Fin 8) (hi lo : BitVec 12) (hm : s.mode ≠ .setup)
    (he : s.channels[c].items.enable = true) (n : ContextName) :
    ((s.crossed c hi lo).channels[c].ctx n = none → (s.handlePair c hi lo).channels[c].ctx n = none) ∧
    ∀ z, (s.crossed c hi lo).channels[c].ctx n = some z →
      (s.handlePair c hi lo).channels[c].ctx n =
        if z.gateLast = s.now then none else some (z.take s.now (unifiedSample s.channels[c] hi lo)) := by
  have h := State.handlePair_ctx s c hi lo hm he n
  refine ⟨fun hn => by rw [h, hn]; rfl, fun z hz => ?_⟩
  rw [h, hz, Option.map_some]
  by_cases hg : z.gateLast = s.now
  · rw [if_pos hg]
    exact Option.filter_some_neg (by simpa [OpenContext.take] using hg)
  · rw [if_neg hg]
    exact Option.filter_some_pos (by simpa [OpenContext.take] using hg)

/-- Settles O31: the crossing opens a context or merges, and each context then takes the sample. -/
theorem crossingsOpenOrMerge : Obligations.CrossingsOpenOrMerge := by
  refine ⟨?_, fun s v w c hi lo hr ha hm he hv hnone hsome => ?_⟩
  · rintro s t c x rfl
    obtain ⟨hframe, hothers, -⟩ := State.actOnCrossing_frame s c x
    refine ⟨fun name other hne hfirst hfree => ?_, fun a b ha hb => ?_, hothers, hframe⟩
    · obtain rfl := ne_otherContext hne
      rw [State.actOnCrossing_opens x hfirst hfree]
      obtain ⟨hother, hopened⟩ := State.openContext_opened s c name x
      exact ⟨fun y hy => by rw [hother, hy]; rfl, fun hn => by rw [hother, hn]; rfl, hopened⟩
    · rw [State.actOnCrossing_merges x ha hb]
      obtain ⟨hmerge, -, hch⟩ := State.mergeCrossing_spec s c a b
      rw [hch]
      exact ⟨rfl, rfl, congrArg (·.pool) hmerge⟩
  · obtain rfl := State.crossed_eq hm hv hnone hsome
    refine ⟨_, exec_codePairArrival_handled s c hi lo hr ha, fun n => ?_⟩
    rw [hv, State.ringWritten_ringAt]
    exact State.handlePair_ctx_cases s c hi lo hm he n

/-! ### Where no context completes -/

/-- In DRAIN no call comes of a code pair (R73). -/
theorem State.handlePair_drain (s : State) (c : Fin 8) (hi lo : BitVec 12) (hm : s.mode = .drain) :
    (s.handlePair c hi lo).calls = s.calls ∧
      (s.handlePair c hi lo).counter .callsMade = s.counter .callsMade := by
  have hkeep := State.handlePair_keeps
    (P := fun u => u.mode = .drain ∧ u.calls = s.calls ∧ u.counter .callsMade = s.counter .callsMade)
    (fun _ _ _ _ _ _ h => h)
    (fun u h hu => State.insertHit_keeps
      (P := fun u => u.mode = .drain ∧ u.calls = s.calls ∧ u.counter .callsMade = s.counter .callsMade)
      (fun u _ _ hrun hu => by rw [hu.1] at hrun; cases hrun) (fun _ _ _ hu => hu)
      (fun u _ e rest _ _ hu => ⟨hu.1, hu.2.1, (State.count_counter_ne _ (by decide) _).trans hu.2.2⟩) u h hu)
    s c hi lo ⟨hm, rfl, rfl⟩
  exact hkeep.2

theorem State.crossed_drain (s : State) (c : Fin 8) (hi lo : BitVec 12) (hm : s.mode = .drain) :
    s.crossed c hi lo = s.ringWritten c hi lo :=
  (State.crossed_eq (v := s.ringWritten c hi lo) (by rw [hm]; exact nofun) rfl (fun _ => rfl)
    fun x hr => by rw [hm] at hr; cases hr).symm

theorem State.ringWritten_ctx (s : State) (c : Fin 8) (hi lo : BitVec 12) (n : ContextName) :
    (s.ringWritten c hi lo).channels[c].ctx n = s.channels[c].ctx n := by
  rw [State.ringWritten_channels, if_pos rfl]
  cases n <;> rfl

theorem State.afterTaking_ctx_crossed (s : State) (c : Fin 8) (hi lo : BitVec 12) (n : ContextName) :
    ((s.ringWritten c hi lo).afterTaking c (unifiedSample s.channels[c] hi lo)).channels[c].ctx n =
      ((s.crossed c hi lo).channels[c].ctx n).map
        fun x => x.take s.now (unifiedSample s.channels[c] hi lo) := by
  rw [State.afterTaking_ctx, (State.crossed_afterCrossing s c hi lo).1 n]
  rfl

theorem State.afterTaking_now (s : State) (c : Fin 8) (hi lo : BitVec 12) :
    ((s.ringWritten c hi lo).afterTaking c (unifiedSample s.channels[c] hi lo)).now = s.now := by
  rw [(State.afterTaking_frame (s.ringWritten c hi lo) c (unifiedSample s.channels[c] hi lo)).1]
  rfl

/-- Where no context is at its last gate sample the code pair feeds slots and does no more outside its
channel (R29). -/
theorem State.handlePair_feeds (s : State) (c : Fin 8) (hi lo : BitVec 12) (hm : s.mode ≠ .setup)
    (he : s.channels[c].items.enable = true)
    (hg : ∀ n x, (s.crossed c hi lo).channels[c].ctx n = some x → x.gateLast ≠ s.now) :
    (s.handlePair c hi lo).pool =
      feedSlot (feedSlot (s.crossed c hi lo).pool
          ((s.crossed c hi lo).channels[c].ctxA.bind OpenContext.slot) (unifiedSample s.channels[c] hi lo).u)
        ((s.crossed c hi lo).channels[c].ctxB.bind OpenContext.slot) (unifiedSample s.channels[c] hi lo).u ∧
    s.handlePair c hi lo =
      { s with channels := (s.handlePair c hi lo).channels, pool := (s.handlePair c hi lo).pool } := by
  have hpool := State.afterTaking_pool s c hi lo
  have hctx := State.afterTaking_ctx_crossed s c hi lo
  have hnow := State.afterTaking_now s c hi lo
  have hframe := (State.afterTaking_frame (s.ringWritten c hi lo) c (unifiedSample s.channels[c] hi lo)).1
  have hdo := State.handlePair_active s c hi lo hm he
  simp only [State.processSample_eq] at hdo
  generalize (s.ringWritten c hi lo).afterTaking c (unifiedSample s.channels[c] hi lo) = w at *
  have hskip : ∀ n, w.completeContext c n = w := fun n =>
    State.completeContext_skip w c n fun x hx => by
      rw [hctx] at hx
      obtain ⟨z, hz, rfl⟩ := Option.map_eq_some_iff.mp hx
      rw [hnow]
      exact hg n z hz
  rw [hskip, hskip] at hdo
  rw [hdo]
  exact ⟨hpool, by rw [hframe]; rfl⟩

/-- Settles O32: the contexts by what the crossing leaves, the slots by what is fed. -/
theorem drainOnlyFeedsOpenContexts : Obligations.DrainOnlyFeedsOpenContexts := by
  refine ⟨?_, fun pool slot u i => ⟨fun h => feedSlot_get_ne pool u h, fun us hs hp => ?_⟩⟩
  · rintro s v c hi lo hr ha hm he rfl
    refine ⟨_, exec_codePairArrival_handled s c hi lo hr ha, fun hd => ?_, fun n => ?_, fun hg => ?_⟩
    · obtain ⟨hcalls, hmade⟩ := State.handlePair_drain s c hi lo hd
      rw [State.crossed_drain s c hi lo hd]
      exact ⟨hcalls, hmade, rfl, State.ringWritten_ctx s c hi lo⟩
    · obtain ⟨hfree, hopen⟩ := State.handlePair_ctx_cases s c hi lo hm he n
      refine ⟨hfree, fun x y hx hgo hy => ?_⟩
      rw [State.handlePair_ringAt, if_pos rfl] at hy
      subst hy
      rw [hopen x hx, if_neg hgo]
      simp [OpenContext.take]
    · rw [State.handlePair_ringAt, if_pos rfl]
      obtain ⟨hpool, hframe⟩ := State.handlePair_feeds s c hi lo hm he hg
      exact ⟨hpool, (State.handlePair_channels s c hi lo).1, hframe⟩
  · subst hs
    have h : (feedSlot pool (some i) u)[i] = .lent (if us.length < 32 then us ++ [u] else us) := by
      rw [show (feedSlot pool (some i) u)[i] = _ from writeSlot_get pool i u, hp]
    exact ⟨fun hl => by rw [h, if_pos hl], fun hl => by rw [h, if_neg (Nat.not_lt.mpr hl)]⟩

end Sys2Proof.Machine

/-! PROOFS. The completion of a context and the opening of a lone one, whole code pairs in the terms of the
statements (R24 to R30, R36 to R40, R43, R53, R58). -/

namespace Sys2Proof.Machine

/-! ### Completion -/

theorem poolAfterCompletion_get_ne {m : WaveMode} {pool : Vector Slot 32} {x : OpenContext} {i : Fin 32}
    (h : x.slot ≠ some i) : (poolAfterCompletion m pool x)[i] = pool[i] := by
  unfold poolAfterCompletion
  cases hs : x.slot with
  | none => rfl
  | some j =>
    have hne : (j : Nat) ≠ i := fun e => h (by rw [hs, Fin.ext e])
    simp only
    split
    · exact Vector.getElem_set_ne _ _ hne
    · exact Vector.getElem_set_ne _ _ hne

/-- The completed context's slot is held by the hit that keeps it, or FREE (R39). -/
theorem poolAfterCompletion_get {m : WaveMode} {pool : Vector Slot 32} {x : OpenContext} {i : Fin 32}
    (h : x.slot = some i) : (poolAfterCompletion m pool x)[i] =
      if hitSlot m x = some i then .held (slotSamples pool i) else .free := by
  unfold poolAfterCompletion hitSlot
  rw [h]
  simp only
  split
  · exact (Vector.getElem_set_self _).trans (if_pos rfl).symm
  · refine (Vector.getElem_set_self _).trans (if_neg ?_).symm
    exact nofun

/-- A completion read with other channels in place: the hit formed, counted, noted and inserted (R30, R43). -/
theorem State.completeContext_completed (s : State) (c : Fin 8) (n : ContextName) {x : OpenContext}
    (hx : s.channels[c].ctx n = some x) (hg : x.gateLast = s.now) (ch : Vector Channel 8)
    (hitems : ch[c].items = s.channels[c].items) :
    State.completed { s with channels := ch } { s.completeContext c n with channels := ch } c x := by
  have hdone := State.completeContext_done s c n x hx hg
  generalize hq : poolAfterCompletion s.channels[c].items.waveMode s.pool x = q at hdone
  generalize hh : formHit c s.channels[c].items s.pool x = h at hdone
  have hslot : h.slot = hitSlot s.channels[c].items.waveMode x := by rw [← hh]; rfl
  have haside : s.completeContext c n =
      { State.insertHit { s with channels := ch, pool := q } h with
        channels := (s.modifyChannel c fun k => k.setCtx n none).channels
        hitCounts := s.hitCounts.set c (satAdd s.hitCounts[c] 1)
        rangeFlags := s.rangeFlags.set c (s.rangeFlags[c] || h.flags.qLow || h.flags.qHigh || h.flags.eHigh)
        satFlags := s.satFlags.set c (s.satFlags[c] || h.flags.sat) } :=
    hdone.trans (State.insertHit_aside { s with channels := ch, pool := q } h _ _ _ _)
  refine ⟨h, q, State.insertHit { s with channels := ch, pool := q } h, ?_, fun i hi => ?_, fun i hi => ?_, rfl,
    ?_, ?_, ?_, fun d hd => ?_, ?_⟩
  · rw [← hh, ← hitems]
  · rw [← hq]; exact poolAfterCompletion_get_ne hi
  · rw [← hq, hslot]; exact poolAfterCompletion_get hi
  · rw [haside]; exact Vector.getElem_set_self _
  · rw [haside]; exact Vector.getElem_set_self _
  · rw [haside]; exact Vector.getElem_set_self _
  · have hne : (c : Nat) ≠ d := fun e => hd (Fin.ext e.symm)
    rw [haside]
    exact ⟨Vector.getElem_set_ne c.isLt d.isLt hne, Vector.getElem_set_ne c.isLt d.isLt hne,
      Vector.getElem_set_ne c.isLt d.isLt hne⟩
  · rw [haside]
    have hch : (State.insertHit { s with channels := ch, pool := q } h).channels = ch := by
      rw [State.insertHit_frame]
    generalize State.insertHit { s with channels := ch, pool := q } h = r at hch ⊢
    rw [← hch]

/-- Acting on the crossing leaves the ring (R7, R18). -/
theorem State.crossed_ringAt (s : State) (c : Fin 8) (hi lo : BitVec 12) (τ : SampleTime) :
    (s.crossed c hi lo).channels[c].ringAt τ = (s.ringWritten c hi lo).channels[c].ringAt τ := by
  unfold State.crossed
  simp only
  split
  · split
    · rw [(State.actOnCrossing_frame _ c _).2.2]
      rfl
    · rfl
  · rfl

/-- Settles O33: A completes first, then B, each in the state the one before leaves. -/
theorem completionStoresHit : Obligations.CompletionStoresHit := by
  rintro s v p c hi lo y hr ha hm he rfl hy rfl
  rw [State.crossed_ringAt, State.ringWritten_ringAt] at hy
  subst hy
  have hpool := State.afterTaking_pool s c hi lo
  have hctx := State.afterTaking_ctx_crossed s c hi lo
  have hnow := State.afterTaking_now s c hi lo
  obtain ⟨hframe, -, hchan⟩ :=
    State.afterTaking_frame (s.ringWritten c hi lo) c (unifiedSample s.channels[c] hi lo)
  have hitems : s.channels[c].items =
      ((s.ringWritten c hi lo).afterTaking c (unifiedSample s.channels[c] hi lo)).channels[c].items := by
    rw [hchan, State.ringWritten_channels, if_pos rfl]
    rfl
  have hdo := State.handlePair_active s c hi lo hm he
  simp only [State.processSample_eq] at hdo
  rw [← hpool]
  generalize (s.ringWritten c hi lo).afterTaking c (unifiedSample s.channels[c] hi lo) = w at *
  have hp : ({ s with pool := w.pool } : State) = { w with channels := s.channels } := by
    rw [hframe]; rfl
  have hctxB : (w.completeContext c .a).channels[c].ctx .b = w.channels[c].ctx .b := by
    rw [State.completeContext_channels, if_pos rfl, Channel.ctx_setCtx_ne _ _ (by decide)]
  have hitemsB : s.channels[c].items = (w.completeContext c .a).channels[c].items := by
    rw [State.completeContext_channels, if_pos rfl, Channel.setCtx_items, hitems]
  have hnowB : (w.completeContext c .a).now = s.now := by
    rw [State.completeContext_frame]; exact hnow
  refine ⟨s.handlePair c hi lo, { w.completeContext c .a with channels := s.channels },
    { (w.completeContext c .a).completeContext c .b with channels := s.channels },
    exec_codePairArrival_handled s c hi lo hr ha, fun x hx hg => ⟨?_, ?_⟩, fun hg => ?_, fun x hx hg => ⟨?_, ?_⟩,
    fun hg => ?_, State.handlePair_drain s c hi lo, (State.handlePair_channels s c hi lo).1, ?_⟩
  · rw [hp]
    exact State.completeContext_completed w c .a ((hctx .a).trans (congrArg (Option.map _) hx))
      (hg.trans hnow.symm) s.channels hitems
  · exact ((State.handlePair_ctx_cases s c hi lo hm he .a).2 x hx).trans (if_pos hg)
  · rw [hp, State.completeContext_skip w c .a fun z hz => ?_]
    rw [hctx] at hz
    obtain ⟨x, hx, rfl⟩ := Option.map_eq_some_iff.mp hz
    rw [hnow]
    exact hg x hx
  · exact State.completeContext_completed (w.completeContext c .a) c .b
      ((hctxB.trans (hctx .b)).trans (congrArg (Option.map _) hx)) (hg.trans hnowB.symm) s.channels hitemsB
  · exact ((State.handlePair_ctx_cases s c hi lo hm he .b).2 x hx).trans (if_pos hg)
  · rw [State.completeContext_skip (w.completeContext c .a) c .b fun z hz => ?_]
    rw [hctxB, hctx] at hz
    obtain ⟨x, hx, rfl⟩ := Option.map_eq_some_iff.mp hz
    rw [hnowB]
    exact hg x hx
  · rw [hdo]
    rfl

/-! ### A lone crossing -/

/-- A declared crossing leaves the discriminator RISING from the greatest sample so far (R20, R21, R23). -/
theorem Channel.discriminate_of_declares {k : Channel} {now : SampleTime} {x : Crossing}
    (h : k.declares now = some x) :
    (k.discriminate now (k.ringAt now).u).1 =
      match k.disc with
      | .pending _ _ m => .rising (max m (k.ringAt now).u)
      | _ => .rising (k.ringAt now).u := by
  unfold Channel.declares at h
  unfold Channel.discriminate
  cases hd : k.disc with
  | below =>
    rw [hd] at h
    rw [Option.ite_none_right_eq_some] at h
    obtain ⟨⟨h1, h2, h3⟩, -⟩ := h
    simp only [Channel.discBelow]
    rw [if_neg (by omega), if_pos h2, if_pos h3]
  | pending candidate count m =>
    rw [hd] at h
    rw [Option.ite_none_right_eq_some] at h
    obtain ⟨⟨h1, h2⟩, -⟩ := h
    simp only [Channel.discPending]
    rw [if_neg (by omega), if_pos h2]
  | rising peak =>
    rw [hd] at h
    cases h
  | falling valley =>
    rw [hd] at h
    rw [Option.ite_none_right_eq_some] at h
    obtain ⟨⟨h1, h2, h3⟩, -⟩ := h
    simp only [Channel.discFalling]
    rw [if_neg (by omega), if_pos ⟨h2, h3⟩]

/-- One more sample fed to an opened context's slot (R38). -/
theorem slotLent_feedSlot {mode : WaveMode} {pool pool' : Vector Slot 32} {z z' : OpenContext} {us : List Int}
    (u : Int) (hslot : z'.slot = z.slot) (hlost : z'.waveLost = z.waveLost)
    (h : slotLent mode pool pool' z us) : slotLent mode pool (feedSlot pool' z.slot u) z' (us ++ [u]) := by
  obtain ⟨h1, h2, h3⟩ := h
  unfold slotLent
  rw [hslot, hlost]
  refine ⟨fun hm => ?_, fun hm hfull => ?_, fun i hm hi hlow => ?_⟩
  · obtain ⟨hs, hl, hp⟩ := h1 hm
    rw [hs]
    exact ⟨rfl, hl, hp⟩
  · obtain ⟨hs, hl, hp⟩ := h2 hm hfull
    rw [hs]
    exact ⟨rfl, hl, hp⟩
  · obtain ⟨hs, hl, hp, hothers⟩ := h3 i hm hi hlow
    rw [hs]
    refine ⟨rfl, hl, ?_, fun j hj => ?_⟩
    · have hfed := feedSlots_samples i [u] pool' (us.take 32) hp (List.length_take_le _ _)
      rw [List.foldl_cons, List.foldl_nil] at hfed
      rw [hfed]
      congr 1
      rcases le_total us.length 32 with hle | hge
      · rw [List.take_of_length_le hle]
      · rw [List.take_append_of_le_length (by simpa using hge), List.take_append_of_le_length hge,
          List.take_take, min_self]
    · rw [feedSlot_get_ne pool' u fun e => hj (Option.some.inj e).symm]
      exact hothers j hj

/-- Settles O30: the crossing opens A, which then takes the present sample, and nothing else is done. -/
theorem loneCrossingOpensContext : Obligations.LoneCrossingOpensContext := by
  rintro s v c hi lo x hr ha hm he hA hB rfl hdecl
  have hactive : s.mode ≠ .setup := by rw [hm]; exact nofun
  have hcross : s.crossed c hi lo = (s.ringWritten c hi lo).openContext c .a x := by
    have hact : (s.ringWritten c hi lo).actOnCrossing c x = s.crossed c hi lo :=
      State.crossed_eq hactive rfl
        (fun h => by
          rcases h with h | h
          · rw [hm] at h; cases h
          · rw [hdecl] at h; cases h)
        (fun x' _ h => by rw [hdecl] at h; cases h; rfl)
    rw [← hact]
    exact State.actOnCrossing_opens x nofun ((State.ringWritten_ctx s c hi lo .a).trans hA)
  obtain ⟨hother, z0, hz0, hcr, hk, hgf, hgl, hpu, hpf, hme, htaken, hlent⟩ :=
    State.openContext_opened (s.ringWritten c hi lo) c .a x
  rw [← hcross] at hother hz0 hlent
  have hotherNone : (s.ringWritten c hi lo).channels[c].ctx (otherContext .a) = none :=
    (State.ringWritten_ctx s c hi lo .b).trans hB
  have hitems : (s.ringWritten c hi lo).channels[c].items = s.channels[c].items := by
    rw [State.ringWritten_channels, if_pos rfl]; rfl
  rw [hotherNone] at hother hpu hpf
  rw [hitems] at hgf hgl hlent
  have hring := State.ringWritten_ringAt s c hi lo
  have hnow : z0.gateFirst + BitVec.ofNat 28 (s.now - z0.gateFirst).toNat = s.now := by
    rw [BitVec.ofNat_toNat, BitVec.setWidth_eq]
    exact add_sub_cancel z0.gateFirst s.now
  have hspan : (s.ringWritten c hi lo).channels[c].ringSpan z0.gateFirst ((s.now - z0.gateFirst).toNat + 1) =
      (s.ringWritten c hi lo).channels[c].ringSpan z0.gateFirst (s.now - z0.gateFirst).toNat ++
        [unifiedSample s.channels[c] hi lo] := by
    rw [Channel.ringSpan_succ, hnow, hring]
  have htake := OpenContext.hasTaken_take z0 _ (unifiedSample s.channels[c] hi lo) htaken
    (by rw [Channel.ringSpan_length]; exact (s.now - z0.gateFirst).isLt)
  rw [Channel.ringSpan_length] at htake
  obtain ⟨-, hctxA⟩ := State.handlePair_ctx_cases s c hi lo hactive he .a
  obtain ⟨hctxB, -⟩ := State.handlePair_ctx_cases s c hi lo hactive he .b
  refine ⟨_, z0.take s.now (unifiedSample s.channels[c] hi lo), exec_codePairArrival_handled s c hi lo hr ha,
    hctxA z0 hz0, hctxB hother, ?_, hcr, hk, hgf, hgl, hpu, hpf, hme, ?_, fun hg => ?_⟩
  · have hdisc := Channel.discriminate_of_declares hdecl
    rw [hring] at hdisc ⊢
    rw [State.handlePair_disc s c hi lo hactive he, hdisc, State.ringWritten_channels, if_pos rfl]
    rfl
  · rw [show (s.ringWritten c hi lo).now = s.now from rfl, hnow] at htake
    exact hspan ▸ htake
  · have hgo : ∀ n y, (s.crossed c hi lo).channels[c].ctx n = some y → y.gateLast ≠ s.now := by
      intro n y hy
      cases n with
      | a => exact Option.some.inj (hz0.symm.trans hy) ▸ hg
      | b => exact absurd (hother.symm.trans hy) nofun
    obtain ⟨hpool, hframe⟩ := State.handlePair_feeds s c hi lo hactive he hgo
    rw [show (s.crossed c hi lo).channels[c].ctxA = some z0 from hz0,
      show (s.crossed c hi lo).channels[c].ctxB = none from hother] at hpool
    refine ⟨?_, (State.handlePair_channels s c hi lo).1, hframe⟩
    rw [hpool, show (z0.take s.now (unifiedSample s.channels[c] hi lo)).gateFirst = z0.gateFirst from rfl, hspan,
      List.map_append]
    exact slotLent_feedSlot _ rfl rfl hlent

end Sys2Proof.Machine
